-- ==== Sys2Proof/Word.lean ====
section
/-! DEFINITION. The word types of the block: bytes of the two streams, the 32-bit registers and operand B,
the 64-bit result register and operand A (10_state.md R32-R36, 30_encoding.md R110). -/

namespace Sys2Proof

/-- One byte of a stream. -/
abbrev Byte := BitVec 8

/-- A 32-bit register, command word, operand B or record field. -/
abbrev Word := BitVec 32

/-- The 64-bit result register and operand A. -/
abbrev DWord := BitVec 64

end Sys2Proof
end

