-- ==== Sys2Proof/Syntax.lean ====
section
/-! DEFINITION. The command tuple (CW, A, B) as the host issues it, and the 35 commands of
30_encoding.md R114, one constructor per row of opcode_table.json, each with the operands of R113. -/

namespace Sys2Proof

/-- What the host issues: the command word and the two operands (30_encoding.md R110). -/
structure Command where
  /-- CW, 32 bits. -/
  cw : Word
  /-- Operand A, 64 bits. -/
  a : DWord
  /-- Operand B, 32 bits. -/
  b : Word
deriving DecidableEq, Repr

/-- The four formats of 30_encoding.md R112. -/
inductive Format where
  | f0
  | fh
  | fn
  | fhn
deriving DecidableEq, Repr

/-- The commands. A handle `h` and a width `n` are the numbers read from CW[19:8] and CW[25:20]
(`WellFormed` bounds them); every other operand is the part of A or B the command reads (R113). -/
inductive Instr where
  | initEnc
  | initDec
  | doneEnc
  | doneDec
  | rdStatus
  | nop
  | encBit (h : Nat) (bit : Word)
  | decBit (h : Nat)
  | encSym (h : Nat) (sym : Word)
  | decSym (h : Nat)
  | wrBits (n : Nat) (v : Word)
  | rdBits (n : Nat)
  | wrByte (v : Byte)
  | rdByte
  | wrShort (v : BitVec 16)
  | rdShort
  | wrInt (v : Word)
  | rdInt
  | wrInt64 (v : DWord)
  | rdInt64
  | wrFloat (v : Word)
  | rdFloat
  | wrDouble (v : DWord)
  | rdDouble
  | mdlNewBit (h : Nat)
  | mdlNewSym (h : Nat) (nsym : Word)
  | mdlInitBit (h : Nat)
  | mdlInitSym (h : Nat)
  | mdlFree (h : Nat)
  | icConfig (h : Nat) (bits : Nat) (contexts bitsHigh range : Word)
  | icInit (h : Nat)
  | icCompress (h : Nat) (pred real context : Word)
  | icDecompress (h : Nat) (pred context : Word)
  | icGetK (h : Nat)
  | icFree (h : Nat)
deriving DecidableEq, Repr

end Sys2Proof
end

