-- ==== Sys2Proof/WellFormed.lean ====
section
/-! DEFINITION. Which commands a command word can carry: the handle fits the 12 bits of CW[19:8] and the
width the 6 bits of CW[25:20] (30_encoding.md R111). Range checks against the slot counts and the raw
widths are execution's (R119), not encoding's. -/

namespace Sys2Proof

/-- A handle is a 12-bit number: 0..4095 (30_encoding.md R111). -/
def handleFits (h : Nat) : Bool := decide (h < 4096)

/-- A width is a 6-bit number: 0..63 (30_encoding.md R111). -/
def widthFits (n : Nat) : Bool := decide (n < 64)

/-- The handle field a command carries, if its format has one. -/
def Instr.handle? : Instr → Option Nat
  | .initEnc => none
  | .initDec => none
  | .doneEnc => none
  | .doneDec => none
  | .rdStatus => none
  | .nop => none
  | .encBit h _ => some h
  | .decBit h => some h
  | .encSym h _ => some h
  | .decSym h => some h
  | .wrBits _ _ => none
  | .rdBits _ => none
  | .wrByte _ => none
  | .rdByte => none
  | .wrShort _ => none
  | .rdShort => none
  | .wrInt _ => none
  | .rdInt => none
  | .wrInt64 _ => none
  | .rdInt64 => none
  | .wrFloat _ => none
  | .rdFloat => none
  | .wrDouble _ => none
  | .rdDouble => none
  | .mdlNewBit h => some h
  | .mdlNewSym h _ => some h
  | .mdlInitBit h => some h
  | .mdlInitSym h => some h
  | .mdlFree h => some h
  | .icConfig h _ _ _ _ => some h
  | .icInit h => some h
  | .icCompress h _ _ _ => some h
  | .icDecompress h _ _ => some h
  | .icGetK h => some h
  | .icFree h => some h

/-- The width field a command carries, if its format has one. -/
def Instr.width? : Instr → Option Nat
  | .initEnc => none
  | .initDec => none
  | .doneEnc => none
  | .doneDec => none
  | .rdStatus => none
  | .nop => none
  | .encBit _ _ => none
  | .decBit _ => none
  | .encSym _ _ => none
  | .decSym _ => none
  | .wrBits n _ => some n
  | .rdBits n => some n
  | .wrByte _ => none
  | .rdByte => none
  | .wrShort _ => none
  | .rdShort => none
  | .wrInt _ => none
  | .rdInt => none
  | .wrInt64 _ => none
  | .rdInt64 => none
  | .wrFloat _ => none
  | .rdFloat => none
  | .wrDouble _ => none
  | .rdDouble => none
  | .mdlNewBit _ => none
  | .mdlNewSym _ _ => none
  | .mdlInitBit _ => none
  | .mdlInitSym _ => none
  | .mdlFree _ => none
  | .icConfig _ n _ _ _ => some n
  | .icInit _ => none
  | .icCompress _ _ _ _ => none
  | .icDecompress _ _ _ => none
  | .icGetK _ => none
  | .icFree _ => none

/-- The fields a command carries fit their places in CW. -/
def Instr.wellFormed (i : Instr) : Bool :=
  (match i.handle? with
   | none => true
   | some h => handleFits h) &&
  (match i.width? with
   | none => true
   | some n => widthFits n)

end Sys2Proof
end

