-- ==== Sys2Proof/Decode.lean ====
section
/-! DEFINITION. Decoding of a command (30_encoding.md R111-R119, R121): total on every (CW, A, B), rejecting
by name; and, after it, the encoder, written from the same tables. -/

namespace Sys2Proof

/-- Why a command word is illegal (30_encoding.md R115-R117). Each faults ILLEGAL_COMMAND. -/
inductive Reject where
  /-- CW[31:26] is not 0 (R115). -/
  | reservedBits
  /-- CW[7:0] is no opcode of R114 (R117). -/
  | unassignedOpcode
  /-- A field the format does not use is not 0 (R116). -/
  | unusedField
deriving DecidableEq, Repr

/-- `OPC`, CW[7:0] (R111). -/
def Command.opc (c : Command) : Byte := c.cw.extractLsb' 0 8

/-- `H`, CW[19:8] (R111). -/
def Command.h (c : Command) : Nat := (c.cw.extractLsb' 8 12).toNat

/-- `N`, CW[25:20] (R111). -/
def Command.n (c : Command) : Nat := (c.cw.extractLsb' 20 6).toNat

/-- `RSV`, CW[31:26] (R111). -/
def Command.rsv (c : Command) : Nat := (c.cw.extractLsb' 26 6).toNat

/-- A[31:0]. -/
def Command.aLow (c : Command) : Word := c.a.extractLsb' 0 32

/-- A[63:32]. -/
def Command.aHigh (c : Command) : Word := c.a.extractLsb' 32 32

/-- A field that the format does not use is not 0 (R112, R116). -/
def Format.unusedSet (f : Format) (c : Command) : Bool :=
  match f with
  | .f0 => decide (c.h ≠ 0) || decide (c.n ≠ 0)
  | .fh => decide (c.n ≠ 0)
  | .fn => decide (c.h ≠ 0)
  | .fhn => false

/-- The row of the opcode map (R114) that CW[7:0] selects, with the operands of R113 filled in. -/
def tableRow (c : Command) : Option (Format × Instr) :=
  match c.opc.toNat with
  | 0x01 => some (.f0, .initEnc)
  | 0x02 => some (.f0, .initDec)
  | 0x03 => some (.f0, .doneEnc)
  | 0x04 => some (.f0, .doneDec)
  | 0x05 => some (.f0, .rdStatus)
  | 0x06 => some (.f0, .nop)
  | 0x10 => some (.fh, .encBit c.h c.b)
  | 0x11 => some (.fh, .decBit c.h)
  | 0x12 => some (.fh, .encSym c.h c.b)
  | 0x13 => some (.fh, .decSym c.h)
  | 0x20 => some (.fn, .wrBits c.n c.b)
  | 0x21 => some (.fn, .rdBits c.n)
  | 0x22 => some (.f0, .wrByte (c.b.extractLsb' 0 8))
  | 0x23 => some (.f0, .rdByte)
  | 0x24 => some (.f0, .wrShort (c.b.extractLsb' 0 16))
  | 0x25 => some (.f0, .rdShort)
  | 0x26 => some (.f0, .wrInt c.b)
  | 0x27 => some (.f0, .rdInt)
  | 0x28 => some (.f0, .wrInt64 c.a)
  | 0x29 => some (.f0, .rdInt64)
  | 0x2A => some (.f0, .wrFloat c.b)
  | 0x2B => some (.f0, .rdFloat)
  | 0x2C => some (.f0, .wrDouble c.a)
  | 0x2D => some (.f0, .rdDouble)
  | 0x30 => some (.fh, .mdlNewBit c.h)
  | 0x31 => some (.fh, .mdlNewSym c.h c.b)
  | 0x32 => some (.fh, .mdlInitBit c.h)
  | 0x33 => some (.fh, .mdlInitSym c.h)
  | 0x34 => some (.fh, .mdlFree c.h)
  | 0x40 => some (.fhn, .icConfig c.h c.n c.b c.aHigh c.aLow)
  | 0x41 => some (.fh, .icInit c.h)
  | 0x42 => some (.fh, .icCompress c.h c.aLow c.aHigh c.b)
  | 0x43 => some (.fh, .icDecompress c.h c.aLow c.b)
  | 0x44 => some (.fh, .icGetK c.h)
  | 0x45 => some (.fh, .icFree c.h)
  | _ => none

/-- `Decode(CW)` of R119, its checks in that order, with the operands of R113. -/
def decode (c : Command) : Except Reject Instr :=
  if c.rsv ≠ 0 then .error .reservedBits
  else
    match tableRow c with
    | none => .error .unassignedOpcode
    | some (f, i) => if f.unusedSet c then .error .unusedField else .ok i

/-- A command as one number of 128 bits, CW lowest, then A, then B (log entry 8: the spec numbers the bits
of each part and stores the tuple nowhere). -/
def commandOfNat (w : Nat) : Command where
  cw := BitVec.ofNat 32 w
  a := BitVec.ofNat 64 (w >>> 32)
  b := BitVec.ofNat 32 (w >>> 96)

/-- The command whose lowest `nbits` bits are `w` and whose other bits are 0. -/
def commandOfTableWord (nbits w : Nat) : Command := commandOfNat (w % 2 ^ nbits)

/-- The command that the decoder reads from the bits `w` of an opcode-table row. -/
def decodeTableWord (nbits w : Nat) : Option Instr :=
  match decode (commandOfTableWord nbits w) with
  | .ok i => some i
  | .error _ => none

/-! ## The encoder -/

/-- The opcode of a command (R114). It is also what a fault of the command records in `FOPC`
(60_exceptions.md R403). -/
def Instr.opcode : Instr → Byte
  | .initEnc => 0x01#8
  | .initDec => 0x02#8
  | .doneEnc => 0x03#8
  | .doneDec => 0x04#8
  | .rdStatus => 0x05#8
  | .nop => 0x06#8
  | .encBit _ _ => 0x10#8
  | .decBit _ => 0x11#8
  | .encSym _ _ => 0x12#8
  | .decSym _ => 0x13#8
  | .wrBits _ _ => 0x20#8
  | .rdBits _ => 0x21#8
  | .wrByte _ => 0x22#8
  | .rdByte => 0x23#8
  | .wrShort _ => 0x24#8
  | .rdShort => 0x25#8
  | .wrInt _ => 0x26#8
  | .rdInt => 0x27#8
  | .wrInt64 _ => 0x28#8
  | .rdInt64 => 0x29#8
  | .wrFloat _ => 0x2A#8
  | .rdFloat => 0x2B#8
  | .wrDouble _ => 0x2C#8
  | .rdDouble => 0x2D#8
  | .mdlNewBit _ => 0x30#8
  | .mdlNewSym _ _ => 0x31#8
  | .mdlInitBit _ => 0x32#8
  | .mdlInitSym _ => 0x33#8
  | .mdlFree _ => 0x34#8
  | .icConfig _ _ _ _ _ => 0x40#8
  | .icInit _ => 0x41#8
  | .icCompress _ _ _ _ => 0x42#8
  | .icDecompress _ _ _ => 0x43#8
  | .icGetK _ => 0x44#8
  | .icFree _ => 0x45#8

/-- The format of a command (R112, R114). -/
def Instr.format : Instr → Format
  | .initEnc => .f0
  | .initDec => .f0
  | .doneEnc => .f0
  | .doneDec => .f0
  | .rdStatus => .f0
  | .nop => .f0
  | .encBit _ _ => .fh
  | .decBit _ => .fh
  | .encSym _ _ => .fh
  | .decSym _ => .fh
  | .wrBits _ _ => .fn
  | .rdBits _ => .fn
  | .wrByte _ => .f0
  | .rdByte => .f0
  | .wrShort _ => .f0
  | .rdShort => .f0
  | .wrInt _ => .f0
  | .rdInt => .f0
  | .wrInt64 _ => .f0
  | .rdInt64 => .f0
  | .wrFloat _ => .f0
  | .rdFloat => .f0
  | .wrDouble _ => .f0
  | .rdDouble => .f0
  | .mdlNewBit _ => .fh
  | .mdlNewSym _ _ => .fh
  | .mdlInitBit _ => .fh
  | .mdlInitSym _ => .fh
  | .mdlFree _ => .fh
  | .icConfig _ _ _ _ _ => .fhn
  | .icInit _ => .fh
  | .icCompress _ _ _ _ => .fh
  | .icDecompress _ _ _ => .fh
  | .icGetK _ => .fh
  | .icFree _ => .fh

/-- The mask of a format: the bits of CW that its commands fix (R112). -/
def Format.mask : Format → Word
  | .f0 => 0xFFFFFFFF#32
  | .fh => 0xFFF000FF#32
  | .fn => 0xFC0FFFFF#32
  | .fhn => 0xFC0000FF#32

/-- CW of an opcode, a handle and a width, with RSV = 0 (R111). -/
def commandWord (opc : Byte) (h n : Nat) : Word :=
  0#6 ++ BitVec.ofNat 6 n ++ BitVec.ofNat 12 h ++ opc

/-- CW of a command: its opcode, its handle and its width, 0 where its format has none (R111, R112). -/
def Instr.word (i : Instr) : Word :=
  commandWord i.opcode (i.handle?.getD 0) (i.width?.getD 0)

/-- Operand A of a command (R113); what it does not read is 0. -/
def Instr.operandA : Instr → DWord
  | .initEnc => 0
  | .initDec => 0
  | .doneEnc => 0
  | .doneDec => 0
  | .rdStatus => 0
  | .nop => 0
  | .encBit _ _ => 0
  | .decBit _ => 0
  | .encSym _ _ => 0
  | .decSym _ => 0
  | .wrBits _ _ => 0
  | .rdBits _ => 0
  | .wrByte _ => 0
  | .rdByte => 0
  | .wrShort _ => 0
  | .rdShort => 0
  | .wrInt _ => 0
  | .rdInt => 0
  | .wrInt64 v => v
  | .rdInt64 => 0
  | .wrFloat _ => 0
  | .rdFloat => 0
  | .wrDouble v => v
  | .rdDouble => 0
  | .mdlNewBit _ => 0
  | .mdlNewSym _ _ => 0
  | .mdlInitBit _ => 0
  | .mdlInitSym _ => 0
  | .mdlFree _ => 0
  | .icConfig _ _ _ bitsHigh range => bitsHigh ++ range
  | .icInit _ => 0
  | .icCompress _ pred real _ => real ++ pred
  | .icDecompress _ pred _ => 0#32 ++ pred
  | .icGetK _ => 0
  | .icFree _ => 0

/-- Operand B of a command (R113); what it does not read is 0. -/
def Instr.operandB : Instr → Word
  | .initEnc => 0
  | .initDec => 0
  | .doneEnc => 0
  | .doneDec => 0
  | .rdStatus => 0
  | .nop => 0
  | .encBit _ bit => bit
  | .decBit _ => 0
  | .encSym _ sym => sym
  | .decSym _ => 0
  | .wrBits _ v => v
  | .rdBits _ => 0
  | .wrByte v => 0#24 ++ v
  | .rdByte => 0
  | .wrShort v => 0#16 ++ v
  | .rdShort => 0
  | .wrInt v => v
  | .rdInt => 0
  | .wrInt64 _ => 0
  | .rdInt64 => 0
  | .wrFloat v => v
  | .rdFloat => 0
  | .wrDouble _ => 0
  | .rdDouble => 0
  | .mdlNewBit _ => 0
  | .mdlNewSym _ nsym => nsym
  | .mdlInitBit _ => 0
  | .mdlInitSym _ => 0
  | .mdlFree _ => 0
  | .icConfig _ _ contexts _ _ => contexts
  | .icInit _ => 0
  | .icCompress _ _ _ context => context
  | .icDecompress _ _ context => context
  | .icGetK _ => 0
  | .icFree _ => 0

/-- The command tuple of a well-formed instruction. -/
def encode (i : Instr) : Command where
  cw := i.word
  a := i.operandA
  b := i.operandB

end Sys2Proof
end

