-- ==== Sys2Proof/Config.lean ====
section
/-! DEFINITION. What an implementation fixes: the four open parameters of 00_scope.md R10
(92_eei_decisions.md D2). The model takes them as an argument, carried unchanged in the state. -/

namespace Sys2Proof

/-- The open parameters of 00_scope.md R10. -/
structure Config where
  /-- `N_MODEL_SLOTS`: the number of slots of the model store. -/
  modelSlots : Nat
  /-- `N_IC_SLOTS`: the number of slots of the integer-compressor store. -/
  icSlots : Nat
  /-- `MAX_IC_CONTEXTS`: the largest `contexts` value IC_CONFIG accepts. -/
  maxIcContexts : Nat
  /-- `OUT_CAPACITY`: the most bytes the output buffer holds per chunk; `none` is the spec's infinity. -/
  outCapacity : Option Nat
deriving DecidableEq, Repr

/-- The allowed values of 00_scope.md R10. -/
def Config.ok (g : Config) : Bool :=
  decide (1 ≤ g.modelSlots) && decide (g.modelSlots ≤ 4096) &&
  decide (1 ≤ g.icSlots) && decide (g.icSlots ≤ 4096) &&
  decide (1 ≤ g.maxIcContexts) && decide (g.maxIcContexts ≤ 2 ^ 32 - 1) &&
  (match g.outCapacity with
   | none => true
   | some n => decide (4 ≤ n))

/-- The largest allowed value of every parameter: the block that turns the fewest commands away.
DESIGN CHOICE, log entry 1: the spec gives no value, and no claim may rest on this one. -/
def Config.largest : Config where
  modelSlots := 4096
  icSlots := 4096
  maxIcContexts := 2 ^ 32 - 1
  outCapacity := none

end Sys2Proof
end

