-- ==== Sys2Proof/Machine/State.lean ====
section
/-! DEFINITION. Everything the spec gives the block as state (10_state.md), as plain data, its value after
reset (R53), and the reasons a step of the model can stop. -/

namespace Sys2Proof.Machine

/-- `STATUS.MODE` (10_state.md R36, R37). -/
inductive Mode where
  | idle
  | encode
  | decode
  | faulted
deriving DecidableEq, Repr

/-- The block's own fault codes, recorded in `STATUS.FCODE` (60_exceptions.md R401). Taking one is a next
state (R403), never a stop of the model. -/
inductive FaultCode where
  | none
  | illegalCommand
  | wrongMode
  | badHandle
  | wrongModelType
  | slotOccupied
  | badAlphabet
  | badWidth
  | badIcConfig
  | badContext
  | modelUninit
  | icUninit
  | symbolOutOfAlphabet
  | valueOutOfRange
  | inputExhausted
  | rawDecodeRange
  | outputOverflow
  | carryUnderflow
deriving DecidableEq, Repr

/-- Why a step of the MODEL stops. None is raised in a state that keeps the bounds of R42, R44 and R161,
and so none in a run from reset; each stands for a state to which the spec gives no meaning (log entry 5). -/
inductive Fault where
  /-- `RenormEnc` or `RenormDec` has not reached `MINLEN` after four steps, which needs `LENGTH` = 0;
  raised by the coding commands and DONE_ENC. Safe. -/
  | endlessRenorm
  /-- `DecRaw` divides by a width of 0; raised by the RD_* commands and IC_DECOMPRESS. Safe. -/
  | zeroWidth
  /-- A symbol model that is marked initialised has no entry where a rule reads one; raised by ENC_SYM,
  DEC_SYM, IC_COMPRESS and IC_DECOMPRESS. Safe. -/
  | brokenModel
  /-- A compressor that is ready has no model where a rule reads one; raised by IC_COMPRESS and
  IC_DECOMPRESS. Safe. -/
  | brokenCompressor
deriving DecidableEq, Repr

/-- Why a step refuses an instruction. -/
inductive Refusal where
  /-- The instruction has no meaning yet; raised by `exec` for a command whose arm is still rejected by
  name (none is). Safe. -/
  | notModelled (mnemonic : String)
deriving DecidableEq, Repr

/-- A bit-model record (10_state.md R41). -/
structure BitModel where
  /-- The probability of bit 0 on the 2^13 scale. -/
  p0 : Word
  /-- The bit-0 count. -/
  b0count : Word
  /-- The total count. -/
  count : Word
  /-- The update cadence. -/
  cycle : Word
  /-- The spec's `until`: how many bits remain before the next update. -/
  remaining : Word
deriving DecidableEq, Repr

/-- A symbol-model record (10_state.md R43, R45). The fields after `init`, but for `tsize` and `tshift`,
mean something only when `init` holds (log entry 4). -/
structure SymModel where
  /-- The alphabet size. -/
  nsym : Nat
  /-- The model has been initialised. -/
  init : Bool
  /-- The symbol counts. -/
  cnt : List Word
  /-- The cumulative distribution on the 2^15 scale. -/
  dist : List Word
  /-- The sum of the counts at the last update. -/
  total : Word
  /-- The update cadence. -/
  cycle : Word
  /-- The spec's `until`: how many symbols remain before the next update. -/
  remaining : Word
  /-- The decode table's size, 0 for none. -/
  tsize : Word
  /-- The decode table's shift. -/
  tshift : Word
  /-- The decode table, empty for none. -/
  dtab : List Word
deriving DecidableEq, Repr

/-- What a filled slot of the model store holds (10_state.md R40). -/
inductive Slot where
  | bit (m : BitModel)
  | sym (m : SymModel)
deriving DecidableEq, Repr

/-- The model set of a compressor (10_state.md R49). -/
structure IcModels where
  /-- One symbol model per context, coding `k`. -/
  mBits : List SymModel
  /-- The bit model of the k = 0 corrector. -/
  mCorr0 : BitModel
  /-- `mCorr[1..corr_bits]`: the model of index i stands at position i - 1. -/
  mCorr : List SymModel
deriving DecidableEq, Repr

/-- An integer-compressor record (10_state.md R47). -/
structure IcRec where
  bits : Nat
  contexts : Nat
  bitsHigh : Word
  range : Word
  corrBits : Nat
  /-- 0 stands for 2^32. -/
  corrRange : Word
  /-- A 32-bit two's complement pattern. -/
  corrMin : Word
  /-- A 32-bit two's complement pattern. -/
  corrMax : Word
  /-- The last exponent. -/
  k : Nat
  /-- The model set, which exists once the compressor is ready. -/
  models : Option IcModels
deriving DecidableEq, Repr

/-- The `ready` flag (R47): the model set exists. -/
def IcRec.ready (ic : IcRec) : Bool := ic.models.isSome

/-- A slot store: the filled slots by handle, handles strictly rising; a handle that is not listed is
`Empty` (10_state.md R40, R46). -/
abbrev Store (α : Type) := List (Nat × α)

/-- The coder registers and the byte buffers the coding procedures work on (10_state.md R32-R34, R39, R50). -/
structure Coder where
  /-- `BASE`. -/
  base : Word
  /-- `LENGTH`. -/
  length : Word
  /-- `VALUE`. -/
  value : Word
  /-- `OUTBUF`, oldest byte first. -/
  outbuf : List Byte
  /-- `IN`. -/
  input : List Byte
  /-- `INPOS`. -/
  inpos : Nat
  /-- `ICOUNT`. -/
  icount : Word
deriving DecidableEq, Repr

/-- The four host operations (60_exceptions.md R416). -/
inductive HostOp where
  | issue (c : Command)
  | loadInput (bytes : List Byte)
  | readOutput
  | reset
deriving DecidableEq, Repr

/-- What a host operation returns to the host (60_exceptions.md R416). -/
inductive Reply where
  /-- Nothing: no operation yet, or RESET. -/
  | none
  /-- ISSUE: `RES` and `STATUS` after the command. -/
  | command (res : DWord) (status : Word)
  /-- HOST_LOAD_INPUT: `ok`. -/
  | loadOk
  /-- HOST_LOAD_INPUT: `refused`. -/
  | loadRefused
  /-- HOST_READ_OUTPUT: the whole of `OUTSTREAM`. -/
  | output (bytes : List Byte)
deriving DecidableEq, Repr

/-- The state of the block (10_state.md R30), and three fields of the model's own: the parameters, what the
host is about to do, and what it was last told (log entries 1 to 3). -/
structure State where
  /-- The coder registers and byte buffers. -/
  coder : Coder
  /-- `RES` (R35). -/
  res : DWord
  /-- `STATUS.MODE` (R36). -/
  mode : Mode
  /-- `STATUS.FCODE` (R36). -/
  fcode : FaultCode
  /-- `STATUS.FOPC` (R36). -/
  fopc : Byte
  /-- `CCOUNT` (R38). -/
  ccount : Word
  /-- `OUTSTREAM` (R39). -/
  outstream : List Byte
  /-- The model store `MS` (R40). -/
  ms : Store Slot
  /-- The integer-compressor store `ICS` (R46). -/
  ics : Store IcRec
  /-- The model's own: the open parameters, which no step changes (log entry 1). -/
  cfg : Config
  /-- The model's own: the host operations not yet carried out, next one first (log entry 2). -/
  pending : List HostOp
  /-- The model's own: what the last host operation returned (log entry 3). -/
  reply : Reply
deriving DecidableEq, Repr

/-- The coder part of the state after reset (10_state.md R53). -/
def Coder.reset : Coder where
  base := 0
  length := 0xFFFFFFFF#32
  value := 0
  outbuf := []
  input := []
  inpos := 0
  icount := 0

/-- The state after reset (10_state.md R53, 70_reset_and_hazards.md R450) of a block with parameters `g`. -/
def State.resetWith (g : Config) : State where
  coder := Coder.reset
  res := 0
  mode := .idle
  fcode := .none
  fopc := 0
  ccount := 0
  outstream := []
  ms := []
  ics := []
  cfg := g
  pending := []
  reply := .none

/-- The machine right after reset. Every register has the value the spec gives it; the parameters are the
largest the spec allows (DESIGN CHOICE, log entry 1). -/
def State.reset : State := State.resetWith Config.largest

end Sys2Proof.Machine
end

