-- ==== Sys2Proof/Machine/Flags.lean ====
section
/-! DEFINITION. The status word. The block has no condition codes (10_state.md R52); `STATUS` (R36) is its
one status register, stored as its fields and assembled here. -/

namespace Sys2Proof.Machine

/-- The value of `MODE` (10_state.md R36). -/
def Mode.bits : Mode → BitVec 2
  | .idle => 0#2
  | .encode => 1#2
  | .decode => 2#2
  | .faulted => 3#2

/-- The code of a fault (60_exceptions.md R401). -/
def FaultCode.code : FaultCode → Byte
  | .none => 0x00#8
  | .illegalCommand => 0x01#8
  | .wrongMode => 0x02#8
  | .badHandle => 0x03#8
  | .wrongModelType => 0x04#8
  | .slotOccupied => 0x05#8
  | .badAlphabet => 0x06#8
  | .badWidth => 0x07#8
  | .badIcConfig => 0x08#8
  | .badContext => 0x09#8
  | .modelUninit => 0x0A#8
  | .icUninit => 0x0B#8
  | .symbolOutOfAlphabet => 0x0C#8
  | .valueOutOfRange => 0x0D#8
  | .inputExhausted => 0x0E#8
  | .rawDecodeRange => 0x0F#8
  | .outputOverflow => 0x10#8
  | .carryUnderflow => 0x11#8

/-- `STATUS`: FOPC in 23:16, FCODE in 15:8, MODE in 1:0, the reserved bits 0 (10_state.md R36). -/
def State.status (s : State) : Word :=
  0#8 ++ s.fopc ++ s.fcode.code ++ 0#6 ++ s.mode.bits

/-- What RD_STATUS returns: CCOUNT in 63:32, STATUS in 31:0 (40_entropy_coder.md R171). -/
def State.statusPair (s : State) : DWord := s.ccount ++ s.status

end Sys2Proof.Machine
end

