-- ==== Sys2Proof/Machine/Operands.lean ====
section
/-! DEFINITION. The constants of 00_scope.md R8, the width operators of R13 and R14, and how a command's
operands and results are read (30_encoding.md R113, R121). -/

namespace Sys2Proof.Machine

/-- `MAXLEN` (R8). -/
def maxLen : Word := 0xFFFFFFFF#32

/-- `MINLEN` = 2^24 (R8). -/
def minLen : Nat := 0x01000000

/-- `BM_SHIFT` (R8). -/
def bmShift : Nat := 13

/-- `BM_MAX` (R8). -/
def bmMax : Nat := 8192

/-- `BM_CYCLE0` (R8). -/
def bmCycle0 : Nat := 4

/-- `BM_CYCLEMAX` (R8). -/
def bmCycleMax : Nat := 64

/-- `DM_SHIFT` (R8, R9). -/
def dmShift : Nat := 15

/-- `DM_MAX` (R8). -/
def dmMax : Nat := 32768

/-- `NSYM_MIN` (R8). -/
def nsymMin : Nat := 2

/-- `NSYM_MAX` (R8). -/
def nsymMax : Nat := 2048

/-- `TABLE_MIN_NSYM` (R8). -/
def tableMinNsym : Nat := 17

/-- `RAW_SPLIT` (R8). -/
def rawSplit : Nat := 19

/-- `u32(v)`: v modulo 2^32 (R13). -/
def u32 (v : Nat) : Word := BitVec.ofNat 32 v

/-- `s32(v)` as the 32-bit pattern that is stored (R13). -/
def s32 (v : Int) : Word := BitVec.ofInt 32 v

/-- `s32` as the signed number the pattern stands for (R13). -/
def wrap32 (v : Int) : Int := (s32 v).toInt

/-- A 32-bit pattern read as a signed number (R121). -/
def signed (w : Word) : Int := w.toInt

/-- `zext_64` of a result (R13, R113). -/
def zext64 (v : Nat) : DWord := BitVec.ofNat 64 v

/-- `bitlen(v)`: the number of bits of v (R14). -/
def bitlen (v : Nat) : Nat := if v = 0 then 0 else Nat.log2 v + 1

/-- The 16-bit part number `j` of an operand, part 0 the lowest (41_raw_fields.md R210, R212). -/
def half (v : Nat) (j : Nat) : Nat := (v >>> (16 * j)) % 65536

end Sys2Proof.Machine
end

