-- ==== Sys2Proof/Machine/Ops.lean ====
section
/-! DEFINITION. The operations every command is written over: how a command ends, taking a fault and leaving
the FAULTED mode, the slot stores, the two byte streams and renormalisation. -/

namespace Sys2Proof.Machine

/-- How a command's pseudocode can end early: `raise Fault(code)` (00_scope.md R15), or a stop of the model. -/
inductive Stop where
  | trap (code : FaultCode)
  | stuck (reason : Fault)
deriving DecidableEq, Repr

/-- The result of a piece of pseudocode. -/
abbrev Res (α : Type) := Except Stop α

/-- `raise Fault(code)`. -/
def raise {α : Type} (code : FaultCode) : Res α := .error (.trap code)

/-- A state to which the spec gives no meaning (log entry 5). -/
def stuck {α : Type} (reason : Fault) : Res α := .error (.stuck reason)

/-! ## Faults, and how a command completes -/

/-- `TakeFault` (60_exceptions.md R403): MODE, FCODE and FOPC are written and nothing else. The command's
own writes are discarded (R404), because it is applied to the state before the command. -/
def takeFault (code : FaultCode) (opc : Byte) (s : State) : State :=
  { s with mode := .faulted, fcode := code, fopc := opc }

/-- RESET (70_reset_and_hazards.md R450), the only way out of FAULTED (60_exceptions.md R406): every piece of
the block's state takes its reset value. The parameters are no state of the block, and what the host does
next is not the block's to change. -/
def resetBlock (s : State) : State :=
  { State.resetWith s.cfg with pending := s.pending }

/-- The end of a command: CCOUNT advances if it completed (10_state.md R31), and the fault is taken if it
raised one (60_exceptions.md R403). -/
def finish (i : Instr) (s : State) (r : Res State) : Host.Outcome State Fault Refusal :=
  match r with
  | .ok t => .next { t with ccount := t.ccount + 1 }
  | .error (.trap code) => .next (takeFault code i.opcode s)
  | .error (.stuck reason) => .fault reason

/-- A decoded command: ignored in FAULTED (60_exceptions.md R402 step 1, R405), WRONG_MODE outside the modes
of its row of R420 (R402 step 3), and otherwise its pseudocode as a transaction (R404). -/
def command (i : Instr) (modes : List Mode) (s : State) (body : Res State) :
    Host.Outcome State Fault Refusal :=
  if s.mode = .faulted then .next s
  else if s.mode ∈ modes then finish i s body
  else .next (takeFault .wrongMode i.opcode s)

/-- The modes of a command that is legal in every mode but FAULTED (R420). -/
def anyOpenMode : List Mode := [.idle, .encode, .decode]

/-! ## The slot stores -/

/-- `MS[h]` or `ICS[h]`: what the slot holds, none for `Empty` (00_scope.md R15). -/
def Store.find {α : Type} : Store α → Nat → Option α
  | [], _ => none
  | (j, v) :: rest, h => if j = h then some v else Store.find rest h

/-- `MS[h] <- v` or `ICS[h] <- v`. -/
def Store.put {α : Type} : Store α → Nat → α → Store α
  | [], h, v => [(h, v)]
  | (j, w) :: rest, h, v =>
    if h < j then (h, v) :: (j, w) :: rest
    else if h = j then (h, v) :: rest
    else (j, w) :: Store.put rest h v

/-- `MS[h] <- Empty` or `ICS[h] <- Empty`. -/
def Store.drop {α : Type} : Store α → Nat → Store α
  | [], _ => []
  | (j, w) :: rest, h => if j = h then rest else (j, w) :: Store.drop rest h

/-- The canonical form: handles strictly rising, each below the slot count. -/
def Store.wf {α : Type} (slots : Nat) (st : Store α) : Bool :=
  decide (st.Pairwise (fun x y => x.1 < y.1)) && st.all (fun x => decide (x.1 < slots))

/-- The filled slot `h` of the model store, or BAD_HANDLE (60_exceptions.md R402 step 4). -/
def getSlot (s : State) (h : Nat) : Res Slot :=
  if s.cfg.modelSlots ≤ h then raise .badHandle
  else
    match Store.find s.ms h with
    | none => raise .badHandle
    | some m => .ok m

/-- The bit model in slot `h`, or BAD_HANDLE or WRONG_MODEL_TYPE. -/
def getBit (s : State) (h : Nat) : Res BitModel := do
  match ← getSlot s h with
  | .bit m => .ok m
  | .sym _ => raise .wrongModelType

/-- The symbol model in slot `h`, or BAD_HANDLE or WRONG_MODEL_TYPE. -/
def getSym (s : State) (h : Nat) : Res SymModel := do
  match ← getSlot s h with
  | .bit _ => raise .wrongModelType
  | .sym m => .ok m

/-- The symbol model in slot `h`, which must be initialised, or MODEL_UNINIT (R402 step 7). -/
def getReadySym (s : State) (h : Nat) : Res SymModel := do
  let m ← getSym s h
  if m.init then .ok m else raise .modelUninit

/-- The slot `h` of the model store is there and `Empty`, or BAD_HANDLE or SLOT_OCCUPIED. -/
def needEmptySlot (s : State) (h : Nat) : Res Unit :=
  if s.cfg.modelSlots ≤ h then raise .badHandle
  else
    match Store.find s.ms h with
    | none => .ok ()
    | some _ => raise .slotOccupied

/-- The filled slot `h` of the compressor store, or BAD_HANDLE. -/
def getIc (s : State) (h : Nat) : Res IcRec :=
  if s.cfg.icSlots ≤ h then raise .badHandle
  else
    match Store.find s.ics h with
    | none => raise .badHandle
    | some ic => .ok ic

/-- The slot `h` of the compressor store is there and `Empty`, or BAD_HANDLE or SLOT_OCCUPIED. -/
def needEmptyIc (s : State) (h : Nat) : Res Unit :=
  if s.cfg.icSlots ≤ h then raise .badHandle
  else
    match Store.find s.ics h with
    | none => .ok ()
    | some _ => raise .slotOccupied

/-! ## The output stream -/

/-- `OutPush(b)` (40_entropy_coder.md R151), for a buffer of capacity `cap`. -/
def outPush (cap : Option Nat) (b : Byte) (c : Coder) : Res Coder :=
  match cap with
  | none => .ok { c with outbuf := c.outbuf ++ [b] }
  | some n =>
    if n ≤ c.outbuf.length then raise .outputOverflow
    else .ok { c with outbuf := c.outbuf ++ [b] }

/-- `OutPush(0x00)` repeated (40_entropy_coder.md R169). -/
def outZeros (cap : Option Nat) : Nat → Coder → Res Coder
  | 0, c => .ok c
  | n + 1, c => do
    let c ← outPush cap 0 c
    outZeros cap n c

/-- The walk of `PropagateCarry` over the buffer read from its last byte back (40_entropy_coder.md R152);
none when the carry passes the first byte. -/
def carryBack : List Byte → Option (List Byte)
  | [] => none
  | b :: rest =>
    if b = 0xFF#8 then (carryBack rest).map (fun r => 0#8 :: r)
    else some ((b + 1) :: rest)

/-- `PropagateCarry()` (40_entropy_coder.md R152). -/
def propagateCarry (c : Coder) : Res Coder :=
  match carryBack c.outbuf.reverse with
  | none => raise .carryUnderflow
  | some r => .ok { c with outbuf := r.reverse }

/-- `AddBase(x)` (40_entropy_coder.md R156). -/
def addBase (x : Word) (c : Coder) : Res Coder :=
  if c.base + x < c.base then propagateCarry { c with base := c.base + x }
  else .ok { c with base := c.base + x }

/-- The repeat loop of `RenormEnc` (40_entropy_coder.md R153), for at most `fuel` turns. A width of 1 or
more needs at most three (R161). -/
def renormEncLoop (cap : Option Nat) : Nat → Coder → Res Coder
  | 0, _ => stuck .endlessRenorm
  | fuel + 1, c => do
    let c ← outPush cap (c.base.extractLsb' 24 8) c
    let c := { c with base := c.base <<< 8, length := c.length <<< 8 }
    if minLen ≤ c.length.toNat then .ok c else renormEncLoop cap fuel c

/-- `RenormEnc()` (40_entropy_coder.md R153). -/
def renormEnc (cap : Option Nat) (c : Coder) : Res Coder := renormEncLoop cap 4 c

/-- `if LENGTH < MINLEN: RenormEnc()`. -/
def renormEncIfShort (cap : Option Nat) (c : Coder) : Res Coder :=
  if c.length.toNat < minLen then renormEnc cap c else .ok c

/-! ## The input stream -/

/-- `InPop()` (40_entropy_coder.md R154). -/
def inPop (c : Coder) : Res (Byte × Coder) :=
  match c.input[c.inpos]? with
  | none => raise .inputExhausted
  | some b => .ok (b, { c with inpos := c.inpos + 1, icount := c.icount + 1 })

/-- `InPop()` into the low byte of `VALUE`, the rest moved up 8 bits (40_entropy_coder.md R155, R164). -/
def shiftIn (c : Coder) : Res Coder := do
  let (b, c) ← inPop c
  .ok { c with value := c.value.extractLsb' 0 24 ++ b }

/-- The repeat loop of `RenormDec` (40_entropy_coder.md R155), for at most `fuel` turns. -/
def renormDecLoop : Nat → Coder → Res Coder
  | 0, _ => stuck .endlessRenorm
  | fuel + 1, c => do
    let c ← shiftIn c
    let c := { c with length := c.length <<< 8 }
    if minLen ≤ c.length.toNat then .ok c else renormDecLoop fuel c

/-- `RenormDec()` (40_entropy_coder.md R155). -/
def renormDec (c : Coder) : Res Coder := renormDecLoop 4 c

/-- `if LENGTH < MINLEN: RenormDec()`. -/
def renormDecIfShort (c : Coder) : Res Coder :=
  if c.length.toNat < minLen then renormDec c else .ok c

end Sys2Proof.Machine
end

