-- ==== Sys2Proof/Machine/Models.lean ====
section
/-! DEFINITION. How the adaptive models start, adapt and rescale, and the decode table
(42_models.md R250-R255). Arithmetic is exact and narrowed with `u32` where a field is stored (00_scope.md R13). -/

namespace Sys2Proof.Machine

/-! ## Bit models -/

/-- `BitModelInit` (42_models.md R250). -/
def bitModelInit : BitModel where
  p0 := u32 (1 <<< (bmShift - 1))
  b0count := 1
  count := 2
  cycle := u32 bmCycle0
  remaining := u32 bmCycle0

/-- The halving of `BitModelUpdate` (42_models.md R251): the pair (`b0count`, `count`) after it. -/
def bitRescale (b0 cnt : Nat) : Nat × Nat :=
  if bmMax < cnt then
    let c := (cnt + 1) >>> 1
    let b := (b0 + 1) >>> 1
    (b, if b = c then c + 1 else c)
  else (b0, cnt)

/-- The cadence after an update: 5/4 of it, at most `cap` (42_models.md R251, R254). -/
def nextCycle (cycle cap : Nat) : Nat := min ((5 * cycle) >>> 2) cap

/-- `BitModelUpdate` (42_models.md R251). -/
def bitModelUpdate (m : BitModel) : BitModel :=
  let (b0, cnt) := bitRescale m.b0count.toNat (m.count.toNat + m.cycle.toNat)
  let scale := 0x80000000 / cnt
  let cycle := u32 (nextCycle m.cycle.toNat bmCycleMax)
  { p0 := u32 ((b0 * scale) >>> (31 - bmShift))
    b0count := u32 b0
    count := u32 cnt
    cycle := cycle
    remaining := cycle }

/-- What coding bit `b` does to a bit model, the same for the encoder and the decoder
(40_entropy_coder.md R157, R158; 42_models.md R257). -/
def bitModelCoded (m : BitModel) (b : Bool) : BitModel :=
  let m := if b then m else { m with b0count := m.b0count + 1 }
  let m := { m with remaining := m.remaining - 1 }
  if m.remaining = 0 then bitModelUpdate m else m

/-! ## Symbol models -/

/-- `last` = nsym - 1 (10_state.md R43). -/
def SymModel.last (m : SymModel) : Nat := m.nsym - 1

/-- The search for `tb` of `SymModelGeometry` (42_models.md R252), for at most `fuel` turns. -/
def tableBits (nsym : Nat) : Nat → Nat → Nat
  | 0, tb => tb
  | fuel + 1, tb => if 1 <<< (tb + 2) < nsym then tableBits nsym fuel (tb + 1) else tb

/-- `SymModelGeometry` (42_models.md R252): (tsize, tshift). An alphabet has at most 2048 symbols, so eight
turns are enough. -/
def symModelGeometry (nsym : Nat) : Nat × Nat :=
  if nsym < tableMinNsym then (0, 0)
  else
    let tb := tableBits nsym 8 3
    (1 <<< tb, dmShift - tb)

/-- The symbol model MDL_NEW_SYM makes (42_models.md R259). What the spec gives no meaning to before the
model is initialised is left empty or 0 (log entry 4). -/
def symModelNew (nsym : Nat) : SymModel :=
  let (tsize, tshift) := symModelGeometry nsym
  { nsym := nsym, init := false, cnt := [], dist := [], total := 0, cycle := 0, remaining := 0,
    tsize := u32 tsize, tshift := u32 tshift, dtab := [] }

/-- The sum of a list of counts. -/
def sumWords : List Word → Nat
  | [] => 0
  | c :: rest => c.toNat + sumWords rest

/-- The distribution loop of `SymModelUpdate` (42_models.md R254), from accumulator `acc` on. -/
def distFrom (scale : Nat) : Nat → List Word → List Word
  | _, [] => []
  | acc, c :: rest => u32 ((scale * acc) >>> (31 - dmShift)) :: distFrom scale (acc + c.toNat) rest

/-- The entries `dtab[s+1..tsize+1]` of `BuildTable` (42_models.md R255), from distribution entry `k` on. -/
def tableFrom (tsize tshift last : Nat) : Nat → Nat → List Word → List Word
  | _, s, [] => List.replicate (tsize + 1 - s) (u32 last)
  | k, s, d :: rest =>
    let w := d.toNat >>> tshift
    List.replicate (w - s) (u32 (k - 1)) ++ tableFrom tsize tshift last (k + 1) (max s w) rest

/-- `BuildTable` (42_models.md R255). -/
def buildTable (tsize tshift last : Nat) (dist : List Word) : List Word :=
  0 :: tableFrom tsize tshift last 0 0 dist

/-- The halving of `SymModelUpdate` (42_models.md R254): the pair (`cnt`, `total`) after it. -/
def symRescale (cnt : List Word) (total : Nat) : List Word × Nat :=
  if dmMax < total then
    let halved := cnt.map (fun c => u32 ((c.toNat + 1) >>> 1))
    (halved, sumWords halved)
  else (cnt, total)

/-- `SymModelUpdate` (42_models.md R254). -/
def symModelUpdate (m : SymModel) : SymModel :=
  let (cnt, total) := symRescale m.cnt (m.total.toNat + m.cycle.toNat)
  let scale := 0x80000000 / total
  let dist := distFrom scale 0 cnt
  let cycle := u32 (nextCycle m.cycle.toNat ((m.nsym + 6) <<< 3))
  { m with
    cnt := cnt
    total := u32 total
    dist := dist
    dtab := if m.tsize = 0 then [] else buildTable m.tsize.toNat m.tshift.toNat m.last dist
    cycle := cycle
    remaining := cycle }

/-- `SymModelInit` (42_models.md R253). -/
def symModelInit (m : SymModel) : SymModel :=
  let m := symModelUpdate
    { m with cnt := List.replicate m.nsym 1, total := 0, cycle := u32 m.nsym }
  let cycle := u32 ((m.nsym + 6) >>> 1)
  { m with cycle := cycle, remaining := cycle, init := true }

/-- A new, initialised symbol model of `nsym` symbols (43_integer_compressor.md R302). -/
def symModelFresh (nsym : Nat) : SymModel := symModelInit (symModelNew nsym)

/-- What coding symbol `s` does to a symbol model, the same for the encoder and the decoder
(40_entropy_coder.md R159, R160; 42_models.md R257). -/
def symModelCoded (m : SymModel) (s : Nat) : SymModel :=
  let m := { m with cnt := m.cnt.modify s (fun c => c + 1), remaining := m.remaining - 1 }
  if m.remaining = 0 then symModelUpdate m else m

/-! ## Finding a symbol -/

/-- The largest i with dist[i] × L ≤ VALUE, if there is one (40_entropy_coder.md R160). -/
def symbolAt (l value : Nat) : List Word → Option Nat
  | [] => none
  | d :: rest =>
    match symbolAt l value rest with
    | some i => some (i + 1)
    | none => if d.toNat * l ≤ value then some 0 else none

/-- The bisection of 42_models.md R255 between `a` and `b`, for at most `fuel` turns. -/
def bisect (dist : List Word) (dv : Nat) : Nat → Nat → Nat → Nat
  | 0, a, _ => a
  | fuel + 1, a, b =>
    if a + 1 < b then
      let c := (a + b) >>> 1
      if dv < (dist.getD c 0).toNat then bisect dist dv fuel a c else bisect dist dv fuel c b
    else a

/-- The search the source uses (42_models.md R255): the table entry and a bisection where there is a table,
a bisection over the whole alphabet where there is none. No command uses it: the symbol a command decodes is
the one R160 defines (`symbolAt`), as 90_conflicts.md C2 says. -/
def searchSymbol (m : SymModel) (dv : Nat) : Nat :=
  if m.tsize = 0 then bisect m.dist dv m.nsym 0 m.nsym
  else
    let t := dv >>> m.tshift.toNat
    bisect m.dist dv m.nsym (m.dtab.getD t 0).toNat ((m.dtab.getD (t + 1) 0).toNat + 1)

end Sys2Proof.Machine
end

