-- ==== Sys2Proof/Machine/Coding.lean ====
section
/-! DEFINITION. The coding procedures: modelled bits and symbols (40_entropy_coder.md R157-R160), raw fields
(41_raw_fields.md R200-R203) and the encoder's flush (40_entropy_coder.md R169). -/

namespace Sys2Proof.Machine

/-- An entry of a record's list. -/
def entry (l : List Word) (i : Nat) : Res Nat :=
  match l[i]? with
  | none => stuck .brokenModel
  | some w => .ok w.toNat

/-- The width of the part bit 0 takes: p0 × (LENGTH >> 13) (40_entropy_coder.md R157, R158). -/
def bitSplit (c : Coder) (m : BitModel) : Word :=
  u32 (m.p0.toNat * (c.length.toNat >>> bmShift))

/-- `EncBitM(m, b)` (40_entropy_coder.md R157); `b` is the bit. -/
def encBitM (cap : Option Nat) (c : Coder) (m : BitModel) (b : Bool) : Res (Coder × BitModel) := do
  let x := bitSplit c m
  let c ←
    if b then do
      let c ← addBase x c
      (.ok { c with length := c.length - x } : Res Coder)
    else .ok { c with length := x }
  let c ← renormEncIfShort cap c
  .ok (c, bitModelCoded m b)

/-- `DecBitM(m)` (40_entropy_coder.md R158). -/
def decBitM (c : Coder) (m : BitModel) : Res (Bool × Coder × BitModel) := do
  let x := bitSplit c m
  let b := !decide (c.value < x)
  let c :=
    if b then { c with value := c.value - x, length := c.length - x }
    else { c with length := x }
  let c ← renormDecIfShort c
  .ok (b, c, bitModelCoded m b)

/-- Where the part of symbol `s` begins: dist[s] × L (40_entropy_coder.md R159, R160). -/
def symLow (c : Coder) (m : SymModel) (s : Nat) : Res Word := do
  let d ← entry m.dist s
  .ok (u32 (d * (c.length.toNat >>> dmShift)))

/-- Where the part of symbol `s` ends: dist[s+1] × L, or `LENGTH` for the last symbol
(40_entropy_coder.md R159, R160). -/
def symHigh (c : Coder) (m : SymModel) (s : Nat) : Res Word :=
  if s = m.last then .ok c.length
  else do
    let d ← entry m.dist (s + 1)
    .ok (u32 (d * (c.length.toNat >>> dmShift)))

/-- `EncSymM(m, s)` (40_entropy_coder.md R159). -/
def encSymM (cap : Option Nat) (c : Coder) (m : SymModel) (s : Nat) : Res (Coder × SymModel) := do
  let x ← symLow c m s
  let y ← symHigh c m s
  let c ← addBase x c
  let c ← renormEncIfShort cap { c with length := y - x }
  .ok (c, symModelCoded m s)

/-- `DecSymM(m)` (40_entropy_coder.md R160). -/
def decSymM (c : Coder) (m : SymModel) : Res (Nat × Coder × SymModel) := do
  match symbolAt (c.length.toNat >>> dmShift) c.value.toNat m.dist with
  | none => stuck .brokenModel
  | some s =>
    let x ← symLow c m s
    let y ← symHigh c m s
    let c ← renormDecIfShort { c with value := c.value - x, length := y - x }
    .ok (s, c, symModelCoded m s)

/-! ## Raw fields -/

/-- `EncRaw(n, v)` (41_raw_fields.md R200). -/
def encRaw (cap : Option Nat) (n v : Nat) (c : Coder) : Res Coder := do
  let w := c.length >>> n
  let c ← addBase (u32 (v * w.toNat)) { c with length := w }
  renormEncIfShort cap c

/-- `DecRaw(n)` (41_raw_fields.md R201): the renormalisation comes before the range check. -/
def decRaw (n : Nat) (c : Coder) : Res (Nat × Coder) := do
  let w := c.length >>> n
  if w = 0 then stuck .zeroWidth
  else
    let s := c.value.toNat / w.toNat
    let c ← renormDecIfShort { c with length := w, value := c.value - u32 (s * w.toNat) }
    if 2 ^ n ≤ s then raise .rawDecodeRange else .ok (s, c)

/-- `EncBits(n, v)` (41_raw_fields.md R202). -/
def encBits (cap : Option Nat) (n v : Nat) (c : Coder) : Res Coder :=
  if rawSplit < n then do
    let c ← encRaw cap 16 (v % 65536) c
    encRaw cap (n - 16) (v >>> 16) c
  else encRaw cap n v c

/-- `DecBits(n)` (41_raw_fields.md R203). -/
def decBits (n : Nat) (c : Coder) : Res (Nat × Coder) :=
  if rawSplit < n then do
    let (lo, c) ← decRaw 16 c
    let (hi, c) ← decRaw (n - 16) c
    .ok ((hi <<< 16) ||| lo, c)
  else decRaw n c

/-- A 32-bit field as two 16-bit steps, low half first (41_raw_fields.md R210). -/
def encWord (cap : Option Nat) (v : Nat) (c : Coder) : Res Coder := do
  let c ← encRaw cap 16 (half v 0) c
  encRaw cap 16 (half v 1) c

/-- A 32-bit field read as two 16-bit steps (41_raw_fields.md R211). -/
def decWord (c : Coder) : Res (Nat × Coder) := do
  let (lo, c) ← decRaw 16 c
  let (hi, c) ← decRaw 16 c
  .ok ((hi <<< 16) ||| lo, c)

/-- A 64-bit field as four 16-bit steps, lowest first (41_raw_fields.md R212). -/
def encDWord (cap : Option Nat) (v : Nat) (c : Coder) : Res Coder := do
  let c ← encRaw cap 16 (half v 0) c
  let c ← encRaw cap 16 (half v 1) c
  let c ← encRaw cap 16 (half v 2) c
  encRaw cap 16 (half v 3) c

/-- A 64-bit field read as four 16-bit steps (41_raw_fields.md R213). -/
def decDWord (c : Coder) : Res (Nat × Coder) := do
  let (w0, c) ← decRaw 16 c
  let (w1, c) ← decRaw 16 c
  let (w2, c) ← decRaw 16 c
  let (w3, c) ← decRaw 16 c
  .ok ((w3 <<< 48) ||| (w2 <<< 32) ||| (w1 <<< 16) ||| w0, c)

/-! ## The flush -/

/-- The flush of DONE_ENC (40_entropy_coder.md R169), up to and with its zero bytes: `OUTBUF` then holds the
whole chunk. -/
def flushEnc (cap : Option Nat) (c : Coder) : Res Coder := do
  if 2 * minLen < c.length.toNat then
    let c ← addBase (u32 minLen) c
    let c ← renormEnc cap { c with length := u32 (minLen >>> 1) }
    outZeros cap 3 c
  else
    let c ← addBase (u32 (minLen >>> 1)) c
    let c ← renormEnc cap { c with length := u32 (minLen >>> 9) }
    outZeros cap 2 c

end Sys2Proof.Machine
end

