-- ==== Sys2Proof/Machine/Control.lean ====
section
/-! DEFINITION. Coder control and status: INIT_ENC, INIT_DEC, DONE_ENC, DONE_DEC, RD_STATUS, NOP
(40_entropy_coder.md R163, R164, R169-R172). -/

namespace Sys2Proof.Machine

/-- INIT_ENC (R163). -/
def execInitEnc (s : State) : Host.Outcome State Fault Refusal :=
  command .initEnc [.idle] s
    (.ok { s with
      coder := { s.coder with base := 0, length := maxLen, outbuf := [] }
      mode := .encode })

/-- The coder after INIT_DEC (R164): four bytes of lookahead, the first one the most significant
(20_memory.md R82). -/
def primeDec (c : Coder) : Res Coder := do
  let c := { c with length := maxLen, icount := 0 }
  let (c0, c) ← inPop c
  let (c1, c) ← inPop c
  let (c2, c) ← inPop c
  let (c3, c) ← inPop c
  .ok { c with value := c0 ++ c1 ++ c2 ++ c3 }

/-- INIT_DEC (R164). -/
def execInitDec (s : State) : Host.Outcome State Fault Refusal :=
  command .initDec [.idle] s do
    let c ← primeDec s.coder
    .ok { s with coder := c, mode := .decode }

/-- DONE_ENC (R169): the flushed chunk goes to `OUTSTREAM` and its length to `RES`. -/
def execDoneEnc (s : State) : Host.Outcome State Fault Refusal :=
  command .doneEnc [.encode] s do
    let c ← flushEnc s.cfg.outCapacity s.coder
    .ok { s with
      coder := { c with outbuf := [] }
      outstream := s.outstream ++ c.outbuf
      mode := .idle
      res := zext64 c.outbuf.length }

/-- DONE_DEC (R170): `RES` receives the count of bytes read. -/
def execDoneDec (s : State) : Host.Outcome State Fault Refusal :=
  command .doneDec [.decode] s
    (.ok { s with mode := .idle, res := zext64 s.coder.icount.toNat })

/-- RD_STATUS (R171): legal in every mode; in FAULTED it does not advance CCOUNT (60_exceptions.md R405). -/
def execRdStatus (s : State) : Host.Outcome State Fault Refusal :=
  if s.mode = .faulted then .next { s with res := s.statusPair }
  else finish .rdStatus s (.ok { s with res := s.statusPair })

/-- NOP (R172): only CCOUNT advances. -/
def execNop (s : State) : Host.Outcome State Fault Refusal :=
  command .nop anyOpenMode s (.ok s)

end Sys2Proof.Machine
end

