-- ==== Sys2Proof/Machine/Compressor.lean ====
section
/-! DEFINITION. The procedures of the integer compressor (43_integer_compressor.md R300-R307). -/

namespace Sys2Proof.Machine

/-! ## Configuration -/

/-- `corr_bits` of an explicit range: its bit length, one less for an exact power of two
(43_integer_compressor.md R300). -/
def rangeBits (range : Nat) : Nat :=
  let cb := bitlen range
  if range = 1 <<< (cb - 1) then cb - 1 else cb

/-- `IcDerive` (43_integer_compressor.md R300) on a new record, with `k` = 0 and no model set (R308). -/
def icDerive (bits contexts : Nat) (bitsHigh range : Word) : IcRec :=
  if range ≠ 0 then
    let lo : Int := -((range.toNat / 2 : Nat) : Int)
    { bits := bits, contexts := contexts, bitsHigh := bitsHigh, range := range,
      corrBits := rangeBits range.toNat, corrRange := range,
      corrMin := s32 lo, corrMax := s32 (lo + range.toNat - 1), k := 0, models := none }
  else if 0 < bits ∧ bits < 32 then
    { bits := bits, contexts := contexts, bitsHigh := bitsHigh, range := range,
      corrBits := bits, corrRange := u32 (1 <<< bits),
      corrMin := s32 (-(2 : Int) ^ (bits - 1)), corrMax := s32 ((2 : Int) ^ (bits - 1) - 1),
      k := 0, models := none }
  else
    { bits := bits, contexts := contexts, bitsHigh := bitsHigh, range := range,
      corrBits := 32, corrRange := 0,
      corrMin := s32 (-(2 : Int) ^ 31), corrMax := s32 ((2 : Int) ^ 31 - 1),
      k := 0, models := none }

/-- A valid configuration (43_integer_compressor.md R301). -/
def icValid (maxContexts : Nat) (ic : IcRec) : Bool :=
  decide (ic.bits ≤ 32) &&
  decide (1 ≤ ic.contexts) && decide (ic.contexts ≤ maxContexts) &&
  decide (ic.range ≠ 1) &&
  decide (1 ≤ ic.bitsHigh.toNat) &&
  decide (min ic.corrBits ic.bitsHigh.toNat ≤ 11)

/-- `IcInit` (43_integer_compressor.md R302). -/
def icInitModels (ic : IcRec) : IcModels where
  mBits := List.replicate ic.contexts (symModelFresh (ic.corrBits + 1))
  mCorr0 := bitModelInit
  mCorr := (List.range ic.corrBits).map
    (fun j => symModelFresh (2 ^ min (j + 1) ic.bitsHigh.toNat))

/-! ## Correctors -/

/-- `IcFold` (43_integer_compressor.md R303). A corrector that one fold leaves outside [corr_min, corr_max] is
returned as it is; what becomes of it is decided in `writeCorrector` (log entry 14). -/
def icFold (ic : IcRec) (pred real : Int) : Int :=
  let corr := wrap32 (real - pred)
  if corr < signed ic.corrMin then wrap32 (corr + ic.corrRange.toNat)
  else if signed ic.corrMax < corr then wrap32 (corr - ic.corrRange.toNat)
  else corr

/-- `KClass` (43_integer_compressor.md R304). -/
def kClass (c : Int) : Nat :=
  if c ≤ 0 then bitlen (s32 (-c)).toNat else bitlen (c - 1).toNat

/-- The adjustment of a corrector of class k into 0..2^k - 1 (43_integer_compressor.md R305). -/
def corrAdjust (k : Nat) (c : Int) : Nat :=
  if c < 0 then (c + (2 ^ k - 1)).toNat else (c - 1).toNat

/-- The inverse of the adjustment (43_integer_compressor.md R306). -/
def corrRestore (k c : Nat) : Int :=
  if 2 ^ (k - 1) ≤ c then wrap32 (c + 1) else (c : Int) - (2 ^ k - 1)

/-- `IcUnfold` (43_integer_compressor.md R307). -/
def icUnfold (ic : IcRec) (pred c : Int) : Int :=
  let real := wrap32 (pred + c)
  if real < 0 then wrap32 (real + ic.corrRange.toNat)
  else if ic.corrRange.toNat ≤ (s32 real).toNat then wrap32 (real - ic.corrRange.toNat)
  else real

/-- A model of the compressor's set. -/
def icModel (l : List SymModel) (i : Nat) : Res SymModel :=
  match l[i]? with
  | none => stuck .brokenCompressor
  | some m => .ok m

/-- The corrector's part of `WriteCorrector` for 1 ≤ k ≤ 31 (43_integer_compressor.md R305). -/
def writeBucket (cap : Option Nat) (bitsHigh k : Nat) (corr : Int) (c : Coder) (ms : IcModels) :
    Res (Coder × IcModels) := do
  let v := corrAdjust k corr
  let q ← icModel ms.mCorr (k - 1)
  if k ≤ bitsHigh then
    let (c, q) ← encSymM cap c q v
    .ok (c, { ms with mCorr := ms.mCorr.set (k - 1) q })
  else
    let k1 := k - bitsHigh
    let (c, q) ← encSymM cap c q (v >>> k1)
    let c ← encBits cap k1 (v % 2 ^ k1) c
    .ok (c, { ms with mCorr := ms.mCorr.set (k - 1) q })

/-- `WriteCorrector` (43_integer_compressor.md R305), with the k model of context `ctx`.
DESIGN CHOICE (log entry 14), unsafe: the prose of R303 and of R310 says that every corrector left outside
[corr_min, corr_max] faults, while the pseudocode here faults only for k above `corr_bits`, as
93_implementation_defined.md row 1 does; the model follows the pseudocode and codes the others. -/
def writeCorrector (cap : Option Nat) (c : Coder) (ic : IcRec) (ms : IcModels) (ctx : Nat)
    (corr : Int) : Res (Coder × IcRec) := do
  let k := kClass corr
  let m ← icModel ms.mBits ctx
  if m.last < k then raise .symbolOutOfAlphabet
  else
    let (c, m) ← encSymM cap c m k
    let ms := { ms with mBits := ms.mBits.set ctx m }
    if k = 0 then
      let (c, b) ← encBitM cap c ms.mCorr0 (decide (corr = 1))
      .ok (c, { ic with k := k, models := some { ms with mCorr0 := b } })
    else if k < 32 then
      let (c, ms) ← writeBucket cap ic.bitsHigh.toNat k corr c ms
      .ok (c, { ic with k := k, models := some ms })
    else .ok (c, { ic with k := k, models := some ms })

/-- The corrector's part of `ReadCorrector` for 1 ≤ k ≤ 31 (43_integer_compressor.md R306). -/
def readBucket (bitsHigh k : Nat) (c : Coder) (ms : IcModels) : Res (Int × Coder × IcModels) := do
  let q ← icModel ms.mCorr (k - 1)
  if k ≤ bitsHigh then
    let (v, c, q) ← decSymM c q
    .ok (corrRestore k v, c, { ms with mCorr := ms.mCorr.set (k - 1) q })
  else
    let k1 := k - bitsHigh
    let (hi, c, q) ← decSymM c q
    let (lo, c) ← decBits k1 c
    .ok (corrRestore k ((hi <<< k1) ||| lo), c, { ms with mCorr := ms.mCorr.set (k - 1) q })

/-- `ReadCorrector` (43_integer_compressor.md R306), with the k model of context `ctx`. -/
def readCorrector (c : Coder) (ic : IcRec) (ms : IcModels) (ctx : Nat) :
    Res (Int × Coder × IcRec) := do
  let m ← icModel ms.mBits ctx
  let (k, c, m) ← decSymM c m
  let ms := { ms with mBits := ms.mBits.set ctx m }
  if k = 0 then
    let (b, c, q) ← decBitM c ms.mCorr0
    .ok (if b then 1 else 0, c, { ic with k := k, models := some { ms with mCorr0 := q } })
  else if k < 32 then
    let (v, c, ms) ← readBucket ic.bitsHigh.toNat k c ms
    .ok (v, c, { ic with k := k, models := some ms })
  else .ok (signed ic.corrMin, c, { ic with k := k, models := some ms })

end Sys2Proof.Machine
end

