-- ==== Sys2Proof/Machine/IntegerCompressor.lean ====
section
/-! DEFINITION. The integer-compressor commands: IC_CONFIG, IC_INIT, IC_COMPRESS, IC_DECOMPRESS, IC_GET_K,
IC_FREE (43_integer_compressor.md R308-R313). -/

namespace Sys2Proof.Machine

/-- IC_CONFIG (R308). -/
def execIcConfig (h bits : Nat) (contexts bitsHigh range : Word) (s : State) :
    Host.Outcome State Fault Refusal :=
  command (.icConfig h bits contexts bitsHigh range) anyOpenMode s do
    needEmptyIc s h
    let ic := icDerive bits contexts.toNat bitsHigh range
    if icValid s.cfg.maxIcContexts ic then .ok { s with ics := Store.put s.ics h ic }
    else raise .badIcConfig

/-- IC_INIT (R309): `k` is not changed. -/
def execIcInit (h : Nat) (s : State) : Host.Outcome State Fault Refusal :=
  command (.icInit h) anyOpenMode s do
    let ic ← getIc s h
    .ok { s with ics := Store.put s.ics h { ic with models := some (icInitModels ic) } }

/-- The compressor in slot `h` and its model set, after the checks of R310 and R311: BAD_HANDLE,
BAD_CONTEXT, IC_UNINIT. -/
def getReadyIc (s : State) (h : Nat) (context : Word) : Res (IcRec × IcModels) := do
  let ic ← getIc s h
  if ic.contexts ≤ context.toNat then raise .badContext
  else
    match ic.models with
    | none => raise .icUninit
    | some ms => .ok (ic, ms)

/-- IC_COMPRESS (R310). -/
def execIcCompress (h : Nat) (pred real context : Word) (s : State) :
    Host.Outcome State Fault Refusal :=
  command (.icCompress h pred real context) [.encode] s do
    let (ic, ms) ← getReadyIc s h context
    let corr := icFold ic (signed pred) (signed real)
    let (c, ic) ← writeCorrector s.cfg.outCapacity s.coder ic ms context.toNat corr
    .ok { s with coder := c, ics := Store.put s.ics h ic }

/-- IC_DECOMPRESS (R311). -/
def execIcDecompress (h : Nat) (pred context : Word) (s : State) :
    Host.Outcome State Fault Refusal :=
  command (.icDecompress h pred context) [.decode] s do
    let (ic, ms) ← getReadyIc s h context
    let (corr, c, ic) ← readCorrector s.coder ic ms context.toNat
    let real := icUnfold ic (signed pred) corr
    .ok { s with coder := c, ics := Store.put s.ics h ic, res := zext64 (s32 real).toNat }

/-- IC_GET_K (R312). -/
def execIcGetK (h : Nat) (s : State) : Host.Outcome State Fault Refusal :=
  command (.icGetK h) anyOpenMode s do
    let ic ← getIc s h
    .ok { s with res := zext64 ic.k }

/-- IC_FREE (R313). -/
def execIcFree (h : Nat) (s : State) : Host.Outcome State Fault Refusal :=
  command (.icFree h) anyOpenMode s do
    let _ ← getIc s h
    .ok { s with ics := Store.drop s.ics h }

end Sys2Proof.Machine
end

