-- ==== Sys2Proof/Machine/ModelStore.lean ====
section
/-! DEFINITION. The model commands: MDL_NEW_BIT, MDL_NEW_SYM, MDL_INIT_BIT, MDL_INIT_SYM, MDL_FREE
(42_models.md R258-R262). -/

namespace Sys2Proof.Machine

/-- MDL_NEW_BIT (R258). -/
def execMdlNewBit (h : Nat) (s : State) : Host.Outcome State Fault Refusal :=
  command (.mdlNewBit h) anyOpenMode s do
    needEmptySlot s h
    .ok { s with ms := Store.put s.ms h (.bit bitModelInit) }

/-- MDL_NEW_SYM (R259). -/
def execMdlNewSym (h : Nat) (nsym : Word) (s : State) : Host.Outcome State Fault Refusal :=
  command (.mdlNewSym h nsym) anyOpenMode s do
    needEmptySlot s h
    if nsym.toNat < nsymMin ∨ nsymMax < nsym.toNat then raise .badAlphabet
    else .ok { s with ms := Store.put s.ms h (.sym (symModelNew nsym.toNat)) }

/-- MDL_INIT_BIT (R260). -/
def execMdlInitBit (h : Nat) (s : State) : Host.Outcome State Fault Refusal :=
  command (.mdlInitBit h) anyOpenMode s do
    let _ ← getBit s h
    .ok { s with ms := Store.put s.ms h (.bit bitModelInit) }

/-- MDL_INIT_SYM (R261). -/
def execMdlInitSym (h : Nat) (s : State) : Host.Outcome State Fault Refusal :=
  command (.mdlInitSym h) anyOpenMode s do
    let m ← getSym s h
    .ok { s with ms := Store.put s.ms h (.sym (symModelInit m)) }

/-- MDL_FREE (R262). -/
def execMdlFree (h : Nat) (s : State) : Host.Outcome State Fault Refusal :=
  command (.mdlFree h) anyOpenMode s do
    let _ ← getSlot s h
    .ok { s with ms := Store.drop s.ms h }

end Sys2Proof.Machine
end

