-- ==== Sys2Proof/Machine/Modelled.lean ====
section
/-! DEFINITION. Modelled coding: ENC_BIT, DEC_BIT, ENC_SYM, DEC_SYM (40_entropy_coder.md R165-R168). -/

namespace Sys2Proof.Machine

/-- ENC_BIT (R165). -/
def execEncBit (h : Nat) (bit : Word) (s : State) : Host.Outcome State Fault Refusal :=
  command (.encBit h bit) [.encode] s do
    let m ← getBit s h
    if 1 < bit.toNat then raise .symbolOutOfAlphabet
    else
      let (c, m) ← encBitM s.cfg.outCapacity s.coder m (decide (bit = 1))
      .ok { s with coder := c, ms := Store.put s.ms h (.bit m) }

/-- DEC_BIT (R166). -/
def execDecBit (h : Nat) (s : State) : Host.Outcome State Fault Refusal :=
  command (.decBit h) [.decode] s do
    let m ← getBit s h
    let (b, c, m) ← decBitM s.coder m
    .ok { s with coder := c, ms := Store.put s.ms h (.bit m), res := zext64 b.toNat }

/-- ENC_SYM (R167). -/
def execEncSym (h : Nat) (sym : Word) (s : State) : Host.Outcome State Fault Refusal :=
  command (.encSym h sym) [.encode] s do
    let m ← getReadySym s h
    if m.last < sym.toNat then raise .symbolOutOfAlphabet
    else
      let (c, m) ← encSymM s.cfg.outCapacity s.coder m sym.toNat
      .ok { s with coder := c, ms := Store.put s.ms h (.sym m) }

/-- DEC_SYM (R168). -/
def execDecSym (h : Nat) (s : State) : Host.Outcome State Fault Refusal :=
  command (.decSym h) [.decode] s do
    let m ← getReadySym s h
    let (v, c, m) ← decSymM s.coder m
    .ok { s with coder := c, ms := Store.put s.ms h (.sym m), res := zext64 v }

end Sys2Proof.Machine
end

