-- ==== Sys2Proof/Machine/Raw.lean ====
section
/-! DEFINITION. The fourteen raw-field commands (41_raw_fields.md R204-R217). -/

namespace Sys2Proof.Machine

/-- A raw write: only the coder changes. -/
def writeRaw (s : State) (r : Res Coder) : Res State := do
  let c ← r
  .ok { s with coder := c }

/-- A raw read: the coder changes and the value goes to `RES`. -/
def readRaw (s : State) (r : Res (Nat × Coder)) : Res State := do
  let (v, c) ← r
  .ok { s with coder := c, res := zext64 v }

/-- WR_BITS (R204). -/
def execWrBits (n : Nat) (v : Word) (s : State) : Host.Outcome State Fault Refusal :=
  command (.wrBits n v) [.encode] s
    (if n < 1 ∨ 32 < n then raise .badWidth
     else if 2 ^ n ≤ v.toNat then raise .valueOutOfRange
     else writeRaw s (encBits s.cfg.outCapacity n v.toNat s.coder))

/-- RD_BITS (R205). -/
def execRdBits (n : Nat) (s : State) : Host.Outcome State Fault Refusal :=
  command (.rdBits n) [.decode] s
    (if n < 1 ∨ 32 < n then raise .badWidth else readRaw s (decBits n s.coder))

/-- WR_BYTE (R206). -/
def execWrByte (v : Byte) (s : State) : Host.Outcome State Fault Refusal :=
  command (.wrByte v) [.encode] s (writeRaw s (encRaw s.cfg.outCapacity 8 v.toNat s.coder))

/-- RD_BYTE (R207). -/
def execRdByte (s : State) : Host.Outcome State Fault Refusal :=
  command .rdByte [.decode] s (readRaw s (decRaw 8 s.coder))

/-- WR_SHORT (R208). -/
def execWrShort (v : BitVec 16) (s : State) : Host.Outcome State Fault Refusal :=
  command (.wrShort v) [.encode] s (writeRaw s (encRaw s.cfg.outCapacity 16 v.toNat s.coder))

/-- RD_SHORT (R209). -/
def execRdShort (s : State) : Host.Outcome State Fault Refusal :=
  command .rdShort [.decode] s (readRaw s (decRaw 16 s.coder))

/-- WR_INT (R210). -/
def execWrInt (v : Word) (s : State) : Host.Outcome State Fault Refusal :=
  command (.wrInt v) [.encode] s (writeRaw s (encWord s.cfg.outCapacity v.toNat s.coder))

/-- RD_INT (R211). -/
def execRdInt (s : State) : Host.Outcome State Fault Refusal :=
  command .rdInt [.decode] s (readRaw s (decWord s.coder))

/-- WR_INT64 (R212). -/
def execWrInt64 (v : DWord) (s : State) : Host.Outcome State Fault Refusal :=
  command (.wrInt64 v) [.encode] s (writeRaw s (encDWord s.cfg.outCapacity v.toNat s.coder))

/-- RD_INT64 (R213). -/
def execRdInt64 (s : State) : Host.Outcome State Fault Refusal :=
  command .rdInt64 [.decode] s (readRaw s (decDWord s.coder))

/-- WR_FLOAT (R214): the pattern, as WR_INT codes it. -/
def execWrFloat (v : Word) (s : State) : Host.Outcome State Fault Refusal :=
  command (.wrFloat v) [.encode] s (writeRaw s (encWord s.cfg.outCapacity v.toNat s.coder))

/-- RD_FLOAT (R215): the pattern, as RD_INT reads it. -/
def execRdFloat (s : State) : Host.Outcome State Fault Refusal :=
  command .rdFloat [.decode] s (readRaw s (decWord s.coder))

/-- WR_DOUBLE (R216): the pattern, as WR_INT64 codes it. -/
def execWrDouble (v : DWord) (s : State) : Host.Outcome State Fault Refusal :=
  command (.wrDouble v) [.encode] s (writeRaw s (encDWord s.cfg.outCapacity v.toNat s.coder))

/-- RD_DOUBLE (R217): the pattern, as RD_INT64 reads it. -/
def execRdDouble (s : State) : Host.Outcome State Fault Refusal :=
  command .rdDouble [.decode] s (readRaw s (decDWord s.coder))

end Sys2Proof.Machine
end

