-- ==== Sys2Proof/Machine/Dispatch.lean ====
section
/-! DEFINITION. Which meaning each command has: one arm per constructor of `Instr` (30_encoding.md R114). -/

namespace Sys2Proof.Machine

def exec (i : Instr) (s : State) : Host.Outcome State Fault Refusal :=
  match i with
  | .initEnc => Sys2Proof.Machine.execInitEnc s
  | .initDec => Sys2Proof.Machine.execInitDec s
  | .doneEnc => Sys2Proof.Machine.execDoneEnc s
  | .doneDec => Sys2Proof.Machine.execDoneDec s
  | .rdStatus => Sys2Proof.Machine.execRdStatus s
  | .nop => Sys2Proof.Machine.execNop s
  | .encBit h bit => Sys2Proof.Machine.execEncBit h bit s
  | .decBit h => Sys2Proof.Machine.execDecBit h s
  | .encSym h sym => Sys2Proof.Machine.execEncSym h sym s
  | .decSym h => Sys2Proof.Machine.execDecSym h s
  | .wrBits n v => Sys2Proof.Machine.execWrBits n v s
  | .rdBits n => Sys2Proof.Machine.execRdBits n s
  | .wrByte v => Sys2Proof.Machine.execWrByte v s
  | .rdByte => Sys2Proof.Machine.execRdByte s
  | .wrShort v => Sys2Proof.Machine.execWrShort v s
  | .rdShort => Sys2Proof.Machine.execRdShort s
  | .wrInt v => Sys2Proof.Machine.execWrInt v s
  | .rdInt => Sys2Proof.Machine.execRdInt s
  | .wrInt64 v => Sys2Proof.Machine.execWrInt64 v s
  | .rdInt64 => Sys2Proof.Machine.execRdInt64 s
  | .wrFloat v => Sys2Proof.Machine.execWrFloat v s
  | .rdFloat => Sys2Proof.Machine.execRdFloat s
  | .wrDouble v => Sys2Proof.Machine.execWrDouble v s
  | .rdDouble => Sys2Proof.Machine.execRdDouble s
  | .mdlNewBit h => Sys2Proof.Machine.execMdlNewBit h s
  | .mdlNewSym h nsym => Sys2Proof.Machine.execMdlNewSym h nsym s
  | .mdlInitBit h => Sys2Proof.Machine.execMdlInitBit h s
  | .mdlInitSym h => Sys2Proof.Machine.execMdlInitSym h s
  | .mdlFree h => Sys2Proof.Machine.execMdlFree h s
  | .icConfig h bits contexts bitsHigh range => Sys2Proof.Machine.execIcConfig h bits contexts bitsHigh range s
  | .icInit h => Sys2Proof.Machine.execIcInit h s
  | .icCompress h pred real context => Sys2Proof.Machine.execIcCompress h pred real context s
  | .icDecompress h pred context => Sys2Proof.Machine.execIcDecompress h pred context s
  | .icGetK h => Sys2Proof.Machine.execIcGetK h s
  | .icFree h => Sys2Proof.Machine.execIcFree h s

end Sys2Proof.Machine
end

