-- ==== Sys2Proof/Machine/HostInterface.lean ====
section
/-! DEFINITION. The four host operations (60_exceptions.md R416-R418) and illegal command words (R402 step 2).
The step calls `runHostOp` with the operation it has taken off the list. -/

namespace Sys2Proof.Machine

/-- An illegal command word: ignored in FAULTED (R405), otherwise ILLEGAL_COMMAND with CW[7:0] recorded,
assigned or not (R403). -/
def illegalCommand (c : Command) (s : State) : State :=
  if s.mode = .faulted then s else takeFault .illegalCommand c.opc s

/-- ISSUE (R416): one command by R402. In FAULTED only the word 0x00000005 acts (R405), since it is the
one word that decodes to RD_STATUS. -/
def issue (c : Command) (s : State) : Host.Outcome State Fault Refusal :=
  match decode c with
  | .ok i => exec i s
  | .error _ => .next (illegalCommand c s)

/-- HOST_LOAD_INPUT is accepted (R417). -/
def acceptsInput (s : State) : Bool := decide (s.mode = .idle)

/-- HOST_LOAD_INPUT (R417). -/
def loadInput (bytes : List Byte) (s : State) : State :=
  if acceptsInput s then { s with coder := { s.coder with input := bytes, inpos := 0 } } else s

/-- What ISSUE returns (R416). -/
def State.commandReply (s : State) : Reply := .command s.res s.status

/-- One host operation, with what it returns left in `reply` (R416). -/
def runHostOp (op : HostOp) (s : State) : Host.Outcome State Fault Refusal :=
  match op with
  | .issue c =>
    match issue c s with
    | .next t => .next { t with reply := t.commandReply }
    | .fault r => .fault r
    | .refused r => .refused r
  | .loadInput bytes =>
    .next { loadInput bytes s with reply := if acceptsInput s then .loadOk else .loadRefused }
  | .readOutput => .next { s with reply := .output s.outstream }
  | .reset => .next (resetBlock s)

end Sys2Proof.Machine
end

