-- ==== Sys2Proof/Machine/Step.lean ====
section
/-! DEFINITION. One step: the next host operation, taken off the list and carried out. The block fetches no
instructions (20_memory.md R96); with nothing to do it holds its state (60_exceptions.md R415). -/

namespace Sys2Proof.Machine

/-- One step of the machine. -/
def step (s : State) : Host.Outcome State Fault Refusal :=
  match s.pending with
  | [] => .next s
  | op :: rest => runHostOp op { s with pending := rest }

/-- The state in which the host's next operation is to issue the command with the bits `w`, and nothing
else differs (log entry 2). -/
def State.withFetchWord (s : State) (nbits w : Nat) : State :=
  { s with pending := .issue (commandOfTableWord nbits w) :: s.pending }

end Sys2Proof.Machine
end

