-- ==== Sys2Proof/Reference.lean ====
section
/-! DEFINITION. The range coder as exact integer arithmetic, for claims to compare the machine with.
The encoder is an interval of unbounded integers: its low end is the number whose base-256 digits are `OUTBUF`
and then `BASE` (40_entropy_coder.md R173), so that a carry is plain addition. The decoder is the offset
`VALUE` and the width `LENGTH`. Nothing here is used by the machine. -/

namespace Sys2Proof.Reference

open Sys2Proof.Machine

/-- The number a byte sequence spells, most significant byte first (20_memory.md R81). -/
def bytesNumber (l : List Byte) : Nat := l.foldl (fun n b => n * 256 + b.toNat) 0

/-- The `n` low base-256 digits of a number, most significant first. -/
def digits : Nat → Nat → List Byte
  | 0, _ => []
  | n + 1, v => digits n (v / 256) ++ [BitVec.ofNat 8 v]

/-- How many renormalisation steps a width needs to reach 2^24 (40_entropy_coder.md R153, R155, R161). -/
def renormSteps (width : Nat) : Nat :=
  if 2 ^ 24 ≤ width then 0 else if 2 ^ 16 ≤ width then 1 else if 2 ^ 8 ≤ width then 2 else 3

/-! ## The encoder -/

/-- The encoder's interval: low end, width, and how many bytes have left the 32-bit window. -/
structure Interval where
  number : Nat
  width : Nat
  bytes : Nat
deriving DecidableEq, Repr

/-- The interval a coder holds: E and LENGTH of 40_entropy_coder.md R173. -/
def intervalOf (c : Coder) : Interval where
  number := bytesNumber c.outbuf * 2 ^ 32 + c.base.toNat
  width := c.length.toNat
  bytes := c.outbuf.length

/-- The coder that holds an interval, its decoder side as in `c`. -/
def withInterval (c : Coder) (v : Interval) : Coder :=
  { c with
    base := BitVec.ofNat 32 v.number
    length := BitVec.ofNat 32 v.width
    outbuf := digits v.bytes (v.number / 2 ^ 32) }

/-- Narrow to the part that begins `x` above the low end and is `w` wide, and renormalise. -/
def Interval.part (v : Interval) (x w : Nat) : Interval where
  number := (v.number + x) * 256 ^ renormSteps w
  width := w * 256 ^ renormSteps w
  bytes := v.bytes + renormSteps w

/-- Part `x` of 2^n equal parts (41_raw_fields.md R200). -/
def Interval.raw (v : Interval) (n x : Nat) : Interval :=
  v.part (x * (v.width / 2 ^ n)) (v.width / 2 ^ n)

/-- A field of n bits, split low 16 bits first when wider than 19 (41_raw_fields.md R202). -/
def Interval.field (v : Interval) (n x : Nat) : Interval :=
  if 19 < n then (v.raw 16 (x % 2 ^ 16)).raw (n - 16) (x / 2 ^ 16) else v.raw n x

/-- A field of `n` 16-bit parts, lowest first (41_raw_fields.md R210, R212). -/
def Interval.halves : Nat → Interval → Nat → Interval
  | 0, v, _ => v
  | n + 1, v, x => Interval.halves n (v.raw 16 (x % 2 ^ 16)) (x / 2 ^ 16)

/-- Bit `b` with a probability `p0` of bit 0 (40_entropy_coder.md R157). -/
def Interval.bit (v : Interval) (p0 : Nat) (b : Bool) : Interval :=
  let x := p0 * (v.width / 2 ^ 13)
  if b then v.part x (v.width - x) else v.part 0 x

/-- The two ends of symbol `s` in a width: dist[s] × L, and dist[s+1] × L or the width itself for the last
symbol (40_entropy_coder.md R159). -/
def symbolEnds (dist : List Word) (width s : Nat) : Nat × Nat :=
  let l := width / 2 ^ 15
  ((dist.getD s 0).toNat * l,
   if s + 1 = dist.length then width else (dist.getD (s + 1) 0).toNat * l)

/-- Symbol `s` with a cumulative distribution (40_entropy_coder.md R159). -/
def Interval.symbol (v : Interval) (dist : List Word) (s : Nat) : Interval :=
  let (x, y) := symbolEnds dist v.width s
  v.part x (y - x)

/-! ## The decoder -/

/-- The decoder's window: the offset of the coded number in the interval, the width, the input position. -/
structure Window where
  value : Nat
  width : Nat
  pos : Nat
deriving DecidableEq, Repr

/-- The window a coder holds. -/
def windowOf (c : Coder) : Window where
  value := c.value.toNat
  width := c.length.toNat
  pos := c.inpos

/-- The coder that holds a window, its encoder side as in `c`; `ICOUNT` moves with `INPOS`
(10_state.md R50). -/
def withWindow (c : Coder) (w : Window) : Coder :=
  { c with
    value := BitVec.ofNat 32 w.value
    length := BitVec.ofNat 32 w.width
    inpos := w.pos
    icount := c.icount + BitVec.ofNat 32 (w.pos - c.inpos) }

/-- Move to an offset and a width and renormalise, taking the next bytes of the input into the low end of
the 32-bit offset (40_entropy_coder.md R155). -/
def Window.shift (w : Window) (input : List Byte) (value width : Nat) : Window :=
  let r := renormSteps width
  { value := (value * 256 ^ r + bytesNumber ((input.drop w.pos).take r)) % 2 ^ 32
    width := width * 256 ^ r
    pos := w.pos + r }

/-- The part of a raw field of n bits the offset lies in, before any range check (41_raw_fields.md R201). -/
def Window.rawValue (w : Window) (n : Nat) : Nat := w.value / (w.width / 2 ^ n)

/-- The window after a raw field of n bits (41_raw_fields.md R201). -/
def Window.raw (w : Window) (input : List Byte) (n : Nat) : Window :=
  w.shift input (w.value % (w.width / 2 ^ n)) (w.width / 2 ^ n)

/-- The width of the first step of an n-bit field (41_raw_fields.md R202, R203). -/
def firstStep (n : Nat) : Nat := if 19 < n then 16 else n

/-- The value of an n-bit field (41_raw_fields.md R203). -/
def Window.fieldValue (w : Window) (input : List Byte) (n : Nat) : Nat :=
  if 19 < n then (w.raw input 16).rawValue (n - 16) * 2 ^ 16 + w.rawValue 16 else w.rawValue n

/-- The window after an n-bit field (41_raw_fields.md R203). -/
def Window.field (w : Window) (input : List Byte) (n : Nat) : Window :=
  if 19 < n then (w.raw input 16).raw input (n - 16) else w.raw input n

/-- The value of a field of `n` 16-bit parts, lowest first (41_raw_fields.md R211, R213). -/
def Window.halvesValue : Nat → Window → List Byte → Nat
  | 0, _, _ => 0
  | n + 1, w, input => w.rawValue 16 + 2 ^ 16 * Window.halvesValue n (w.raw input 16) input

/-- The window after a field of `n` 16-bit parts (41_raw_fields.md R211, R213). -/
def Window.halves : Nat → Window → List Byte → Window
  | 0, w, _ => w
  | n + 1, w, input => Window.halves n (w.raw input 16) input

/-- The bit the offset lies in (40_entropy_coder.md R158). -/
def Window.bitValue (w : Window) (p0 : Nat) : Bool := decide (p0 * (w.width / 2 ^ 13) ≤ w.value)

/-- The window after a bit (40_entropy_coder.md R158). -/
def Window.bit (w : Window) (input : List Byte) (p0 : Nat) : Window :=
  let x := p0 * (w.width / 2 ^ 13)
  if w.bitValue p0 then w.shift input (w.value - x) (w.width - x) else w.shift input w.value x

/-- Symbol `s` is the one R160 defines: the largest whose part begins at or below the offset. -/
def Window.isSymbol (w : Window) (dist : List Word) (s : Nat) : Prop :=
  s < dist.length ∧ (dist.getD s 0).toNat * (w.width / 2 ^ 15) ≤ w.value ∧
  ∀ i, s < i → i < dist.length → w.value < (dist.getD i 0).toNat * (w.width / 2 ^ 15)

/-- The window after symbol `s` (40_entropy_coder.md R160). -/
def Window.symbol (w : Window) (input : List Byte) (dist : List Word) (s : Nat) : Window :=
  let (x, y) := symbolEnds dist w.width s
  w.shift input (w.value - x) (y - x)

/-! ## The integer compressor -/

/-- The folded corrector (43_integer_compressor.md R303), where the constants are those of R300, with which no
fold leaves the 32-bit signed range. -/
def foldedCorrector (ic : IcRec) (pred real : Int) : Int :=
  let d := (real - pred).bmod (2 ^ 32)
  if d < ic.corrMin.toInt then d + ic.corrRange.toNat
  else if ic.corrMax.toInt < d then d - ic.corrRange.toNat
  else d

/-- The value rebuilt from a prediction and a corrector (43_integer_compressor.md R307). -/
def unfoldedValue (ic : IcRec) (pred corr : Int) : Int :=
  let r := (pred + corr).bmod (2 ^ 32)
  if r < 0 then (r + ic.corrRange.toNat).bmod (2 ^ 32)
  else if (ic.corrRange.toNat : Int) ≤ r then r - ic.corrRange.toNat
  else r

/-- The interval after the corrector `corr` (43_integer_compressor.md R305, R317): its class with the model
of the context, then a bit, a symbol, or a symbol and a raw field. -/
def Interval.corrector (v : Interval) (ic : IcRec) (ms : IcModels) (ctx : Nat) (corr : Int) : Interval :=
  let k := kClass corr
  let v := v.symbol (ms.mBits.getD ctx (symModelNew 0)).dist k
  let dist := (ms.mCorr.getD (k - 1) (symModelNew 0)).dist
  let x := corrAdjust k corr
  if k = 0 then v.bit ms.mCorr0.p0.toNat (decide (corr = 1))
  else if 32 ≤ k then v
  else if k ≤ ic.bitsHigh.toNat then v.symbol dist x
  else
    (v.symbol dist (x / 2 ^ (k - ic.bitsHigh.toNat))).field (k - ic.bitsHigh.toNat)
      (x % 2 ^ (k - ic.bitsHigh.toNat))

/-- The compressor after coding or decoding a corrector of class `k` whose modelled part is the bit `b`
(k = 0) or the symbol `q` (43_integer_compressor.md R305, R306): `k` is kept and the models that took part
have adapted. -/
def codedCompressor (ic : IcRec) (ms : IcModels) (ctx k : Nat) (b : Bool) (q : Nat) : IcRec :=
  let ms := { ms with mBits := ms.mBits.modify ctx (fun m => symModelCoded m k) }
  let ms :=
    if k = 0 then { ms with mCorr0 := bitModelCoded ms.mCorr0 b }
    else if 32 ≤ k then ms
    else { ms with mCorr := ms.mCorr.modify (k - 1) (fun m => symModelCoded m q) }
  { ic with k := k, models := some ms }

/-- The symbol of the modelled part of a corrector (43_integer_compressor.md R305). -/
def modelledPart (ic : IcRec) (corr : Int) : Nat :=
  let k := kClass corr
  corrAdjust k corr / 2 ^ (k - ic.bitsHigh.toNat)

end Sys2Proof.Reference
end

