-- ==== Sys2Proof/Safety.lean ====
section
/-! DEFINITION. What a sound state is: the bounds the spec derives for records and registers (10_state.md
R42, R44, 40_entropy_coder.md R161, R173), the canonical form of the stores, and the agreement of the status
fields. A run is safe when every state of it is sound and no step stops. -/

namespace Sys2Proof.Machine

open Sys2Proof.Reference

/-- The bounds of R42, and the balance of 42_models.md R263 that keeps them: the bits counted since the last
update are `cycle` - `until`. -/
def BitModel.ok (m : BitModel) : Bool :=
  decide (1 ≤ m.p0.toNat) && decide (m.p0.toNat ≤ 8191) &&
  decide (1 ≤ m.b0count.toNat) &&
  decide (2 ≤ m.count.toNat) && decide (m.count.toNat ≤ 8192) &&
  decide (4 ≤ m.cycle.toNat) && decide (m.cycle.toNat ≤ 64) &&
  decide (1 ≤ m.remaining.toNat) && decide (m.remaining.toNat ≤ m.cycle.toNat) &&
  decide (m.b0count.toNat + m.remaining.toNat < m.count.toNat + m.cycle.toNat)

/-- The shape of a symbol model: its alphabet and its decode-table geometry (10_state.md R43, R45). -/
def SymModel.shapeOk (m : SymModel) : Bool :=
  decide (2 ≤ m.nsym) && decide (m.nsym ≤ 2048) &&
  decide ((m.tsize.toNat, m.tshift.toNat) = symModelGeometry m.nsym)

/-- The bounds of R44 for an initialised symbol model, the balance of counts of 42_models.md R254, and the
decode table of R255. -/
def SymModel.tablesOk (m : SymModel) : Bool :=
  decide (m.cnt.length = m.nsym) && m.cnt.all (fun c => decide (1 ≤ c.toNat)) &&
  decide (sumWords m.cnt + m.remaining.toNat = m.total.toNat + m.cycle.toNat) &&
  decide (m.nsym ≤ m.total.toNat) && decide (m.total.toNat ≤ 32768) &&
  decide (1 ≤ m.remaining.toNat) && decide (m.remaining.toNat ≤ m.cycle.toNat) &&
  decide (m.cycle.toNat ≤ (m.nsym + 6) * 8) &&
  decide (m.dist.length = m.nsym) && decide (m.dist.head? = some 0) &&
  decide (m.dist.Pairwise (fun x y => x.toNat < y.toNat)) &&
  m.dist.all (fun d => decide (d.toNat < 32768)) &&
  decide (m.dtab =
    if m.tsize = 0 then [] else buildTable m.tsize.toNat m.tshift.toNat m.last m.dist)

/-- A symbol model that may be coded with. -/
def SymModel.readyOk (m : SymModel) : Bool := m.shapeOk && m.init && m.tablesOk

/-- A symbol-model record: ready, or as MDL_NEW_SYM left it (42_models.md R259). -/
def SymModel.ok (m : SymModel) : Bool :=
  m.shapeOk && (if m.init then m.tablesOk else decide (m = symModelNew m.nsym))

/-- What a filled slot may hold. -/
def Slot.ok : Slot → Bool
  | .bit m => m.ok
  | .sym m => m.ok

/-- The model set of a compressor (10_state.md R49, 43_integer_compressor.md R302). -/
def IcModels.ok (ic : IcRec) (ms : IcModels) : Bool :=
  decide (ms.mBits.length = ic.contexts) &&
  ms.mBits.all (fun m => m.readyOk && decide (m.nsym = ic.corrBits + 1)) &&
  ms.mCorr0.ok && ms.mCorr.all SymModel.readyOk &&
  decide (ms.mCorr.map SymModel.nsym =
    (List.range ic.corrBits).map (fun j => 2 ^ min (j + 1) ic.bitsHigh.toNat))

/-- A compressor record: a valid configuration and its derived constants (43_integer_compressor.md R300,
R301), a last exponent its models can code, and its models if it is ready. -/
def IcRec.ok (maxContexts : Nat) (ic : IcRec) : Bool :=
  decide ({ ic with k := 0, models := none } = icDerive ic.bits ic.contexts ic.bitsHigh ic.range) &&
  icValid maxContexts ic && decide (ic.k ≤ ic.corrBits) &&
  (match ic.models with
   | none => true
   | some ms => ms.ok ic)

/-- A buffer of `n` bytes is within `OUT_CAPACITY`. -/
def fits (g : Config) (n : Nat) : Bool :=
  match g.outCapacity with
  | none => true
  | some cap => decide (n ≤ cap)

/-- The coder registers in a mode: the width of R161 and the bound E + LENGTH of R173 while a chunk is open,
and no byte in `OUTBUF` outside an encoder chunk. -/
def Coder.ok (mode : Mode) (c : Coder) : Bool :=
  match mode with
  | .idle => decide (c.outbuf = [])
  | .encode =>
    decide (2 ^ 24 ≤ c.length.toNat) &&
    decide ((intervalOf c).number + c.length.toNat ≤ 2 ^ (8 * c.outbuf.length + 32))
  | .decode => decide (2 ^ 24 ≤ c.length.toNat) && decide (c.outbuf = [])
  | .faulted => true

/-- The fault record agrees with the mode (10_state.md R36, 60_exceptions.md R403). -/
def State.recordOk (s : State) : Bool :=
  if s.mode = .faulted then decide (s.fcode ≠ .none)
  else decide (s.fcode = .none) && decide (s.fopc = 0)

/-- A sound state. -/
def State.sound (s : State) : Bool :=
  s.cfg.ok && s.recordOk && s.coder.ok s.mode &&
  fits s.cfg s.coder.outbuf.length && decide (s.coder.inpos ≤ s.coder.input.length) &&
  Store.wf s.cfg.modelSlots s.ms && s.ms.all (fun x => x.2.ok) &&
  Store.wf s.cfg.icSlots s.ics && s.ics.all (fun x => x.2.ok s.cfg.maxIcContexts)

/-- The modes of a command's row in the mode table (60_exceptions.md R420), FAULTED left aside. -/
def modesOf : Instr → List Mode
  | .initEnc => [.idle]
  | .initDec => [.idle]
  | .doneEnc => [.encode]
  | .doneDec => [.decode]
  | .rdStatus => [.idle, .encode, .decode]
  | .nop => [.idle, .encode, .decode]
  | .encBit _ _ => [.encode]
  | .decBit _ => [.decode]
  | .encSym _ _ => [.encode]
  | .decSym _ => [.decode]
  | .wrBits _ _ => [.encode]
  | .rdBits _ => [.decode]
  | .wrByte _ => [.encode]
  | .rdByte => [.decode]
  | .wrShort _ => [.encode]
  | .rdShort => [.decode]
  | .wrInt _ => [.encode]
  | .rdInt => [.decode]
  | .wrInt64 _ => [.encode]
  | .rdInt64 => [.decode]
  | .wrFloat _ => [.encode]
  | .rdFloat => [.decode]
  | .wrDouble _ => [.encode]
  | .rdDouble => [.decode]
  | .mdlNewBit _ => [.idle, .encode, .decode]
  | .mdlNewSym _ _ => [.idle, .encode, .decode]
  | .mdlInitBit _ => [.idle, .encode, .decode]
  | .mdlInitSym _ => [.idle, .encode, .decode]
  | .mdlFree _ => [.idle, .encode, .decode]
  | .icConfig _ _ _ _ _ => [.idle, .encode, .decode]
  | .icInit _ => [.idle, .encode, .decode]
  | .icCompress _ _ _ _ => [.encode]
  | .icDecompress _ _ _ => [.decode]
  | .icGetK _ => [.idle, .encode, .decode]
  | .icFree _ => [.idle, .encode, .decode]

/-- The commands that reach the model store (20_memory.md R80). -/
def reachesModels (i : Instr) : Bool :=
  match i.opcode.toNat with
  | 0x10 | 0x11 | 0x12 | 0x13 => true
  | 0x30 | 0x31 | 0x32 | 0x33 | 0x34 => true
  | _ => false

/-- The commands that reach the compressor store (20_memory.md R80). -/
def reachesCompressors (i : Instr) : Bool :=
  match i.opcode.toNat with
  | 0x40 | 0x41 | 0x42 | 0x43 | 0x44 | 0x45 => true
  | _ => false

/-- The commands that create what their slot holds, and so need it `Empty` (60_exceptions.md R401). -/
def creates (i : Instr) : Bool :=
  match i.opcode.toNat with
  | 0x30 | 0x31 | 0x40 => true
  | _ => false

/-- The commands that write a result to `RES` (30_encoding.md R113). -/
def writesRes (i : Instr) : Bool :=
  match i.opcode.toNat with
  | 0x03 | 0x04 | 0x05 => true
  | 0x11 | 0x13 => true
  | 0x21 | 0x23 | 0x25 | 0x27 | 0x29 | 0x2B | 0x2D => true
  | 0x43 | 0x44 => true
  | _ => false

/-- The commands that write `STATUS.MODE` when they complete (10_state.md R54). -/
def writesMode (i : Instr) : Bool :=
  match i.opcode.toNat with
  | 0x01 | 0x02 | 0x03 | 0x04 => true
  | _ => false

/-- The bits of operand A that a command with this opcode reads (30_encoding.md R113). -/
def readsA (opc : Byte) : DWord :=
  match opc.toNat with
  | 0x28 | 0x2C | 0x40 | 0x42 => 0xFFFFFFFFFFFFFFFF#64
  | 0x43 => 0x00000000FFFFFFFF#64
  | _ => 0

/-- The bits of operand B that a command with this opcode reads (30_encoding.md R113). -/
def readsB (opc : Byte) : Word :=
  match opc.toNat with
  | 0x10 | 0x12 | 0x20 | 0x26 | 0x2A | 0x31 | 0x40 | 0x42 | 0x43 => 0xFFFFFFFF#32
  | 0x22 => 0x000000FF#32
  | 0x24 => 0x0000FFFF#32
  | _ => 0

/-- The state after a fault of the command with opcode `opc` (60_exceptions.md R403, R404). -/
def faulted (s : State) (code : FaultCode) (opc : Byte) : Host.Outcome State Fault Refusal :=
  .next { s with mode := .faulted, fcode := code, fopc := opc }

/-- What a raw read answers that moves to the window `first` in its first step, of `n` bits, and to `last`
in its last, with value `v`: the input runs out, the first step is out of range, the input runs out later,
or the read completes (41_raw_fields.md R201, R404). -/
def rawReadAnswer (s : State) (opc : Byte) (n : Nat) (first last : Window) (v : Nat) :
    Host.Outcome State Fault Refusal :=
  if s.coder.input.length < first.pos then faulted s .inputExhausted opc
  else if 2 ^ n ≤ (windowOf s.coder).rawValue n then faulted s .rawDecodeRange opc
  else if s.coder.input.length < last.pos then faulted s .inputExhausted opc
  else .next { s with
    coder := withWindow s.coder last, res := BitVec.ofNat 64 v, ccount := s.ccount + 1 }

/-- What a raw write answers that ends in the interval `v`: it completes if the bytes fit
(40_entropy_coder.md R151). -/
def writeAnswer (s : State) (opc : Byte) (v : Interval) : Host.Outcome State Fault Refusal :=
  if fits s.cfg v.bytes then
    .next { s with coder := withInterval s.coder v, ccount := s.ccount + 1 }
  else faulted s .outputOverflow opc

/-- The encoder `c` and the decoder `d` stand at matching positions of a chunk that begins at position `at0`
of the decoder's input: equal widths, four bytes of lookahead, and `VALUE` the offset of the bytes read so
far in the encoder's interval, inside it (40_entropy_coder.md R162). -/
def synced (c d : Coder) (at0 : Nat) : Prop :=
  d.length = c.length ∧ d.inpos = at0 + (c.outbuf.length + 4) ∧ d.inpos ≤ d.input.length ∧
  (intervalOf c).number + d.value.toNat =
    bytesNumber ((d.input.drop at0).take (c.outbuf.length + 4)) ∧
  d.value.toNat < c.length.toNat

/-- The bytes `f` spell a number inside the interval of `c`: a chunk that a later state of this encoder
writes does (40_entropy_coder.md R162, R173). -/
def leadsInto (f : List Byte) (c : Coder) : Prop :=
  c.outbuf.length + 4 ≤ f.length ∧
  (intervalOf c).number ≤ bytesNumber (f.take (c.outbuf.length + 4)) ∧
  bytesNumber (f.take (c.outbuf.length + 4)) < (intervalOf c).number + c.length.toNat

/-- Run a list of commands, each of which must complete (a next state that is not FAULTED). -/
def runAll : List Instr → State → Option State
  | [], s => some s
  | i :: rest, s =>
    match exec i s with
    | .next t => if t.mode = .faulted then none else runAll rest t
    | .fault _ => none
    | .refused _ => none

/-- Run a list of commands, each of which must complete, and with the value beside it in `RES` where one
stands there. -/
def runReading : List (Instr × Option DWord) → State → Option State
  | [], s => some s
  | (i, v) :: rest, s =>
    match exec i s with
    | .next t => if t.mode = .faulted ∨ (v ≠ none ∧ v ≠ some t.res) then none else runReading rest t
    | .fault _ => none
    | .refused _ => none

/-- The pairs that a compressor decodes back to `real` (43_integer_compressor.md R314): all of them without a
range, and those below a range of at most 0x55555556 or of 2^31. -/
def invertible (ic : IcRec) (pred real : Word) : Bool :=
  decide (ic.corrRange = 0) ||
  (decide (pred.toNat < ic.corrRange.toNat) && decide (real.toNat < ic.corrRange.toNat) &&
   (decide (ic.corrRange.toNat ≤ 0x55555556) || decide (ic.corrRange.toNat = 2 ^ 31)))

/-- The decoder's command that mirrors an encoder's command issued in state `s` inside a chunk, and the value
it should return where the rules promise one (70_reset_and_hazards.md R453, R455, R456): the reads return what
was written, IC_DECOMPRESS in the cases of 43_integer_compressor.md R314, and IC_GET_K the same k (R316).
Model and compressor commands, NOP and RD_STATUS mirror themselves; what RD_STATUS returns depends on the
mode and on `CCOUNT`, so no value stands there. -/
def mirror (s : State) : Instr → Option (Instr × Option DWord)
  | .encBit h bit => some (.decBit h, some (zext64 bit.toNat))
  | .encSym h sym => some (.decSym h, some (zext64 sym.toNat))
  | .wrBits n v => some (.rdBits n, some (zext64 v.toNat))
  | .wrByte v => some (.rdByte, some (zext64 v.toNat))
  | .wrShort v => some (.rdShort, some (zext64 v.toNat))
  | .wrInt v => some (.rdInt, some (zext64 v.toNat))
  | .wrInt64 v => some (.rdInt64, some v)
  | .wrFloat v => some (.rdFloat, some (zext64 v.toNat))
  | .wrDouble v => some (.rdDouble, some v)
  | .icCompress h pred real context =>
    some (.icDecompress h pred context,
      match Store.find s.ics h with
      | none => none
      | some ic => if invertible ic pred real then some (zext64 real.toNat) else none)
  | .icGetK h => some (.icGetK h, (Store.find s.ics h).map (fun ic => BitVec.ofNat 64 ic.k))
  | .rdStatus => some (.rdStatus, none)
  | .nop => some (.nop, none)
  | .mdlNewBit h => some (.mdlNewBit h, none)
  | .mdlNewSym h nsym => some (.mdlNewSym h nsym, none)
  | .mdlInitBit h => some (.mdlInitBit h, none)
  | .mdlInitSym h => some (.mdlInitSym h, none)
  | .mdlFree h => some (.mdlFree h, none)
  | .icConfig h bits contexts bitsHigh range => some (.icConfig h bits contexts bitsHigh range, none)
  | .icInit h => some (.icInit h, none)
  | .icFree h => some (.icFree h, none)
  | .initEnc => none
  | .initDec => none
  | .doneEnc => none
  | .doneDec => none
  | .decBit _ => none
  | .decSym _ => none
  | .rdBits _ => none
  | .rdByte => none
  | .rdShort => none
  | .rdInt => none
  | .rdInt64 => none
  | .rdFloat => none
  | .rdDouble => none
  | .icDecompress _ _ _ => none

/-- The commands that mirror a list of commands which the encoder runs from `s`. -/
def mirrorAll : List Instr → State → Option (List (Instr × Option DWord))
  | [], _ => some []
  | i :: rest, s =>
    match mirror s i, exec i s with
    | some r, .next t => (mirrorAll rest t).map (r :: ·)
    | _, _ => none

end Sys2Proof.Machine
end

