-- ==== Sys2Proof/Certificates/Slice0/Obligations.lean ====
section
/-! DEFINITION. What is claimed of the model, stated from the numbered rules of spec/. -/

open Sys2Proof Sys2Proof.Machine Sys2Proof.Reference

/-! ## Encoding -/

/-- Decoding an encoded well-formed command gives it back, with every operand at every value its encoding
admits (30_encoding.md R111-R114, R119). -/
def Obligations.DecodeOfEncodeIsTheCommand : Prop :=
  ∀ i : Instr, i.wellFormed → decode (encode i) = .ok i

/-- A word that decodes is the word of the command it decodes to, which is well formed: no two words mean
the same command with the same fields (30_encoding.md R111, R116). -/
def Obligations.DecodedWordIsTheCommandsWord : Prop :=
  ∀ (c : Command) (i : Instr), decode c = .ok i → i.wellFormed ∧ (encode i).cw = c.cw

/-- The example words of 30_encoding.md R132 decode to the commands the table names. -/
def Obligations.ExampleWordsDecodeAsListed : Prop :=
  decode ⟨0x00000001#32, 0, 0⟩ = .ok .initEnc ∧
  decode ⟨0x00000310#32, 0, 1⟩ = .ok (.encBit 3 1) ∧
  decode ⟨0x00000112#32, 0, 3⟩ = .ok (.encSym 1 3) ∧
  decode ⟨0x01400020#32, 0, 0x000ABCDE#32⟩ = .ok (.wrBits 20 0xABCDE#32) ∧
  decode ⟨0x00000028#32, 0x0123456789ABCDEF#64, 0⟩ = .ok (.wrInt64 0x0123456789ABCDEF#64) ∧
  decode ⟨0x00000731#32, 0, 256⟩ = .ok (.mdlNewSym 7 256) ∧
  decode ⟨0x01000240#32, 0x0000000800000000#64, 2⟩ = .ok (.icConfig 2 16 2 8 0) ∧
  decode ⟨0x00000242#32, 0x0000006500000064#64, 1⟩ = .ok (.icCompress 2 100 101 1) ∧
  decode ⟨0x00000042#32, 0xFFFFFFFF00000000#64, 0⟩ = .ok (.icCompress 0 0 0xFFFFFFFF#32 0) ∧
  decode ⟨0x00000243#32, 0x0000000000000064#64, 1⟩ = .ok (.icDecompress 2 100 1)

/-- A command word is rejected exactly when it has reserved bits set, an opcode R114 does not list, or a
nonzero field that its opcode's format does not use (30_encoding.md R115-R117, R119). -/
def Obligations.RejectedWordsAreTheIllegalOnes : Prop :=
  ∀ c : Command, (∃ e, decode c = .error e) ↔
    (c.cw.extractLsb' 26 6 ≠ 0 ∨
     (∀ i : Instr, i.opcode ≠ c.cw.extractLsb' 0 8) ∨
     (∃ i : Instr, i.opcode = c.cw.extractLsb' 0 8 ∧ c.cw &&& i.format.mask ≠ i.opcode.setWidth 32))

/-- Operand bits a command does not read are ignored: whether a word decodes does not depend on A and B, and
what it decodes to depends only on the bits R113 lists for its opcode. -/
def Obligations.UnreadOperandBitsAreIgnored : Prop :=
  ∀ c d : Command, c.cw = d.cw →
    ((∃ i, decode c = .ok i) ↔ (∃ i, decode d = .ok i)) ∧
    (c.a &&& readsA c.opc = d.a &&& readsA c.opc → c.b &&& readsB c.opc = d.b &&& readsB c.opc →
      decode c = decode d)

/-! ## Steps and host operations -/

/-- When the host's next operation issues a word that decodes to `i`, the step answers what `exec i` answers in
the state without that operation, and with a next state what ISSUE returns (`RES` and `STATUS` afterwards) stands in
`reply` (60_exceptions.md R416; the list and the reply are the model's, log entries 2 and 3). -/
def Obligations.StepRunsTheDecodedCommand : Prop :=
  ∀ (s : State) (c : Command) (rest : List HostOp) (i : Instr),
    s.pending = .issue c :: rest → decode c = .ok i →
    step s =
      match exec i { s with pending := rest } with
      | .next t => .next { t with reply := .command t.res t.status }
      | .fault r => .fault r
      | .refused r => .refused r

/-- A word that does not decode, issued in any mode but FAULTED, faults ILLEGAL_COMMAND with its bits 7:0
recorded, assigned opcode or not, and CCOUNT, RES and everything else as before (60_exceptions.md R403). The list of
operations and the reply are the model's own (log entries 2 and 3). -/
def Obligations.IllegalWordFaultsIllegalCommand : Prop :=
  ∀ (s : State) (c : Command) (rest : List HostOp) (e : Reject),
    s.pending = .issue c :: rest → decode c = .error e → s.mode ≠ .faulted →
    let t := { s with
      pending := rest, mode := .faulted, fcode := .illegalCommand, fopc := c.cw.extractLsb' 0 8 }
    step s = .next { t with reply := .command s.res t.status }

/-- HOST_LOAD_INPUT in IDLE sets IN, clears INPOS and returns ok; in any other mode it returns refused and
changes nothing; it never advances CCOUNT (60_exceptions.md R417). HOST_READ_OUTPUT returns OUTSTREAM, in any mode,
and changes nothing (R418). The list of operations and the reply are the model's own (log entries 2 and 3). -/
def Obligations.HostLoadsInIdleAndReadsAnywhere : Prop :=
  ∀ (s : State) (rest : List HostOp),
    (∀ bytes, s.pending = .loadInput bytes :: rest →
      step s = .next
        (if s.mode = .idle then
          { s with
            coder := { s.coder with input := bytes, inpos := 0 }, pending := rest, reply := .loadOk }
         else { s with pending := rest, reply := .loadRefused })) ∧
    (s.pending = .readOutput :: rest →
      step s = .next { s with pending := rest, reply := .output s.outstream })

/-- Reset gives the values of 10_state.md R53, in the state the model starts from and at the RESET operation,
from any state (70_reset_and_hazards.md R450): BASE 0, LENGTH 0xFFFFFFFF, VALUE 0, RES 0, STATUS 0, CCOUNT 0, the
buffers and streams empty, every slot Empty. The parameters and what the host does next stay, which is the model's
choice (log entries 1 and 2). -/
def Obligations.ResetGivesTheListedValues : Prop :=
  (∀ g : Config, let s := State.resetWith g
    s.coder.base = 0 ∧ s.coder.length = 0xFFFFFFFF#32 ∧ s.coder.value = 0 ∧ s.res = 0 ∧
    s.mode = .idle ∧ s.fcode = .none ∧ s.fopc = 0 ∧ s.status = 0 ∧ s.ccount = 0 ∧
    s.coder.outbuf = [] ∧ s.outstream = [] ∧
    s.coder.input = [] ∧ s.coder.inpos = 0 ∧ s.coder.icount = 0 ∧
    (∀ h, Store.find s.ms h = none) ∧ (∀ h, Store.find s.ics h = none)) ∧
  State.reset = State.resetWith Config.largest ∧
  (∀ (s : State) (rest : List HostOp), s.pending = .reset :: rest →
    step s = .next { State.resetWith s.cfg with pending := rest })

/-- The state after reset is sound, for every allowed value of the parameters. -/
def Obligations.ResetStateIsSound : Prop :=
  State.reset.sound ∧ ∀ g : Config, g.ok → (State.resetWith g).sound

/-! ## Whole-machine rules -/

/-- Soundness is kept by every step: the bounds of R42, R44, R161 and R173, the canonical form of the stores
and the agreement of the fault record with the mode. -/
def Obligations.StepKeepsSoundness : Prop :=
  ∀ s t : State, s.sound → step s = .next t → t.sound

/-- From a sound state every step answers a next state: no command stops or is refused, whatever the host
issues (60_exceptions.md R408). -/
def Obligations.SoundStateAlwaysSteps : Prop :=
  ∀ s : State, s.sound → ∃ t, step s = .next t

/-- A command that takes a fault leaves every piece of state as it was, but for MODE, FCODE and FOPC, and
FOPC receives the command's opcode (60_exceptions.md R403, R404). -/
def Obligations.FaultDiscardsAllButItsRecord : Prop :=
  ∀ (i : Instr) (s t : State), exec i s = .next t → s.mode ≠ .faulted → t.mode = .faulted →
    t = { s with mode := .faulted, fcode := t.fcode, fopc := i.opcode } ∧ t.fcode ≠ .none

/-- In FAULTED the word 0x00000005 returns CCOUNT and STATUS without advancing CCOUNT, and every other word,
legal or not, changes nothing (60_exceptions.md R405). The list of operations and the reply are the model's own (log
entries 2 and 3). -/
def Obligations.FaultedBlockRunsOnlyRdStatus : Prop :=
  ∀ (s : State) (c : Command) (rest : List HostOp), s.pending = .issue c :: rest → s.mode = .faulted →
    step s = .next
      (if c.cw = 0x00000005#32 then
        { s with
          res := s.ccount ++ s.status, pending := rest,
          reply := .command (s.ccount ++ s.status) s.status }
       else { s with pending := rest, reply := .command s.res s.status })

/-- Only reset leaves FAULTED mode (60_exceptions.md R406); that operations come off a list is the model's own
(log entry 2). -/
def Obligations.OnlyResetLeavesFaulted : Prop :=
  ∀ s t : State, s.mode = .faulted → step s = .next t → t.mode ≠ .faulted →
    ∃ rest, s.pending = .reset :: rest

/-- A command issued in a mode that its row of the mode table does not allow faults WRONG_MODE, and no
command takes that fault in a mode its row allows (60_exceptions.md R420). -/
def Obligations.WrongModeExactlyOutsideTheTable : Prop :=
  ∀ (i : Instr) (s : State), s.mode ≠ .faulted →
    (s.mode ∉ modesOf i → exec i s = faulted s .wrongMode i.opcode) ∧
    (s.mode ∈ modesOf i → ∀ t, exec i s = .next t → t.mode = .faulted → t.fcode ≠ .wrongMode)

/-- Each command that completes without a fault advances CCOUNT by 1 modulo 2^32, and no command sets it to
any other value (10_state.md R31). -/
def Obligations.CompletedCommandAdvancesCcount : Prop :=
  ∀ (i : Instr) (s t : State), exec i s = .next t →
    t.ccount = (if s.mode ≠ .faulted ∧ t.mode ≠ .faulted then s.ccount + 1 else s.ccount)

/-- A command that produces no result, and any command that faults, leaves RES unchanged (10_state.md R35,
30_encoding.md R113). -/
def Obligations.ResKeptWithoutAResult : Prop :=
  ∀ (i : Instr) (s t : State), exec i s = .next t →
    (writesRes i = false ∨ (s.mode ≠ .faulted ∧ t.mode = .faulted)) → t.res = s.res

/-- A byte in OUTSTREAM is final: a command only ever appends to it, and only DONE_ENC does
(20_memory.md R92, R93; 10_state.md R39). -/
def Obligations.OutstreamOnlyGrowsAndOnlyAtDoneEnc : Prop :=
  ∀ (i : Instr) (s t : State), exec i s = .next t →
    ∃ chunk, t.outstream = s.outstream ++ chunk ∧ (i ≠ .doneEnc → chunk = [])

/-- A command changes a slot only of the store it reaches and only at its own handle (20_memory.md R80). -/
def Obligations.StoresChangeOnlyAtTheHandle : Prop :=
  ∀ (i : Instr) (s t : State), exec i s = .next t →
    (reachesModels i = false → t.ms = s.ms) ∧ (reachesCompressors i = false → t.ics = s.ics) ∧
    (∀ j, i.handle? ≠ some j →
      Store.find t.ms j = Store.find s.ms j ∧ Store.find t.ics j = Store.find s.ics j)

/-- Commands of the encoder leave VALUE, IN, INPOS and ICOUNT; commands of the decoder leave BASE and
OUTBUF; IN never changes; model and compressor set-up, RD_STATUS, NOP and IC_GET_K leave all seven (10_state.md R32,
R34, R50, R54). -/
def Obligations.CommandsLeaveTheOtherCoder : Prop :=
  ∀ (i : Instr) (s t : State), exec i s = .next t →
    (modesOf i = [.encode] ∨ i = .initEnc →
      t.coder.value = s.coder.value ∧ t.coder.input = s.coder.input ∧
      t.coder.inpos = s.coder.inpos ∧ t.coder.icount = s.coder.icount) ∧
    (modesOf i = [.decode] ∨ i = .initDec →
      t.coder.base = s.coder.base ∧ t.coder.outbuf = s.coder.outbuf ∧
      t.coder.input = s.coder.input) ∧
    (modesOf i = [.idle, .encode, .decode] → t.coder = s.coder)

/-- No command but INIT_ENC, INIT_DEC, DONE_ENC and DONE_DEC writes STATUS, except through a fault, and in
FAULTED none does (60_exceptions.md R405); and no command changes the parameters, the host's list or the last reply
(10_state.md R52, R54; the last three are the model's own fields, log entries 1 to 3). -/
def Obligations.StatusChangesOnlyAtChunkEndsAndFaults : Prop :=
  ∀ (i : Instr) (s t : State), exec i s = .next t →
    (writesMode i = false → t.mode = .faulted ∨ t.status = s.status) ∧
    (s.mode = .faulted → t.status = s.status) ∧
    (t.mode ≠ .faulted → t.fcode = s.fcode ∧ t.fopc = s.fopc) ∧
    t.cfg = s.cfg ∧ t.pending = s.pending ∧ t.reply = s.reply

/-- No command raises CARRY_UNDERFLOW in a sound state: only a block that is already FAULTED with that code
shows it afterwards (40_entropy_coder.md R173). -/
def Obligations.CarryNeverPassesTheFirstByte : Prop :=
  ∀ (i : Instr) (s t : State), s.sound → exec i s = .next t →
    t.fcode ≠ .carryUnderflow ∨ s.mode = .faulted ∧ s.fcode = .carryUnderflow

/-! ## Coder control and status -/

/-- INIT_ENC in IDLE sets BASE to 0, LENGTH to 0xFFFFFFFF, OUTBUF to empty and MODE to ENCODE, and touches
nothing else but CCOUNT (40_entropy_coder.md R163). -/
def Obligations.InitEncOpensAnEmptyChunk : Prop :=
  ∀ s : State, s.mode = .idle →
    exec .initEnc s = .next { s with
      coder := { s.coder with base := 0, length := 0xFFFFFFFF#32, outbuf := [] }
      mode := .encode, ccount := s.ccount + 1 }

/-- INIT_DEC in IDLE sets LENGTH to 0xFFFFFFFF, takes the next four bytes of IN into VALUE, the first one
the most significant, counts them in ICOUNT, and enters DECODE; with fewer than four bytes left it faults
INPUT_EXHAUSTED and consumes nothing (40_entropy_coder.md R164). -/
def Obligations.InitDecPrimesFourBytes : Prop :=
  ∀ s : State, s.mode = .idle →
    (∀ c0 c1 c2 c3 rest, s.coder.input.drop s.coder.inpos = c0 :: c1 :: c2 :: c3 :: rest →
      exec .initDec s = .next { s with
        coder := { s.coder with
          length := 0xFFFFFFFF#32, value := c0 ++ c1 ++ c2 ++ c3,
          inpos := s.coder.inpos + 4, icount := 4 }
        mode := .decode, ccount := s.ccount + 1 }) ∧
    (s.coder.input.length < s.coder.inpos + 4 → exec .initDec s = faulted s .inputExhausted 0x02#8)

/-- DONE_ENC appends a chunk of exactly four bytes more than OUTBUF held: the number E + 2^24 with its low
24 bits cleared if LENGTH > 2^25, and E + 2^23 with its low 16 bits cleared otherwise. BASE is left at
u32((BASE + 2^24) << 8) or u32((BASE + 2^23) << 16), LENGTH at 2^31, OUTBUF empty, MODE IDLE and RES the chunk's length;
if the four bytes do not fit it faults OUTPUT_OVERFLOW (40_entropy_coder.md R153, R169). -/
def Obligations.DoneEncFlushesFourBytes : Prop :=
  ∀ s : State, s.sound → s.mode = .encode →
    ∃ chunk, chunk.length = s.coder.outbuf.length + 4 ∧
      bytesNumber chunk =
        (if 2 ^ 25 < s.coder.length.toNat
         then ((intervalOf s.coder).number + 2 ^ 24) / 2 ^ 24 * 2 ^ 24
         else ((intervalOf s.coder).number + 2 ^ 23) / 2 ^ 16 * 2 ^ 16) ∧
      exec .doneEnc s =
        if fits s.cfg chunk.length then
          .next { s with
            coder := { s.coder with
              base := BitVec.ofNat 32
                (if 2 ^ 25 < s.coder.length.toNat then (s.coder.base.toNat + 2 ^ 24) * 2 ^ 8
                 else (s.coder.base.toNat + 2 ^ 23) * 2 ^ 16)
              length := 0x80000000#32, outbuf := [] }
            outstream := s.outstream ++ chunk, mode := .idle,
            res := BitVec.ofNat 64 chunk.length, ccount := s.ccount + 1 }
        else faulted s .outputOverflow 0x03#8

/-- DONE_DEC in DECODE returns ICOUNT in RES and enters IDLE (40_entropy_coder.md R170). -/
def Obligations.DoneDecReturnsTheByteCount : Prop :=
  ∀ s : State, s.mode = .decode →
    exec .doneDec s = .next { s with
      mode := .idle, res := s.coder.icount.setWidth 64, ccount := s.ccount + 1 }

/-- RD_STATUS returns CCOUNT in RES[63:32] and STATUS in RES[31:0], in every mode; outside FAULTED it
advances CCOUNT (40_entropy_coder.md R171). STATUS has MODE in bits 1:0, FCODE in 15:8, FOPC in 23:16 and 0
elsewhere (10_state.md R36). NOP changes nothing but CCOUNT (40_entropy_coder.md R172). -/
def Obligations.RdStatusReportsAndNopDoesNothing : Prop :=
  (∀ s : State, exec .rdStatus s = .next
    (if s.mode = .faulted then { s with res := s.ccount ++ s.status }
     else { s with res := s.ccount ++ s.status, ccount := s.ccount + 1 })) ∧
  (∀ s : State,
    s.status.toNat = s.mode.bits.toNat + s.fcode.code.toNat * 2 ^ 8 + s.fopc.toNat * 2 ^ 16) ∧
  (∀ s : State, s.mode ≠ .faulted → exec .nop s = .next { s with ccount := s.ccount + 1 })

/-! ## Modelled coding -/

/-- ENC_BIT narrows the interval to the part of the bit, exactly as integers, carries and renormalisation
included, and adapts the model in its slot; if the bytes do not fit it faults OUTPUT_OVERFLOW
(40_entropy_coder.md R157, R165). -/
def Obligations.EncBitTakesThePartOfTheBit : Prop :=
  ∀ (h : Nat) (bit : Word) (m : BitModel) (s : State), s.sound → s.mode = .encode →
    Store.find s.ms h = some (.bit m) → bit.toNat ≤ 1 →
    let v := (intervalOf s.coder).bit m.p0.toNat (decide (bit = 1))
    exec (.encBit h bit) s =
      if fits s.cfg v.bytes then
        .next { s with
          coder := withInterval s.coder v
          ms := Store.put s.ms h (.bit (bitModelCoded m (decide (bit = 1))))
          ccount := s.ccount + 1 }
      else faulted s .outputOverflow 0x10#8

/-- DEC_BIT returns 0 if VALUE lies below p0 × (LENGTH >> 13) and 1 otherwise, moves to that part, takes in
the bytes the renormalisation needs and adapts the model; if they are not there it faults INPUT_EXHAUSTED
(40_entropy_coder.md R158, R166). -/
def Obligations.DecBitReturnsTheBitOfItsPart : Prop :=
  ∀ (h : Nat) (m : BitModel) (s : State), s.sound → s.mode = .decode →
    Store.find s.ms h = some (.bit m) →
    let w := windowOf s.coder
    let b := w.bitValue m.p0.toNat
    let w' := w.bit s.coder.input m.p0.toNat
    exec (.decBit h) s =
      if w'.pos ≤ s.coder.input.length then
        .next { s with
          coder := withWindow s.coder w'
          ms := Store.put s.ms h (.bit (bitModelCoded m b))
          res := if b then 1 else 0, ccount := s.ccount + 1 }
      else faulted s .inputExhausted 0x11#8

/-- ENC_SYM narrows the interval to the part of the symbol, the last symbol taking the remainder, and adapts
the model (40_entropy_coder.md R159, R167). -/
def Obligations.EncSymTakesThePartOfTheSymbol : Prop :=
  ∀ (h : Nat) (sym : Word) (m : SymModel) (s : State), s.sound → s.mode = .encode →
    Store.find s.ms h = some (.sym m) → m.init → sym.toNat < m.nsym →
    let v := (intervalOf s.coder).symbol m.dist sym.toNat
    exec (.encSym h sym) s =
      if fits s.cfg v.bytes then
        .next { s with
          coder := withInterval s.coder v
          ms := Store.put s.ms h (.sym (symModelCoded m sym.toNat))
          ccount := s.ccount + 1 }
      else faulted s .outputOverflow 0x12#8

/-- DEC_SYM returns the largest symbol whose part begins at or below VALUE, on any input, and adapts the
model (40_entropy_coder.md R160, R168). -/
def Obligations.DecSymReturnsTheSymbolOfItsPart : Prop :=
  ∀ (h : Nat) (m : SymModel) (s : State), s.sound → s.mode = .decode →
    Store.find s.ms h = some (.sym m) → m.init →
    ∃ v, (windowOf s.coder).isSymbol m.dist v ∧ v < m.nsym ∧
      let w' := (windowOf s.coder).symbol s.coder.input m.dist v
      exec (.decSym h) s =
        if w'.pos ≤ s.coder.input.length then
          .next { s with
            coder := withWindow s.coder w'
            ms := Store.put s.ms h (.sym (symModelCoded m v))
            res := BitVec.ofNat 64 v, ccount := s.ccount + 1 }
        else faulted s .inputExhausted 0x13#8

/-- What the modelled commands check before they code, in order: the type of the model, that a symbol model
is initialised, that the bit or symbol is in the alphabet (40_entropy_coder.md R165-R168). -/
def Obligations.ModelledCommandsCheckModelThenValue : Prop :=
  ∀ (h : Nat) (x : Word) (s : State), s.sound →
    (∀ m, Store.find s.ms h = some (.sym m) →
      (s.mode = .encode → exec (.encBit h x) s = faulted s .wrongModelType 0x10#8) ∧
      (s.mode = .decode → exec (.decBit h) s = faulted s .wrongModelType 0x11#8) ∧
      (m.init = false →
        (s.mode = .encode → exec (.encSym h x) s = faulted s .modelUninit 0x12#8) ∧
        (s.mode = .decode → exec (.decSym h) s = faulted s .modelUninit 0x13#8)) ∧
      (m.init = true → s.mode = .encode → m.nsym ≤ x.toNat →
        exec (.encSym h x) s = faulted s .symbolOutOfAlphabet 0x12#8)) ∧
    (∀ m, Store.find s.ms h = some (.bit m) →
      (s.mode = .encode → exec (.encSym h x) s = faulted s .wrongModelType 0x12#8) ∧
      (s.mode = .decode → exec (.decSym h) s = faulted s .wrongModelType 0x13#8) ∧
      (s.mode = .encode → 1 < x.toNat →
        exec (.encBit h x) s = faulted s .symbolOutOfAlphabet 0x10#8))

/-- A command that needs a filled slot faults BAD_HANDLE when its handle is at or past the slot count or the
slot is Empty; a command that creates faults BAD_HANDLE past the slot count and SLOT_OCCUPIED on a filled slot
(60_exceptions.md R401, R402). -/
def Obligations.SlotChecksComeAfterTheMode : Prop :=
  ∀ (i : Instr) (h : Nat) (s : State), s.mode ≠ .faulted → s.mode ∈ modesOf i → i.handle? = some h →
    (reachesModels i →
      (s.cfg.modelSlots ≤ h → exec i s = faulted s .badHandle i.opcode) ∧
      (h < s.cfg.modelSlots → creates i = false → Store.find s.ms h = none →
        exec i s = faulted s .badHandle i.opcode) ∧
      (h < s.cfg.modelSlots → creates i → Store.find s.ms h ≠ none →
        exec i s = faulted s .slotOccupied i.opcode)) ∧
    (reachesCompressors i →
      (s.cfg.icSlots ≤ h → exec i s = faulted s .badHandle i.opcode) ∧
      (h < s.cfg.icSlots → creates i = false → Store.find s.ics h = none →
        exec i s = faulted s .badHandle i.opcode) ∧
      (h < s.cfg.icSlots → creates i → Store.find s.ics h ≠ none →
        exec i s = faulted s .slotOccupied i.opcode))

/-! ## Raw fields -/

/-- WR_BITS checks the width, then the value, then codes the field: one step up to 19 bits, the low 16 bits
and then the rest above (41_raw_fields.md R200, R202, R204). -/
def Obligations.WrBitsCodesTheField : Prop :=
  ∀ (n : Nat) (v : Word) (s : State), s.sound → s.mode = .encode →
    exec (.wrBits n v) s =
      if n < 1 ∨ 32 < n then faulted s .badWidth 0x20#8
      else if 2 ^ n ≤ v.toNat then faulted s .valueOutOfRange 0x20#8
      else writeAnswer s 0x20#8 ((intervalOf s.coder).field n v.toNat)

/-- RD_BITS checks the width and reads the field back: the low 16 bits and then the rest above 19 bits; only
the first step can be out of range (41_raw_fields.md R201, R203, R205). -/
def Obligations.RdBitsReadsTheField : Prop :=
  ∀ (n : Nat) (s : State), s.sound → s.mode = .decode →
    exec (.rdBits n) s =
      if n < 1 ∨ 32 < n then faulted s .badWidth 0x21#8
      else
        rawReadAnswer s 0x21#8 (firstStep n)
          ((windowOf s.coder).raw s.coder.input (firstStep n))
          ((windowOf s.coder).field s.coder.input n)
          ((windowOf s.coder).fieldValue s.coder.input n)

/-- WR_BYTE and WR_SHORT are one raw step of 8 or 16 bits; WR_INT and WR_FLOAT two steps of 16 bits, low
half first; WR_INT64 and WR_DOUBLE four (41_raw_fields.md R206, R208, R210, R212, R214, R216). -/
def Obligations.FixedWidthWritesCodeTheirParts : Prop :=
  ∀ s : State, s.sound → s.mode = .encode →
    (∀ v, exec (.wrByte v) s = writeAnswer s 0x22#8 ((intervalOf s.coder).raw 8 v.toNat)) ∧
    (∀ v, exec (.wrShort v) s = writeAnswer s 0x24#8 ((intervalOf s.coder).raw 16 v.toNat)) ∧
    (∀ v, exec (.wrInt v) s = writeAnswer s 0x26#8 (Interval.halves 2 (intervalOf s.coder) v.toNat)) ∧
    (∀ v, exec (.wrInt64 v) s = writeAnswer s 0x28#8 (Interval.halves 4 (intervalOf s.coder) v.toNat)) ∧
    (∀ v, exec (.wrFloat v) s = writeAnswer s 0x2A#8 (Interval.halves 2 (intervalOf s.coder) v.toNat)) ∧
    (∀ v, exec (.wrDouble v) s = writeAnswer s 0x2C#8 (Interval.halves 4 (intervalOf s.coder) v.toNat))

/-- RD_BYTE and RD_SHORT are one raw step of 8 or 16 bits; RD_INT and RD_FLOAT two steps of 16 bits, low
half first; RD_INT64 and RD_DOUBLE four; only the first step can be out of range
(41_raw_fields.md R207, R209, R211, R213, R215, R217). -/
def Obligations.FixedWidthReadsReadTheirParts : Prop :=
  ∀ s : State, s.sound → s.mode = .decode →
    let w := windowOf s.coder
    let first := fun n => w.raw s.coder.input n
    exec .rdByte s = rawReadAnswer s 0x23#8 8 (first 8) (first 8) (w.rawValue 8) ∧
    exec .rdShort s = rawReadAnswer s 0x25#8 16 (first 16) (first 16) (w.rawValue 16) ∧
    exec .rdInt s = rawReadAnswer s 0x27#8 16 (first 16) (Window.halves 2 w s.coder.input)
      (Window.halvesValue 2 w s.coder.input) ∧
    exec .rdInt64 s = rawReadAnswer s 0x29#8 16 (first 16) (Window.halves 4 w s.coder.input)
      (Window.halvesValue 4 w s.coder.input) ∧
    exec .rdFloat s = rawReadAnswer s 0x2B#8 16 (first 16) (Window.halves 2 w s.coder.input)
      (Window.halvesValue 2 w s.coder.input) ∧
    exec .rdDouble s = rawReadAnswer s 0x2D#8 16 (first 16) (Window.halves 4 w s.coder.input)
      (Window.halvesValue 4 w s.coder.input)

/-- The command pairs of 41_raw_fields.md R218 that complete leave identical state, writes and reads. -/
def Obligations.EquivalentRawCommandsAgree : Prop :=
  ∀ s t : State, t.mode ≠ .faulted →
    (∀ v : Word, exec (.wrInt v) s = .next t ↔ exec (.wrBits 32 v) s = .next t) ∧
    (∀ v : Word, exec (.wrFloat v) s = .next t ↔ exec (.wrInt v) s = .next t) ∧
    (∀ v : BitVec 16, exec (.wrShort v) s = .next t ↔ exec (.wrBits 16 (v.setWidth 32)) s = .next t) ∧
    (∀ v : Byte, exec (.wrByte v) s = .next t ↔ exec (.wrBits 8 (v.setWidth 32)) s = .next t) ∧
    (∀ v : DWord, exec (.wrDouble v) s = .next t ↔ exec (.wrInt64 v) s = .next t) ∧
    (exec .rdInt s = .next t ↔ exec (.rdBits 32) s = .next t) ∧
    (exec .rdFloat s = .next t ↔ exec .rdInt s = .next t) ∧
    (exec .rdShort s = .next t ↔ exec (.rdBits 16) s = .next t) ∧
    (exec .rdByte s = .next t ↔ exec (.rdBits 8) s = .next t) ∧
    (exec .rdDouble s = .next t ↔ exec .rdInt64 s = .next t)

/-- WR_BYTE and RD_BYTE move one byte, the 16-bit commands two, the 32-bit ones four and the 64-bit ones
eight, whatever the interval (41_raw_fields.md R221). -/
def Obligations.FixedWidthCommandsMoveFixedBytes : Prop :=
  ∀ (i : Instr) (s t : State) (n : Nat), s.sound → exec i s = .next t → t.mode ≠ .faulted →
    (i.opcode, n) ∈ [(0x22#8, 1), (0x23#8, 1), (0x24#8, 2), (0x25#8, 2), (0x26#8, 4), (0x27#8, 4),
      (0x2A#8, 4), (0x2B#8, 4), (0x28#8, 8), (0x29#8, 8), (0x2C#8, 8), (0x2D#8, 8)] →
    (modesOf i = [.encode] → t.coder.outbuf.length = s.coder.outbuf.length + n) ∧
    (modesOf i = [.decode] → t.coder.inpos = s.coder.inpos + n)

/-! ## Adaptive models -/

/-- MDL_NEW_BIT fills an empty slot with the initial bit model, and MDL_INIT_BIT returns the bit model of a
slot to it (42_models.md R250, R258, R260). -/
def Obligations.BitModelCommandsGiveTheInitialModel : Prop :=
  ∀ (h : Nat) (s : State), s.mode ≠ .faulted → h < s.cfg.modelSlots →
    let fresh : BitModel := { p0 := 4096, b0count := 1, count := 2, cycle := 4, remaining := 4 }
    let t := { s with ms := Store.put s.ms h (.bit fresh), ccount := s.ccount + 1 }
    (Store.find s.ms h = none → exec (.mdlNewBit h) s = .next t) ∧
    (∀ m, Store.find s.ms h = some (.bit m) → exec (.mdlInitBit h) s = .next t) ∧
    (∀ m, Store.find s.ms h = some (.sym m) →
      exec (.mdlInitBit h) s = faulted s .wrongModelType 0x32#8) ∧
    Store.find t.ms h = some (.bit fresh)

/-- MDL_NEW_SYM fills an empty slot with an uninitialised model of 2 to 2048 symbols with the decode-table
geometry of its alphabet, and faults BAD_ALPHABET for any other size (42_models.md R252, R259). -/
def Obligations.MdlNewSymMakesAnUninitialisedModel : Prop :=
  ∀ (h : Nat) (nsym : Word) (s : State), s.mode ≠ .faulted → h < s.cfg.modelSlots →
    Store.find s.ms h = none →
    if nsym.toNat < 2 ∨ 2048 < nsym.toNat then exec (.mdlNewSym h nsym) s = faulted s .badAlphabet 0x31#8
    else ∃ m : SymModel,
      exec (.mdlNewSym h nsym) s =
        .next { s with ms := Store.put s.ms h (.sym m), ccount := s.ccount + 1 } ∧
      Store.find (Store.put s.ms h (.sym m)) h = some (.sym m) ∧
      m.nsym = nsym.toNat ∧ m.last = nsym.toNat - 1 ∧ m.init = false ∧
      (nsym.toNat ≤ 16 → m.tsize = 0 ∧ m.tshift = 0) ∧
      (17 ≤ nsym.toNat → ∃ tb, 3 ≤ tb ∧ m.tsize.toNat = 2 ^ tb ∧ m.tshift.toNat = 15 - tb ∧
        nsym.toNat ≤ 2 ^ (tb + 2) ∧ (tb = 3 ∨ 2 ^ (tb + 1) < nsym.toNat))

/-- MDL_INIT_SYM gives a symbol model of n symbols, initialised or not, a count of 1 for every symbol, the
total n, the distribution floor(floor(2^31 / n) × i / 2^16) and the cadence (n + 6) / 2; it faults
WRONG_MODEL_TYPE on a bit model (42_models.md R253, R261). -/
def Obligations.MdlInitSymGivesTheInitialModel : Prop :=
  ∀ (h : Nat) (s : State), s.sound → s.mode ≠ .faulted →
    (∀ m, Store.find s.ms h = some (.bit m) →
      exec (.mdlInitSym h) s = faulted s .wrongModelType 0x33#8) ∧
    (∀ m, Store.find s.ms h = some (.sym m) → ∃ m' : SymModel,
      exec (.mdlInitSym h) s =
        .next { s with ms := Store.put s.ms h (.sym m'), ccount := s.ccount + 1 } ∧
      m'.nsym = m.nsym ∧ m'.init = true ∧ m'.tsize = m.tsize ∧ m'.tshift = m.tshift ∧
      m'.cnt = List.replicate m.nsym 1 ∧ m'.total.toNat = m.nsym ∧
      m'.dist = (List.range m.nsym).map
        (fun i => BitVec.ofNat 32 (2 ^ 31 / m.nsym * i / 2 ^ 16)) ∧
      m'.cycle.toNat = (m.nsym + 6) / 2 ∧ m'.remaining = m'.cycle)

/-- MDL_FREE and IC_FREE empty a filled slot and touch nothing else but CCOUNT (42_models.md R262,
43_integer_compressor.md R313). -/
def Obligations.FreeEmptiesTheSlot : Prop :=
  ∀ (h : Nat) (s : State), s.sound → s.mode ≠ .faulted →
    (Store.find s.ms h ≠ none → ∃ ms, Store.find ms h = none ∧
      (∀ j, j ≠ h → Store.find ms j = Store.find s.ms j) ∧
      exec (.mdlFree h) s = .next { s with ms := ms, ccount := s.ccount + 1 }) ∧
    (Store.find s.ics h ≠ none → ∃ ics, Store.find ics h = none ∧
      (∀ j, j ≠ h → Store.find ics j = Store.find s.ics j) ∧
      exec (.icFree h) s = .next { s with ics := ics, ccount := s.ccount + 1 })

/-- The bounds of a bit model hold at its start and after every coded bit, and those of a symbol model after
its initialisation and after every coded symbol (10_state.md R42, R44; 42_models.md R263). -/
def Obligations.CodingKeepsTheModelBounds : Prop :=
  bitModelInit.ok ∧
  (∀ (m : BitModel) (b : Bool), m.ok → (bitModelCoded m b).ok) ∧
  (∀ m : SymModel, m.shapeOk → (symModelInit m).readyOk) ∧
  (∀ (m : SymModel) (s : Nat), m.readyOk → s < m.nsym → (symModelCoded m s).readyOk)

/-- When the countdown ends, a bit model counts the bits since the last update, halves both counts once the
total exceeds 2^13 and raises the total by 1 if they became equal, recomputes p0 on the 2^13 scale, and
lengthens its cadence by 5/4 up to 64 (42_models.md R251); before that a coded bit only adds 1 to the bit-0 count,
if it is 0, and takes 1 from the countdown, in any record. -/
def Obligations.BitModelUpdateFollowsItsFormula : Prop :=
  ∀ (m : BitModel) (b : Bool),
    let m' := bitModelCoded m b
    let b0 := m.b0count.toNat + (if b then 0 else 1)
    let n := m.count.toNat + m.cycle.toNat
    (m.remaining ≠ 1 →
      m' = { m with b0count := m.b0count + (if b then 0 else 1), remaining := m.remaining - 1 }) ∧
    (m.ok → m.remaining = 1 →
      (n ≤ 2 ^ 13 → m'.b0count.toNat = b0 ∧ m'.count.toNat = n) ∧
      (2 ^ 13 < n → m'.b0count.toNat = (b0 + 1) / 2 ∧
        m'.count.toNat = (if (b0 + 1) / 2 = (n + 1) / 2 then (n + 1) / 2 + 1 else (n + 1) / 2)) ∧
      m'.p0.toNat = m'.b0count.toNat * (2 ^ 31 / m'.count.toNat) / 2 ^ 18 ∧
      m'.cycle.toNat = min (5 * m.cycle.toNat / 4) 64 ∧ m'.remaining = m'.cycle)

/-- When the countdown ends, a symbol model halves every count, rounding up, once their sum exceeds 2^15,
recomputes the cumulative distribution on the 2^15 scale and its decode table, and lengthens its cadence by 5/4 up to
(nsym + 6) × 8; before that a coded symbol only adds 1 to its count and takes 1 from the countdown
(42_models.md R254). -/
def Obligations.SymModelUpdateFollowsItsFormula : Prop :=
  ∀ (m : SymModel) (s : Nat), m.readyOk → s < m.nsym →
    let m' := symModelCoded m s
    let cnt := m.cnt.modify s (fun c => c + 1)
    (m.remaining ≠ 1 → m' = { m with cnt := cnt, remaining := m.remaining - 1 }) ∧
    (m.remaining = 1 →
      m'.cnt.map BitVec.toNat =
        (if 2 ^ 15 < (cnt.map BitVec.toNat).sum then cnt.map (fun c => (c.toNat + 1) / 2)
         else cnt.map BitVec.toNat) ∧
      m'.total.toNat = (m'.cnt.map BitVec.toNat).sum ∧
      m'.dist = (List.range m.nsym).map (fun i => BitVec.ofNat 32
        (2 ^ 31 / m'.total.toNat * ((m'.cnt.map BitVec.toNat).take i).sum / 2 ^ 16)) ∧
      m'.dtab = (if m.nsym < 17 then [] else
        buildTable m.tsize.toNat m.tshift.toNat (m.nsym - 1) m'.dist) ∧
      m'.cycle.toNat = min (5 * m.cycle.toNat / 4) ((m.nsym + 6) * 8) ∧ m'.remaining = m'.cycle ∧
      m'.nsym = m.nsym ∧ m'.init = m.init ∧ m'.tsize = m.tsize ∧ m'.tshift = m.tshift)

/-- The search the source describes, decode table and bisection, finds the symbol of R160 whenever VALUE lies
in the interval (42_models.md R255, 90_conflicts.md C2). No command runs this search, and R255's bound on dv,
which is false for some widths, is not relied on (log entry 6). -/
def Obligations.TableSearchFindsTheSymbol : Prop :=
  ∀ (m : SymModel) (w : Window), m.readyOk → 2 ^ 24 ≤ w.width → w.width < 2 ^ 32 → w.value < w.width →
    w.isSymbol m.dist (searchSymbol m (w.value / (w.width / 2 ^ 15)))

/-! ## Decoding is the inverse of coding -/

/-- A coding step decodes to what was coded: a decoder in step with an encoder, on bytes that lie in the
encoder's next interval, returns the coded raw part, bit or symbol, changes the model alike and is in step again
(40_entropy_coder.md R157-R160, R162; 41_raw_fields.md R200, R201, R220; 42_models.md R257). -/
def Obligations.CodingStepsDecodeToWhatWasCoded : Prop :=
  ∀ (cap : Option Nat) (c c' d : Coder) (at0 : Nat), c.ok .encode → synced c d at0 →
    leadsInto (d.input.drop at0) c' →
    (∀ n v, 1 ≤ n → n ≤ 19 → v < 2 ^ n → encRaw cap n v c = .ok c' →
      ∃ d', decRaw n d = .ok (v, d') ∧ synced c' d' at0) ∧
    (∀ (m m' : BitModel) (b : Bool), m.ok → encBitM cap c m b = .ok (c', m') →
      ∃ d', decBitM d m = .ok (b, d', m') ∧ synced c' d' at0) ∧
    (∀ (m m' : SymModel) (s : Nat), m.readyOk → s < m.nsym → encSymM cap c m s = .ok (c', m') →
      ∃ d', decSymM d m = .ok (s, d', m') ∧ synced c' d' at0)

/-- A whole chunk decodes to what was coded. Any commands that the encoder completes between INIT_ENC and
DONE_ENC, modelled and raw writes, compressor commands, model commands, NOP and RD_STATUS, give a chunk. A block with
the same stores and parameters (OUT_CAPACITY aside) that finds this chunk at its input position, whatever comes before
and after it, and issues INIT_DEC, the mirroring commands and DONE_DEC, completes each one; it gets in RES every value
written, a compressed value in the cases of 43_integer_compressor.md R314 and the encoder's k from IC_GET_K (R316). It
ends with the encoder's stores and with INPOS just past the chunk. DONE_DEC returns the count DONE_ENC returned for a
chunk of fewer than 2^32 bytes, a bound that is the model's reading of 40_entropy_coder.md R174 beside 10_state.md R50
(log entry 11). -/
def Obligations.ChunkDecodesToWhatWasCoded : Prop :=
  ∀ (s o p t d : State) (writes : List Instr) (reads : List (Instr × Option DWord))
    (chunk before after : List Byte),
    s.sound → s.mode = .idle → runAll [.initEnc] s = some o → runAll writes o = some p →
    runAll [.doneEnc] p = some t → mirrorAll writes o = some reads →
    t.outstream = s.outstream ++ chunk →
    d.sound → d.mode = .idle → d.ms = s.ms → d.ics = s.ics →
    s.cfg = { d.cfg with outCapacity := s.cfg.outCapacity } →
    d.coder.input = before ++ chunk ++ after → d.coder.inpos = before.length →
    ∃ e f g, runAll [.initDec] d = some e ∧ runReading reads e = some f ∧
      runAll [.doneDec] f = some g ∧ g.ms = t.ms ∧ g.ics = t.ics ∧ g.mode = .idle ∧
      g.coder.inpos = before.length + chunk.length ∧ (chunk.length < 2 ^ 32 → g.res = t.res)

/-! ## The integer compressor -/

/-- IC_CONFIG fills an empty slot with the configuration and its derived constants, k = 0 and no models, if
the configuration is valid by R301, and faults BAD_IC_CONFIG otherwise (43_integer_compressor.md R300, R301, R308). -/
def Obligations.IcConfigDerivesItsConstants : Prop :=
  ∀ (h bits : Nat) (contexts bitsHigh range : Word) (s : State), s.mode ≠ .faulted →
    h < s.cfg.icSlots → Store.find s.ics h = none →
    ∃ ic : IcRec, ic.bits = bits ∧ ic.contexts = contexts.toNat ∧ ic.bitsHigh = bitsHigh ∧
      ic.range = range ∧ ic.k = 0 ∧ ic.ready = false ∧
      (range ≠ 0 → ic.corrRange = range ∧
        ic.corrMin.toInt = -((range.toNat / 2 : Nat) : Int) ∧
        ic.corrMax.toInt = -((range.toNat / 2 : Nat) : Int) + range.toNat - 1 ∧
        range.toNat ≤ 2 ^ ic.corrBits ∧ (range ≠ 1 → 2 ^ (ic.corrBits - 1) < range.toNat) ∧
        (range = 1 → ic.corrBits = 0)) ∧
      (range = 0 → 0 < bits → bits < 32 → ic.corrBits = bits ∧ ic.corrRange.toNat = 2 ^ bits ∧
        ic.corrMin.toInt = -(2 : Int) ^ (bits - 1) ∧ ic.corrMax.toInt = (2 : Int) ^ (bits - 1) - 1) ∧
      (range = 0 → (bits = 0 ∨ 32 ≤ bits) → ic.corrBits = 32 ∧ ic.corrRange = 0 ∧
        ic.corrMin.toInt = -(2 : Int) ^ 31 ∧ ic.corrMax.toInt = (2 : Int) ^ 31 - 1) ∧
      exec (.icConfig h bits contexts bitsHigh range) s =
        if bits ≤ 32 ∧ 1 ≤ contexts.toNat ∧ contexts.toNat ≤ s.cfg.maxIcContexts ∧ range ≠ 1 ∧
            1 ≤ bitsHigh.toNat ∧ min ic.corrBits bitsHigh.toNat ≤ 11 then
          .next { s with ics := Store.put s.ics h ic, ccount := s.ccount + 1 }
        else faulted s .badIcConfig 0x40#8

/-- IC_INIT builds one model of corr_bits + 1 symbols per context, one bit model and corr_bits symbol models
of 2^min(i, bits_high) symbols, all in their initial state and all legal alphabets, marks the compressor ready and
leaves k (43_integer_compressor.md R302, R309). -/
def Obligations.IcInitBuildsTheModelSet : Prop :=
  ∀ (h : Nat) (ic : IcRec) (s : State), s.sound → s.mode ≠ .faulted → Store.find s.ics h = some ic →
    ∃ ms : IcModels,
      exec (.icInit h) s = .next { s with
        ics := Store.put s.ics h { ic with models := some ms }, ccount := s.ccount + 1 } ∧
      ms.mBits.length = ic.contexts ∧ (∀ m ∈ ms.mBits, m = symModelFresh (ic.corrBits + 1)) ∧
      ms.mCorr0 = { p0 := 4096, b0count := 1, count := 2, cycle := 4, remaining := 4 } ∧
      ms.mCorr.length = ic.corrBits ∧
      (∀ i, 1 ≤ i → i ≤ ic.corrBits →
        ms.mCorr[i - 1]? = some (symModelFresh (2 ^ min i ic.bitsHigh.toNat)) ∧
        2 ≤ 2 ^ min i ic.bitsHigh.toNat ∧ 2 ^ min i ic.bitsHigh.toNat ≤ 2048)

/-- IC_GET_K returns the compressor's k, initialised or not (43_integer_compressor.md R312). -/
def Obligations.IcGetKReturnsTheLastExponent : Prop :=
  ∀ (h : Nat) (ic : IcRec) (s : State), s.mode ≠ .faulted → h < s.cfg.icSlots →
    Store.find s.ics h = some ic →
    exec (.icGetK h) s = .next { s with res := BitVec.ofNat 64 ic.k, ccount := s.ccount + 1 }

/-- IC_COMPRESS and IC_DECOMPRESS fault BAD_CONTEXT for a context past the last, and then IC_UNINIT for a
compressor that is not ready (43_integer_compressor.md R310, R311). -/
def Obligations.CompressorChecksContextThenReadiness : Prop :=
  ∀ (h : Nat) (pred real context : Word) (ic : IcRec) (s : State), s.sound →
    Store.find s.ics h = some ic →
    (ic.contexts ≤ context.toNat →
      (s.mode = .encode → exec (.icCompress h pred real context) s = faulted s .badContext 0x42#8) ∧
      (s.mode = .decode → exec (.icDecompress h pred context) s = faulted s .badContext 0x43#8)) ∧
    (context.toNat < ic.contexts → ic.models = none →
      (s.mode = .encode → exec (.icCompress h pred real context) s = faulted s .icUninit 0x42#8) ∧
      (s.mode = .decode → exec (.icDecompress h pred context) s = faulted s .icUninit 0x43#8))

/-- IC_COMPRESS folds the corrector, s32(real - pred), once by the range, faults SYMBOL_OUT_OF_ALPHABET if
its class is above corr_bits, and otherwise codes the class and the corrector as R305 says, keeps k and adapts the
models that took part (43_integer_compressor.md R303-R305, R310, R317). That a folded corrector outside
[corr_min, corr_max] whose class is not above corr_bits is coded, as the pseudocode of R305 has it, and does not fault,
as the prose of R303 and R310 has it, is the model's choice (log entry 14). -/
def Obligations.IcCompressCodesTheCorrector : Prop :=
  ∀ (h : Nat) (pred real context : Word) (ic : IcRec) (ms : IcModels) (s : State),
    s.sound → s.mode = .encode → Store.find s.ics h = some ic → ic.models = some ms →
    context.toNat < ic.contexts →
    let corr := foldedCorrector ic pred.toInt real.toInt
    let v := (intervalOf s.coder).corrector ic ms context.toNat corr
    exec (.icCompress h pred real context) s =
      if ic.corrBits < kClass corr then faulted s .symbolOutOfAlphabet 0x42#8
      else if fits s.cfg v.bytes then
        .next { s with
          coder := withInterval s.coder v
          ics := Store.put s.ics h
            (codedCompressor ic ms context.toNat (kClass corr) (decide (corr = 1)) (modelledPart ic corr))
          ccount := s.ccount + 1 }
      else faulted s .outputOverflow 0x42#8

/-- IC_DECOMPRESS reads the class k with the model of the context, then nothing (k = 32), a bit (k = 0), a
symbol (k ≤ bits_high) or a symbol and a raw field, restores the corrector, keeps k, adapts the models that took part
and returns the unfolded value; it faults INPUT_EXHAUSTED when the bytes run out and RAW_DECODE_RANGE when the raw
field's first step is out of range (43_integer_compressor.md R306, R307, R311). -/
def Obligations.IcDecompressReadsTheCorrector : Prop :=
  ∀ (h : Nat) (pred context : Word) (ic : IcRec) (ms : IcModels) (s : State),
    s.sound → s.mode = .decode → Store.find s.ics h = some ic → ic.models = some ms →
    context.toNat < ic.contexts →
    let input := s.coder.input
    let model := (ms.mBits.getD context.toNat (symModelNew 0)).dist
    ∃ k q, (windowOf s.coder).isSymbol model k ∧ k ≤ ic.corrBits ∧
      let w1 := (windowOf s.coder).symbol input model k
      let part := (ms.mCorr.getD (k - 1) (symModelNew 0)).dist
      let w2 := w1.symbol input part q
      let k1 := k - ic.bitsHigh.toNat
      let b := w1.bitValue ms.mCorr0.p0.toNat
      let raw := 1 ≤ k ∧ k < 32 ∧ ic.bitsHigh.toNat < k
      let first := if raw then w2.raw input (firstStep k1) else w1
      let last :=
        if k = 0 then w1.bit input ms.mCorr0.p0.toNat
        else if 32 ≤ k then w1
        else if raw then w2.field input k1 else w2
      let corr : Int :=
        if k = 0 then (if b then 1 else 0)
        else if 32 ≤ k then ic.corrMin.toInt
        else corrRestore k (if raw then q * 2 ^ k1 + w2.fieldValue input k1 else q)
      (1 ≤ k → k < 32 → w1.isSymbol part q) ∧
      exec (.icDecompress h pred context) s =
        if input.length < first.pos then faulted s .inputExhausted 0x43#8
        else if raw ∧ 2 ^ firstStep k1 ≤ w2.rawValue (firstStep k1) then
          faulted s .rawDecodeRange 0x43#8
        else if input.length < last.pos then faulted s .inputExhausted 0x43#8
        else .next { s with
          coder := withWindow s.coder last
          ics := Store.put s.ics h (codedCompressor ic ms context.toNat k b q)
          res := (BitVec.ofInt 32 (unfoldedValue ic pred.toInt corr)).setWidth 64
          ccount := s.ccount + 1 }

/-- IC_DECOMPRESS inverts IC_COMPRESS. A decoder in step with the encoder, on bytes that lie in the encoder's
next interval, with the same compressor in the slot and the same prediction and context, completes, leaves the same
compressor and is in step again; and it returns the compressed value for every pair of values without a range, and for
pairs below the range when it is at most 0x55555556 or is 2^31 (43_integer_compressor.md R314). -/
def Obligations.DecompressInvertsCompress : Prop :=
  ∀ (h : Nat) (pred real context : Word) (ic : IcRec) (s t d : State) (at0 : Nat),
    s.sound → s.mode = .encode → Store.find s.ics h = some ic →
    exec (.icCompress h pred real context) s = .next t → t.mode ≠ .faulted →
    d.sound → d.mode = .decode → Store.find d.ics h = some ic → synced s.coder d.coder at0 →
    leadsInto (d.coder.input.drop at0) t.coder →
    ∃ u, exec (.icDecompress h pred context) d = .next u ∧ u.mode = .decode ∧
      (invertible ic pred real → u.res = real.setWidth 64) ∧
      Store.find u.ics h = Store.find t.ics h ∧ synced t.coder u.coder at0

/-- KClass gives the smallest k with -(2^k - 1) ≤ c ≤ 2^k, at most 32, for every 32-bit signed c
(43_integer_compressor.md R304). -/
def Obligations.KClassIsTheSmallestClass : Prop :=
  ∀ c : Int, -(2 ^ 31) ≤ c → c < 2 ^ 31 →
    kClass c ≤ 32 ∧ -((2 : Int) ^ kClass c - 1) ≤ c ∧ c ≤ (2 : Int) ^ kClass c ∧
    ∀ j, j < kClass c → ¬(-((2 : Int) ^ j - 1) ≤ c ∧ c ≤ (2 : Int) ^ j)

/-- A corrector c of class k from 1 to 31 is adjusted to c + 2^k - 1, below 2^(k-1), if it is negative, and to
c - 1, from 2^(k-1) to 2^k - 1, if it is positive; a corrector of class 0 is 0 or 1 and one of class 32 is -2^31
(43_integer_compressor.md R305). The reader restores it: x below 2^(k-1) stands for x - (2^k - 1), any other x below 2^k
for s32(x + 1), which is x + 1 but for x = 2^31 - 1 (R306). -/
def Obligations.CorrectorAdjustmentIsInvertible : Prop :=
  (∀ c : Int, -(2 ^ 31) ≤ c → c < 2 ^ 31 →
    let k := kClass c
    (k = 0 → c = 0 ∨ c = 1) ∧ (k = 32 → c = -(2 ^ 31)) ∧
    (1 ≤ k → k ≤ 31 →
      (c < 0 → (corrAdjust k c : Int) = c + 2 ^ k - 1 ∧ corrAdjust k c < 2 ^ (k - 1)) ∧
      (0 < c → (corrAdjust k c : Int) = c - 1 ∧ 2 ^ (k - 1) ≤ corrAdjust k c ∧ corrAdjust k c < 2 ^ k) ∧
      corrRestore k (corrAdjust k c) = c)) ∧
  (∀ k x : Nat, 1 ≤ k → k ≤ 31 → x < 2 ^ k →
    corrRestore k x =
      if x < 2 ^ (k - 1) then (x : Int) - (2 ^ k - 1) else if x = 2 ^ 31 - 1 then -(2 ^ 31) else x + 1)

/-- The fold is s32(real - pred), plus corr_range below corr_min, minus corr_range above corr_max, once, and
the unfold s32(pred + c), plus corr_range if negative, minus corr_range from corr_range on, for every configuration
and all 32-bit signed values (43_integer_compressor.md R303, R307). Unfolding the folded corrector returns the value:
for every pair without a range, and for values below the range when it is at most 0x55555556 or is 2^31 (R314). -/
def Obligations.UnfoldReturnsTheFoldedValue : Prop :=
  ∀ (bits contexts : Nat) (bitsHigh range : Word) (pred real : Int),
    (-(2 ^ 31) ≤ pred ∧ pred < 2 ^ 31) → (-(2 ^ 31) ≤ real ∧ real < 2 ^ 31) →
    let ic := icDerive bits contexts bitsHigh range
    icFold ic pred real = foldedCorrector ic pred real ∧
    (∀ c : Int, -(2 ^ 31) ≤ c → c < 2 ^ 31 → icUnfold ic pred c = unfoldedValue ic pred c) ∧
    ((ic.corrRange = 0 ∨
      (0 ≤ pred ∧ pred < ic.corrRange.toNat ∧ 0 ≤ real ∧ real < ic.corrRange.toNat ∧
       (ic.corrRange.toNat ≤ 0x55555556 ∨ ic.corrRange.toNat = 2 ^ 31))) →
      icUnfold ic pred (icFold ic pred real) = real)
end

