-- ==== Sys2Proof/Laws/Command.lean ====
section
/-! SUPPORT. How a command can end: the algebra of `Res`, and one lemma each for `finish`, `command` and
`step` that says everything they can answer. -/

namespace Sys2Proof.Machine

/-! ## The results of pseudocode -/

@[simp] theorem res_bind_ok {α β : Type} (a : α) (f : α → Res β) :
    ((Except.ok a : Res α) >>= f) = f a := rfl

@[simp] theorem res_bind_error {α β : Type} (e : Stop) (f : α → Res β) :
    ((Except.error e : Res α) >>= f) = .error e := rfl

@[simp] theorem res_bind_raise {α β : Type} (code : FaultCode) (f : α → Res β) :
    ((raise code : Res α) >>= f) = raise code := rfl

@[simp] theorem res_bind_stuck {α β : Type} (r : Fault) (f : α → Res β) :
    ((stuck r : Res α) >>= f) = stuck r := rfl

theorem res_bind_assoc {α β γ : Type} (r : Res α) (f : α → Res β) (g : β → Res γ) :
    ((r >>= f) >>= g) = (r >>= fun a => f a >>= g) := by
  cases r <;> rfl

@[simp] theorem raise_ne_ok {α : Type} (code : FaultCode) (a : α) : (raise code : Res α) ≠ .ok a :=
  fun h => Except.noConfusion rfl rfl (heq_of_eq h)

@[simp] theorem stuck_ne_ok {α : Type} (r : Fault) (a : α) : (stuck r : Res α) ≠ .ok a :=
  fun h => Except.noConfusion rfl rfl (heq_of_eq h)

/-- A sequence answers only through its first part. -/
theorem bind_eq_ok {α β : Type} {r : Res α} {f : α → Res β} {b : β} :
    (r >>= f) = .ok b ↔ ∃ a, r = .ok a ∧ f a = .ok b := by
  cases r with
  | ok a => simp
  | error e => simp

/-- A sequence ends early in its first part or in its second. -/
theorem bind_eq_error {α β : Type} {r : Res α} {f : α → Res β} {e : Stop} :
    (r >>= f) = .error e ↔ r = .error e ∨ ∃ a, r = .ok a ∧ f a = .error e := by
  cases r with
  | ok a => simp
  | error e' => simp

/-! ## The end of a command -/

@[simp] theorem finish_ok (i : Instr) (s t : State) :
    finish i s (.ok t) = .next { t with ccount := t.ccount + 1 } := rfl

@[simp] theorem finish_raise (i : Instr) (s : State) (code : FaultCode) :
    finish i s (raise code) = .next (takeFault code i.opcode s) := rfl

@[simp] theorem finish_stuck (i : Instr) (s : State) (r : Fault) :
    finish i s (stuck r) = .fault r := rfl

theorem takeFault_eq_faulted (s : State) (code : FaultCode) (opc : Byte) :
    Host.Outcome.next (takeFault code opc s) = faulted s code opc := rfl

/-- Everything `finish` can answer. -/
theorem finish_next {i : Instr} {s t : State} {r : Res State} (h : finish i s r = .next t) :
    (∃ u, r = .ok u ∧ t = { u with ccount := u.ccount + 1 }) ∨
    (∃ code, r = raise code ∧ t = takeFault code i.opcode s) := by
  match r, h with
  | .ok u, h => exact .inl ⟨u, rfl, (Host.Outcome.next.inj h).symm⟩
  | .error (.trap code), h => exact .inr ⟨code, rfl, (Host.Outcome.next.inj h).symm⟩

/-- Everything `command` can answer: ignored in FAULTED, WRONG_MODE outside its modes, completed, or its own
fault. -/
theorem command_next {i : Instr} {modes : List Mode} {s t : State} {body : Res State}
    (h : command i modes s body = .next t) :
    (s.mode = .faulted ∧ t = s) ∨
    (s.mode ≠ .faulted ∧ s.mode ∉ modes ∧ t = takeFault .wrongMode i.opcode s) ∨
    (s.mode ≠ .faulted ∧ s.mode ∈ modes ∧
      ((∃ u, body = .ok u ∧ t = { u with ccount := u.ccount + 1 }) ∨
       (∃ code, body = raise code ∧ t = takeFault code i.opcode s))) := by
  unfold command at h
  split at h
  · exact .inl ⟨‹_›, (Host.Outcome.next.inj h).symm⟩
  · split at h
    · exact .inr (.inr ⟨‹_›, ‹_›, finish_next h⟩)
    · exact .inr (.inl ⟨‹_›, ‹_›, (Host.Outcome.next.inj h).symm⟩)

/-- In a mode of its row a command is its pseudocode. -/
theorem command_allowed {i : Instr} {modes : List Mode} {s : State} {body : Res State}
    (hf : s.mode ≠ .faulted) (hm : s.mode ∈ modes) : command i modes s body = finish i s body := by
  simp [command, hf, hm]

/-- Outside the modes of its row a command faults WRONG_MODE. -/
theorem command_wrong_mode {i : Instr} {modes : List Mode} {s : State} {body : Res State}
    (hf : s.mode ≠ .faulted) (hm : s.mode ∉ modes) :
    command i modes s body = faulted s .wrongMode i.opcode := by
  simp [command, hf, hm, takeFault_eq_faulted]

/-- In FAULTED a command is ignored. -/
theorem command_ignored {i : Instr} {modes : List Mode} {s : State} {body : Res State}
    (hf : s.mode = .faulted) : command i modes s body = .next s := by
  simp [command, hf]

/-! ## A step -/

/-- Everything a step can answer. -/
theorem step_next {s t : State} (h : step s = .next t) :
    (s.pending = [] ∧ t = s) ∨
    ∃ op rest, s.pending = op :: rest ∧ runHostOp op { s with pending := rest } = .next t := by
  unfold step at h
  split at h
  · exact .inl ⟨‹_›, (Host.Outcome.next.inj h).symm⟩
  · exact .inr ⟨_, _, ‹_›, h⟩

/-- Everything a host operation can answer. -/
theorem runHostOp_next {op : HostOp} {s t : State} (h : runHostOp op s = .next t) :
    (∃ c u, op = .issue c ∧ issue c s = .next u ∧ t = { u with reply := u.commandReply }) ∨
    (∃ bytes, op = .loadInput bytes ∧
      t = { loadInput bytes s with reply := if acceptsInput s then .loadOk else .loadRefused }) ∨
    (op = .readOutput ∧ t = { s with reply := .output s.outstream }) ∨
    (op = .reset ∧ t = resetBlock s) := by
  match op with
  | .issue c =>
    cases hc : issue c s with
    | next u =>
      simp only [runHostOp, hc] at h
      exact .inl ⟨c, u, rfl, hc, (Host.Outcome.next.inj h).symm⟩
    | fault r => simp [runHostOp, hc] at h
    | refused r => simp [runHostOp, hc] at h
  | .loadInput bytes => exact .inr (.inl ⟨bytes, rfl, (Host.Outcome.next.inj h).symm⟩)
  | .readOutput => exact .inr (.inr (.inl ⟨rfl, (Host.Outcome.next.inj h).symm⟩))
  | .reset => exact .inr (.inr (.inr ⟨rfl, (Host.Outcome.next.inj h).symm⟩))

/-- An issued word is a decoded command or an illegal one. -/
theorem issue_cases (c : Command) (s : State) :
    (∃ i, decode c = .ok i ∧ issue c s = exec i s) ∨
    (∃ e, decode c = .error e ∧ issue c s = .next (illegalCommand c s)) := by
  cases h : decode c with
  | ok i => exact .inl ⟨i, rfl, by simp [issue, h]⟩
  | error e => exact .inr ⟨e, rfl, by simp [issue, h]⟩

end Sys2Proof.Machine
end

