-- ==== Sys2Proof/Laws/Numbers.lean ====
section
/-! SUPPORT. Byte sequences as numbers: `bytesNumber` and `digits` are inverse, and the carry walk adds one
(20_memory.md R81, 40_entropy_coder.md R152). -/

namespace Sys2Proof.Reference

open Sys2Proof.Machine

@[simp] theorem bytesNumber_nil : bytesNumber [] = 0 := rfl

/-- One more byte at the low end. -/
@[simp] theorem bytesNumber_snoc (l : List Byte) (b : Byte) :
    bytesNumber (l ++ [b]) = bytesNumber l * 256 + b.toNat := by
  simp [bytesNumber]

/-- A sequence followed by another. -/
theorem bytesNumber_append (l m : List Byte) :
    bytesNumber (l ++ m) = bytesNumber l * 256 ^ m.length + bytesNumber m := by
  induction m using List.reverseRecOn with
  | nil => simp
  | append_singleton m b ih =>
    rw [← List.append_assoc, bytesNumber_snoc, bytesNumber_snoc, ih, List.length_append]
    simp only [List.length_singleton]
    ring

/-- A number has as many digits as the sequence has bytes. -/
theorem bytesNumber_lt (l : List Byte) : bytesNumber l < 256 ^ l.length := by
  induction l using List.reverseRecOn with
  | nil => simp
  | append_singleton l b ih =>
    rw [bytesNumber_snoc, List.length_append, List.length_singleton, Nat.pow_succ]
    have hb := b.isLt
    omega

@[simp] theorem digits_length (n v : Nat) : (digits n v).length = n := by
  induction n generalizing v with
  | zero => rfl
  | succ n ih => simp [digits, ih]

theorem digits_succ (n v : Nat) : digits (n + 1) v = digits n (v / 256) ++ [BitVec.ofNat 8 v] := rfl

/-- The digits of a sequence's number are the sequence. -/
theorem digits_bytesNumber (l : List Byte) : digits l.length (bytesNumber l) = l := by
  induction l using List.reverseRecOn with
  | nil => rfl
  | append_singleton l b ih =>
    rw [List.length_append, List.length_singleton, digits_succ, bytesNumber_snoc]
    have hb := b.isLt
    rw [show (bytesNumber l * 256 + b.toNat) / 256 = bytesNumber l by omega, ih]
    refine congrArg (fun x => l ++ [x]) (BitVec.eq_of_toNat_eq ?_)
    rw [BitVec.toNat_ofNat]
    omega

/-- The number of the `n` low digits of `v`. -/
theorem bytesNumber_digits (n v : Nat) : bytesNumber (digits n v) = v % 256 ^ n := by
  induction n generalizing v with
  | zero => simp [digits, Nat.mod_one]
  | succ n ih =>
    rw [digits_succ, bytesNumber_snoc, ih, Nat.pow_succ, Nat.mul_comm (256 ^ n) 256, Nat.mod_mul,
      BitVec.toNat_ofNat]
    omega

/-- A number that fits is the number of its digits. -/
theorem bytesNumber_digits_of_lt {n v : Nat} (h : v < 256 ^ n) : bytesNumber (digits n v) = v := by
  rw [bytesNumber_digits, Nat.mod_eq_of_lt h]

/-- Two sequences of one length with one number are equal. -/
theorem eq_of_bytesNumber {l m : List Byte} (hl : l.length = m.length)
    (hn : bytesNumber l = bytesNumber m) : l = m := by
  rw [← digits_bytesNumber l, ← digits_bytesNumber m, hl, hn]

/-- The carry walk keeps the length and adds one to the number; it passes the first byte only where the
number has no room for one more. -/
theorem carryBack_spec (l : List Byte) :
    (∀ r, carryBack l = some r →
      r.length = l.length ∧ bytesNumber r.reverse = bytesNumber l.reverse + 1) ∧
    (carryBack l = none → bytesNumber l.reverse + 1 = 256 ^ l.length) := by
  induction l with
  | nil => simp [carryBack]
  | cons b rest ih =>
    simp only [carryBack, List.reverse_cons, bytesNumber_snoc, List.length_cons, Nat.pow_succ]
    split
    · rename_i hb
      subst hb
      constructor
      · intro r hr
        obtain ⟨q, hq, rfl⟩ := Option.map_eq_some_iff.1 hr
        obtain ⟨h1, h2⟩ := ih.1 q hq
        simp only [List.length_cons, h1, List.reverse_cons, bytesNumber_snoc, h2, true_and]
        rw [show (0#8).toNat = 0 from rfl, show (0xFF#8).toNat = 255 from rfl]
        omega
      · intro hr
        have := ih.2 (Option.map_eq_none_iff.1 hr)
        rw [← this]
        rw [show (0xFF#8).toNat = 255 from rfl]
        omega
    · rename_i hb
      constructor
      · intro r hr
        obtain rfl := Option.some.inj hr
        refine ⟨by simp, ?_⟩
        have hlt : b.toNat ≠ 255 := fun he => hb (BitVec.eq_of_toNat_eq he)
        have := b.isLt
        rw [List.reverse_cons, bytesNumber_snoc, BitVec.toNat_add]
        rw [show (1 : Byte).toNat = 1 from rfl]
        omega
      · intro hr
        exact absurd hr (by simp)

/-- A carry into a buffer whose number has room for one more. -/
theorem carryBack_of_lt {l : List Byte} (h : bytesNumber l + 1 < 256 ^ l.length) :
    (carryBack l.reverse).map List.reverse = some (digits l.length (bytesNumber l + 1)) := by
  have hs := carryBack_spec l.reverse
  simp only [List.reverse_reverse, List.length_reverse] at hs
  cases hc : carryBack l.reverse with
  | none => exact absurd (hs.2 hc) (by omega)
  | some r =>
    obtain ⟨h1, h2⟩ := hs.1 r hc
    rw [Option.map_some, Option.some.injEq]
    refine eq_of_bytesNumber (by simp [h1]) ?_
    rw [h2, bytesNumber_digits_of_lt h]

end Sys2Proof.Reference
end

