-- ==== Sys2Proof/Laws/State.lean ====
section
/-! SUPPORT. What each named update of the state leaves in each field, true by `rfl` and tagged `@[simp]`, so
that no later proof unfolds a record update. -/

namespace Sys2Proof.Machine

open Sys2Proof.Reference

/-! ## `takeFault` -/

@[simp] theorem takeFault_coder (code : FaultCode) (opc : Byte) (s : State) :
    (takeFault code opc s).coder = s.coder := rfl

@[simp] theorem takeFault_res (code : FaultCode) (opc : Byte) (s : State) :
    (takeFault code opc s).res = s.res := rfl

@[simp] theorem takeFault_mode (code : FaultCode) (opc : Byte) (s : State) :
    (takeFault code opc s).mode = .faulted := rfl

@[simp] theorem takeFault_fcode (code : FaultCode) (opc : Byte) (s : State) :
    (takeFault code opc s).fcode = code := rfl

@[simp] theorem takeFault_fopc (code : FaultCode) (opc : Byte) (s : State) :
    (takeFault code opc s).fopc = opc := rfl

@[simp] theorem takeFault_ccount (code : FaultCode) (opc : Byte) (s : State) :
    (takeFault code opc s).ccount = s.ccount := rfl

@[simp] theorem takeFault_outstream (code : FaultCode) (opc : Byte) (s : State) :
    (takeFault code opc s).outstream = s.outstream := rfl

@[simp] theorem takeFault_ms (code : FaultCode) (opc : Byte) (s : State) :
    (takeFault code opc s).ms = s.ms := rfl

@[simp] theorem takeFault_ics (code : FaultCode) (opc : Byte) (s : State) :
    (takeFault code opc s).ics = s.ics := rfl

@[simp] theorem takeFault_cfg (code : FaultCode) (opc : Byte) (s : State) :
    (takeFault code opc s).cfg = s.cfg := rfl

@[simp] theorem takeFault_pending (code : FaultCode) (opc : Byte) (s : State) :
    (takeFault code opc s).pending = s.pending := rfl

@[simp] theorem takeFault_reply (code : FaultCode) (opc : Byte) (s : State) :
    (takeFault code opc s).reply = s.reply := rfl

/-! ## `State.resetWith` -/

@[simp] theorem resetWith_coder (g : Config) :
    (State.resetWith g).coder = Coder.reset := rfl

@[simp] theorem resetWith_res (g : Config) :
    (State.resetWith g).res = 0 := rfl

@[simp] theorem resetWith_mode (g : Config) :
    (State.resetWith g).mode = .idle := rfl

@[simp] theorem resetWith_fcode (g : Config) :
    (State.resetWith g).fcode = .none := rfl

@[simp] theorem resetWith_fopc (g : Config) :
    (State.resetWith g).fopc = 0 := rfl

@[simp] theorem resetWith_ccount (g : Config) :
    (State.resetWith g).ccount = 0 := rfl

@[simp] theorem resetWith_outstream (g : Config) :
    (State.resetWith g).outstream = [] := rfl

@[simp] theorem resetWith_ms (g : Config) :
    (State.resetWith g).ms = [] := rfl

@[simp] theorem resetWith_ics (g : Config) :
    (State.resetWith g).ics = [] := rfl

@[simp] theorem resetWith_cfg (g : Config) :
    (State.resetWith g).cfg = g := rfl

@[simp] theorem resetWith_pending (g : Config) :
    (State.resetWith g).pending = [] := rfl

@[simp] theorem resetWith_reply (g : Config) :
    (State.resetWith g).reply = .none := rfl

/-! ## `resetBlock` -/

@[simp] theorem resetBlock_coder (s : State) :
    (resetBlock s).coder = Coder.reset := rfl

@[simp] theorem resetBlock_res (s : State) :
    (resetBlock s).res = 0 := rfl

@[simp] theorem resetBlock_mode (s : State) :
    (resetBlock s).mode = .idle := rfl

@[simp] theorem resetBlock_fcode (s : State) :
    (resetBlock s).fcode = .none := rfl

@[simp] theorem resetBlock_fopc (s : State) :
    (resetBlock s).fopc = 0 := rfl

@[simp] theorem resetBlock_ccount (s : State) :
    (resetBlock s).ccount = 0 := rfl

@[simp] theorem resetBlock_outstream (s : State) :
    (resetBlock s).outstream = [] := rfl

@[simp] theorem resetBlock_ms (s : State) :
    (resetBlock s).ms = [] := rfl

@[simp] theorem resetBlock_ics (s : State) :
    (resetBlock s).ics = [] := rfl

@[simp] theorem resetBlock_cfg (s : State) :
    (resetBlock s).cfg = s.cfg := rfl

@[simp] theorem resetBlock_pending (s : State) :
    (resetBlock s).pending = s.pending := rfl

@[simp] theorem resetBlock_reply (s : State) :
    (resetBlock s).reply = .none := rfl

/-! ## `State.withFetchWord` -/

@[simp] theorem withFetchWord_coder (s : State) (nbits w : Nat) :
    (s.withFetchWord nbits w).coder = s.coder := rfl

@[simp] theorem withFetchWord_res (s : State) (nbits w : Nat) :
    (s.withFetchWord nbits w).res = s.res := rfl

@[simp] theorem withFetchWord_mode (s : State) (nbits w : Nat) :
    (s.withFetchWord nbits w).mode = s.mode := rfl

@[simp] theorem withFetchWord_fcode (s : State) (nbits w : Nat) :
    (s.withFetchWord nbits w).fcode = s.fcode := rfl

@[simp] theorem withFetchWord_fopc (s : State) (nbits w : Nat) :
    (s.withFetchWord nbits w).fopc = s.fopc := rfl

@[simp] theorem withFetchWord_ccount (s : State) (nbits w : Nat) :
    (s.withFetchWord nbits w).ccount = s.ccount := rfl

@[simp] theorem withFetchWord_outstream (s : State) (nbits w : Nat) :
    (s.withFetchWord nbits w).outstream = s.outstream := rfl

@[simp] theorem withFetchWord_ms (s : State) (nbits w : Nat) :
    (s.withFetchWord nbits w).ms = s.ms := rfl

@[simp] theorem withFetchWord_ics (s : State) (nbits w : Nat) :
    (s.withFetchWord nbits w).ics = s.ics := rfl

@[simp] theorem withFetchWord_cfg (s : State) (nbits w : Nat) :
    (s.withFetchWord nbits w).cfg = s.cfg := rfl

@[simp] theorem withFetchWord_pending (s : State) (nbits w : Nat) :
    (s.withFetchWord nbits w).pending = .issue (commandOfTableWord nbits w) :: s.pending := rfl

@[simp] theorem withFetchWord_reply (s : State) (nbits w : Nat) :
    (s.withFetchWord nbits w).reply = s.reply := rfl

/-! ## `withInterval` and `withWindow` -/

@[simp] theorem withInterval_base (c : Coder) (v : Interval) :
    (withInterval c v).base = BitVec.ofNat 32 v.number := rfl

@[simp] theorem withInterval_length (c : Coder) (v : Interval) :
    (withInterval c v).length = BitVec.ofNat 32 v.width := rfl

@[simp] theorem withInterval_value (c : Coder) (v : Interval) :
    (withInterval c v).value = c.value := rfl

@[simp] theorem withInterval_outbuf (c : Coder) (v : Interval) :
    (withInterval c v).outbuf = digits v.bytes (v.number / 2 ^ 32) := rfl

@[simp] theorem withInterval_input (c : Coder) (v : Interval) :
    (withInterval c v).input = c.input := rfl

@[simp] theorem withInterval_inpos (c : Coder) (v : Interval) :
    (withInterval c v).inpos = c.inpos := rfl

@[simp] theorem withInterval_icount (c : Coder) (v : Interval) :
    (withInterval c v).icount = c.icount := rfl

@[simp] theorem withWindow_base (c : Coder) (w : Window) :
    (withWindow c w).base = c.base := rfl

@[simp] theorem withWindow_length (c : Coder) (w : Window) :
    (withWindow c w).length = BitVec.ofNat 32 w.width := rfl

@[simp] theorem withWindow_value (c : Coder) (w : Window) :
    (withWindow c w).value = BitVec.ofNat 32 w.value := rfl

@[simp] theorem withWindow_outbuf (c : Coder) (w : Window) :
    (withWindow c w).outbuf = c.outbuf := rfl

@[simp] theorem withWindow_input (c : Coder) (w : Window) :
    (withWindow c w).input = c.input := rfl

@[simp] theorem withWindow_inpos (c : Coder) (w : Window) :
    (withWindow c w).inpos = w.pos := rfl

@[simp] theorem withWindow_icount (c : Coder) (w : Window) :
    (withWindow c w).icount = c.icount + BitVec.ofNat 32 (w.pos - c.inpos) := rfl

/-! ## `loadInput` and `illegalCommand`, which act in some modes only -/

theorem loadInput_idle {s : State} (bytes : List Byte) (h : s.mode = .idle) :
    loadInput bytes s = { s with coder := { s.coder with input := bytes, inpos := 0 } } := by
  simp [loadInput, acceptsInput, h]

theorem loadInput_not_idle {s : State} (bytes : List Byte) (h : s.mode ≠ .idle) :
    loadInput bytes s = s := by
  simp [loadInput, acceptsInput, h]

theorem illegalCommand_open {s : State} (c : Command) (h : s.mode ≠ .faulted) :
    illegalCommand c s = takeFault .illegalCommand c.opc s := by
  simp [illegalCommand, h]

theorem illegalCommand_faulted {s : State} (c : Command) (h : s.mode = .faulted) :
    illegalCommand c s = s := by
  simp [illegalCommand, h]

/-! ## The status word -/

/-- `STATUS` depends on its three fields only. -/
theorem status_congr {s t : State} (hm : s.mode = t.mode) (hc : s.fcode = t.fcode)
    (ho : s.fopc = t.fopc) : s.status = t.status := by
  simp [State.status, hm, hc, ho]

/-- `TakeFault` shows mode 3, the code and the opcode in `STATUS`. -/
theorem takeFault_status (code : FaultCode) (opc : Byte) (s : State) :
    (takeFault code opc s).status = 0#8 ++ opc ++ code.code ++ 0#6 ++ 3#2 := rfl

end Sys2Proof.Machine
end

