-- ==== Sys2Proof/Laws/Encoder.lean ====
section
/-! SUPPORT. What each operation of the encoder does, said once, in the exact arithmetic of `Interval`: adding
to the low end, renormalising, and coding a bit, a symbol or a raw step. Provers cite these equations and unfold
none of the operations. -/

namespace Sys2Proof.Reference

/-- An interval an encoder can hold: of a width a 32-bit register holds after renormalisation, and below the
bound of 40_entropy_coder.md R173. -/
def Interval.sound (v : Interval) : Prop :=
  2 ^ 24 ≤ v.width ∧ v.width < 2 ^ 32 ∧ v.number + v.width ≤ 256 ^ v.bytes * 2 ^ 32

theorem two_pow_bytes (n : Nat) : 2 ^ (8 * n + 32) = 256 ^ n * 2 ^ 32 := by
  rw [Nat.pow_add, Nat.pow_mul]

/-- The renormalisation steps bring any width of 1 or more to 2^24 and stay in 32 bits. -/
theorem renormSteps_width {w : Nat} (h1 : 1 ≤ w) (h2 : w < 2 ^ 32) :
    2 ^ 24 ≤ w * 256 ^ renormSteps w ∧ w * 256 ^ renormSteps w < 2 ^ 32 := by
  unfold renormSteps
  split
  · omega
  · split
    · omega
    · split <;> omega

/-- A part of a sound interval is sound. -/
theorem Interval.sound_part {v : Interval} (hv : v.sound) {x w : Nat} (h1 : 1 ≤ w)
    (h2 : x + w ≤ v.width) : (v.part x w).sound := by
  obtain ⟨-, hw, hn⟩ := hv
  obtain ⟨h3, h4⟩ := renormSteps_width h1 (by omega : w < 2 ^ 32)
  refine ⟨h3, h4, ?_⟩
  simp only [Interval.part, Nat.pow_add]
  have : v.number + x + w ≤ 256 ^ v.bytes * 2 ^ 32 := by omega
  calc (v.number + x) * 256 ^ renormSteps w + w * 256 ^ renormSteps w
      = (v.number + x + w) * 256 ^ renormSteps w := by ring
    _ ≤ 256 ^ v.bytes * 2 ^ 32 * 256 ^ renormSteps w := Nat.mul_le_mul_right _ this
    _ = 256 ^ v.bytes * 256 ^ renormSteps w * 2 ^ 32 := by ring

/-- A raw step of at most 19 bits leaves a width of at least 32 for each part. -/
theorem raw_part_width {width n : Nat} (hw : 2 ^ 24 ≤ width) (hn : n ≤ 19) : 1 ≤ width / 2 ^ n := by
  rw [Nat.one_le_div_iff (by positivity)]
  exact le_trans (Nat.pow_le_pow_right (by norm_num) (by omega)) hw

theorem Interval.sound_raw {v : Interval} (hv : v.sound) {n x : Nat} (hn : n ≤ 19) (hx : x < 2 ^ n) :
    (v.raw n x).sound := by
  refine Interval.sound_part hv (raw_part_width hv.1 hn) ?_
  calc x * (v.width / 2 ^ n) + v.width / 2 ^ n = (x + 1) * (v.width / 2 ^ n) := by ring
    _ ≤ 2 ^ n * (v.width / 2 ^ n) := Nat.mul_le_mul_right _ hx
    _ ≤ v.width := Nat.mul_div_le _ _

/-- No part takes back a byte. -/
theorem Interval.bytes_symbol (v : Interval) (dist : List Word) (s : Nat) :
    v.bytes ≤ (v.symbol dist s).bytes := Nat.le_add_right _ _

theorem Interval.bytes_bit (v : Interval) (p0 : Nat) (b : Bool) : v.bytes ≤ (v.bit p0 b).bytes := by
  unfold Interval.bit
  split <;> exact Nat.le_add_right _ _

theorem Interval.bytes_field (v : Interval) (n x : Nat) : v.bytes ≤ (v.field n x).bytes := by
  unfold Interval.field
  split
  · exact le_trans (Nat.le_add_right _ _) (Nat.le_add_right _ _)
  · exact Nat.le_add_right _ _

end Sys2Proof.Reference

namespace Sys2Proof.Machine

open Sys2Proof.Reference

/-! ## Coders and intervals -/

@[simp] theorem withInterval_intervalOf (c : Coder) : withInterval c (intervalOf c) = c := by
  have hb := c.base.isLt
  have h1 : (bytesNumber c.outbuf * 2 ^ 32 + c.base.toNat) / 2 ^ 32 = bytesNumber c.outbuf := by omega
  have h2 : BitVec.ofNat 32 (bytesNumber c.outbuf * 2 ^ 32 + c.base.toNat) = c.base := by
    apply BitVec.eq_of_toNat_eq
    rw [BitVec.toNat_ofNat]
    omega
  simp only [withInterval, intervalOf, h1, h2, digits_bytesNumber, BitVec.ofNat_toNat, BitVec.setWidth_eq]

theorem intervalOf_withInterval (c : Coder) {v : Interval} (hw : v.width < 2 ^ 32)
    (hn : v.number < 256 ^ v.bytes * 2 ^ 32) : intervalOf (withInterval c v) = v := by
  have h1 : v.number / 2 ^ 32 < 256 ^ v.bytes := Nat.div_lt_of_lt_mul (by omega)
  obtain ⟨n, w, b⟩ := v
  simp only [intervalOf, withInterval_base, withInterval_length, withInterval_outbuf, digits_length,
    bytesNumber_digits_of_lt h1, BitVec.toNat_ofNat, Interval.mk.injEq, and_true]
  exact ⟨by omega, Nat.mod_eq_of_lt hw⟩

@[simp] theorem withInterval_withInterval (c : Coder) (u v : Interval) :
    withInterval (withInterval c u) v = withInterval c v := rfl

/-- The interval of a coder in an open encoder chunk is sound, and the other way round. -/
theorem coder_ok_encode (c : Coder) : c.ok .encode ↔ (intervalOf c).sound := by
  have := c.length.isLt
  simp only [Coder.ok, Interval.sound, Bool.and_eq_true, decide_eq_true_eq, two_pow_bytes]
  constructor
  · exact fun h => ⟨h.1, this, h.2⟩
  · exact fun h => ⟨h.1, h.2.2⟩

theorem coder_ok_withInterval (c : Coder) {v : Interval} (hv : v.sound) :
    (withInterval c v).ok .encode := by
  rw [coder_ok_encode, intervalOf_withInterval c hv.2.1 (by have := hv.1; have := hv.2.2; omega)]
  exact hv

/-! ## The output buffer -/

theorem fits_mono {g : Config} {m n : Nat} (h : m ≤ n) (hn : fits g n) : fits g m := by
  unfold fits at *
  split at hn <;> simp_all
  omega

/-- What an operation of the encoder answers that moves to the interval `v`: the coder that holds it if the
bytes fit, OUTPUT_OVERFLOW otherwise. -/
def moved (g : Config) (c : Coder) (v : Interval) : Res Coder :=
  if fits g v.bytes then .ok (withInterval c v) else raise .outputOverflow

/-- Everything `OutPush` can answer (40_entropy_coder.md R151). -/
theorem outPush_eq (g : Config) (b : Byte) (c : Coder) :
    outPush g.outCapacity b c =
      if fits g (c.outbuf.length + 1) then .ok { c with outbuf := c.outbuf ++ [b] }
      else raise .outputOverflow := by
  unfold outPush fits
  cases g.outCapacity with
  | none => rfl
  | some n =>
    simp only [decide_eq_true_eq]
    by_cases hn : n ≤ c.outbuf.length
    · rw [if_pos hn, if_neg (by omega)]
    · rw [if_neg hn, if_pos (by omega)]

/-- Everything the run of zero bytes can answer (40_entropy_coder.md R169). -/
theorem outZeros_eq (g : Config) (n : Nat) (c : Coder) (hc : fits g c.outbuf.length) :
    outZeros g.outCapacity n c =
      if fits g (c.outbuf.length + n) then .ok { c with outbuf := c.outbuf ++ List.replicate n 0 }
      else raise .outputOverflow := by
  induction n generalizing c with
  | zero => simp [outZeros, hc]
  | succ n ih =>
    simp only [outZeros, outPush_eq]
    by_cases h1 : fits g (c.outbuf.length + 1)
    · rw [if_pos h1, res_bind_ok, ih _ (by simpa using h1)]
      simp only [List.length_append, List.length_singleton, List.append_assoc, Nat.add_assoc,
        Nat.add_comm 1 n, List.singleton_append, List.replicate_succ]
    · rw [if_neg h1, res_bind_raise, if_neg fun h => h1 (fits_mono (by omega) h)]

/-- `PropagateCarry` adds one to the number in `OUTBUF` (40_entropy_coder.md R152). -/
theorem propagateCarry_eq {c : Coder} (h : bytesNumber c.outbuf + 1 < 256 ^ c.outbuf.length) :
    propagateCarry c =
      .ok { c with outbuf := digits c.outbuf.length (bytesNumber c.outbuf + 1) } := by
  have hc := carryBack_of_lt h
  unfold propagateCarry
  cases hr : carryBack c.outbuf.reverse with
  | none => simp [hr] at hc
  | some r =>
    rw [hr, Option.map_some, Option.some.injEq] at hc
    simp [hc]

/-- `AddBase` adds to the low end of the interval, carry included (40_entropy_coder.md R156, R173). -/
theorem addBase_eq (c : Coder) (v : Interval) (x : Word)
    (h : v.number + x.toNat < 256 ^ v.bytes * 2 ^ 32) :
    addBase x (withInterval c v) = .ok (withInterval c { v with number := v.number + x.toNat }) := by
  have hx := x.isLt
  have hd : v.number / 2 ^ 32 < 256 ^ v.bytes := Nat.div_lt_of_lt_mul (by omega)
  have hbase : BitVec.ofNat 32 v.number + x = BitVec.ofNat 32 (v.number + x.toNat) := by
    apply BitVec.eq_of_toNat_eq
    simp [BitVec.toNat_add]
  have hlt : (BitVec.ofNat 32 v.number + x < BitVec.ofNat 32 v.number) ↔
      2 ^ 32 ≤ v.number % 2 ^ 32 + x.toNat := by
    rw [BitVec.lt_def, BitVec.toNat_add, BitVec.toNat_ofNat]
    omega
  unfold addBase
  simp only [withInterval_base, hlt]
  split
  · rw [propagateCarry_eq]
    · have h1 : v.number / 2 ^ 32 + 1 = (v.number + x.toNat) / 2 ^ 32 := by omega
      simp only [withInterval_outbuf, digits_length, bytesNumber_digits_of_lt hd, h1, hbase]
      rfl
    · simp only [withInterval_outbuf, digits_length, bytesNumber_digits_of_lt hd]
      omega
  · have h1 : v.number / 2 ^ 32 = (v.number + x.toNat) / 2 ^ 32 := by omega
    rw [hbase]
    simp only [withInterval, h1]

/-! ## Renormalisation -/

/-- One turn of `RenormEnc` pushes the top byte of the window and moves it down one byte. -/
theorem renormEncLoop_succ (g : Config) (fuel : Nat) (c : Coder) (v : Interval) :
    renormEncLoop g.outCapacity (fuel + 1) (withInterval c v) =
      if fits g (v.bytes + 1) then
        (if 2 ^ 24 ≤ v.width * 256 % 2 ^ 32 then
          .ok (withInterval c ⟨v.number * 256, v.width * 256, v.bytes + 1⟩)
         else
          renormEncLoop g.outCapacity fuel
            (withInterval c ⟨v.number * 256, v.width * 256, v.bytes + 1⟩))
      else raise .outputOverflow := by
  have hb : BitVec.ofNat 32 v.number <<< 8 = BitVec.ofNat 32 (v.number * 256) := by
    apply BitVec.eq_of_toNat_eq
    simp [Nat.shiftLeft_eq]
  have hl : BitVec.ofNat 32 v.width <<< 8 = BitVec.ofNat 32 (v.width * 256) := by
    apply BitVec.eq_of_toNat_eq
    simp [Nat.shiftLeft_eq]
  have ho : digits v.bytes (v.number / 2 ^ 32) ++ [(BitVec.ofNat 32 v.number).extractLsb' 24 8] =
      digits (v.bytes + 1) (v.number * 256 / 2 ^ 32) := by
    rw [digits_succ, show v.number * 256 / 2 ^ 32 / 256 = v.number / 2 ^ 32 by omega]
    refine congrArg (fun b => _ ++ [b]) (BitVec.eq_of_toNat_eq ?_)
    simp only [BitVec.extractLsb'_toNat, BitVec.toNat_ofNat, Nat.shiftRight_eq_div_pow]
    omega
  have ht : (BitVec.ofNat 32 (v.width * 256)).toNat = v.width * 256 % 2 ^ 32 := BitVec.toNat_ofNat _ _
  simp only [renormEncLoop, outPush_eq, withInterval_outbuf, digits_length, withInterval_base]
  split
  · rw [res_bind_ok]
    simp only [ho, withInterval_length, hb, hl, ht]
    rfl
  · rw [res_bind_raise]

/-- `k + 1` turns of `RenormEnc`, when the width needs exactly these. -/
theorem renormEncLoop_eq (g : Config) (c : Coder) (k fuel : Nat) (v : Interval) (hf : k < fuel)
    (hlo : 2 ^ 24 ≤ v.width * 256 ^ (k + 1)) (hhi : v.width * 256 ^ k < 2 ^ 24) :
    renormEncLoop g.outCapacity fuel (withInterval c v) =
      moved g c ⟨v.number * 256 ^ (k + 1), v.width * 256 ^ (k + 1), v.bytes + (k + 1)⟩ := by
  induction k generalizing v fuel with
  | zero =>
    obtain ⟨fuel, rfl⟩ : ∃ f, fuel = f + 1 := ⟨fuel - 1, by omega⟩
    rw [renormEncLoop_succ]
    rw [if_pos (show 2 ^ 24 ≤ v.width * 256 % 2 ^ 32 by omega)]
    simp only [moved, zero_add, pow_one]
  | succ k ih =>
    obtain ⟨fuel, rfl⟩ : ∃ f, fuel = f + 1 := ⟨fuel - 1, by omega⟩
    have hk : 1 ≤ 256 ^ k := Nat.one_le_pow _ _ (by norm_num)
    have hw : v.width * 256 < 2 ^ 24 := by
      have : v.width * 256 * 1 ≤ v.width * 256 * 256 ^ k := Nat.mul_le_mul_left _ hk
      rw [Nat.pow_succ] at hhi
      have : v.width * 256 * 256 ^ k = v.width * (256 ^ k * 256) := by ring
      omega
    have e2 : ∀ n j : Nat, n * 256 * 256 ^ j = n * 256 ^ (j + 1) := fun n j => by ring
    rw [renormEncLoop_succ]
    rw [if_neg (show ¬ 2 ^ 24 ≤ v.width * 256 % 2 ^ 32 by omega), ih fuel ⟨v.number * 256, v.width * 256, v.bytes + 1⟩ (by omega)
      (by simpa only [e2] using hlo) (by simpa only [e2] using hhi)]
    simp only [moved, e2, Nat.add_assoc, Nat.add_comm 1]
    split
    · rfl
    · rw [if_neg fun h => ‹¬ _› (fits_mono (by omega) h)]

/-- Everything renormalisation of the encoder can answer (40_entropy_coder.md R153). -/
theorem renormEncIfShort_eq (g : Config) (c : Coder) (v : Interval) (h1 : 1 ≤ v.width)
    (h2 : v.width < 2 ^ 32) (hf : fits g v.bytes) :
    renormEncIfShort g.outCapacity (withInterval c v) =
      moved g c ⟨v.number * 256 ^ renormSteps v.width, v.width * 256 ^ renormSteps v.width,
        v.bytes + renormSteps v.width⟩ := by
  unfold renormEncIfShort renormEnc
  rw [withInterval_length, BitVec.toNat_ofNat, Nat.mod_eq_of_lt h2, show minLen = 2 ^ 24 from rfl]
  unfold renormSteps
  split
  · rw [if_neg (by omega)]
    split
    · exact renormEncLoop_eq g c 0 4 v (by omega) (by omega) (by omega)
    · split
      · exact renormEncLoop_eq g c 1 4 v (by omega) (by omega) (by omega)
      · exact renormEncLoop_eq g c 2 4 v (by omega) (by omega) (by omega)
  · rw [if_pos (by omega)]
    simp [moved, hf]

/-- Moving to the part that begins `x` above the low end and is `w` wide: the step of R156 and the
renormalisation after it. -/
theorem addBase_renorm_eq (g : Config) (c : Coder) (v : Interval) (x w : Word) (hv : v.sound)
    (h1 : 1 ≤ w.toNat) (h2 : x.toNat + w.toNat ≤ v.width) (hf : fits g v.bytes) :
    (addBase x (withInterval c v) >>= fun c =>
        renormEncIfShort g.outCapacity { c with length := w }) =
      moved g c (v.part x.toNat w.toNat) := by
  obtain ⟨-, -, hn⟩ := hv
  rw [addBase_eq c v x (by omega), res_bind_ok]
  have : ({ withInterval c { v with number := v.number + x.toNat } with length := w } : Coder) =
      withInterval c ⟨v.number + x.toNat, w.toNat, v.bytes⟩ := by
    simp [withInterval]
  rw [this, renormEncIfShort_eq g c ⟨v.number + x.toNat, w.toNat, v.bytes⟩ h1 w.isLt hf]
  rfl

/-! ## The coding procedures -/

/-- What `EncRaw` does (41_raw_fields.md R200). -/
theorem encRaw_eq (g : Config) (c : Coder) (v : Interval) (n x : Nat) (hv : v.sound) (hn : n ≤ 19)
    (hx : x < 2 ^ n) (hf : fits g v.bytes) :
    encRaw g.outCapacity n x (withInterval c v) = moved g c (v.raw n x) := by
  have h1 := raw_part_width hv.1 hn
  have h2 : x * (v.width / 2 ^ n) + v.width / 2 ^ n ≤ v.width :=
    calc x * (v.width / 2 ^ n) + v.width / 2 ^ n = (x + 1) * (v.width / 2 ^ n) := by ring
      _ ≤ 2 ^ n * (v.width / 2 ^ n) := Nat.mul_le_mul_right _ hx
      _ ≤ v.width := Nat.mul_div_le _ _
  obtain ⟨-, hw, hs⟩ := hv
  have hl : (BitVec.ofNat 32 v.width >>> n).toNat = v.width / 2 ^ n := by
    rw [BitVec.toNat_ushiftRight, BitVec.toNat_ofNat, Nat.mod_eq_of_lt hw, Nat.shiftRight_eq_div_pow]
  have hu : (u32 (x * (v.width / 2 ^ n))).toNat = x * (v.width / 2 ^ n) := by
    rw [u32, BitVec.toNat_ofNat, Nat.mod_eq_of_lt]
    omega
  unfold encRaw
  simp only [withInterval_length, hl]
  have e : ({ withInterval c v with length := BitVec.ofNat 32 v.width >>> n } : Coder) =
      withInterval c { v with width := v.width / 2 ^ n } := by
    have : BitVec.ofNat 32 v.width >>> n = BitVec.ofNat 32 (v.width / 2 ^ n) :=
      BitVec.eq_of_toNat_eq (by rw [hl, BitVec.toNat_ofNat, Nat.mod_eq_of_lt]; omega)
    simp only [withInterval, this]
  rw [e, addBase_eq _ _ _ (by simp only [hu]; omega), res_bind_ok, hu]
  rw [renormEncIfShort_eq g c ⟨v.number + x * (v.width / 2 ^ n), v.width / 2 ^ n, v.bytes⟩ h1
    (by simp only; omega) hf]
  rfl

/-- The width of the part bit 0 takes is inside the interval, for a model within its bounds. -/
theorem bit_part_width {width p0 : Nat} (hw : 2 ^ 24 ≤ width) (h1 : 1 ≤ p0) (h2 : p0 ≤ 8191) :
    1 ≤ p0 * (width / 2 ^ 13) ∧ p0 * (width / 2 ^ 13) < width := by
  have hq : 1 ≤ width / 2 ^ 13 := by omega
  constructor
  · exact Nat.one_le_iff_ne_zero.2 (by positivity)
  · have : p0 * (width / 2 ^ 13) ≤ 8191 * (width / 2 ^ 13) := Nat.mul_le_mul_right _ h2
    omega

/-- What `EncBitM` does (40_entropy_coder.md R157). -/
theorem encBitM_eq (g : Config) (c : Coder) (v : Interval) (m : BitModel) (b : Bool) (hv : v.sound)
    (hm : m.ok) (hf : fits g v.bytes) :
    encBitM g.outCapacity (withInterval c v) m b =
      (moved g c (v.bit m.p0.toNat b) >>= fun c => .ok (c, bitModelCoded m b)) := by
  have hp : 1 ≤ m.p0.toNat ∧ m.p0.toNat ≤ 8191 := by
    simp only [BitModel.ok, Bool.and_eq_true, decide_eq_true_eq] at hm
    tauto
  obtain ⟨h1, h2⟩ := bit_part_width hv.1 hp.1 hp.2
  have hw := hv.2.1
  have hx : (bitSplit (withInterval c v) m).toNat = m.p0.toNat * (v.width / 2 ^ 13) := by
    simp only [bitSplit, u32, withInterval_length, BitVec.toNat_ofNat, Nat.shiftRight_eq_div_pow,
      Nat.mod_eq_of_lt hw, bmShift]
    omega
  generalize hX : bitSplit (withInterval c v) m = x at hx
  unfold encBitM
  rw [hX]
  cases b with
  | false =>
    have e : ({ withInterval c v with length := x } : Coder) =
        withInterval c { v with width := x.toNat } := by simp [withInterval]
    simp only [if_neg Bool.false_ne_true, res_bind_ok, e]
    rw [renormEncIfShort_eq g c { v with width := x.toNat } (by simp only; omega) x.isLt hf]
    simp [Interval.bit, Interval.part, hx]
  | true =>
    have hlen : (BitVec.ofNat 32 v.width - x).toNat = v.width - x.toNat := by
      rw [BitVec.toNat_sub_of_le (by rw [BitVec.le_def, BitVec.toNat_ofNat]; omega),
        BitVec.toNat_ofNat]
      omega
    have hadd := addBase_renorm_eq g c v x (BitVec.ofNat 32 v.width - x) hv (by omega) (by omega) hf
    rw [addBase_eq c v x (by have := hv.2.2; omega), res_bind_ok] at hadd
    simp only [if_pos, addBase_eq c v x (by have := hv.2.2; omega), res_bind_ok, withInterval_length,
      hadd, hlen]
    simp [Interval.bit, hx]

/-! ### Symbols -/

/-- What the bounds of a ready symbol model say of its distribution (10_state.md R44). -/
theorem readyOk_dist {m : SymModel} (hm : m.readyOk) :
    m.dist.length = m.nsym ∧ 2 ≤ m.nsym ∧ m.dist.head? = some 0 ∧
    m.dist.Pairwise (fun x y => x.toNat < y.toNat) ∧ ∀ d ∈ m.dist, d.toNat < 32768 := by
  simp only [SymModel.readyOk, SymModel.shapeOk, SymModel.tablesOk, Bool.and_eq_true,
    decide_eq_true_eq, List.all_eq_true] at hm
  tauto

/-- The two ends of a symbol's part lie in order inside the width, and its part is not empty. -/
theorem symbolEnds_bounds {m : SymModel} (hm : m.readyOk) {width s : Nat} (hw : 2 ^ 24 ≤ width)
    (hs : s < m.nsym) :
    (symbolEnds m.dist width s).1 < (symbolEnds m.dist width s).2 ∧
    (symbolEnds m.dist width s).2 ≤ width := by
  obtain ⟨hlen, -, -, hp, hb⟩ := readyOk_dist hm
  have hl : 1 ≤ width / 2 ^ 15 := by omega
  have key : ∀ d : Nat, d < 32768 → d * (width / 2 ^ 15) < width := fun d hd => by
    have : d * (width / 2 ^ 15) ≤ 32767 * (width / 2 ^ 15) := Nat.mul_le_mul_right _ (by omega)
    omega
  have hs' : s < m.dist.length := by omega
  have e1 : m.dist.getD s 0 = m.dist[s] := by simp [List.getD, hs']
  have b1 := hb _ (List.getElem_mem hs')
  simp only [symbolEnds, e1]
  split
  · exact ⟨key _ b1, le_refl _⟩
  · rename_i hne
    have hs2 : s + 1 < m.dist.length := by omega
    have e2 : m.dist.getD (s + 1) 0 = m.dist[s + 1] := by simp [List.getD, hs2]
    have b2 := hb _ (List.getElem_mem hs2)
    have hlt := List.pairwise_iff_getElem.1 hp s (s + 1) hs' hs2 (by omega)
    rw [e2]
    exact ⟨Nat.mul_lt_mul_of_pos_right hlt (by omega), (key _ b2).le⟩

/-- The two ends as the procedures compute them (40_entropy_coder.md R159, R160). -/
theorem symLow_symHigh_eq (c : Coder) {m : SymModel} (hm : m.readyOk) {s : Nat} (hs : s < m.nsym)
    (hw : 2 ^ 24 ≤ c.length.toNat) :
    ∃ x y : Word, symLow c m s = .ok x ∧ symHigh c m s = .ok y ∧
      x.toNat = (symbolEnds m.dist c.length.toNat s).1 ∧
      y.toNat = (symbolEnds m.dist c.length.toNat s).2 := by
  obtain ⟨hlen, h2, -, -, -⟩ := readyOk_dist hm
  obtain ⟨hb1, hb2⟩ := symbolEnds_bounds hm hw hs
  have hl := c.length.isLt
  have hs' : s < m.dist.length := by omega
  have e1 : m.dist.getD s 0 = m.dist[s] := by simp [List.getD, hs']
  simp only [symbolEnds, e1] at hb1 hb2 ⊢
  have hx : (u32 (m.dist[s].toNat * (c.length.toNat >>> dmShift))).toNat =
      m.dist[s].toNat * (c.length.toNat / 2 ^ 15) := by
    rw [u32, BitVec.toNat_ofNat, Nat.shiftRight_eq_div_pow, show dmShift = 15 from rfl,
      Nat.mod_eq_of_lt (by omega)]
  refine ⟨u32 (m.dist[s].toNat * (c.length.toNat >>> dmShift)), ?_⟩
  by_cases hlast : s + 1 = m.dist.length
  · refine ⟨c.length, ?_, ?_, hx, by simp [hlast]⟩
    · simp [symLow, entry, hs']
    · simp [symHigh, SymModel.last, show s = m.nsym - 1 by omega]
  · have hs2 : s + 1 < m.dist.length := by omega
    have e2 : m.dist.getD (s + 1) 0 = m.dist[s + 1] := by simp [List.getD, hs2]
    simp only [if_neg hlast, e2] at hb1 hb2 ⊢
    refine ⟨u32 (m.dist[s + 1].toNat * (c.length.toNat >>> dmShift)), ?_, ?_, hx, ?_⟩
    · simp [symLow, entry, hs']
    · simp [symHigh, SymModel.last, show s ≠ m.nsym - 1 by omega, entry, hs2]
    · rw [u32, BitVec.toNat_ofNat, Nat.shiftRight_eq_div_pow, show dmShift = 15 from rfl,
        Nat.mod_eq_of_lt (by omega)]

/-- What `EncSymM` does (40_entropy_coder.md R159). -/
theorem encSymM_eq (g : Config) (c : Coder) (v : Interval) (m : SymModel) (s : Nat) (hv : v.sound)
    (hm : m.readyOk) (hs : s < m.nsym) (hf : fits g v.bytes) :
    encSymM g.outCapacity (withInterval c v) m s =
      (moved g c (v.symbol m.dist s) >>= fun c => .ok (c, symModelCoded m s)) := by
  have hw : (withInterval c v).length.toNat = v.width := by
    rw [withInterval_length, BitVec.toNat_ofNat, Nat.mod_eq_of_lt hv.2.1]
  obtain ⟨x, y, hx, hy, ex, ey⟩ := symLow_symHigh_eq (withInterval c v) hm hs (by rw [hw]; exact hv.1)
  obtain ⟨hb1, hb2⟩ := symbolEnds_bounds hm hv.1 hs
  rw [hw] at ex ey
  have hlen : (y - x).toNat = y.toNat - x.toNat :=
    BitVec.toNat_sub_of_le (by rw [BitVec.le_def]; omega)
  have hadd := addBase_renorm_eq g c v x (y - x) hv (by omega) (by omega) hf
  rw [addBase_eq c v x (by have := hv.2.2; omega), res_bind_ok] at hadd
  simp only [encSymM, hx, hy, res_bind_ok, addBase_eq c v x (by have := hv.2.2; omega), hadd, hlen]
  simp only [Interval.symbol, ex, ey]

/-- The part of a symbol is sound. -/
theorem sound_symbol {v : Interval} (hv : v.sound) {m : SymModel} (hm : m.readyOk) {s : Nat}
    (hs : s < m.nsym) : (v.symbol m.dist s).sound := by
  obtain ⟨hb1, hb2⟩ := symbolEnds_bounds hm hv.1 hs
  exact Interval.sound_part (x := (symbolEnds m.dist v.width s).1)
    (w := (symbolEnds m.dist v.width s).2 - (symbolEnds m.dist v.width s).1) hv (by omega) (by omega)

/-- The part of a bit is sound. -/
theorem sound_bit {v : Interval} (hv : v.sound) {m : BitModel} (hm : m.ok) (b : Bool) :
    (v.bit m.p0.toNat b).sound := by
  have hp : 1 ≤ m.p0.toNat ∧ m.p0.toNat ≤ 8191 := by
    simp only [BitModel.ok, Bool.and_eq_true, decide_eq_true_eq] at hm
    tauto
  obtain ⟨h1, h2⟩ := bit_part_width hv.1 hp.1 hp.2
  unfold Interval.bit
  split
  · exact Interval.sound_part hv (by omega) (by omega)
  · exact Interval.sound_part hv h1 (by omega)

/-! ### Raw fields -/

/-- Moving on from an interval that was reached needs its bytes to fit, and no more. -/
theorem moved_bind_moved {α : Type} (g : Config) (c : Coder) {u v : Interval} (h : u.bytes ≤ v.bytes)
    (f : Coder → Res α) (r : Coder → Res α)
    (hf : fits g u.bytes → f (withInterval c u) = (moved g c v >>= r)) :
    (moved g c u >>= f) = (moved g c v >>= r) := by
  by_cases hu : fits g u.bytes
  · simp only [moved, if_pos hu, res_bind_ok, hf hu]
  · have : ¬ fits g v.bytes := fun hv => hu (fits_mono h hv)
    simp only [moved, if_neg hu, if_neg this, res_bind_raise]

/-- Two raw steps. -/
theorem encRaw_encRaw_eq (g : Config) (c : Coder) (v : Interval) (n k x y : Nat) (hv : v.sound)
    (hn : n ≤ 19) (hk : k ≤ 19) (hx : x < 2 ^ n) (hy : y < 2 ^ k) (hf : fits g v.bytes) :
    (encRaw g.outCapacity n x (withInterval c v) >>= fun c => encRaw g.outCapacity k y c) =
      moved g c ((v.raw n x).raw k y) := by
  rw [encRaw_eq g c v n x hv hn hx hf]
  have := moved_bind_moved g c (u := v.raw n x) (v := (v.raw n x).raw k y) (Nat.le_add_right _ _)
    (fun c => encRaw g.outCapacity k y c) (fun c => .ok c) fun hu => by
      rw [encRaw_eq g c _ k y (Interval.sound_raw hv hn hx) hk hy hu]
      cases moved g c ((v.raw n x).raw k y) <;> rfl
  rw [this]
  cases moved g c ((v.raw n x).raw k y) <;> rfl

/-- What `EncBits` does (41_raw_fields.md R202). -/
theorem encBits_eq (g : Config) (c : Coder) (v : Interval) (n x : Nat) (hv : v.sound) (hn : n ≤ 32)
    (hx : x < 2 ^ n) (hf : fits g v.bytes) :
    encBits g.outCapacity n x (withInterval c v) = moved g c (v.field n x) := by
  unfold encBits Interval.field
  rw [show rawSplit = 19 from rfl]
  split
  · rw [Nat.shiftRight_eq_div_pow]
    refine encRaw_encRaw_eq g c v 16 (n - 16) _ _ hv (by omega) (by omega) (by omega) ?_ hf
    rw [Nat.div_lt_iff_lt_mul (by positivity), ← Nat.pow_add]
    rwa [show n - 16 + 16 = n by omega]
  · exact encRaw_eq g c v n x hv (by omega) hx hf

/-- The interval after a field of at most 32 bits is sound. -/
theorem sound_field {v : Interval} (hv : v.sound) {n x : Nat} (hn : n ≤ 32) (hx : x < 2 ^ n) :
    (v.field n x).sound := by
  unfold Interval.field
  split
  · refine Interval.sound_raw (Interval.sound_raw hv (by omega) (Nat.mod_lt _ (by norm_num)))
      (by omega) ?_
    rw [Nat.div_lt_iff_lt_mul (by positivity), ← Nat.pow_add]
    rwa [show n - 16 + 16 = n by omega]
  · exact Interval.sound_raw hv (by omega) hx

/-- What the 32-bit writes do (41_raw_fields.md R210). -/
theorem encWord_eq (g : Config) (c : Coder) (v : Interval) (x : Nat) (hv : v.sound)
    (hf : fits g v.bytes) :
    encWord g.outCapacity x (withInterval c v) = moved g c (Interval.halves 2 v x) := by
  have h0 : half x 0 = x % 2 ^ 16 := by simp [half]
  have h1 : half x 1 = x / 2 ^ 16 % 2 ^ 16 := by simp [half, Nat.shiftRight_eq_div_pow]
  unfold encWord
  rw [h0, h1]
  exact encRaw_encRaw_eq g c v 16 16 _ _ hv (by omega) (by omega) (by omega) (by omega) hf

/-- What the 64-bit writes do (41_raw_fields.md R212). -/
theorem encDWord_eq (g : Config) (c : Coder) (v : Interval) (x : Nat) (hv : v.sound)
    (hf : fits g v.bytes) :
    encDWord g.outCapacity x (withInterval c v) = moved g c (Interval.halves 4 v x) := by
  have h0 : half x 0 = x % 2 ^ 16 := by simp [half]
  have h1 : half x 1 = x / 2 ^ 16 % 2 ^ 16 := by simp [half, Nat.shiftRight_eq_div_pow]
  have h2 : half x 2 = x / 2 ^ 16 / 2 ^ 16 % 2 ^ 16 := by
    simp [half, Nat.shiftRight_eq_div_pow, Nat.div_div_eq_div_mul]
  have h3 : half x 3 = x / 2 ^ 16 / 2 ^ 16 / 2 ^ 16 % 2 ^ 16 := by
    simp [half, Nat.shiftRight_eq_div_pow, Nat.div_div_eq_div_mul]
  have s1 := Interval.sound_raw hv (n := 16) (x := x % 2 ^ 16) (by omega) (by omega)
  have s2 := Interval.sound_raw s1 (n := 16) (x := x / 2 ^ 16 % 2 ^ 16) (by omega) (by omega)
  have idr : ∀ r : Res Coder, (r >>= fun c => .ok c) = r := fun r => by cases r <;> rfl
  unfold encDWord
  rw [h0, h1, h2, h3, ← res_bind_assoc,
    encRaw_encRaw_eq g c v 16 16 _ _ hv (by omega) (by omega) (by omega) (by omega) hf,
    ← idr (moved g c (Interval.halves 4 v x))]
  refine moved_bind_moved g c ?_ _ _ fun hu => ?_
  · exact le_trans (Nat.le_add_right _ _) (Nat.le_add_right _ _)
  · rw [encRaw_encRaw_eq g c _ 16 16 _ _ s2 (by omega) (by omega) (by omega) (by omega) hu, idr]
    rfl

/-! ### The flush -/

/-- What the flush of DONE_ENC does (40_entropy_coder.md R169): the chunk is the number in the interval with
its low bytes cleared, and exactly four bytes longer than `OUTBUF` was; `BASE` is the offset low end moved up. -/
theorem flushEnc_eq (g : Config) (c : Coder) (v : Interval) (hv : v.sound) :
    ∃ c' : Coder,
      c' = { c with
        base := BitVec.ofNat 32
          (if 2 ^ 25 < v.width then (v.number + 2 ^ 24) * 2 ^ 8 else (v.number + 2 ^ 23) * 2 ^ 16)
        length := 0x80000000#32, outbuf := c'.outbuf } ∧
      c'.outbuf.length = v.bytes + 4 ∧
      bytesNumber c'.outbuf =
        (if 2 ^ 25 < v.width then (v.number + 2 ^ 24) / 2 ^ 24 * 2 ^ 24
         else (v.number + 2 ^ 23) / 2 ^ 16 * 2 ^ 16) ∧
      flushEnc g.outCapacity (withInterval c v) =
        if fits g (v.bytes + 4) then .ok c' else raise .outputOverflow := by
  have hw := hv.2.1
  have hl := hv.1
  have hn := hv.2.2
  have hlen : (withInterval c v).length.toNat = v.width := by
    rw [withInterval_length, BitVec.toNat_ofNat, Nat.mod_eq_of_lt hw]
  have finish : ∀ (x w k z : Nat), k + 1 + z = 4 → k < 4 → x < v.width → w * 256 ^ (k + 1) = 2 ^ 31 →
      w * 256 ^ k < 2 ^ 24 → ∃ c' : Coder,
        c' = { c with
          base := BitVec.ofNat 32 ((v.number + x) * 256 ^ (k + 1))
          length := 0x80000000#32, outbuf := c'.outbuf } ∧
        c'.outbuf.length = v.bytes + 4 ∧
        bytesNumber c'.outbuf = (v.number + x) / 256 ^ z * 256 ^ z ∧
        (renormEnc g.outCapacity (withInterval c ⟨v.number + x, w, v.bytes⟩) >>= fun c =>
          outZeros g.outCapacity z c) =
          if fits g (v.bytes + 4) then .ok c' else raise .outputOverflow := by
    intro x w k z hz hk hx h31 h24
    have hq : (v.number + x) * 256 ^ (k + 1) / 2 ^ 32 = (v.number + x) / 256 ^ z := by
      have : (2 : Nat) ^ 32 = 256 ^ z * 256 ^ (k + 1) := by
        rw [← Nat.pow_add, show z + (k + 1) = 4 by omega]
        norm_num
      rw [this]
      exact Nat.mul_div_mul_right _ _ (by positivity)
    have hb : (v.number + x) / 256 ^ z < 256 ^ (v.bytes + (k + 1)) := by
      rw [Nat.div_lt_iff_lt_mul (by positivity), ← Nat.pow_add,
        show v.bytes + (k + 1) + z = v.bytes + 4 by omega, Nat.pow_add,
        show (256 : Nat) ^ 4 = 2 ^ 32 by norm_num]
      omega
    let u : Interval := ⟨(v.number + x) * 256 ^ (k + 1), w * 256 ^ (k + 1), v.bytes + (k + 1)⟩
    have hzero : ∀ n, bytesNumber (List.replicate n (0 : Byte)) = 0 := fun n => by
      induction n with
      | zero => rfl
      | succ n ih => rw [List.replicate_succ', bytesNumber_snoc, ih]; rfl
    have hbytes : v.bytes + (k + 1) + z = v.bytes + 4 := by omega
    refine ⟨{ withInterval c u with outbuf := (withInterval c u).outbuf ++ List.replicate z 0 },
      ?_, ?_, ?_, ?_⟩
    · simp [withInterval, u, h31]
    · simp [u, hbytes]
    · simp only [withInterval_outbuf, u, hq, bytesNumber_append, List.length_replicate, hzero,
        bytesNumber_digits_of_lt hb, Nat.add_zero]
    · rw [renormEnc, renormEncLoop_eq g c k 4 ⟨v.number + x, w, v.bytes⟩ hk (by simp only; omega) h24]
      by_cases hfit : fits g (v.bytes + (k + 1))
      · rw [moved, if_pos hfit, res_bind_ok, outZeros_eq g z _ (by simpa using hfit)]
        simp only [withInterval_outbuf, digits_length, hbytes, u]
      · rw [moved, if_neg hfit, res_bind_raise, if_neg fun h => hfit (fits_mono (by omega) h)]
  have e1 : (u32 (2 ^ 24)).toNat = 2 ^ 24 := by decide
  have e2 : (u32 (2 ^ 24 >>> 1)).toNat = 2 ^ 23 := by decide
  have set : ∀ (n : Nat) (l : Word), ({ withInterval c { v with number := n } with length := l } : Coder) =
      withInterval c ⟨n, l.toNat, v.bytes⟩ := fun n l => by simp [withInterval]
  have e3 : (u32 (2 ^ 24 >>> 9)).toNat = 2 ^ 15 := by decide
  unfold flushEnc
  simp only [hlen, show minLen = 2 ^ 24 from rfl]
  by_cases h25 : 2 * 2 ^ 24 < v.width
  · rw [if_pos h25, addBase_eq c v _ (by rw [e1]; omega),
      res_bind_ok, set, e1, e2]
    simp only [if_pos (show 2 ^ 25 < v.width by omega)]
    exact finish (2 ^ 24) (2 ^ 23) 0 3 (by omega) (by omega) (by omega) (by norm_num) (by norm_num)
  · rw [if_neg h25, addBase_eq c v _ (by rw [e2]; omega),
      res_bind_ok, set, e2, e3]
    simp only [if_neg (show ¬ 2 ^ 25 < v.width by omega)]
    exact finish (2 ^ 23) (2 ^ 15) 1 2 (by omega) (by omega) (by omega) (by norm_num) (by norm_num)

end Sys2Proof.Machine
end

