-- ==== Sys2Proof/Laws/Decoder.lean ====
section
/-! SUPPORT. What each operation of the decoder does, said once, in the exact arithmetic of `Window`: taking
bytes in, renormalising, and reading a bit, a symbol or a raw step. -/

namespace Sys2Proof.Reference

/-- A window a decoder can hold: of a width a 32-bit register holds after renormalisation. On bytes that no
encoder wrote, the offset may lie outside the width. -/
def Window.sound (w : Window) : Prop := 2 ^ 24 ≤ w.width ∧ w.width < 2 ^ 32 ∧ w.value < 2 ^ 32

/-- A window that has moved to a width of 1 or more is sound. -/
theorem Window.sound_shift (w : Window) (input : List Byte) (value : Nat) {width : Nat} (h1 : 1 ≤ width)
    (h2 : width < 2 ^ 32) : (w.shift input value width).sound := by
  obtain ⟨h3, h4⟩ := renormSteps_width h1 h2
  exact ⟨h3, h4, Nat.mod_lt _ (by norm_num)⟩

theorem Window.sound_raw {w : Window} (hw : w.sound) (input : List Byte) {n : Nat} (hn : n ≤ 19) :
    (w.raw input n).sound := by
  refine Window.sound_shift w input _ (raw_part_width hw.1 hn) ?_
  exact lt_of_le_of_lt (Nat.div_le_self _ _) hw.2.1

theorem Window.pos_shift (w : Window) (input : List Byte) (value width : Nat) :
    w.pos ≤ (w.shift input value width).pos := Nat.le_add_right _ _

theorem Window.pos_raw (w : Window) (input : List Byte) (n : Nat) : w.pos ≤ (w.raw input n).pos :=
  Window.pos_shift _ _ _ _

end Sys2Proof.Reference

namespace Sys2Proof.Machine

open Sys2Proof.Reference

/-! ## Coders and windows -/

@[simp] theorem withWindow_windowOf (c : Coder) : withWindow c (windowOf c) = c := by
  simp [withWindow, windowOf]

theorem windowOf_withWindow (c : Coder) {w : Window} (hw : w.sound) :
    windowOf (withWindow c w) = w := by
  obtain ⟨v, l, p⟩ := w
  simp only [windowOf, withWindow_value, withWindow_length, withWindow_inpos, BitVec.toNat_ofNat,
    Nat.mod_eq_of_lt hw.2.1, Nat.mod_eq_of_lt hw.2.2]

/-- The window of a coder in an open decoder chunk is sound. -/
theorem window_sound_of_ok {c : Coder} (hc : c.ok .decode) : (windowOf c).sound := by
  simp only [Coder.ok, Bool.and_eq_true, decide_eq_true_eq] at hc
  exact ⟨hc.1, c.length.isLt, c.value.isLt⟩

/-! ## The input stream -/

/-- What an operation of the decoder answers that moves to the window `w`: the coder that holds it if the
bytes are there, INPUT_EXHAUSTED otherwise. -/
def taken (c : Coder) (w : Window) : Res Coder :=
  if w.pos ≤ c.input.length then .ok (withWindow c w) else raise .inputExhausted

/-- Everything `InPop` can answer (40_entropy_coder.md R154). -/
theorem inPop_eq (c : Coder) :
    inPop c =
      if h : c.inpos < c.input.length then
        .ok (c.input[c.inpos], { c with inpos := c.inpos + 1, icount := c.icount + 1 })
      else raise .inputExhausted := by
  unfold inPop
  split
  · rename_i h
    rw [List.getElem?_eq_none_iff] at h
    rw [dif_neg (by omega)]
  · rename_i b h
    obtain ⟨h1, h2⟩ := List.getElem?_eq_some_iff.1 h
    rw [dif_pos h1, h2]

/-- Taking one byte into the low end of `VALUE`. -/
theorem shiftIn_eq (c : Coder) (w : Window) (hp : c.inpos ≤ w.pos) :
    shiftIn (withWindow c w) =
      if h : w.pos < c.input.length then
        .ok (withWindow c
          ⟨(w.value * 256 + c.input[w.pos].toNat) % 2 ^ 32, w.width, w.pos + 1⟩)
      else raise .inputExhausted := by
  unfold shiftIn
  by_cases h : w.pos < c.input.length
  · rw [dif_pos h, inPop_eq,
      dif_pos (show (withWindow c w).inpos < (withWindow c w).input.length from h), res_bind_ok]
    have hv : (BitVec.ofNat 32 w.value).extractLsb' 0 24 ++ c.input[w.pos] =
        BitVec.ofNat 32 ((w.value * 256 + c.input[w.pos].toNat) % 2 ^ 32) := by
      apply BitVec.eq_of_toNat_eq
      have hb := c.input[w.pos].isLt
      rw [BitVec.toNat_append, BitVec.extractLsb'_toNat, BitVec.toNat_ofNat, BitVec.toNat_ofNat,
        ← Nat.shiftLeft_add_eq_or_of_lt hb, Nat.shiftLeft_eq, Nat.shiftRight_zero]
      omega
    have hc : c.icount + BitVec.ofNat 32 (w.pos - c.inpos) + 1 =
        c.icount + BitVec.ofNat 32 (w.pos + 1 - c.inpos) := by
      rw [show w.pos + 1 - c.inpos = (w.pos - c.inpos) + 1 by omega, BitVec.ofNat_add, BitVec.add_assoc]
      rfl
    simp only [withWindow, hv, hc]
  · rw [dif_neg h, inPop_eq,
      dif_neg (show ¬ (withWindow c w).inpos < (withWindow c w).input.length from h), res_bind_raise]

/-- One turn of `RenormDec`. -/
theorem renormDecLoop_succ (fuel : Nat) (c : Coder) (w : Window) (hp : c.inpos ≤ w.pos) :
    renormDecLoop (fuel + 1) (withWindow c w) =
      if h : w.pos < c.input.length then
        (if 2 ^ 24 ≤ w.width * 256 % 2 ^ 32 then
          .ok (withWindow c
            ⟨(w.value * 256 + c.input[w.pos].toNat) % 2 ^ 32, w.width * 256, w.pos + 1⟩)
         else
          renormDecLoop fuel (withWindow c
            ⟨(w.value * 256 + c.input[w.pos].toNat) % 2 ^ 32, w.width * 256, w.pos + 1⟩))
      else raise .inputExhausted := by
  have hl : BitVec.ofNat 32 w.width <<< 8 = BitVec.ofNat 32 (w.width * 256) := by
    apply BitVec.eq_of_toNat_eq
    simp [Nat.shiftLeft_eq]
  have ht : (BitVec.ofNat 32 (w.width * 256)).toNat = w.width * 256 % 2 ^ 32 := BitVec.toNat_ofNat _ _
  simp only [renormDecLoop, shiftIn_eq c w hp]
  split
  · rw [res_bind_ok]
    simp only [withWindow_length, hl, ht]
    rfl
  · rw [res_bind_raise]

/-- A sequence with one more byte at the high end. -/
theorem bytesNumber_cons (b : Byte) (l : List Byte) :
    bytesNumber (b :: l) = b.toNat * 256 ^ l.length + bytesNumber l := by
  have := bytesNumber_append [b] l
  simpa [bytesNumber] using this

/-- `k + 1` turns of `RenormDec`, when the width needs exactly these. -/
theorem renormDecLoop_eq (c : Coder) (k fuel : Nat) (w : Window) (hp : c.inpos ≤ w.pos) (hf : k < fuel)
    (hlo : 2 ^ 24 ≤ w.width * 256 ^ (k + 1)) (hhi : w.width * 256 ^ k < 2 ^ 24) :
    renormDecLoop fuel (withWindow c w) =
      taken c ⟨(w.value * 256 ^ (k + 1) + bytesNumber ((c.input.drop w.pos).take (k + 1))) % 2 ^ 32,
        w.width * 256 ^ (k + 1), w.pos + (k + 1)⟩ := by
  induction k generalizing w fuel with
  | zero =>
    obtain ⟨fuel, rfl⟩ : ∃ f, fuel = f + 1 := ⟨fuel - 1, by omega⟩
    rw [renormDecLoop_succ fuel c w hp]
    split
    · rename_i h
      rw [if_pos (show 2 ^ 24 ≤ w.width * 256 % 2 ^ 32 by omega), taken, if_pos (by simp only; omega)]
      have : (c.input.drop w.pos).take (0 + 1) = [c.input[w.pos]] := by
        rw [List.drop_eq_getElem_cons h]
        rfl
      simp only [this, zero_add, pow_one, bytesNumber_cons, List.length_nil, pow_zero, mul_one,
        bytesNumber_nil, Nat.add_zero]
    · rw [taken, if_neg (by simp only; omega)]
  | succ k ih =>
    obtain ⟨fuel, rfl⟩ : ∃ f, fuel = f + 1 := ⟨fuel - 1, by omega⟩
    have hk : 1 ≤ 256 ^ k := Nat.one_le_pow _ _ (by norm_num)
    have hw : w.width * 256 < 2 ^ 24 := by
      have : w.width * 256 * 1 ≤ w.width * 256 * 256 ^ k := Nat.mul_le_mul_left _ hk
      rw [Nat.pow_succ] at hhi
      have : w.width * 256 * 256 ^ k = w.width * (256 ^ k * 256) := by ring
      omega
    have e2 : ∀ n j : Nat, n * 256 * 256 ^ j = n * 256 ^ (j + 1) := fun n j => by ring
    rw [renormDecLoop_succ fuel c w hp]
    split
    · rename_i h
      rw [if_neg (show ¬ 2 ^ 24 ≤ w.width * 256 % 2 ^ 32 by omega),
        ih fuel ⟨(w.value * 256 + c.input[w.pos].toNat) % 2 ^ 32, w.width * 256, w.pos + 1⟩
          (by simp only; omega) (by omega) (by simpa only [e2] using hlo)
          (by simpa only [e2] using hhi)]
      unfold taken
      simp only [e2, Nat.add_assoc, Nat.add_comm 1]
      split
      · rename_i hfit
        have ht : (c.input.drop w.pos).take (k + 1 + 1) =
            c.input[w.pos] :: (c.input.drop (w.pos + 1)).take (k + 1) := by
          rw [List.drop_eq_getElem_cons h]
          rfl
        have hlen : ((c.input.drop (w.pos + 1)).take (k + 1)).length = k + 1 := by
          rw [List.length_take, List.length_drop]
          omega
        rw [ht, bytesNumber_cons, hlen]
        refine congrArg (fun n => Except.ok (withWindow c ⟨n, _, _⟩)) ?_
        rw [Nat.add_mod, Nat.mod_mul_mod, ← Nat.add_mod]
        congr 1
        ring
      · rfl
    · rw [taken, if_neg (by simp only; omega)]

/-- Everything renormalisation of the decoder can answer (40_entropy_coder.md R155). -/
theorem renormDecIfShort_eq (c : Coder) (w : Window) (value : Nat) (width : Nat) (h1 : 1 ≤ width)
    (h2 : width < 2 ^ 32) (hv : value < 2 ^ 32) (hp : c.inpos ≤ w.pos) (hl : w.pos ≤ c.input.length) :
    renormDecIfShort (withWindow c ⟨value, width, w.pos⟩) =
      taken c (w.shift c.input value width) := by
  unfold renormDecIfShort renormDec
  rw [withWindow_length, BitVec.toNat_ofNat, Nat.mod_eq_of_lt h2, show minLen = 2 ^ 24 from rfl]
  simp only [Window.shift, renormSteps]
  split
  · rw [if_neg (by omega)]
    split
    · exact renormDecLoop_eq c 0 4 ⟨value, width, w.pos⟩ hp (by omega) (by simp only; omega) (by simp only; omega)
    · split
      · exact renormDecLoop_eq c 1 4 ⟨value, width, w.pos⟩ hp (by omega) (by simp only; omega) (by simp only; omega)
      · exact renormDecLoop_eq c 2 4 ⟨value, width, w.pos⟩ hp (by omega) (by simp only; omega) (by simp only; omega)
  · rw [if_pos (by omega)]
    simp only [taken, hl, if_pos, pow_zero, mul_one, Nat.add_zero, List.take_zero, bytesNumber_nil,
      Nat.mod_eq_of_lt hv]

/-! ## The coding procedures -/

/-- What `DecRaw` does (41_raw_fields.md R201): the step moves first and is checked after. -/
theorem decRaw_eq (c : Coder) (w : Window) (n : Nat) (hw : w.sound) (hn : n ≤ 19) (hp : c.inpos ≤ w.pos)
    (hl : w.pos ≤ c.input.length) :
    decRaw n (withWindow c w) =
      (taken c (w.raw c.input n) >>= fun c =>
        if 2 ^ n ≤ w.rawValue n then raise .rawDecodeRange else .ok (w.rawValue n, c)) := by
  have h1 := raw_part_width hw.1 hn
  obtain ⟨-, hw2, hv⟩ := hw
  have hq : (BitVec.ofNat 32 w.width >>> n).toNat = w.width / 2 ^ n := by
    rw [BitVec.toNat_ushiftRight, BitVec.toNat_ofNat, Nat.mod_eq_of_lt hw2, Nat.shiftRight_eq_div_pow]
  have hval : (BitVec.ofNat 32 w.value).toNat = w.value := by
    rw [BitVec.toNat_ofNat, Nat.mod_eq_of_lt hv]
  have hne : ¬ BitVec.ofNat 32 w.width >>> n = 0 := fun h => by
    rw [h] at hq
    simp at hq
    omega
  unfold decRaw
  simp only [withWindow_length, withWindow_value, hq, hval]
  rw [if_neg hne]
  have hmul : w.value / (w.width / 2 ^ n) * (w.width / 2 ^ n) ≤ w.value := Nat.div_mul_le_self _ _
  have hmod : w.value - w.value / (w.width / 2 ^ n) * (w.width / 2 ^ n) = w.value % (w.width / 2 ^ n) := by
    have := Nat.div_add_mod' w.value (w.width / 2 ^ n)
    omega
  have hvv : BitVec.ofNat 32 w.value - u32 (w.value / (w.width / 2 ^ n) * (w.width / 2 ^ n)) =
      BitVec.ofNat 32 (w.value % (w.width / 2 ^ n)) := by
    apply BitVec.eq_of_toNat_eq
    have hu : (u32 (w.value / (w.width / 2 ^ n) * (w.width / 2 ^ n))).toNat =
        w.value / (w.width / 2 ^ n) * (w.width / 2 ^ n) := by
      rw [u32, BitVec.toNat_ofNat, Nat.mod_eq_of_lt (by omega)]
    rw [BitVec.toNat_sub_of_le (by rw [BitVec.le_def, hu, hval]; exact hmul), hu, hval, hmod,
      BitVec.toNat_ofNat, Nat.mod_eq_of_lt (lt_of_le_of_lt (Nat.mod_le _ _) hv)]
  have hww : BitVec.ofNat 32 w.width >>> n = BitVec.ofNat 32 (w.width / 2 ^ n) :=
    BitVec.eq_of_toNat_eq (by rw [hq, BitVec.toNat_ofNat, Nat.mod_eq_of_lt]; omega)
  have e : ({ withWindow c w with
      length := BitVec.ofNat 32 w.width >>> n
      value := BitVec.ofNat 32 w.value - u32 (w.value / (w.width / 2 ^ n) * (w.width / 2 ^ n)) } : Coder) =
      withWindow c ⟨w.value % (w.width / 2 ^ n), w.width / 2 ^ n, w.pos⟩ := by
    simp only [withWindow, hvv, hww]
  rw [e, renormDecIfShort_eq c w _ _ h1 (by omega) (lt_of_le_of_lt (Nat.mod_le _ _) hv) hp hl]
  rfl

/-- What `DecBitM` does (40_entropy_coder.md R158). -/
theorem decBitM_eq (c : Coder) (w : Window) (m : BitModel) (hw : w.sound) (hm : m.ok)
    (hp : c.inpos ≤ w.pos) (hl : w.pos ≤ c.input.length) :
    decBitM (withWindow c w) m =
      (taken c (w.bit c.input m.p0.toNat) >>= fun c =>
        .ok (w.bitValue m.p0.toNat, c, bitModelCoded m (w.bitValue m.p0.toNat))) := by
  have hpm : 1 ≤ m.p0.toNat ∧ m.p0.toNat ≤ 8191 := by
    simp only [BitModel.ok, Bool.and_eq_true, decide_eq_true_eq] at hm
    tauto
  obtain ⟨h1, h2⟩ := bit_part_width hw.1 hpm.1 hpm.2
  obtain ⟨-, hw2, hv⟩ := hw
  have hval : (BitVec.ofNat 32 w.value).toNat = w.value := by
    rw [BitVec.toNat_ofNat, Nat.mod_eq_of_lt hv]
  have hwid : (BitVec.ofNat 32 w.width).toNat = w.width := by
    rw [BitVec.toNat_ofNat, Nat.mod_eq_of_lt hw2]
  have hx : (bitSplit (withWindow c w) m).toNat = m.p0.toNat * (w.width / 2 ^ 13) := by
    simp only [bitSplit, u32, withWindow_length, BitVec.toNat_ofNat, Nat.shiftRight_eq_div_pow,
      Nat.mod_eq_of_lt hw2, bmShift]
    omega
  generalize hX : bitSplit (withWindow c w) m = x at hx
  have hb : (!decide ((withWindow c w).value < x)) = w.bitValue m.p0.toNat := by
    simp only [withWindow_value, BitVec.lt_def, hval, hx, Window.bitValue]
    rw [Bool.eq_iff_iff]
    simp only [Bool.not_eq_true', decide_eq_false_iff_not, decide_eq_true_eq, Nat.not_lt]
  unfold decBitM
  rw [hX]
  simp only [hb]
  unfold Window.bit
  cases hbit : w.bitValue m.p0.toNat with
  | false =>
    have e : ({ withWindow c w with length := x } : Coder) =
        withWindow c ⟨w.value, x.toNat, w.pos⟩ := by simp [withWindow]
    simp only [if_neg Bool.false_ne_true, e]
    rw [renormDecIfShort_eq c w _ _ (by omega) x.isLt hv hp hl, hx]
  | true =>
    have hle : x.toNat ≤ w.value := by
      rw [hx]
      simpa [Window.bitValue] using hbit
    have e : ({ withWindow c w with
        value := (withWindow c w).value - x, length := (withWindow c w).length - x } : Coder) =
        withWindow c ⟨w.value - x.toNat, w.width - x.toNat, w.pos⟩ := by
      have e1 : BitVec.ofNat 32 w.value - x = BitVec.ofNat 32 (w.value - x.toNat) :=
        BitVec.eq_of_toNat_eq (by
          rw [BitVec.toNat_sub_of_le (by rw [BitVec.le_def]; omega), hval, BitVec.toNat_ofNat,
            Nat.mod_eq_of_lt (by omega)])
      have e2 : BitVec.ofNat 32 w.width - x = BitVec.ofNat 32 (w.width - x.toNat) :=
        BitVec.eq_of_toNat_eq (by
          rw [BitVec.toNat_sub_of_le (by rw [BitVec.le_def]; omega), hwid, BitVec.toNat_ofNat,
            Nat.mod_eq_of_lt (by omega)])
      simp only [withWindow, e1, e2]
    simp only [if_pos, e]
    rw [renormDecIfShort_eq c w _ _ (by omega) (by omega) (by omega) hp hl, hx]

/-! ### Symbols -/

/-- The search of R160 answers the largest symbol whose part begins at or below the offset. -/
theorem symbolAt_eq_some {l value : Nat} {dist : List Word} {s : Nat} :
    symbolAt l value dist = some s ↔
      s < dist.length ∧ (dist.getD s 0).toNat * l ≤ value ∧
      ∀ i, s < i → i < dist.length → value < (dist.getD i 0).toNat * l := by
  induction dist generalizing s with
  | nil => simp [symbolAt]
  | cons d rest ih =>
    have none_iff : symbolAt l value rest = none →
        ∀ i, i < rest.length → value < (rest.getD i 0).toNat * l := by
      clear ih
      induction rest with
      | nil => simp
      | cons e rest ih' =>
        simp only [symbolAt]
        intro h i hi
        cases hr : symbolAt l value rest with
        | some j => simp [hr] at h
        | none =>
          simp only [hr, ite_eq_right_iff, reduceCtorEq, imp_false, Nat.not_le] at h
          cases i with
          | zero => simpa using h
          | succ i => simpa using ih' hr i (by simpa using hi)
    simp only [symbolAt]
    cases hr : symbolAt l value rest with
    | some j =>
      have hj := ih.1 hr
      simp only [Option.some.injEq]
      constructor
      · rintro rfl
        refine ⟨by simpa using hj.1, by simpa using hj.2.1, fun i h1 h2 => ?_⟩
        cases i with
        | zero => omega
        | succ i => simpa using hj.2.2 i (by omega) (by simpa using h2)
      · rintro ⟨h1, h2, h3⟩
        by_contra hne
        cases s with
        | zero =>
          have := h3 (j + 1) (by omega) (by simpa using hj.1)
          simp only [List.getD_cons_succ] at this
          omega
        | succ s =>
          rcases Nat.lt_or_gt_of_ne (show s ≠ j by omega) with hlt | hgt
          · have := h3 (j + 1) (by omega) (by simpa using hj.1)
            simp only [List.getD_cons_succ] at this
            omega
          · have := hj.2.2 s hgt (by simpa using h1)
            simp only [List.getD_cons_succ] at h2
            omega
    | none =>
      have hn := none_iff hr
      simp only
      constructor
      · intro h
        split at h
        · obtain rfl := Option.some.inj h
          refine ⟨by simp, by simpa, fun i h1 h2 => ?_⟩
          cases i with
          | zero => omega
          | succ i => simpa using hn i (by simpa using h2)
        · exact absurd h (by simp)
      · rintro ⟨h1, h2, -⟩
        cases s with
        | zero => simpa using h2
        | succ s =>
          have := hn s (by simpa using h1)
          simp only [List.getD_cons_succ] at h2
          omega

/-- A ready model's alphabet covers every offset: the search always answers, on any input. -/
theorem symbolAt_isSome {m : SymModel} (hm : m.readyOk) (l value : Nat) :
    ∃ s, symbolAt l value m.dist = some s ∧ s < m.nsym := by
  obtain ⟨hlen, -, hh, -, -⟩ := readyOk_dist hm
  cases hs : symbolAt l value m.dist with
  | some s => exact ⟨s, rfl, hlen ▸ (symbolAt_eq_some.1 hs).1⟩
  | none =>
    match hd : m.dist, hh with
    | d :: rest, hh =>
      obtain rfl : d = 0 := by simpa using hh
      rw [hd] at hs
      simp only [symbolAt] at hs
      split at hs <;> simp at hs

/-- What `DecSymM` does (40_entropy_coder.md R160). -/
theorem decSymM_eq (c : Coder) (w : Window) (m : SymModel) (hw : w.sound) (hm : m.readyOk)
    (hp : c.inpos ≤ w.pos) (hl : w.pos ≤ c.input.length) :
    ∃ s, w.isSymbol m.dist s ∧ s < m.nsym ∧
      decSymM (withWindow c w) m =
        (taken c (w.symbol c.input m.dist s) >>= fun c => .ok (s, c, symModelCoded m s)) := by
  obtain ⟨s, hs, hlt⟩ := symbolAt_isSome hm (w.width / 2 ^ 15) w.value
  have hsym : w.isSymbol m.dist s := symbolAt_eq_some.1 hs
  refine ⟨s, hsym, hlt, ?_⟩
  have hval : (BitVec.ofNat 32 w.value).toNat = w.value := by
    rw [BitVec.toNat_ofNat, Nat.mod_eq_of_lt hw.2.2]
  have hwid : (withWindow c w).length.toNat = w.width := by
    rw [withWindow_length, BitVec.toNat_ofNat, Nat.mod_eq_of_lt hw.2.1]
  obtain ⟨x, y, hx, hy, ex, ey⟩ := symLow_symHigh_eq (withWindow c w) hm hlt (by rw [hwid]; exact hw.1)
  obtain ⟨hb1, hb2⟩ := symbolEnds_bounds hm hw.1 hlt
  rw [hwid] at ex ey
  have hle : x.toNat ≤ w.value := by
    rw [ex]
    exact hsym.2.1
  have e : ({ withWindow c w with value := (withWindow c w).value - x, length := y - x } : Coder) =
      withWindow c ⟨w.value - x.toNat, y.toNat - x.toNat, w.pos⟩ := by
    have e1 : BitVec.ofNat 32 w.value - x = BitVec.ofNat 32 (w.value - x.toNat) :=
      BitVec.eq_of_toNat_eq (by
        rw [BitVec.toNat_sub_of_le (by rw [BitVec.le_def]; omega), hval, BitVec.toNat_ofNat,
          Nat.mod_eq_of_lt (by have := hw.2.2; omega)])
    have e2 : y - x = BitVec.ofNat 32 (y.toNat - x.toNat) :=
      BitVec.eq_of_toNat_eq (by
        rw [BitVec.toNat_sub_of_le (by rw [BitVec.le_def]; omega), BitVec.toNat_ofNat,
          Nat.mod_eq_of_lt (by have := y.isLt; omega)])
    simp only [withWindow, e1, e2]
  unfold decSymM
  simp only [hwid, withWindow_value, hval, Nat.shiftRight_eq_div_pow, show dmShift = 15 from rfl, hs]
  simp only [hx, hy, res_bind_ok]
  have := renormDecIfShort_eq c w (w.value - x.toNat) (y.toNat - x.toNat) (by omega)
    (by have := hw.2.1; omega) (by have := hw.2.2; omega) hp hl
  rw [← e] at this
  simp only [withWindow_value] at this
  rw [this, ex, ey]
  rfl

/-! ### Raw fields of more than one step -/

/-- After a step of 16 bits the next step of at most 16 bits is in range, on any input
(41_raw_fields.md R203, R211, R213). -/
theorem rawValue_lt_after_16 {w : Window} (hw : w.sound) (input : List Byte) {k : Nat} (hk : k ≤ 16) :
    (w.raw input 16).rawValue k < 2 ^ k := by
  obtain ⟨h1, h2, -⟩ := hw
  have hr : renormSteps (w.width / 2 ^ 16) = 2 := by
    unfold renormSteps
    rw [if_neg (by omega), if_neg (by omega), if_pos (by omega)]
  have hb : bytesNumber ((input.drop w.pos).take 2) < 2 ^ 16 :=
    lt_of_lt_of_le (bytesNumber_lt _)
      (le_trans (Nat.pow_le_pow_right (by norm_num) (List.length_take_le _ _)) (by norm_num))
  have hm : w.value % (w.width / 2 ^ 16) < w.width / 2 ^ 16 := Nat.mod_lt _ (by omega)
  simp only [Window.rawValue, Window.raw, Window.shift, hr]
  rw [Nat.mod_eq_of_lt (by omega : w.value % (w.width / 2 ^ 16) * 256 ^ 2 + _ < 2 ^ 32)]
  have hdiv : w.width / 2 ^ 16 * 256 ^ 2 / 2 ^ k = w.width / 2 ^ 16 * 2 ^ (16 - k) := by
    rw [show (256 : Nat) ^ 2 = 2 ^ (16 - k) * 2 ^ k by
      rw [← Nat.pow_add, Nat.sub_add_cancel hk]; norm_num, ← Nat.mul_assoc]
    exact Nat.mul_div_cancel _ (by positivity)
  rw [hdiv, Nat.div_lt_iff_lt_mul (Nat.mul_pos (by omega) (by positivity)),
    show 2 ^ k * (w.width / 2 ^ 16 * 2 ^ (16 - k)) = w.width / 2 ^ 16 * (2 ^ (16 - k) * 2 ^ k) by ring,
    ← Nat.pow_add, Nat.sub_add_cancel hk]
  omega

/-- Going on from a window that was reached needs its bytes to be there, and no more. -/
theorem taken_bind_taken {α : Type} (c : Coder) {u w : Window} (h : u.pos ≤ w.pos) (f r : Coder → Res α)
    (hf : u.pos ≤ c.input.length → f (withWindow c u) = (taken c w >>= r)) :
    (taken c u >>= f) = (taken c w >>= r) := by
  by_cases hu : u.pos ≤ c.input.length
  · simp only [taken, if_pos hu, res_bind_ok, hf hu]
  · simp only [taken, if_neg hu, if_neg (fun hw => hu (le_trans h hw) : ¬ w.pos ≤ c.input.length),
      res_bind_raise]

/-- A step that is in range whatever the input, as one that comes after a step of 16 bits is. -/
theorem decRaw_in_range (c : Coder) (w : Window) (n : Nat) (hw : w.sound) (hn : n ≤ 19)
    (hp : c.inpos ≤ w.pos) (hl : w.pos ≤ c.input.length) (hr : w.rawValue n < 2 ^ n) :
    decRaw n (withWindow c w) = (taken c (w.raw c.input n) >>= fun c => .ok (w.rawValue n, c)) := by
  rw [decRaw_eq c w n hw hn hp hl]
  simp only [if_neg (Nat.not_le.2 hr)]

/-- What `DecBits` does (41_raw_fields.md R203): the first step moves and is checked, then the second, which
is in range, moves. -/
theorem decBits_eq (c : Coder) (w : Window) (n : Nat) (hw : w.sound) (hn : n ≤ 32) (hp : c.inpos ≤ w.pos)
    (hl : w.pos ≤ c.input.length) :
    decBits n (withWindow c w) =
      (taken c (w.raw c.input (firstStep n)) >>= fun _ =>
        if 2 ^ firstStep n ≤ w.rawValue (firstStep n) then raise .rawDecodeRange
        else taken c (w.field c.input n) >>= fun c' => .ok (w.fieldValue c.input n, c')) := by
  unfold decBits firstStep Window.field Window.fieldValue
  rw [show rawSplit = 19 from rfl]
  split
  · rw [decRaw_eq c w 16 hw (by omega) hp hl]
    by_cases h1 : (w.raw c.input 16).pos ≤ c.input.length
    · simp only [taken, if_pos h1, res_bind_ok]
      split
      · rfl
      · rename_i hr
        have h16 := Window.sound_raw hw c.input (n := 16) (by omega)
        have hp1 := le_trans hp (Window.pos_raw w c.input 16)
        rw [res_bind_ok]
        simp only
        rw [decRaw_in_range c _ (n - 16) h16 (by omega) hp1 h1
          (rawValue_lt_after_16 hw c.input (by omega)), res_bind_assoc]
        simp only [res_bind_ok, taken]
        split
        · rw [res_bind_ok, res_bind_ok, ← Nat.shiftLeft_add_eq_or_of_lt (Nat.not_le.1 hr),
            Nat.shiftLeft_eq]
        · rfl
    · simp only [taken, if_neg h1, res_bind_raise]
  · rw [decRaw_eq c w n hw (by omega) hp hl]
    by_cases h1 : (w.raw c.input n).pos ≤ c.input.length
    · simp only [taken, if_pos h1, res_bind_ok]
    · simp only [taken, if_neg h1, res_bind_raise]

/-- What the 32-bit reads do (41_raw_fields.md R211). -/
theorem decWord_eq (c : Coder) (w : Window) (hw : w.sound) (hp : c.inpos ≤ w.pos)
    (hl : w.pos ≤ c.input.length) :
    decWord (withWindow c w) =
      (taken c (w.raw c.input 16) >>= fun _ =>
        if 2 ^ 16 ≤ w.rawValue 16 then raise .rawDecodeRange
        else taken c (Window.halves 2 w c.input) >>= fun c' =>
          .ok (Window.halvesValue 2 w c.input, c')) := by
  have h := decBits_eq c w 32 hw (by omega) hp hl
  have hv : w.fieldValue c.input 32 = Window.halvesValue 2 w c.input := by
    simp only [Window.fieldValue, Window.halvesValue]
    rw [if_pos (by omega)]
    ring
  rw [hv] at h
  exact h

/-- What the 64-bit reads do (41_raw_fields.md R213). -/
theorem decDWord_eq (c : Coder) (w : Window) (hw : w.sound) (hp : c.inpos ≤ w.pos)
    (hl : w.pos ≤ c.input.length) :
    decDWord (withWindow c w) =
      (taken c (w.raw c.input 16) >>= fun _ =>
        if 2 ^ 16 ≤ w.rawValue 16 then raise .rawDecodeRange
        else taken c (Window.halves 4 w c.input) >>= fun c' =>
          .ok (Window.halvesValue 4 w c.input, c')) := by
  let u1 := w.raw c.input 16
  let u2 := u1.raw c.input 16
  let u3 := u2.raw c.input 16
  have s1 : u1.sound := Window.sound_raw hw _ (by omega)
  have s2 : u2.sound := Window.sound_raw s1 _ (by omega)
  have s3 : u3.sound := Window.sound_raw s2 _ (by omega)
  have p1 : w.pos ≤ u1.pos := Window.pos_raw _ _ _
  have p2 : u1.pos ≤ u2.pos := Window.pos_raw _ _ _
  have p3 : u2.pos ≤ u3.pos := Window.pos_raw _ _ _
  have p4 : u3.pos ≤ (u3.raw c.input 16).pos := Window.pos_raw _ _ _
  have r1 : u1.rawValue 16 < 2 ^ 16 := rawValue_lt_after_16 hw _ (le_refl _)
  have r2 : u2.rawValue 16 < 2 ^ 16 := rawValue_lt_after_16 s1 _ (le_refl _)
  have r3 : u3.rawValue 16 < 2 ^ 16 := rawValue_lt_after_16 s2 _ (le_refl _)
  unfold decDWord
  rw [decRaw_eq c w 16 hw (by omega) hp hl, res_bind_assoc]
  by_cases h1 : u1.pos ≤ c.input.length
  · rw [show taken c (w.raw c.input 16) = .ok (withWindow c u1) from if_pos h1, res_bind_ok, res_bind_ok]
    split
    · rfl
    · rename_i hr
      rw [res_bind_ok]
      simp only
      rw [decRaw_in_range c u1 16 s1 (by omega) (by omega) h1 r1, res_bind_assoc]
      refine taken_bind_taken c (u := u2) (w := Window.halves 4 w c.input)
        (show u2.pos ≤ (u3.raw c.input 16).pos by omega) _ _ fun h2 => ?_
      rw [res_bind_ok]
      simp only
      rw [decRaw_in_range c u2 16 s2 (by omega) (by omega) h2 r2, res_bind_assoc]
      refine taken_bind_taken c (u := u3) (w := Window.halves 4 w c.input) p4 _ _ fun h3 => ?_
      rw [res_bind_ok]
      simp only
      rw [decRaw_in_range c u3 16 s3 (by omega) (by omega) h3 r3, res_bind_assoc]
      refine congrArg _ (funext fun c' => ?_)
      rw [res_bind_ok]
      refine congrArg (fun n => Except.ok (n, c')) ?_
      have hv : Window.halvesValue 4 w c.input = w.rawValue 16 +
          2 ^ 16 * (u1.rawValue 16 + 2 ^ 16 * (u2.rawValue 16 + 2 ^ 16 * u3.rawValue 16)) := by
        simp only [Window.halvesValue, Nat.mul_zero, Nat.add_zero]
        rfl
      rw [hv]
      have e0 : w.rawValue 16 < 2 ^ 16 := Nat.not_le.1 hr
      generalize w.rawValue 16 = a at e0
      generalize u1.rawValue 16 = b at r1
      generalize u2.rawValue 16 = d at r2
      generalize u3.rawValue 16 = e at r3
      have t1 : (b <<< 16 ||| a) = b <<< 16 + a := (Nat.shiftLeft_add_eq_or_of_lt e0 b).symm
      have t2 : (d <<< 32 ||| (b <<< 16 + a)) = d <<< 32 + (b <<< 16 + a) :=
        (Nat.shiftLeft_add_eq_or_of_lt (by rw [Nat.shiftLeft_eq]; omega) d).symm
      have t3 : (e <<< 48 ||| (d <<< 32 + (b <<< 16 + a))) = e <<< 48 + (d <<< 32 + (b <<< 16 + a)) :=
        (Nat.shiftLeft_add_eq_or_of_lt (by simp only [Nat.shiftLeft_eq]; omega) e).symm
      rw [Nat.or_assoc, Nat.or_assoc, t1, t2, t3]
      simp only [Nat.shiftLeft_eq]
      ring
  · rw [show taken c (w.raw c.input 16) = raise .inputExhausted from if_neg h1, res_bind_raise,
      res_bind_raise]

end Sys2Proof.Machine
end

