-- ==== Sys2Proof/Laws/Models.lean ====
section
/-! SUPPORT. The parts of the model updates in closed form, and which fields of a model record each of them
leaves. -/

namespace Sys2Proof.Machine

/-! ## Bit models -/

/-- Coding a bit before the countdown ends only counts it. -/
theorem bitModelCoded_counting {m : BitModel} (b : Bool) (h : m.remaining ≠ 1) :
    bitModelCoded m b = { m with
      b0count := if b then m.b0count else m.b0count + 1, remaining := m.remaining - 1 } := by
  have : m.remaining - 1 ≠ 0 := fun he => h (by rw [← BitVec.sub_add_cancel m.remaining 1, he]; rfl)
  cases b <;> exact if_neg this

/-- Coding a bit when the countdown ends updates the model. -/
theorem bitModelCoded_updating {m : BitModel} (b : Bool) (h : m.remaining = 1) :
    bitModelCoded m b = bitModelUpdate { m with
      b0count := if b then m.b0count else m.b0count + 1, remaining := 0 } := by
  cases b <;> simp [bitModelCoded, h]

/-! ## Symbol models -/

/-- `sumWords` is the sum of the counts. -/
theorem sumWords_eq (l : List Word) : sumWords l = (l.map BitVec.toNat).sum := by
  induction l with
  | nil => rfl
  | cons c rest ih => simp [sumWords, ih]

/-- The distribution loop in closed form: entry i is scale × (the sum of the counts before i) / 2^16. -/
theorem distFrom_eq (scale acc : Nat) (cnt : List Word) :
    distFrom scale acc cnt = (List.range cnt.length).map fun i =>
      BitVec.ofNat 32 (scale * (acc + ((cnt.map BitVec.toNat).take i).sum) / 2 ^ 16) := by
  induction cnt generalizing acc with
  | nil => rfl
  | cons c rest ih =>
    rw [distFrom, ih, List.length_cons, List.range_succ_eq_map, List.map_cons, List.map_map]
    congr 1
    · simp [u32, dmShift, Nat.shiftRight_eq_div_pow]
    · refine List.map_congr_left fun i _ => ?_
      simp [Nat.add_assoc]

@[simp] theorem symModelUpdate_nsym (m : SymModel) : (symModelUpdate m).nsym = m.nsym := rfl

@[simp] theorem symModelUpdate_init (m : SymModel) : (symModelUpdate m).init = m.init := rfl

@[simp] theorem symModelUpdate_tsize (m : SymModel) : (symModelUpdate m).tsize = m.tsize := rfl

@[simp] theorem symModelUpdate_tshift (m : SymModel) : (symModelUpdate m).tshift = m.tshift := rfl

@[simp] theorem symModelUpdate_remaining (m : SymModel) :
    (symModelUpdate m).remaining = (symModelUpdate m).cycle := rfl

@[simp] theorem symModelInit_nsym (m : SymModel) : (symModelInit m).nsym = m.nsym := rfl

@[simp] theorem symModelInit_init (m : SymModel) : (symModelInit m).init = true := rfl

@[simp] theorem symModelInit_tsize (m : SymModel) : (symModelInit m).tsize = m.tsize := rfl

@[simp] theorem symModelInit_tshift (m : SymModel) : (symModelInit m).tshift = m.tshift := rfl

@[simp] theorem symModelNew_nsym (n : Nat) : (symModelNew n).nsym = n := rfl

@[simp] theorem symModelNew_init (n : Nat) : (symModelNew n).init = false := rfl

@[simp] theorem symModelFresh_nsym (n : Nat) : (symModelFresh n).nsym = n := rfl

@[simp] theorem symModelFresh_init (n : Nat) : (symModelFresh n).init = true := rfl

/-- Coding a symbol before the countdown ends only counts it. -/
theorem symModelCoded_counting {m : SymModel} (s : Nat) (h : m.remaining ≠ 1) :
    symModelCoded m s = { m with
      cnt := m.cnt.modify s (fun c => c + 1), remaining := m.remaining - 1 } := by
  have : m.remaining - 1 ≠ 0 := fun he => h (by rw [← BitVec.sub_add_cancel m.remaining 1, he]; rfl)
  exact if_neg this

/-- Coding a symbol when the countdown ends updates the model. -/
theorem symModelCoded_updating {m : SymModel} (s : Nat) (h : m.remaining = 1) :
    symModelCoded m s = symModelUpdate { m with
      cnt := m.cnt.modify s (fun c => c + 1), remaining := 0 } := by
  simp [symModelCoded, h]

@[simp] theorem symModelCoded_nsym (m : SymModel) (s : Nat) : (symModelCoded m s).nsym = m.nsym := by
  by_cases h : m.remaining = 1
  · rw [symModelCoded_updating s h, symModelUpdate_nsym]
  · rw [symModelCoded_counting s h]

@[simp] theorem symModelCoded_init (m : SymModel) (s : Nat) : (symModelCoded m s).init = m.init := by
  by_cases h : m.remaining = 1
  · rw [symModelCoded_updating s h, symModelUpdate_init]
  · rw [symModelCoded_counting s h]

@[simp] theorem symModelCoded_tsize (m : SymModel) (s : Nat) : (symModelCoded m s).tsize = m.tsize := by
  by_cases h : m.remaining = 1
  · rw [symModelCoded_updating s h, symModelUpdate_tsize]
  · rw [symModelCoded_counting s h]

@[simp] theorem symModelCoded_tshift (m : SymModel) (s : Nat) : (symModelCoded m s).tshift = m.tshift := by
  by_cases h : m.remaining = 1
  · rw [symModelCoded_updating s h, symModelUpdate_tshift]
  · rw [symModelCoded_counting s h]

/-! ## Widths and signs -/

/-- `bitlen` (00_scope.md R14) in terms of powers of two. -/
theorem bitlen_le_iff (v n : Nat) : bitlen v ≤ n ↔ v < 2 ^ n := by
  unfold bitlen
  split
  · rename_i h
    simp [h]
  · rename_i h
    rw [Nat.succ_le_iff]
    exact Nat.log2_lt h

/-- `s32` leaves a number of the 32-bit signed range as it is (00_scope.md R13). -/
theorem wrap32_of_range {v : Int} (h1 : -(2 ^ 31) ≤ v) (h2 : v < 2 ^ 31) : wrap32 v = v := by
  unfold wrap32 s32
  rw [BitVec.toInt_ofInt, Int.bmod_def]
  have h3 : ((2 ^ 32 : Nat) : Int) = 4294967296 := by norm_num
  rw [h3]
  split <;> omega

/-- Every `s32` lies in the 32-bit signed range. -/
theorem wrap32_range (v : Int) : -(2 ^ 31) ≤ wrap32 v ∧ wrap32 v < 2 ^ 31 := by
  have h1 := BitVec.le_toInt (s32 v)
  have h2 := BitVec.toInt_lt (x := s32 v)
  exact ⟨by simpa [wrap32] using h1, by simpa [wrap32] using h2⟩

/-- `s32` differs from its argument by a multiple of 2^32. -/
theorem wrap32_add (v : Int) : ∃ q : Int, wrap32 v = v + q * 2 ^ 32 := by
  unfold wrap32 s32
  rw [BitVec.toInt_ofInt, Int.bmod_def]
  have h3 : ((2 ^ 32 : Nat) : Int) = 4294967296 := by norm_num
  rw [h3]
  split
  · exact ⟨-(v / 4294967296), by omega⟩
  · exact ⟨-(v / 4294967296) - 1, by omega⟩

end Sys2Proof.Machine
end

