-- ==== Sys2Proof/Laws/Store.lean ====
section
/-! SUPPORT. The slot stores: what reading a slot gives after a write, and that every operation on a store
keeps its canonical form (10_state.md R40, R46). -/

namespace Sys2Proof.Machine

variable {α : Type}

@[simp] theorem Store.find_nil (h : Nat) : Store.find ([] : Store α) h = none := rfl

/-- A slot reads as what was last written to it. -/
@[simp] theorem Store.find_put_same (st : Store α) (h : Nat) (v : α) :
    Store.find (Store.put st h v) h = some v := by
  induction st with
  | nil => simp [Store.put, Store.find]
  | cons x rest ih =>
    obtain ⟨j, w⟩ := x
    simp only [Store.put]
    split
    · simp [Store.find]
    · split
      · simp [Store.find]
      · rename_i _ hne
        simp [Store.find, Ne.symm hne, ih]

/-- A write leaves every other slot alone. -/
theorem Store.find_put_other (st : Store α) {h j : Nat} (v : α) (hj : j ≠ h) :
    Store.find (Store.put st h v) j = Store.find st j := by
  induction st with
  | nil => simp [Store.put, Store.find, Ne.symm hj]
  | cons x rest ih =>
    obtain ⟨k, w⟩ := x
    simp only [Store.put]
    split
    · simp [Store.find, Ne.symm hj]
    · split
      · rename_i _ hk
        subst hk
        simp [Store.find, Ne.symm hj]
      · simp only [Store.find, ih]

/-- Emptying a slot leaves every other slot alone. -/
theorem Store.find_drop_other (st : Store α) {h j : Nat} (hj : j ≠ h) :
    Store.find (Store.drop st h) j = Store.find st j := by
  induction st with
  | nil => rfl
  | cons x rest ih =>
    obtain ⟨k, w⟩ := x
    simp only [Store.drop]
    split
    · rename_i hk
      subst hk
      simp [Store.find, Ne.symm hj]
    · simp only [Store.find, ih]

/-- A slot that no entry names is `Empty`. -/
theorem Store.find_none_of_lt {st : Store α} {h : Nat} (hst : ∀ x ∈ st, h < x.1) :
    Store.find st h = none := by
  induction st with
  | nil => rfl
  | cons x rest ih =>
    obtain ⟨j, w⟩ := x
    have hj : h < j := hst (j, w) (by simp)
    simp only [Store.find, if_neg (Nat.ne_of_gt hj)]
    exact ih fun y hy => hst y (by simp [hy])

/-- What a slot holds is an entry of the store. -/
theorem Store.mem_of_find {st : Store α} {h : Nat} {v : α} (hv : Store.find st h = some v) :
    (h, v) ∈ st := by
  induction st with
  | nil => simp at hv
  | cons x rest ih =>
    obtain ⟨j, w⟩ := x
    simp only [Store.find] at hv
    split at hv
    · rename_i hj
      subst hj
      simp [Option.some.inj hv]
    · exact List.mem_cons_of_mem _ (ih hv)

/-- The canonical form, as a proposition. -/
theorem Store.wf_iff {slots : Nat} {st : Store α} :
    st.wf slots = true ↔
      st.Pairwise (fun x y => x.1 < y.1) ∧ ∀ x ∈ st, x.1 < slots := by
  simp [Store.wf]

/-- Emptying a slot leaves it `Empty`. -/
theorem Store.find_drop_same {slots : Nat} {st : Store α} (hst : st.wf slots) (h : Nat) :
    Store.find (Store.drop st h) h = none := by
  have hp := (Store.wf_iff.1 hst).1
  clear hst
  induction st with
  | nil => rfl
  | cons x rest ih =>
    obtain ⟨j, w⟩ := x
    rw [List.pairwise_cons] at hp
    simp only [Store.drop]
    split
    · rename_i hj
      subst hj
      exact Store.find_none_of_lt fun y hy => hp.1 y hy
    · rename_i hj
      simp only [Store.find, if_neg hj, ih hp.2]

/-- The entries after a write are the written one and old ones of other slots. -/
theorem Store.mem_put {st : Store α} {h : Nat} {v : α} {x : Nat × α}
    (hx : x ∈ Store.put st h v) : x = (h, v) ∨ x ∈ st := by
  induction st with
  | nil => simpa [Store.put] using hx
  | cons y rest ih =>
    obtain ⟨j, w⟩ := y
    simp only [Store.put] at hx
    split at hx
    · rcases List.mem_cons.1 hx with hx | hx
      · exact .inl hx
      · exact .inr hx
    · split at hx
      · rcases List.mem_cons.1 hx with hx | hx
        · exact .inl hx
        · exact .inr (List.mem_cons_of_mem _ hx)
      · rcases List.mem_cons.1 hx with hx | hx
        · exact .inr (by simp [hx])
        · exact (ih hx).imp_right (List.mem_cons_of_mem _)

/-- The entries after emptying a slot are old ones. -/
theorem Store.drop_sublist (st : Store α) (h : Nat) : (Store.drop st h).Sublist st := by
  induction st with
  | nil => exact List.Sublist.slnil
  | cons x rest ih =>
    obtain ⟨j, w⟩ := x
    simp only [Store.drop]
    split
    · exact List.sublist_cons_self _ _
    · exact ih.cons_cons _

/-- A write keeps the canonical form. -/
theorem Store.wf_put {slots : Nat} {st : Store α} (hst : st.wf slots) {h : Nat} (v : α)
    (hh : h < slots) : (Store.put st h v).wf slots := by
  obtain ⟨hp, hb⟩ := Store.wf_iff.1 hst
  refine Store.wf_iff.2 ⟨?_, fun x hx => ?_⟩
  · clear hst hb
    induction st with
    | nil => simp [Store.put]
    | cons x rest ih =>
      obtain ⟨j, w⟩ := x
      have hp' := List.pairwise_cons.1 hp
      simp only [Store.put]
      split
      · rename_i hlt
        refine List.pairwise_cons.2 ⟨fun y hy => ?_, hp⟩
        rcases List.mem_cons.1 hy with hy | hy
        · subst hy
          exact hlt
        · exact Nat.lt_trans hlt (hp'.1 y hy)
      · split
        · rename_i hj
          subst hj
          exact List.pairwise_cons.2 ⟨hp'.1, hp'.2⟩
        · rename_i hge hne
          refine List.pairwise_cons.2 ⟨fun y hy => ?_, ih hp'.2⟩
          rcases Store.mem_put hy with hy | hy
          · subst hy
            exact Nat.lt_of_le_of_ne (Nat.not_lt.1 hge) (Ne.symm hne)
          · exact hp'.1 y hy
  · rcases Store.mem_put hx with hx | hx
    · subst hx
      exact hh
    · exact hb x hx

/-- Emptying a slot keeps the canonical form. -/
theorem Store.wf_drop {slots : Nat} {st : Store α} (hst : st.wf slots) (h : Nat) :
    (Store.drop st h).wf slots := by
  obtain ⟨hp, hb⟩ := Store.wf_iff.1 hst
  exact Store.wf_iff.2 ⟨hp.sublist (Store.drop_sublist st h),
    fun x hx => hb x ((Store.drop_sublist st h).subset hx)⟩

/-- The stores after reset have the canonical form. -/
theorem Store.wf_reset (g : Config) :
    Store.wf g.modelSlots (State.resetWith g).ms ∧ Store.wf g.icSlots (State.resetWith g).ics :=
  ⟨rfl, rfl⟩

/-- In a store of canonical form a filled slot has a handle below the slot count. -/
theorem Store.lt_of_find {slots : Nat} {st : Store α} (hst : st.wf slots) {h : Nat} {v : α}
    (hv : Store.find st h = some v) : h < slots :=
  (Store.wf_iff.1 hst).2 _ (Store.mem_of_find hv)

/-! ## What the slot checks answer -/

/-- `getSlot` answers the content of a filled slot below the slot count. -/
theorem getSlot_eq_ok {s : State} {h : Nat} {m : Slot} :
    getSlot s h = .ok m ↔ h < s.cfg.modelSlots ∧ Store.find s.ms h = some m := by
  unfold getSlot
  split
  · simp [raise]; omega
  · split <;> simp_all [raise]

/-- `getBit` answers the bit model of a slot. -/
theorem getBit_eq_ok {s : State} {h : Nat} {m : BitModel} :
    getBit s h = .ok m ↔ h < s.cfg.modelSlots ∧ Store.find s.ms h = some (.bit m) := by
  unfold getBit
  cases hs : getSlot s h with
  | error e =>
    simp only [bind, Except.bind, reduceCtorEq, false_iff]
    rw [← getSlot_eq_ok, hs]
    simp
  | ok x =>
    have := getSlot_eq_ok.1 hs
    cases x <;> simp_all [bind, Except.bind, raise]

/-- `getSym` answers the symbol model of a slot. -/
theorem getSym_eq_ok {s : State} {h : Nat} {m : SymModel} :
    getSym s h = .ok m ↔ h < s.cfg.modelSlots ∧ Store.find s.ms h = some (.sym m) := by
  unfold getSym
  cases hs : getSlot s h with
  | error e =>
    simp only [bind, Except.bind, reduceCtorEq, false_iff]
    rw [← getSlot_eq_ok, hs]
    simp
  | ok x =>
    have := getSlot_eq_ok.1 hs
    cases x <;> simp_all [bind, Except.bind, raise]

/-- `getReadySym` answers the symbol model of a slot that is initialised. -/
theorem getReadySym_eq_ok {s : State} {h : Nat} {m : SymModel} :
    getReadySym s h = .ok m ↔
      h < s.cfg.modelSlots ∧ Store.find s.ms h = some (.sym m) ∧ m.init = true := by
  unfold getReadySym
  cases hs : getSym s h with
  | error e =>
    simp only [bind, Except.bind, reduceCtorEq, false_iff]
    rintro ⟨h1, h2, -⟩
    simp [getSym_eq_ok.2 ⟨h1, h2⟩] at hs
  | ok x =>
    have := getSym_eq_ok.1 hs
    simp only [bind, Except.bind]
    split
    · rename_i hi
      simp only [Except.ok.injEq, this.2, Option.some.injEq, Slot.sym.injEq]
      exact ⟨fun he => ⟨this.1, he, he ▸ hi⟩, fun he => he.2.1⟩
    · rename_i hi
      simp only [raise, reduceCtorEq, this.2, Option.some.injEq, Slot.sym.injEq, false_iff]
      rintro ⟨-, rfl, hm⟩
      exact hi hm

/-- `getIc` answers the compressor of a filled slot below the slot count. -/
theorem getIc_eq_ok {s : State} {h : Nat} {ic : IcRec} :
    getIc s h = .ok ic ↔ h < s.cfg.icSlots ∧ Store.find s.ics h = some ic := by
  unfold getIc
  split
  · simp [raise]; omega
  · split <;> simp_all [raise]

/-- `needEmptySlot` passes on an `Empty` slot below the slot count. -/
theorem needEmptySlot_eq_ok {s : State} {h : Nat} {u : Unit} :
    needEmptySlot s h = .ok u ↔ h < s.cfg.modelSlots ∧ Store.find s.ms h = none := by
  unfold needEmptySlot
  split
  · simp [raise]; omega
  · split <;> simp_all [raise]

/-- `needEmptyIc` passes on an `Empty` slot below the slot count. -/
theorem needEmptyIc_eq_ok {s : State} {h : Nat} {u : Unit} :
    needEmptyIc s h = .ok u ↔ h < s.cfg.icSlots ∧ Store.find s.ics h = none := by
  unfold needEmptyIc
  split
  · simp [raise]; omega
  · split <;> simp_all [raise]

/-- `getReadyIc` answers a ready compressor and its model set for one of its contexts. -/
theorem getReadyIc_eq_ok {s : State} {h : Nat} {context : Word} {ic : IcRec} {ms : IcModels} :
    getReadyIc s h context = .ok (ic, ms) ↔
      h < s.cfg.icSlots ∧ Store.find s.ics h = some ic ∧ context.toNat < ic.contexts ∧
      ic.models = some ms := by
  unfold getReadyIc
  cases hs : getIc s h with
  | error e =>
    simp only [bind, Except.bind, reduceCtorEq, false_iff]
    rintro ⟨h1, h2, -⟩
    simp [getIc_eq_ok.2 ⟨h1, h2⟩] at hs
  | ok x =>
    have hx := getIc_eq_ok.1 hs
    simp only [bind, Except.bind]
    split
    · simp only [raise, reduceCtorEq, false_iff]
      rintro ⟨-, h2, h3, -⟩
      simp_all
      omega
    · split
      · simp only [raise, reduceCtorEq, false_iff]
        rintro ⟨-, h2, -, h4⟩
        simp_all
      · rename_i hc ms' hm
        constructor
        · intro h
          obtain ⟨rfl, rfl⟩ := Prod.mk.inj (Except.ok.inj h)
          exact ⟨hx.1, hx.2, by omega, hm⟩
        · rintro ⟨-, h2, -, h4⟩
          obtain rfl := Option.some.inj (hx.2.symm.trans h2)
          rw [hm] at h4
          rw [Option.some.inj h4]

end Sys2Proof.Machine
end

