-- ==== Sys2Proof/Laws/Sound.lean ====
section
/-! SUPPORT. What a sound state says of its parts, one lemma for each: the coder, the buffers, and the record in
a filled slot. -/

namespace Sys2Proof.Machine

open Sys2Proof.Reference

/-- The parts of soundness. -/
theorem State.sound_iff (s : State) :
    s.sound = true ↔
      s.cfg.ok ∧ s.recordOk ∧ s.coder.ok s.mode ∧ fits s.cfg s.coder.outbuf.length ∧
      s.coder.inpos ≤ s.coder.input.length ∧
      s.ms.wf s.cfg.modelSlots ∧ (∀ x ∈ s.ms, x.2.ok) ∧
      s.ics.wf s.cfg.icSlots ∧ ∀ x ∈ s.ics, x.2.ok s.cfg.maxIcContexts := by
  simp only [State.sound, Bool.and_eq_true, decide_eq_true_eq, List.all_eq_true, and_assoc]

/-- The coder of a sound state is within the bounds of its mode. -/
theorem sound_coder {s : State} (hs : s.sound) : s.coder.ok s.mode := ((State.sound_iff s).1 hs).2.2.1

/-- The bytes in `OUTBUF` of a sound state fit. -/
theorem sound_fits {s : State} (hs : s.sound) : fits s.cfg s.coder.outbuf.length :=
  ((State.sound_iff s).1 hs).2.2.2.1

/-- `INPOS` of a sound state is within the input (10_state.md R50). -/
theorem sound_inpos {s : State} (hs : s.sound) : s.coder.inpos ≤ s.coder.input.length :=
  ((State.sound_iff s).1 hs).2.2.2.2.1

/-- A filled model slot of a sound state has a legal handle and a legal record. -/
theorem sound_slot {s : State} (hs : s.sound) {h : Nat} {m : Slot} (hm : Store.find s.ms h = some m) :
    h < s.cfg.modelSlots ∧ m.ok := by
  obtain ⟨-, -, -, -, -, hwf, hall, -, -⟩ := (State.sound_iff s).1 hs
  exact ⟨Store.lt_of_find hwf hm, hall _ (Store.mem_of_find hm)⟩

/-- The bit model in a slot of a sound state. -/
theorem sound_bitModel {s : State} (hs : s.sound) {h : Nat} {m : BitModel}
    (hm : Store.find s.ms h = some (.bit m)) : h < s.cfg.modelSlots ∧ m.ok :=
  sound_slot hs hm

/-- The symbol model in a slot of a sound state. -/
theorem sound_symModel {s : State} (hs : s.sound) {h : Nat} {m : SymModel}
    (hm : Store.find s.ms h = some (.sym m)) : h < s.cfg.modelSlots ∧ m.ok :=
  sound_slot hs hm

/-- An initialised symbol model of a sound state may be coded with. -/
theorem readyOk_of_ok {m : SymModel} (hm : m.ok) (hi : m.init = true) : m.readyOk := by
  simp only [SymModel.ok, hi, if_true, Bool.and_eq_true] at hm
  simp only [SymModel.readyOk, hm, hi, Bool.and_self]

/-- An uninitialised symbol model of a sound state is as MDL_NEW_SYM left it. -/
theorem eq_new_of_ok {m : SymModel} (hm : m.ok) (hi : m.init = false) : m = symModelNew m.nsym := by
  simp only [SymModel.ok, hi, Bool.and_eq_true] at hm
  simpa using hm.2

/-- The compressor in a slot of a sound state. -/
theorem sound_ic {s : State} (hs : s.sound) {h : Nat} {ic : IcRec} (hi : Store.find s.ics h = some ic) :
    h < s.cfg.icSlots ∧ ic.ok s.cfg.maxIcContexts := by
  obtain ⟨-, -, -, -, -, -, -, hwf, hall⟩ := (State.sound_iff s).1 hs
  exact ⟨Store.lt_of_find hwf hi, hall _ (Store.mem_of_find hi)⟩

/-- The parts of a legal compressor record. -/
theorem IcRec.ok_iff (maxContexts : Nat) (ic : IcRec) :
    ic.ok maxContexts = true ↔
      { ic with k := 0, models := none } = icDerive ic.bits ic.contexts ic.bitsHigh ic.range ∧
      icValid maxContexts ic ∧ ic.k ≤ ic.corrBits ∧ ∀ ms, ic.models = some ms → ms.ok ic := by
  unfold IcRec.ok
  cases hm : ic.models with
  | none => simp [and_assoc]
  | some ms => simp [and_assoc]

/-- The models of a ready compressor: one per context, one bit model, one per class. -/
theorem IcModels.ok_iff (ic : IcRec) (ms : IcModels) :
    ms.ok ic = true ↔
      ms.mBits.length = ic.contexts ∧ (∀ m ∈ ms.mBits, m.readyOk ∧ m.nsym = ic.corrBits + 1) ∧
      ms.mCorr0.ok ∧ (∀ m ∈ ms.mCorr, m.readyOk) ∧
      ms.mCorr.map SymModel.nsym =
        (List.range ic.corrBits).map (fun j => 2 ^ min (j + 1) ic.bitsHigh.toNat) := by
  simp only [IcModels.ok, Bool.and_eq_true, decide_eq_true_eq, List.all_eq_true, and_assoc]

/-- The model that codes the class, of one of the contexts. -/
theorem mBits_getElem {ic : IcRec} {ms : IcModels} (hms : ms.ok ic) {ctx : Nat} (hc : ctx < ic.contexts) :
    ∃ m, ms.mBits[ctx]? = some m ∧ ms.mBits.getD ctx (symModelNew 0) = m ∧ m.readyOk ∧
      m.nsym = ic.corrBits + 1 := by
  obtain ⟨hlen, hall, -⟩ := (IcModels.ok_iff ic ms).1 hms
  have hc' : ctx < ms.mBits.length := by omega
  have hg := List.getElem?_eq_getElem hc'
  exact ⟨ms.mBits[ctx], hg, by simp [List.getD, hg], hall _ (List.getElem_mem hc')⟩

/-- The model of a class from 1 to `corr_bits`. -/
theorem mCorr_getElem {ic : IcRec} {ms : IcModels} (hms : ms.ok ic) {k : Nat} (h1 : 1 ≤ k)
    (h2 : k ≤ ic.corrBits) :
    ∃ m, ms.mCorr[k - 1]? = some m ∧ ms.mCorr.getD (k - 1) (symModelNew 0) = m ∧ m.readyOk ∧
      m.nsym = 2 ^ min k ic.bitsHigh.toNat := by
  obtain ⟨-, -, -, hall, hmap⟩ := (IcModels.ok_iff ic ms).1 hms
  have hlen : ms.mCorr.length = ic.corrBits := by simpa using congrArg List.length hmap
  have hk : k - 1 < ms.mCorr.length := by omega
  have hg := List.getElem?_eq_getElem hk
  refine ⟨ms.mCorr[k - 1], hg, by simp [List.getD, hg], hall _ (List.getElem_mem hk), ?_⟩
  have := congrArg (fun l => l[k - 1]?) hmap
  simp only [List.getElem?_map, hg, Option.map_some,
    List.getElem?_range (show k - 1 < ic.corrBits by omega), Option.some.injEq] at this
  rw [this, show k - 1 + 1 = k by omega]

end Sys2Proof.Machine
end

