-- ==== Sys2Proof/Laws/Compressor.lean ====
section
/-! SUPPORT. What the two corrector procedures of the integer compressor do, said once
(43_integer_compressor.md R305, R306). -/

namespace Sys2Proof.Machine

open Sys2Proof.Reference

/-- Writing back the changed model of a position is changing it in place. -/
theorem set_eq_modify {α : Type} {l : List α} {i : Nat} {a : α} (h : l[i]? = some a) (f : α → α) :
    l.set i (f a) = l.modify i f := by
  apply List.ext_getElem?
  intro j
  rw [List.getElem?_set, List.getElem?_modify]
  by_cases hij : i = j
  · subst hij
    have hi : i < l.length := by
      by_contra hn
      rw [List.getElem?_eq_none (by omega)] at h
      exact absurd h (by simp)
    have ha : l[i] = a := by rw [List.getElem?_eq_getElem hi] at h; exact Option.some.inj h
    simp [hi, ha]
  · simp [hij]

/-- Ending a sequence in an interval that was reached. -/
theorem moved_bind_ok {α β : Type} (g : Config) (c : Coder) (v : Interval) (a : α) (f : Coder × α → Res β) :
    ((moved g c v >>= fun c => .ok (c, a)) >>= f) = (moved g c v >>= fun c => f (c, a)) := by
  rw [res_bind_assoc]
  rfl

/-- What `WriteCorrector` does with a corrector of a class the compressor has (43_integer_compressor.md
R305). -/
theorem writeCorrector_eq (g : Config) (c : Coder) (v : Interval) (ic : IcRec) (ms : IcModels) (ctx : Nat)
    (corr : Int) (hv : v.sound) (hf : fits g v.bytes) (hms : ms.ok ic) (hctx : ctx < ic.contexts)
    (hk : kClass corr ≤ ic.corrBits)
    (hx : 1 ≤ kClass corr → kClass corr < 32 → corrAdjust (kClass corr) corr < 2 ^ kClass corr) :
    writeCorrector g.outCapacity (withInterval c v) ic ms ctx corr =
      (moved g c (v.corrector ic ms ctx corr) >>= fun c =>
        .ok (c, codedCompressor ic ms ctx (kClass corr) (decide (corr = 1)) (modelledPart ic corr))) := by
  obtain ⟨m, hm1, hm2, hm3, hm4⟩ := mBits_getElem hms hctx
  have hlast : ¬ m.last < kClass corr := by
    simp only [SymModel.last]
    omega
  have hs : kClass corr < m.nsym := by omega
  have hset := set_eq_modify hm1 (fun m => symModelCoded m (kClass corr))
  have sv := sound_symbol hv hm3 hs
  unfold writeCorrector
  simp only [icModel, hm1, res_bind_ok, if_neg hlast]
  rw [encSymM_eq g c v m _ hv hm3 hs hf, moved_bind_ok]
  simp only [hset]
  unfold Interval.corrector codedCompressor
  simp only [hm2]
  by_cases hk0 : kClass corr = 0
  · obtain ⟨-, -, h0, -, -⟩ := (IcModels.ok_iff ic ms).1 hms
    rw [if_pos hk0]
    refine moved_bind_moved g c (Interval.bytes_bit _ _ _) _ _ fun hu => ?_
    simp only [if_pos hk0]
    rw [encBitM_eq g c _ ms.mCorr0 _ sv h0 hu, moved_bind_ok]
  · rw [if_neg hk0]
    by_cases hk32 : kClass corr < 32
    · rw [if_neg (by omega : ¬ 32 ≤ kClass corr)]
      have hadj := hx (by omega) hk32
      obtain ⟨q, hq1, hq2, hq3, hq4⟩ := mCorr_getElem hms (k := kClass corr) (by omega) hk
      simp only [hq2, if_neg hk0, if_pos hk32, if_neg (by omega : ¬ 32 ≤ kClass corr)]
      have hqset := fun s => set_eq_modify hq1 (fun m => symModelCoded m s)
      unfold writeBucket modelledPart
      simp only [icModel, hq1, res_bind_ok]
      by_cases hb : kClass corr ≤ ic.bitsHigh.toNat
      · simp only [if_pos hb, show kClass corr - ic.bitsHigh.toNat = 0 by omega, Nat.pow_zero, Nat.div_one]
        have hqs : corrAdjust (kClass corr) corr < q.nsym := by
          rw [hq4, Nat.min_eq_left hb]
          exact hadj
        refine moved_bind_moved g c (Nat.le_add_right _ _) _ _ fun hu => ?_
        rw [encSymM_eq g c _ q _ sv hq3 hqs hu, moved_bind_ok, res_bind_assoc]
        simp only [res_bind_ok, hqset]
      · simp only [if_neg hb]
        rw [Nat.shiftRight_eq_div_pow]
        have hqs : corrAdjust (kClass corr) corr / 2 ^ (kClass corr - ic.bitsHigh.toNat) < q.nsym := by
          rw [hq4, Nat.min_eq_right (by omega), Nat.div_lt_iff_lt_mul (by positivity), ← Nat.pow_add,
            show ic.bitsHigh.toNat + (kClass corr - ic.bitsHigh.toNat) = kClass corr by omega]
          exact hadj
        have sq := sound_symbol sv hq3 hqs
        refine moved_bind_moved g c (le_trans (Interval.bytes_symbol _ _ _) (Interval.bytes_field _ _ _))
          _ _ fun hu => ?_
        rw [encSymM_eq g c _ q _ sv hq3 hqs hu, moved_bind_ok, res_bind_assoc]
        refine moved_bind_moved g c (Interval.bytes_field _ _ _) _ _ fun hu2 => ?_
        rw [encBits_eq g c _ _ _ sq (by omega) (Nat.mod_lt _ (by positivity)) hu2, res_bind_assoc]
        simp only [res_bind_ok, hqset]
    · have h32 : 32 ≤ kClass corr := by omega
      simp only [if_neg hk0, if_neg hk32, if_pos h32]

/-! ## Reading -/

/-- A field whose first step is in range has a value of its width. -/
theorem fieldValue_lt {w : Window} (hw : w.sound) (input : List Byte) {n : Nat} (hn : n ≤ 32)
    (hr : w.rawValue (firstStep n) < 2 ^ firstStep n) : w.fieldValue input n < 2 ^ n := by
  unfold Window.fieldValue
  unfold firstStep at hr
  split
  · rename_i h
    rw [if_pos h] at hr
    have h2 := rawValue_lt_after_16 hw input (k := n - 16) (by omega)
    have e : 2 ^ n = 2 ^ (n - 16) * 2 ^ 16 := by rw [← Nat.pow_add, show n - 16 + 16 = n by omega]
    rw [e]
    calc (w.raw input 16).rawValue (n - 16) * 2 ^ 16 + w.rawValue 16
        < (w.raw input 16).rawValue (n - 16) * 2 ^ 16 + 2 ^ 16 := Nat.add_lt_add_left hr _
      _ = ((w.raw input 16).rawValue (n - 16) + 1) * 2 ^ 16 := by ring
      _ ≤ 2 ^ (n - 16) * 2 ^ 16 := Nat.mul_le_mul_right _ h2
  · rename_i h
    rwa [if_neg h] at hr

/-- An offset lies in the part of one symbol. -/
theorem isSymbol_unique {w : Window} {dist : List Word} {s t : Nat} (hs : w.isSymbol dist s)
    (ht : w.isSymbol dist t) : s = t := by
  have h1 : symbolAt (w.width / 2 ^ 15) w.value dist = some s := symbolAt_eq_some.2 hs
  have h2 : symbolAt (w.width / 2 ^ 15) w.value dist = some t := symbolAt_eq_some.2 ht
  exact Option.some.inj (h1.symm.trans h2)

/-- The window after a symbol of a ready model is sound. -/
theorem window_sound_symbol {w : Window} (hw : w.sound) (input : List Byte) {m : SymModel} (hm : m.readyOk)
    {s : Nat} (hs : s < m.nsym) : (w.symbol input m.dist s).sound := by
  obtain ⟨hb1, hb2⟩ := symbolEnds_bounds hm hw.1 hs
  have := hw.2.1
  exact Window.sound_shift (width := (symbolEnds m.dist w.width s).2 - (symbolEnds m.dist w.width s).1)
    w input _ (by omega) (by omega)

/-- What `ReadCorrector` does (43_integer_compressor.md R306): the class, and then what the class asks for. -/
theorem readCorrector_eq (c : Coder) (w : Window) (ic : IcRec) (ms : IcModels) (ctx : Nat) (hw : w.sound)
    (hms : ms.ok ic) (hctx : ctx < ic.contexts) (hp : c.inpos ≤ w.pos) (hl : w.pos ≤ c.input.length) :
    let model := (ms.mBits.getD ctx (symModelNew 0)).dist
    ∃ k q, w.isSymbol model k ∧ k ≤ ic.corrBits ∧
      let part := (ms.mCorr.getD (k - 1) (symModelNew 0)).dist
      let w1 := w.symbol c.input model k
      let w2 := w1.symbol c.input part q
      let k1 := k - ic.bitsHigh.toNat
      let b := w1.bitValue ms.mCorr0.p0.toNat
      let done := codedCompressor ic ms ctx k b q
      (1 ≤ k → k < 32 → w1.isSymbol part q) ∧
      readCorrector (withWindow c w) ic ms ctx =
        (taken c w1 >>= fun _ =>
          if k = 0 then
            taken c (w1.bit c.input ms.mCorr0.p0.toNat) >>= fun c' => .ok (if b then 1 else 0, c', done)
          else if k < 32 then
            taken c w2 >>= fun _ =>
              if k ≤ ic.bitsHigh.toNat then .ok (corrRestore k q, withWindow c w2, done)
              else
                taken c (w2.raw c.input (firstStep k1)) >>= fun _ =>
                  if 2 ^ firstStep k1 ≤ w2.rawValue (firstStep k1) then raise .rawDecodeRange
                  else taken c (w2.field c.input k1) >>= fun c' =>
                    .ok (corrRestore k (q * 2 ^ k1 + w2.fieldValue c.input k1), c', done)
          else .ok (ic.corrMin.toInt, withWindow c w1, done)) := by
  obtain ⟨m, hm1, hm2, hm3, hm4⟩ := mBits_getElem hms hctx
  obtain ⟨k, hk1, hk2, hk3⟩ := decSymM_eq c w m hw hm3 hp hl
  have hset := set_eq_modify hm1 (fun m => symModelCoded m k)
  have hp1 : w.pos ≤ (w.symbol c.input m.dist k).pos := Nat.le_add_right _ _
  have sw1 := window_sound_symbol hw c.input hm3 hk2
  simp only [hm2]
  have read : readCorrector (withWindow c w) ic ms ctx =
      (taken c (w.symbol c.input m.dist k) >>= fun c =>
        if k = 0 then
          decBitM c ms.mCorr0 >>= fun r => .ok (if r.1 then 1 else 0, r.2.1, { ic with
            k := k, models := some { ms with
              mBits := ms.mBits.modify ctx (fun m => symModelCoded m k), mCorr0 := r.2.2 } })
        else if k < 32 then
          readBucket ic.bitsHigh.toNat k c
              { ms with mBits := ms.mBits.modify ctx (fun m => symModelCoded m k) } >>= fun r =>
            .ok (r.1, r.2.1, { ic with k := k, models := some r.2.2 })
        else .ok (signed ic.corrMin, c, { ic with
          k := k, models := some { ms with
            mBits := ms.mBits.modify ctx (fun m => symModelCoded m k) } })) := by
    unfold readCorrector
    simp only [icModel, hm1, res_bind_ok, hk3, res_bind_assoc, hset]
  by_cases hk0 : k = 0
  · refine ⟨k, 0, hk1, by omega, fun h => absurd h (by omega), ?_⟩
    rw [read]
    by_cases h1 : (w.symbol c.input m.dist k).pos ≤ c.input.length
    · obtain ⟨-, -, h0, -, -⟩ := (IcModels.ok_iff ic ms).1 hms
      simp only [taken, if_pos h1, res_bind_ok, if_pos hk0]
      rw [decBitM_eq c _ ms.mCorr0 sw1 h0 (by omega) h1, res_bind_assoc]
      simp only [taken, res_bind_ok, codedCompressor, if_pos hk0]
    · simp only [taken, if_neg h1, res_bind_raise]
  · by_cases hk32 : k < 32
    · obtain ⟨qm, hq1, hq2, hq3, hq4⟩ := mCorr_getElem hms (k := k) (by omega) (by omega)
      obtain ⟨q, hqs, hqlt⟩ := symbolAt_isSome hq3 ((w.symbol c.input m.dist k).width / 2 ^ 15)
        (w.symbol c.input m.dist k).value
      have hsym : (w.symbol c.input m.dist k).isSymbol qm.dist q := symbolAt_eq_some.1 hqs
      refine ⟨k, q, hk1, by omega, fun _ _ => by rw [hq2]; exact hsym, ?_⟩
      rw [read]
      simp only [hq2]
      by_cases h1 : (w.symbol c.input m.dist k).pos ≤ c.input.length
      · have hqset := set_eq_modify hq1 (fun m => symModelCoded m q)
        obtain ⟨q', hs', -, hdec⟩ := decSymM_eq c _ qm sw1 hq3 (by omega) h1
        obtain rfl := isSymbol_unique hs' hsym
        have sw2 := window_sound_symbol sw1 c.input hq3 hqlt
        have hp2 : (w.symbol c.input m.dist k).pos ≤
            ((w.symbol c.input m.dist k).symbol c.input qm.dist q').pos := Nat.le_add_right _ _
        simp only [taken, if_pos h1, res_bind_ok, if_neg hk0, if_pos hk32, codedCompressor,
          if_neg (by omega : ¬ 32 ≤ k)]
        unfold readBucket
        simp only [icModel, hq1, res_bind_ok, hdec]
        by_cases h2 : ((w.symbol c.input m.dist k).symbol c.input qm.dist q').pos ≤ c.input.length
        · simp only [taken, if_pos h2, res_bind_ok]
          by_cases hb : k ≤ ic.bitsHigh.toNat
          · simp only [if_pos hb, res_bind_ok, hqset]
          · simp only [if_neg hb]
            rw [decBits_eq c _ (k - ic.bitsHigh.toNat) sw2 (by omega) (by omega) h2]
            unfold taken
            split
            · simp only [res_bind_ok]
              split
              · rfl
              · rename_i hr
                split
                · have hlt := fieldValue_lt sw2 c.input (n := k - ic.bitsHigh.toNat) (by omega)
                    (Nat.not_le.1 hr)
                  simp only [res_bind_ok, hqset]
                  rw [← Nat.shiftLeft_add_eq_or_of_lt hlt, Nat.shiftLeft_eq]
                · rfl
            · rfl
        · simp only [taken, if_neg h2, res_bind_raise, ite_self]
      · simp only [taken, if_neg h1, res_bind_raise]
    · refine ⟨k, 0, hk1, by omega, fun _ h => absurd h hk32, ?_⟩
      rw [read]
      by_cases h1 : (w.symbol c.input m.dist k).pos ≤ c.input.length
      · simp only [taken, if_pos h1, res_bind_ok, if_neg hk0, if_neg hk32, codedCompressor,
          if_pos (by omega : 32 ≤ k), signed]
      · simp only [taken, if_neg h1, res_bind_raise]

end Sys2Proof.Machine
end

