-- ==== Sys2Proof/Laws/PerInstr.lean ====
section
/-! SUPPORT. Facts about every command as syntax, one lemma per constructor of `Instr`. -/

namespace Sys2Proof.Laws

/-- `EncodedWord`: under the mask of its format, a command's word is its opcode and nothing else: every bit
of CW that the format fixes is as 30_encoding.md R112, R115 and R116 say, for every handle and width. -/
def EncodedWord.Statement (i : Instr) : Prop :=
  (encode i).cw &&& i.format.mask = i.opcode.setWidth 32

theorem commandWord_f0 (opc : Byte) : commandWord opc 0 0 &&& Format.f0.mask = opc.setWidth 32 := by
  revert opc
  decide

/-- A bit of a command word lies in one of its four fields. -/
theorem commandWord_getLsbD (opc : Byte) (h n j : Nat) (hj : j < 32) :
    (commandWord opc h n).getLsbD j =
      if j < 8 then opc.getLsbD j
      else if j < 20 then h.testBit (j - 8)
      else if j < 26 then n.testBit (j - 20)
      else false := by
  unfold commandWord
  simp only [BitVec.getLsbD_append, BitVec.getLsbD_ofNat]
  by_cases h1 : j < 8
  · simp [h1]
  · by_cases h2 : j < 20
    · simp [h1, h2, show j - 8 < 12 by omega]
    · by_cases h3 : j < 26
      · simp [h1, h2, h3, show ¬ j - 8 < 12 by omega, show j - 8 - 12 = j - 20 by omega,
          show j - 20 < 6 by omega]
      · simp [h1, h2, h3, show ¬ j - 8 < 12 by omega, show ¬ j - 8 - 12 < 6 by omega]

theorem mask_fh (j : Nat) (hj : j < 32) :
    Format.fh.mask.getLsbD j = decide (j < 8 ∨ 20 ≤ j) := by
  interval_cases j <;> rfl

theorem commandWord_fh (opc : Byte) (h : Nat) :
    commandWord opc h 0 &&& Format.fh.mask = opc.setWidth 32 := by
  apply BitVec.eq_of_getLsbD_eq
  intro j hj
  rw [BitVec.getLsbD_and, commandWord_getLsbD _ _ _ _ hj, mask_fh j hj, BitVec.getLsbD_setWidth]
  by_cases h1 : j < 8
  · simp [h1, hj]
  · have : opc.getLsbD j = false := BitVec.getLsbD_of_ge _ _ (by omega)
    by_cases h2 : j < 20
    · simp [h1, h2, this, show ¬ 20 ≤ j by omega]
    · by_cases h3 : j < 26 <;> simp [h1, h2, h3, this]

theorem mask_fn (j : Nat) (hj : j < 32) :
    Format.fn.mask.getLsbD j = decide (j < 20 ∨ 26 ≤ j) := by
  interval_cases j <;> rfl

theorem commandWord_fn (opc : Byte) (n : Nat) :
    commandWord opc 0 n &&& Format.fn.mask = opc.setWidth 32 := by
  apply BitVec.eq_of_getLsbD_eq
  intro j hj
  rw [BitVec.getLsbD_and, commandWord_getLsbD _ _ _ _ hj, mask_fn j hj, BitVec.getLsbD_setWidth]
  by_cases h1 : j < 8
  · have hc : j < 20 ∨ 26 ≤ j := .inl (by omega)
    simp [h1, hj, hc]
  · have : opc.getLsbD j = false := BitVec.getLsbD_of_ge _ _ (by omega)
    by_cases h2 : j < 20
    · simp [h1, h2, this]
    · by_cases h3 : j < 26
      · simp [h1, h2, h3, this, show ¬ 26 ≤ j by omega]
      · simp [h1, h2, h3, this]

theorem mask_fhn (j : Nat) (hj : j < 32) :
    Format.fhn.mask.getLsbD j = decide (j < 8 ∨ 26 ≤ j) := by
  interval_cases j <;> rfl

theorem commandWord_fhn (opc : Byte) (h n : Nat) :
    commandWord opc h n &&& Format.fhn.mask = opc.setWidth 32 := by
  apply BitVec.eq_of_getLsbD_eq
  intro j hj
  rw [BitVec.getLsbD_and, commandWord_getLsbD _ _ _ _ hj, mask_fhn j hj, BitVec.getLsbD_setWidth]
  by_cases h1 : j < 8
  · simp [h1, hj]
  · have : opc.getLsbD j = false := BitVec.getLsbD_of_ge _ _ (by omega)
    by_cases h3 : j < 26
    · simp [h1, this, show ¬ 26 ≤ j by omega]
    · simp [h1, show ¬ j < 20 by omega, h3, this]

theorem EncodedWord.initEnc : EncodedWord.Statement .initEnc :=
  commandWord_f0 _

theorem EncodedWord.initDec : EncodedWord.Statement .initDec :=
  commandWord_f0 _

theorem EncodedWord.doneEnc : EncodedWord.Statement .doneEnc :=
  commandWord_f0 _

theorem EncodedWord.doneDec : EncodedWord.Statement .doneDec :=
  commandWord_f0 _

theorem EncodedWord.rdStatus : EncodedWord.Statement .rdStatus :=
  commandWord_f0 _

theorem EncodedWord.nop : EncodedWord.Statement .nop :=
  commandWord_f0 _

theorem EncodedWord.encBit (h : Nat) (bit : Word) : EncodedWord.Statement (.encBit h bit) :=
  commandWord_fh _ h

theorem EncodedWord.decBit (h : Nat) : EncodedWord.Statement (.decBit h) :=
  commandWord_fh _ h

theorem EncodedWord.encSym (h : Nat) (sym : Word) : EncodedWord.Statement (.encSym h sym) :=
  commandWord_fh _ h

theorem EncodedWord.decSym (h : Nat) : EncodedWord.Statement (.decSym h) :=
  commandWord_fh _ h

theorem EncodedWord.wrBits (n : Nat) (v : Word) : EncodedWord.Statement (.wrBits n v) :=
  commandWord_fn _ n

theorem EncodedWord.rdBits (n : Nat) : EncodedWord.Statement (.rdBits n) :=
  commandWord_fn _ n

theorem EncodedWord.wrByte (v : Byte) : EncodedWord.Statement (.wrByte v) :=
  commandWord_f0 _

theorem EncodedWord.rdByte : EncodedWord.Statement .rdByte :=
  commandWord_f0 _

theorem EncodedWord.wrShort (v : BitVec 16) : EncodedWord.Statement (.wrShort v) :=
  commandWord_f0 _

theorem EncodedWord.rdShort : EncodedWord.Statement .rdShort :=
  commandWord_f0 _

theorem EncodedWord.wrInt (v : Word) : EncodedWord.Statement (.wrInt v) :=
  commandWord_f0 _

theorem EncodedWord.rdInt : EncodedWord.Statement .rdInt :=
  commandWord_f0 _

theorem EncodedWord.wrInt64 (v : DWord) : EncodedWord.Statement (.wrInt64 v) :=
  commandWord_f0 _

theorem EncodedWord.rdInt64 : EncodedWord.Statement .rdInt64 :=
  commandWord_f0 _

theorem EncodedWord.wrFloat (v : Word) : EncodedWord.Statement (.wrFloat v) :=
  commandWord_f0 _

theorem EncodedWord.rdFloat : EncodedWord.Statement .rdFloat :=
  commandWord_f0 _

theorem EncodedWord.wrDouble (v : DWord) : EncodedWord.Statement (.wrDouble v) :=
  commandWord_f0 _

theorem EncodedWord.rdDouble : EncodedWord.Statement .rdDouble :=
  commandWord_f0 _

theorem EncodedWord.mdlNewBit (h : Nat) : EncodedWord.Statement (.mdlNewBit h) :=
  commandWord_fh _ h

theorem EncodedWord.mdlNewSym (h : Nat) (nsym : Word) : EncodedWord.Statement (.mdlNewSym h nsym) :=
  commandWord_fh _ h

theorem EncodedWord.mdlInitBit (h : Nat) : EncodedWord.Statement (.mdlInitBit h) :=
  commandWord_fh _ h

theorem EncodedWord.mdlInitSym (h : Nat) : EncodedWord.Statement (.mdlInitSym h) :=
  commandWord_fh _ h

theorem EncodedWord.mdlFree (h : Nat) : EncodedWord.Statement (.mdlFree h) :=
  commandWord_fh _ h

theorem EncodedWord.icConfig (h : Nat) (bits : Nat) (contexts bitsHigh range : Word) : EncodedWord.Statement (.icConfig h bits contexts bitsHigh range) :=
  commandWord_fhn _ h bits

theorem EncodedWord.icInit (h : Nat) : EncodedWord.Statement (.icInit h) :=
  commandWord_fh _ h

theorem EncodedWord.icCompress (h : Nat) (pred real context : Word) : EncodedWord.Statement (.icCompress h pred real context) :=
  commandWord_fh _ h

theorem EncodedWord.icDecompress (h : Nat) (pred context : Word) : EncodedWord.Statement (.icDecompress h pred context) :=
  commandWord_fh _ h

theorem EncodedWord.icGetK (h : Nat) : EncodedWord.Statement (.icGetK h) :=
  commandWord_fh _ h

theorem EncodedWord.icFree (h : Nat) : EncodedWord.Statement (.icFree h) :=
  commandWord_fh _ h

end Sys2Proof.Laws
end

