-- ==== Sys2Proof/Tests/Slice0.lean ====
section
/-! SUPPORT. Tests of single steps, with expected values from 95_test_vectors.md and 30_encoding.md, and for
every statement that has hypotheses a witness that meets them. -/

namespace Sys2Proof.Tests

open Sys2Proof.Machine Sys2Proof.Reference

/-! ## Small states -/

def tinyConfig : Config where
  modelSlots := 4
  icSlots := 4
  maxIcContexts := 2
  outCapacity := some 32

/-- Three bits wide, two contexts, one bit modelled. -/
def smallIc : IcRec := icDerive 3 2 1 0

/-- The compressor of P3 and P6: 32 bits, two contexts, eight bits modelled, no range. -/
def wideIc : IcRec := icDerive 32 2 8 0

/-- Slots: a fresh bit model, a fresh model of 4 symbols, an uninitialised one of 17, one Empty slot; a ready
compressor, a configured one, a ready wide one, one Empty slot. -/
def filled : State :=
  { State.resetWith tinyConfig with
    ms := [(0, .bit bitModelInit), (1, .sym (symModelFresh 4)), (2, .sym (symModelNew 17))]
    ics := [(0, { smallIc with models := some (icInitModels smallIc) }), (1, smallIc),
      (2, { wideIc with models := some (icInitModels wideIc) })] }

/-- The same without the wide compressor, whose tables are long. -/
def compact : State := { filled with ics := filled.ics.take 2 }

/-- An open encoder chunk, just after INIT_ENC. -/
def encoding (s : State) : State := { s with mode := .encode }

/-- An open decoder chunk on these bytes, just after INIT_DEC. -/
def decoding (s : State) (bytes : List Byte) : State :=
  { s with
    mode := .decode
    coder := { s.coder with
      input := bytes, inpos := 4, icount := 4, value := BitVec.ofNat 32 (bytesNumber (bytes.take 4)) } }

def broken (s : State) : State := { s with mode := .faulted, fcode := .symbolOutOfAlphabet, fopc := 0x10#8 }

/-- The state a command answers. -/
def after (i : Instr) (s : State) : State :=
  match exec i s with
  | .next t => t
  | .fault _ => s
  | .refused _ => s

/-- The state a step answers. -/
def stepped (s : State) : State :=
  match step s with
  | .next t => t
  | .fault _ => s
  | .refused _ => s

/-! ## Well-formedness -/

theorem test_wellFormed_refuses_handle_4096 : (Instr.decBit 4096).wellFormed = false := by decide

theorem test_wellFormed_refuses_width_64 : (Instr.rdBits 64).wellFormed = false := by decide

theorem test_wellFormed_refuses_either_field :
    (Instr.icConfig 4096 0 0 0 0).wellFormed = false ∧ (Instr.icConfig 0 64 0 0 0).wellFormed = false := by
  decide

theorem test_wellFormed_takes_the_last_values :
    (Instr.icConfig 4095 63 0 0 0).wellFormed = true ∧ Instr.nop.wellFormed = true := by decide

/-! ## Decoding: one word for every command, as RSV, N, H, OPC (30_encoding.md R111) -/

theorem test_decode_initEnc :
    decode ⟨0b000000#6 ++ 0b000000#6 ++ 0b000000000000#12 ++ 0b00000001#8, 0, 0⟩ = .ok (.initEnc) := by decide

theorem test_decode_initDec :
    decode ⟨0b000000#6 ++ 0b000000#6 ++ 0b000000000000#12 ++ 0b00000010#8, 0, 0⟩ = .ok (.initDec) := by decide

theorem test_decode_doneEnc :
    decode ⟨0b000000#6 ++ 0b000000#6 ++ 0b000000000000#12 ++ 0b00000011#8, 0, 0⟩ = .ok (.doneEnc) := by decide

theorem test_decode_doneDec :
    decode ⟨0b000000#6 ++ 0b000000#6 ++ 0b000000000000#12 ++ 0b00000100#8, 0, 0⟩ = .ok (.doneDec) := by decide

theorem test_decode_rdStatus :
    decode ⟨0b000000#6 ++ 0b000000#6 ++ 0b000000000000#12 ++ 0b00000101#8, 0, 0⟩ = .ok (.rdStatus) := by decide

theorem test_decode_nop :
    decode ⟨0b000000#6 ++ 0b000000#6 ++ 0b000000000000#12 ++ 0b00000110#8, 0, 0⟩ = .ok (.nop) := by decide

theorem test_decode_encBit :
    decode ⟨0b000000#6 ++ 0b000000#6 ++ 0b000000000011#12 ++ 0b00010000#8, 0, 1⟩ = .ok (.encBit 3 1) := by decide

theorem test_decode_decBit :
    decode ⟨0b000000#6 ++ 0b000000#6 ++ 0b111111111111#12 ++ 0b00010001#8, 0, 0⟩ = .ok (.decBit 4095) := by decide

theorem test_decode_encSym :
    decode ⟨0b000000#6 ++ 0b000000#6 ++ 0b000000000001#12 ++ 0b00010010#8, 0, 3⟩ = .ok (.encSym 1 3) := by decide

theorem test_decode_decSym :
    decode ⟨0b000000#6 ++ 0b000000#6 ++ 0b100000000000#12 ++ 0b00010011#8, 0, 0⟩ = .ok (.decSym 2048) := by decide

theorem test_decode_wrBits :
    decode ⟨0b000000#6 ++ 0b010100#6 ++ 0b000000000000#12 ++ 0b00100000#8, 0, 0xABCDE#32⟩ = .ok (.wrBits 20 0xABCDE#32) := by decide

theorem test_decode_rdBits :
    decode ⟨0b000000#6 ++ 0b111111#6 ++ 0b000000000000#12 ++ 0b00100001#8, 0, 0⟩ = .ok (.rdBits 63) := by decide

theorem test_decode_wrByte :
    decode ⟨0b000000#6 ++ 0b000000#6 ++ 0b000000000000#12 ++ 0b00100010#8, 0, 0xFFFFFF41#32⟩ = .ok (.wrByte 0x41#8) := by decide

theorem test_decode_rdByte :
    decode ⟨0b000000#6 ++ 0b000000#6 ++ 0b000000000000#12 ++ 0b00100011#8, 0, 0⟩ = .ok (.rdByte) := by decide

theorem test_decode_wrShort :
    decode ⟨0b000000#6 ++ 0b000000#6 ++ 0b000000000000#12 ++ 0b00100100#8, 0, 0xFFFFBEEF#32⟩ = .ok (.wrShort 0xBEEF#16) := by decide

theorem test_decode_rdShort :
    decode ⟨0b000000#6 ++ 0b000000#6 ++ 0b000000000000#12 ++ 0b00100101#8, 0, 0⟩ = .ok (.rdShort) := by decide

theorem test_decode_wrInt :
    decode ⟨0b000000#6 ++ 0b000000#6 ++ 0b000000000000#12 ++ 0b00100110#8, 0, 0x12345678#32⟩ = .ok (.wrInt 0x12345678#32) := by decide

theorem test_decode_rdInt :
    decode ⟨0b000000#6 ++ 0b000000#6 ++ 0b000000000000#12 ++ 0b00100111#8, 0, 0⟩ = .ok (.rdInt) := by decide

theorem test_decode_wrInt64 :
    decode ⟨0b000000#6 ++ 0b000000#6 ++ 0b000000000000#12 ++ 0b00101000#8, 0x0123456789ABCDEF#64, 0⟩ = .ok (.wrInt64 0x0123456789ABCDEF#64) := by decide

theorem test_decode_rdInt64 :
    decode ⟨0b000000#6 ++ 0b000000#6 ++ 0b000000000000#12 ++ 0b00101001#8, 0, 0⟩ = .ok (.rdInt64) := by decide

theorem test_decode_wrFloat :
    decode ⟨0b000000#6 ++ 0b000000#6 ++ 0b000000000000#12 ++ 0b00101010#8, 0, 0x3F800000#32⟩ = .ok (.wrFloat 0x3F800000#32) := by decide

theorem test_decode_rdFloat :
    decode ⟨0b000000#6 ++ 0b000000#6 ++ 0b000000000000#12 ++ 0b00101011#8, 0, 0⟩ = .ok (.rdFloat) := by decide

theorem test_decode_wrDouble :
    decode ⟨0b000000#6 ++ 0b000000#6 ++ 0b000000000000#12 ++ 0b00101100#8, 0xC004000000000000#64, 0⟩ = .ok (.wrDouble 0xC004000000000000#64) := by decide

theorem test_decode_rdDouble :
    decode ⟨0b000000#6 ++ 0b000000#6 ++ 0b000000000000#12 ++ 0b00101101#8, 0, 0⟩ = .ok (.rdDouble) := by decide

theorem test_decode_mdlNewBit :
    decode ⟨0b000000#6 ++ 0b000000#6 ++ 0b000000010000#12 ++ 0b00110000#8, 0, 0⟩ = .ok (.mdlNewBit 16) := by decide

theorem test_decode_mdlNewSym :
    decode ⟨0b000000#6 ++ 0b000000#6 ++ 0b000000000111#12 ++ 0b00110001#8, 0, 256⟩ = .ok (.mdlNewSym 7 256) := by decide

theorem test_decode_mdlInitBit :
    decode ⟨0b000000#6 ++ 0b000000#6 ++ 0b000000001001#12 ++ 0b00110010#8, 0, 0⟩ = .ok (.mdlInitBit 9) := by decide

theorem test_decode_mdlInitSym :
    decode ⟨0b000000#6 ++ 0b000000#6 ++ 0b000000000010#12 ++ 0b00110011#8, 0, 0⟩ = .ok (.mdlInitSym 2) := by decide

theorem test_decode_mdlFree :
    decode ⟨0b000000#6 ++ 0b000000#6 ++ 0b000000000001#12 ++ 0b00110100#8, 0, 0⟩ = .ok (.mdlFree 1) := by decide

theorem test_decode_icConfig :
    decode ⟨0b000000#6 ++ 0b010000#6 ++ 0b000000000010#12 ++ 0b01000000#8, 0x0000000800000005#64, 2⟩ = .ok (.icConfig 2 16 2 8 5) := by decide

theorem test_decode_icInit :
    decode ⟨0b000000#6 ++ 0b000000#6 ++ 0b000000000010#12 ++ 0b01000001#8, 0, 0⟩ = .ok (.icInit 2) := by decide

theorem test_decode_icCompress :
    decode ⟨0b000000#6 ++ 0b000000#6 ++ 0b000000000010#12 ++ 0b01000010#8, 0x0000006500000064#64, 1⟩ = .ok (.icCompress 2 100 101 1) := by decide

theorem test_decode_icDecompress :
    decode ⟨0b000000#6 ++ 0b000000#6 ++ 0b000000000010#12 ++ 0b01000011#8, 0x0000000000000064#64, 1⟩ = .ok (.icDecompress 2 100 1) := by decide

theorem test_decode_icGetK :
    decode ⟨0b000000#6 ++ 0b000000#6 ++ 0b000000000010#12 ++ 0b01000100#8, 0, 0⟩ = .ok (.icGetK 2) := by decide

theorem test_decode_icFree :
    decode ⟨0b000000#6 ++ 0b000000#6 ++ 0b000000000010#12 ++ 0b01000101#8, 0, 0⟩ = .ok (.icFree 2) := by decide

theorem test_decode_rejects :
    decode ⟨0x04000001#32, 0, 0⟩ = .error .reservedBits ∧
    decode ⟨0x00000000#32, 0, 0⟩ = .error .unassignedOpcode ∧
    decode ⟨0x00000007#32, 0, 0⟩ = .error .unassignedOpcode ∧
    decode ⟨0x00000105#32, 0, 0⟩ = .error .unusedField ∧
    decode ⟨0x00100010#32, 0, 0⟩ = .error .unusedField ∧
    decode ⟨0x00000120#32, 0, 0⟩ = .error .unusedField := by decide

/-! ## Single steps (95_test_vectors.md) -/

theorem test_initEnc_opens : -- V1.1
    (after .initEnc filled).mode = .encode ∧ (after .initEnc filled).coder.length = 0xFFFFFFFF#32 ∧
    (after .initEnc filled).ccount = 1 := by decide

theorem test_initDec_primes : -- V1.8
    (after .initDec { filled with coder := { Coder.reset with
      input := [0xC0#8, 0, 0, 0] } }).coder.value = 0xC0000000#32 := by decide

theorem test_initDec_needs_four_bytes : -- F14.1
    (after .initDec { filled with coder := { Coder.reset with
      input := [1#8, 2#8, 3#8] } }).status = 0x00020E03#32 := by decide

theorem test_doneEnc_of_an_empty_chunk : -- V1.2
    (after .doneEnc (encoding compact)).outstream = [1#8, 0, 0, 0] ∧
    (after .doneEnc (encoding compact)).res = 4 := by decide

theorem test_doneEnc_takes_two_bytes : -- V1.4
    (after .doneEnc { encoding compact with coder := { Coder.reset with
      base := 0xFDFFFF81#32, length := 0x01FFFFFF#32 } }).outstream = [0xFE#8, 0x7F#8, 0, 0] := by decide

theorem test_doneDec_counts : -- V1.17
    (after .doneDec { decoding compact [0x41#8, 0, 0, 0, 0] with
      coder := { Coder.reset with icount := 5 } }).res = 5 := by decide

theorem test_rdStatus_in_faulted : -- F18.3
    (after .rdStatus { broken compact with ccount := 2 }).res = 0x0000000200100C03#64 ∧
    (after .rdStatus { broken compact with ccount := 2 }).ccount = 2 := by decide

theorem test_nop_counts : (after .nop State.reset).ccount = 1 := by decide -- V1.16

theorem test_encBit_one : -- V1.6
    (after (.encBit 0 1) (encoding compact)).coder.base = 0x7FFFF000#32 ∧
    (after (.encBit 0 1) (encoding compact)).coder.length = 0x80000FFF#32 := by decide

theorem test_encBit_refuses_two : -- F12.1
    (after (.encBit 0 2) (encoding compact)).status = 0x00100C03#32 := by decide

theorem test_decBit_at_the_split : -- V1.11
    (after (.decBit 0) (decoding compact [0x7F#8, 0xFF#8, 0xF0#8, 0])).res = 1 ∧
    (after (.decBit 0) (decoding compact [0x7F#8, 0xFF#8, 0xF0#8, 0])).coder.value = 0 := by decide

theorem test_decBit_below_the_split : -- V1.10
    (after (.decBit 0) (decoding compact [0x7F#8, 0xFF#8, 0xEF#8, 0xFF#8])).res = 0 ∧
    (after (.decBit 0) (decoding compact [0x7F#8, 0xFF#8, 0xEF#8, 0xFF#8])).coder.length =
      0x7FFFF000#32 := by decide

theorem test_encSym_last_takes_the_rest : -- V1.12
    (after (.encSym 1 3) (encoding compact)).coder.base = 0xBFFFA000#32 ∧
    (after (.encSym 1 3) (encoding compact)).coder.length = 0x40005FFF#32 := by decide

theorem test_encSym_refuses_four : -- F12.2
    (after (.encSym 1 4) (encoding compact)).status = 0x00120C03#32 := by decide

theorem test_decSym_at_the_boundary : -- V1.13
    (after (.decSym 1) (decoding compact [0xBF#8, 0xFF#8, 0x9F#8, 0xFF#8])).res = 2 := by decide

theorem test_decSym_past_the_width : -- V1.14
    (after (.decSym 1) (decoding compact [0xFF#8, 0xFF#8, 0xFF#8, 0xFF#8])).res = 3 ∧
    (after (.decSym 1) (decoding compact [0xFF#8, 0xFF#8, 0xFF#8, 0xFF#8])).coder.value =
      0x40005FFF#32 := by decide

theorem test_wrBits_splits_at_20 : -- V3.6
    (after (.wrBits 20 0xABCDE#32) (encoding compact)).coder.outbuf = [0xBC#8, 0xDD#8] ∧
    (after (.wrBits 20 0xABCDE#32) (encoding compact)).coder.base = 0xE3216000#32 := by decide

theorem test_wrBits_is_one_step_at_19 : -- V3.5
    (after (.wrBits 19 0x7FFFF#32) (encoding compact)).coder.outbuf = [0xFF#8, 0xF7#8] := by decide

theorem test_rdBits_reads_20 : -- V3.6
    (after (.rdBits 20) (decoding compact [0xBC#8, 0xDD#8, 0xE4#8, 0, 0, 0])).res = 0xABCDE#64 := by decide

theorem test_rdBits_refuses_width_0 : -- F7.3
    (after (.rdBits 0) (decoding compact [0, 0, 0, 0])).status = 0x00210703#32 := by decide

theorem test_wrByte_renormalises : -- V3.1
    (after (.wrByte 0x41#8) (encoding compact)).coder.base = 0xFFFFBF00#32 ∧
    (after (.wrByte 0x41#8) (encoding compact)).coder.outbuf = [0x40#8] := by decide

theorem test_wrByte_carries_through_ff : -- V2.3
    (after (.wrByte 0x01#8) { encoding compact with coder := { Coder.reset with
      base := 0xFFFF0000#32, length := 0xFFFFFF00#32, outbuf := [0, 0xFF#8] } }).coder.outbuf =
      [0x01#8, 0, 0] := by decide

theorem test_rdByte_out_of_range : -- V3.14
    (after .rdByte (decoding compact [0xFF#8, 0xFF#8, 0xFF#8, 0xFF#8, 0xFF#8])).status =
      0x00230F03#32 := by decide

theorem test_rdByte_exhausted : -- V3.13
    (after .rdByte (decoding compact [0xFF#8, 0xFF#8, 0xFF#8, 0xFF#8])).status = 0x00230E03#32 := by
  decide

theorem test_wrShort : -- V3.2
    (after (.wrShort 0xBEEF#16) (encoding compact)).coder.base = 0x41110000#32 ∧
    (after (.wrShort 0xBEEF#16) (encoding compact)).coder.length = 0xFFFF0000#32 := by decide

theorem test_rdShort : -- V3.2
    (after .rdShort (decoding compact [0xBE#8, 0xEE#8, 0x42#8, 0, 0, 0])).res = 0xBEEF#64 := by decide

theorem test_wrInt_low_half_first : -- V3.3
    (after .doneEnc (after (.wrInt 0x12345678#32) (encoding compact))).outstream =
      [0x56#8, 0x77#8, 0xBB#8, 0xBB#8, 0xEE#8, 0, 0, 0] := by decide

theorem test_rdInt_low_half_first : -- V3.3
    (after .rdInt (decoding compact [0x56#8, 0x77#8, 0xBB#8, 0xBB#8, 0xEE#8, 0, 0, 0])).res =
      0x12345678#64 := by decide

theorem test_wrInt64 : -- V3.4
    (after .doneEnc (after (.wrInt64 0x0123456789ABCDEF#64) (encoding compact))).outstream =
      [0xCD#8, 0xEE#8, 0xBB#8, 0xBB#8, 0xBB#8, 0xBB#8, 0xBB#8, 0xBB#8, 0xFF#8, 0, 0, 0] := by decide

theorem test_rdInt64 : -- V3.4
    (after .rdInt64 (decoding compact
      [0xCD#8, 0xEE#8, 0xBB#8, 0xBB#8, 0xBB#8, 0xBB#8, 0xBB#8, 0xBB#8, 0xFF#8, 0, 0, 0])).res =
      0x0123456789ABCDEF#64 := by decide

theorem test_wrFloat : -- V3.11
    (after .doneEnc (after (.wrFloat 0x3F800000#32) (encoding compact))).outstream =
      [0, 0, 0x3F#8, 0x7F#8, 0xC1#8, 0, 0, 0] := by decide

theorem test_rdFloat : -- V3.11
    (after .rdFloat (decoding compact [0, 0, 0x3F#8, 0x7F#8, 0xC1#8, 0, 0, 0])).res =
      0x3F800000#64 := by decide

theorem test_wrDouble : -- V3.12
    (after .doneEnc (after (.wrDouble 0xC004000000000000#64) (encoding compact))).outstream =
      [0, 0, 0, 0, 0, 0, 0xC0#8, 0x03#8, 0x40#8, 0, 0, 0] := by decide

theorem test_rdDouble : -- V3.12
    (after .rdDouble (decoding compact
      [0, 0, 0, 0, 0, 0, 0xC0#8, 0x03#8, 0x40#8, 0, 0, 0])).res = 0xC004000000000000#64 := by decide

theorem test_mdlNewBit : -- V4.1
    Store.find (after (.mdlNewBit 3) compact).ms 3 =
      some (.bit { p0 := 4096, b0count := 1, count := 2, cycle := 4, remaining := 4 }) := by decide

theorem test_mdlNewBit_past_the_slots : -- F3.1
    (after (.mdlNewBit 4) compact).status = 0x00300303#32 := by decide

theorem test_mdlNewSym_geometry : -- V4.8, V4.12
    (symModelNew 256).tsize = 64 ∧ (symModelNew 256).tshift = 9 ∧
    (symModelNew 2048).tsize = 512 ∧ (symModelNew 2048).tshift = 6 ∧
    (symModelNew 17).tsize = 8 ∧ (symModelNew 16).tsize = 0 := by decide

theorem test_mdlNewSym_refuses_2049 : -- F6.3, F6.4
    (after (.mdlNewSym 3 2049) compact).status = 0x00310603#32 ∧
    (after (.mdlNewSym 3 2048) compact).status = 0 := by decide

theorem test_mdlInitBit : -- V4.10
    Store.find (after (.mdlInitBit 0) { compact with ms := [(0, .bit ⟨6826, 5, 6, 5, 5⟩)] }).ms 0 =
      some (.bit ⟨4096, 1, 2, 4, 4⟩) := by decide

theorem test_mdlInitSym : -- V4.6
    (symModelInit (symModelNew 4)).dist = [0, 8192, 16384, 24576] ∧
    (symModelInit (symModelNew 4)).cycle = 5 ∧ (symModelInit (symModelNew 4)).total = 4 := by decide

theorem test_mdlInitSym_of_a_bit_model :
    (after (.mdlInitSym 0) compact).status = 0x00330403#32 := by decide

theorem test_mdlFree_then_new : -- V4.11
    Store.find (after (.mdlNewSym 0 4) (after (.mdlFree 0) compact)).ms 0 =
      some (.sym (symModelNew 4)) := by decide

theorem test_bit_update : -- V4.2, V4.5
    bitModelCoded ⟨4096, 4, 2, 4, 1⟩ false = ⟨6826, 5, 6, 5, 5⟩ ∧
    bitModelCoded ⟨4096, 1, 2, 4, 1⟩ true = ⟨1365, 1, 6, 5, 5⟩ := by decide

theorem test_bit_halving : -- V4.4
    bitModelCoded ⟨8189, 8194, 8132, 64, 1⟩ false = ⟨8189, 4098, 4099, 64, 64⟩ := by decide

theorem test_sym_update : -- V4.7
    (symModelCoded { symModelFresh 4 with cnt := [5, 1, 1, 1], remaining := 1 } 0).dist =
      [0, 21845, 25486, 29127] := by decide

theorem test_sym_halving : -- V4.7
    (symModelCoded { symModelFresh 4 with
      cnt := [32796, 1, 1, 1], total := 32720, cycle := 80, remaining := 1 } 0).dist =
      [0, 32761, 32763, 32765] := by decide

theorem test_icConfig_constants : -- V5.9
    (icDerive 16 1 8 100).corrBits = 7 ∧ (icDerive 16 1 8 100).corrMin = s32 (-50) ∧
    (icDerive 16 1 8 100).corrMax = 49 ∧ (icDerive 16 1 8 0).corrRange = 65536 := by decide

theorem test_icConfig_bucket_limit : -- F8.5, F8.6
    (after (.icConfig 3 16 1 12 0) compact).status = 0x00400803#32 ∧
    (after (.icConfig 3 11 1 12 0) compact).status = 0 := by decide

theorem test_icInit_makes_ready :
    ((Store.find (after (.icInit 1) compact).ics 1).map IcRec.ready) = some true := by decide

theorem test_icCompress_codes : -- P3 step 3
    (after (.icCompress 2 0 2 0) (encoding filled)).coder.base = 0x0BA0BC20#32 ∧
    (after (.icCompress 2 0 2 0) (encoding filled)).coder.length = 0x03E13C1F#32 := by decide

theorem test_icCompress_past_the_contexts : -- F9.1
    (after (.icCompress 2 0 0 2) (encoding filled)).status = 0x00420903#32 := by decide

theorem test_icDecompress_restores : -- P3, decoding of chunk 2
    (after (.icDecompress 2 0 0) (decoding filled [0x0C#8, 0, 0, 0])).res = 2 := by decide

theorem test_icDecompress_uninitialised :
    (after (.icDecompress 1 0 0) (decoding compact [0, 0, 0, 0])).status = 0x00430B03#32 := by decide

theorem test_icGetK_after_coding : -- P3, k = 1
    (after (.icGetK 2) (after (.icCompress 2 0 2 0) (encoding filled))).res = 1 := by decide

theorem test_icFree_of_an_empty_slot :
    (after (.icFree 3) compact).status = 0x00450303#32 := by decide

theorem test_kClass_table : -- section 2.5
    [0, 1, -1, 2, -2, 3, -3, 4, -4, 5, -7, 8, -8, 9, 32767, -32767, -32768].map kClass =
      [0, 0, 1, 1, 2, 2, 2, 2, 3, 3, 3, 3, 4, 4, 15, 15, 16] := by decide

theorem test_fold_wraps : -- V5.6
    icFold (icDerive 16 1 8 0) 65000 10 = 546 ∧ icUnfold (icDerive 16 1 8 0) 65000 546 = 10 := by decide

theorem test_step_runs_a_fetched_word :
    (stepped (State.reset.withFetchWord 32 0x00000001)).mode = .encode := by decide

theorem test_step_rejects_word_0 : -- F1.1
    (stepped (State.reset.withFetchWord 32 0x00000000)).status = 0x00000103#32 := by decide

/-! ## Witnesses: a state and operands that meet the hypotheses of each statement -/

def issuing (s : State) (cw : Word) : State := { s with pending := [.issue ⟨cw, 0, 0⟩] }

/-- A decoder state on eight bytes. -/
def reading : State := decoding compact [0x41#8, 0, 0, 0, 0, 0, 0, 0]

/-- An encoder interval at a boundary width. -/
def narrowed (length : Word) : State :=
  { encoding compact with coder := { Coder.reset with base := 0xFF000000#32, length := length, outbuf := [0x12#8] } }

theorem witness_compact_sound : compact.sound ∧ (encoding compact).sound ∧ reading.sound ∧
    (broken compact).sound := by decide

theorem witness_DecodeOfEncodeIsTheCommand :
    (Instr.icConfig 4095 63 0xFFFFFFFF#32 0 1).wellFormed ∧ (Instr.rdBits 0).wellFormed ∧
    (Instr.encBit 0 2).wellFormed := by decide

theorem witness_DecodedWordIsTheCommandsWord :
    decode ⟨0x00FFFF11#32 &&& 0x000FFFFF#32, 7, 9⟩ = .ok (.decBit 4095) := by decide

theorem witness_UnreadOperandBitsAreIgnored :
    (⟨0x00000022#32, 5, 0x0041#32⟩ : Command).cw = (⟨0x00000022#32, 6, 0xFF41#32⟩ : Command).cw ∧
    (5 : DWord) &&& readsA 0x22#8 = 6 &&& readsA 0x22#8 ∧
    (0x0041#32 : Word) &&& readsB 0x22#8 = 0xFF41#32 &&& readsB 0x22#8 := by decide

theorem witness_StepRunsTheDecodedCommand :
    (issuing compact 0x00000006#32).pending = .issue ⟨0x00000006#32, 0, 0⟩ :: [] ∧
    decode ⟨0x00000006#32, 0, 0⟩ = .ok .nop := by decide

theorem witness_IllegalWordFaultsIllegalCommand :
    (issuing compact 0x04000001#32).pending = .issue ⟨0x04000001#32, 0, 0⟩ :: [] ∧
    decode ⟨0x04000001#32, 0, 0⟩ = .error .reservedBits ∧ (issuing compact 0).mode ≠ .faulted := by decide

theorem witness_HostLoadsInIdleAndReadsAnywhere :
    ({ compact with pending := [.loadInput [1#8]] }).pending = .loadInput [1#8] :: [] ∧
    ({ encoding compact with pending := [.loadInput []] }).mode ≠ .idle ∧
    ({ broken compact with pending := [.readOutput] }).pending = .readOutput :: [] := by decide

theorem witness_ResetGivesTheListedValues :
    ({ broken compact with pending := [.reset, .readOutput] }).pending = .reset :: [.readOutput] := by decide

theorem witness_ResetStateIsSound :
    Config.largest.ok ∧ (⟨1, 1, 1, some 4⟩ : Config).ok := by decide

theorem witness_StepKeepsSoundness :
    (issuing compact 0x00000001#32).sound ∧
    step (issuing compact 0x00000001#32) = .next (stepped (issuing compact 0x00000001#32)) :=
  ⟨by decide, rfl⟩

theorem witness_SoundStateAlwaysSteps : (issuing (broken compact) 0).sound := by decide

theorem witness_FaultDiscardsAllButItsRecord :
    exec (.encBit 0 2) (encoding compact) = .next (after (.encBit 0 2) (encoding compact)) ∧
    (encoding compact).mode ≠ .faulted ∧ (after (.encBit 0 2) (encoding compact)).mode = .faulted :=
  ⟨rfl, by decide, by decide⟩

theorem witness_FaultedBlockRunsOnlyRdStatus :
    (issuing (broken compact) 0x00000005#32).pending = .issue ⟨0x00000005#32, 0, 0⟩ :: [] ∧
    (issuing (broken compact) 0x00000105#32).mode = .faulted := by decide

theorem witness_OnlyResetLeavesFaulted :
    ({ broken compact with pending := [.reset] }).mode = .faulted ∧
    step { broken compact with pending := [.reset] } =
      .next (stepped { broken compact with pending := [.reset] }) ∧
    (stepped { broken compact with pending := [.reset] }).mode ≠ .faulted :=
  ⟨by decide, rfl, by decide⟩

theorem witness_WrongModeExactlyOutsideTheTable :
    compact.mode ≠ .faulted ∧ compact.mode ∉ modesOf (.encBit 0 0) ∧
    (encoding compact).mode ∈ modesOf (.encBit 0 2) ∧
    exec (.encBit 0 2) (encoding compact) = .next (after (.encBit 0 2) (encoding compact)) ∧
    (after (.encBit 0 2) (encoding compact)).mode = .faulted :=
  ⟨by decide, by decide, by decide, rfl, by decide⟩

theorem witness_CompletedCommandAdvancesCcount :
    exec .nop compact = .next (after .nop compact) ∧ compact.mode ≠ .faulted ∧
    (after .nop compact).mode ≠ .faulted ∧
    exec .rdStatus (broken compact) = .next (after .rdStatus (broken compact)) :=
  ⟨rfl, by decide, by decide, rfl⟩

theorem witness_ResKeptWithoutAResult :
    exec .nop compact = .next (after .nop compact) ∧ writesRes .nop = false ∧
    exec (.rdBits 0) reading = .next (after (.rdBits 0) reading) ∧ reading.mode ≠ .faulted ∧
    (after (.rdBits 0) reading).mode = .faulted ∧ writesRes (.rdBits 0) = true :=
  ⟨rfl, by decide, rfl, by decide, by decide, by decide⟩

theorem witness_OutstreamOnlyGrowsAndOnlyAtDoneEnc :
    exec .doneEnc (encoding compact) = .next (after .doneEnc (encoding compact)) ∧
    exec .nop (encoding compact) = .next (after .nop (encoding compact)) ∧ Instr.nop ≠ .doneEnc :=
  ⟨rfl, rfl, by decide⟩

theorem witness_StoresChangeOnlyAtTheHandle :
    exec (.mdlNewBit 3) compact = .next (after (.mdlNewBit 3) compact) ∧
    reachesCompressors (.mdlNewBit 3) = false ∧ (Instr.mdlNewBit 3).handle? ≠ some 2 ∧
    exec (.icFree 0) compact = .next (after (.icFree 0) compact) ∧ reachesModels (.icFree 0) = false ∧
    (Instr.icFree 0).handle? ≠ some 1 :=
  ⟨rfl, by decide, by decide, rfl, by decide, by decide⟩

theorem witness_CommandsLeaveTheOtherCoder :
    exec (.wrByte 1) (encoding compact) = .next (after (.wrByte 1) (encoding compact)) ∧
    modesOf (.wrByte 1) = [.encode] ∧
    exec .initDec { compact with coder := reading.coder } =
      .next (after .initDec { compact with coder := reading.coder }) ∧
    exec (.decBit 0) reading = .next (after (.decBit 0) reading) ∧ modesOf (.decBit 0) = [.decode] ∧
    exec (.mdlFree 0) reading = .next (after (.mdlFree 0) reading) ∧
    modesOf (.mdlFree 0) = [.idle, .encode, .decode] :=
  ⟨rfl, by decide, rfl, rfl, by decide, rfl, by decide⟩

theorem witness_StatusChangesOnlyAtChunkEndsAndFaults :
    exec (.wrByte 1) (encoding compact) = .next (after (.wrByte 1) (encoding compact)) ∧
    writesMode (.wrByte 1) = false ∧ (after (.wrByte 1) (encoding compact)).mode ≠ .faulted ∧
    exec .initEnc (broken compact) = .next (after .initEnc (broken compact)) ∧
    (broken compact).mode = .faulted :=
  ⟨rfl, by decide, by decide, rfl, by decide⟩

theorem witness_CarryNeverPassesTheFirstByte :
    (encoding compact).sound ∧
    exec (.wrByte 1) (encoding compact) = .next (after (.wrByte 1) (encoding compact)) :=
  ⟨by decide, rfl⟩

theorem witness_InitEncOpensAnEmptyChunk : compact.mode = .idle := by decide

theorem witness_InitDecPrimesFourBytes :
    compact.mode = .idle ∧
    ({ compact.coder with input := [9#8, 1#8, 2#8, 3#8, 4#8], inpos := 1 }).input.drop 1 =
      1#8 :: 2#8 :: 3#8 :: 4#8 :: [] ∧
    ({ compact.coder with input := [1#8, 2#8, 3#8] }).input.length < compact.coder.inpos + 4 := by decide

theorem witness_DoneEncFlushesFourBytes :
    (narrowed 0x01000000#32).sound ∧ (narrowed 0x02000000#32).sound ∧ (narrowed 0x02000001#32).sound ∧
    (narrowed 0x02000001#32).mode = .encode ∧ fits tinyConfig 5 ∧ ¬ fits tinyConfig 33 := by decide

theorem witness_DoneDecReturnsTheByteCount : reading.mode = .decode := by decide

theorem witness_RdStatusReportsAndNopDoesNothing : reading.mode ≠ .faulted := by decide

theorem witness_EncBitTakesThePartOfTheBit :
    (encoding compact).sound ∧ (encoding compact).mode = .encode ∧
    Store.find (encoding compact).ms 0 = some (.bit bitModelInit) ∧
    (0 : Word).toNat ≤ 1 ∧ (1 : Word).toNat ≤ 1 := by decide

theorem witness_DecBitReturnsTheBitOfItsPart :
    reading.sound ∧ reading.mode = .decode ∧ Store.find reading.ms 0 = some (.bit bitModelInit) := by decide

theorem witness_EncSymTakesThePartOfTheSymbol :
    (encoding compact).sound ∧ (encoding compact).mode = .encode ∧
    Store.find (encoding compact).ms 1 = some (.sym (symModelFresh 4)) ∧ (symModelFresh 4).init ∧
    (0 : Word).toNat < (symModelFresh 4).nsym ∧ (3 : Word).toNat < (symModelFresh 4).nsym := by decide

theorem witness_DecSymReturnsTheSymbolOfItsPart :
    reading.sound ∧ reading.mode = .decode ∧
    Store.find reading.ms 1 = some (.sym (symModelFresh 4)) ∧ (symModelFresh 4).init := by decide

theorem witness_ModelledCommandsCheckModelThenValue :
    (encoding compact).sound ∧ reading.sound ∧ (encoding compact).mode = .encode ∧ reading.mode = .decode ∧
    Store.find compact.ms 2 = some (.sym (symModelNew 17)) ∧ (symModelNew 17).init = false ∧
    Store.find compact.ms 1 = some (.sym (symModelFresh 4)) ∧ (symModelFresh 4).init = true ∧
    (symModelFresh 4).nsym ≤ (4 : Word).toNat ∧
    Store.find compact.ms 0 = some (.bit bitModelInit) ∧ 1 < (2 : Word).toNat := by decide

theorem witness_SlotChecksComeAfterTheMode :
    compact.mode ≠ .faulted ∧ compact.mode ∈ modesOf (.mdlFree 3) ∧ (Instr.mdlFree 3).handle? = some 3 ∧
    reachesModels (.mdlFree 3) ∧ 3 < compact.cfg.modelSlots ∧ compact.cfg.modelSlots ≤ 4 ∧
    creates (.mdlFree 3) = false ∧ Store.find compact.ms 3 = none ∧
    creates (.mdlNewBit 0) ∧ Store.find compact.ms 0 ≠ none ∧
    reachesCompressors (.icFree 3) ∧ 3 < compact.cfg.icSlots ∧ compact.cfg.icSlots ≤ 4 ∧
    Store.find compact.ics 3 = none ∧ creates (.icConfig 0 3 1 1 0) ∧
    Store.find compact.ics 0 ≠ none := by decide

theorem witness_WrBitsCodesTheField :
    (encoding compact).sound ∧ (encoding compact).mode = .encode ∧
    (0 < 1 ∨ 32 < 0) ∧ (33 < 1 ∨ 32 < 33) ∧ 2 ^ 19 ≤ (0x80000#32 : Word).toNat ∧
    ¬ 2 ^ 32 ≤ (0xFFFFFFFF#32 : Word).toNat := by decide

theorem witness_RdBitsReadsTheField : reading.sound ∧ reading.mode = .decode := by decide

theorem witness_FixedWidthWritesCodeTheirParts :
    (encoding compact).sound ∧ (encoding compact).mode = .encode := by decide

theorem witness_FixedWidthReadsReadTheirParts : reading.sound ∧ reading.mode = .decode := by decide

theorem witness_EquivalentRawCommandsAgree :
    (after (.wrInt 7) (encoding compact)).mode ≠ .faulted ∧
    exec (.wrInt 7) (encoding compact) = .next (after (.wrInt 7) (encoding compact)) ∧
    (after .rdInt reading).mode ≠ .faulted ∧ exec .rdInt reading = .next (after .rdInt reading) :=
  ⟨by decide, rfl, by decide, rfl⟩

theorem witness_FixedWidthCommandsMoveFixedBytes :
    (encoding compact).sound ∧ exec (.wrInt 7) (encoding compact) = .next (after (.wrInt 7) (encoding compact)) ∧
    (after (.wrInt 7) (encoding compact)).mode ≠ .faulted ∧ modesOf (.wrInt 7) = [.encode] ∧
    reading.sound ∧ exec .rdInt reading = .next (after .rdInt reading) ∧
    (after .rdInt reading).mode ≠ .faulted ∧ modesOf .rdInt = [.decode] :=
  ⟨by decide, rfl, by decide, by decide, by decide, rfl, by decide, by decide⟩

theorem witness_BitModelCommandsGiveTheInitialModel :
    compact.mode ≠ .faulted ∧ 3 < compact.cfg.modelSlots ∧ Store.find compact.ms 3 = none ∧
    Store.find compact.ms 0 = some (.bit bitModelInit) ∧
    Store.find compact.ms 1 = some (.sym (symModelFresh 4)) := by decide

theorem witness_MdlNewSymMakesAnUninitialisedModel :
    compact.mode ≠ .faulted ∧ 3 < compact.cfg.modelSlots ∧ Store.find compact.ms 3 = none ∧
    (1 : Word).toNat < 2 ∧ ¬ (2 : Word).toNat < 2 ∧ ¬ 2048 < (2048 : Word).toNat ∧
    2048 < (2049 : Word).toNat ∧ (16 : Word).toNat ≤ 16 ∧ 17 ≤ (17 : Word).toNat := by decide

theorem witness_MdlInitSymGivesTheInitialModel :
    compact.sound ∧ compact.mode ≠ .faulted ∧ Store.find compact.ms 0 = some (.bit bitModelInit) ∧
    Store.find compact.ms 2 = some (.sym (symModelNew 17)) := by decide

theorem witness_FreeEmptiesTheSlot :
    compact.sound ∧ compact.mode ≠ .faulted ∧ Store.find compact.ms 0 ≠ none ∧
    Store.find compact.ics 0 ≠ none ∧ (2 : Nat) ≠ 0 := by decide

theorem witness_CodingKeepsTheModelBounds :
    bitModelInit.ok ∧ (symModelNew 17).shapeOk ∧ (symModelFresh 17).readyOk ∧ 16 < (symModelFresh 17).nsym := by
  decide

/-- A bit model at its last bit, with the total and the bit-0 count given. -/
def lastBit (b0 count cycle : Word) : BitModel := ⟨4096, b0, count, cycle, 1⟩

theorem witness_BitModelUpdateFollowsItsFormula :
    (lastBit 1 8128 64).ok ∧ (lastBit 1 8128 64).count.toNat + (lastBit 1 8128 64).cycle.toNat ≤ 2 ^ 13 ∧
    (lastBit 1 8129 64).ok ∧ 2 ^ 13 < (lastBit 1 8129 64).count.toNat + (lastBit 1 8129 64).cycle.toNat ∧
    (lastBit 8192 8190 4).ok ∧ (8192 + 1 + 1) / 2 = (8190 + 4 + 1) / 2 ∧
    (lastBit 1 8128 64).remaining = 1 ∧ bitModelInit.remaining ≠ 1 := by decide

/-- A symbol model of two symbols at its last symbol, with the total given. -/
def lastSymbol (total : Word) : SymModel :=
  { symModelFresh 2 with cnt := [total + 3, 1], total := total, cycle := 5, remaining := 1 }

theorem witness_SymModelUpdateFollowsItsFormula :
    (symModelFresh 2).readyOk ∧ (symModelFresh 2).remaining ≠ 1 ∧ 0 < (symModelFresh 2).nsym ∧
    (lastSymbol 32763).readyOk ∧ (lastSymbol 32763).remaining = 1 ∧
    ¬ 2 ^ 15 < (((lastSymbol 32763).cnt.modify 0 (fun c => c + 1)).map BitVec.toNat).sum ∧
    (lastSymbol 32764).readyOk ∧ (lastSymbol 32764).remaining = 1 ∧
    2 ^ 15 < (((lastSymbol 32764).cnt.modify 0 (fun c => c + 1)).map BitVec.toNat).sum := by decide

theorem witness_TableSearchFindsTheSymbol :
    (symModelFresh 17).readyOk ∧ (symModelFresh 16).readyOk ∧
    2 ^ 24 ≤ (⟨2 ^ 24 + 32766, 2 ^ 24 + 32767, 4⟩ : Window).width ∧
    (⟨2 ^ 24 + 32766, 2 ^ 24 + 32767, 4⟩ : Window).value < 2 ^ 24 + 32767 ∧
    2 ^ 24 + 32767 < 2 ^ 32 := by decide

/-- The encoder at the start of a chunk, and a decoder at the start of the chunk 41 00 00 00 00. -/
def startEnc : Coder := Coder.reset

def startDec : Coder :=
  { Coder.reset with value := 0x41000000#32, input := [0x41#8, 0, 0, 0, 0], inpos := 4, icount := 4 }

theorem witness_CodingStepsDecodeToWhatWasCoded :
    ∃ c1 c2 c3 m2 m3, startEnc.ok .encode ∧ synced startEnc startDec 0 ∧
      encRaw none 8 0x41 startEnc = .ok c1 ∧ leadsInto (startDec.input.drop 0) c1 ∧
      encBitM none startEnc bitModelInit false = .ok (c2, m2) ∧ leadsInto (startDec.input.drop 0) c2 ∧
      bitModelInit.ok ∧
      encSymM none startEnc (symModelFresh 4) 1 = .ok (c3, m3) ∧ leadsInto (startDec.input.drop 0) c3 ∧
      (symModelFresh 4).readyOk := by
  refine ⟨_, _, _, _, _, by decide, by unfold synced; decide, rfl, by unfold leadsInto; decide, rfl,
    by unfold leadsInto; decide, by decide, rfl, by unfold leadsInto; decide, by decide⟩

/-- Commands of every kind inside a chunk, and the commands that mirror them. -/
def writes : List Instr :=
  [.mdlInitBit 0, .encBit 0 1, .encSym 1 2, .icCompress 0 1 2 0, .icGetK 0, .nop, .rdStatus, .wrByte 0x5A#8]

def reads : List (Instr × Option DWord) :=
  [(.mdlInitBit 0, none), (.decBit 0, some 1), (.decSym 1, some 2), (.icDecompress 0 1 0, some 2),
   (.icGetK 0, some 0), (.nop, none), (.rdStatus, none), (.rdByte, some 0x5A#64)]

/-- The state before the commands, after them, and after DONE_ENC. -/
def opened : State := after .initEnc compact

def coded : State := (runAll writes opened).getD compact

def written : State := after .doneEnc coded

/-- A decoder that finds the chunk behind one byte and before another. -/
def reader : State :=
  { compact with coder := { Coder.reset with
      input := [0xAA#8] ++ written.outstream ++ [0x55#8], inpos := 1 } }

theorem witness_ChunkDecodesToWhatWasCoded :
    compact.sound ∧ compact.mode = .idle ∧ runAll [.initEnc] compact = some opened ∧
    runAll writes opened = some coded ∧ runAll [.doneEnc] coded = some written ∧
    mirrorAll writes opened = some reads ∧
    written.outstream = compact.outstream ++ written.outstream ∧
    reader.sound ∧ reader.mode = .idle ∧ reader.ms = compact.ms ∧ reader.ics = compact.ics ∧
    compact.cfg = { reader.cfg with outCapacity := compact.cfg.outCapacity } ∧
    reader.coder.input = [0xAA#8] ++ written.outstream ++ [0x55#8] ∧
    reader.coder.inpos = [0xAA#8].length ∧ written.outstream.length < 2 ^ 32 :=
  ⟨by decide, by decide, by decide, by decide, by decide, by decide, by decide, by decide, by decide,
    by decide, by decide, by decide, by decide, by decide, by decide⟩

theorem witness_IcConfigDerivesItsConstants :
    compact.mode ≠ .faulted ∧ 3 < compact.cfg.icSlots ∧ Store.find compact.ics 3 = none ∧
    (1 : Word) ≠ 0 ∧ (0xFFFFFFFF#32 : Word) ≠ 0 ∧ 0 < 1 ∧ 31 < 32 ∧ 32 ≤ 32 := by decide

theorem witness_IcInitBuildsTheModelSet :
    compact.sound ∧ compact.mode ≠ .faulted ∧ Store.find compact.ics 1 = some smallIc ∧
    smallIc.corrBits = 3 := by decide

theorem witness_IcGetKReturnsTheLastExponent :
    compact.mode ≠ .faulted ∧ 1 < compact.cfg.icSlots ∧ Store.find compact.ics 1 = some smallIc := by decide

theorem witness_CompressorChecksContextThenReadiness :
    (encoding compact).sound ∧ reading.sound ∧ Store.find compact.ics 1 = some smallIc ∧
    smallIc.contexts ≤ (2 : Word).toNat ∧ (1 : Word).toNat < smallIc.contexts ∧ smallIc.models = none ∧
    (encoding compact).mode = .encode ∧ reading.mode = .decode := by decide

/-- The ready compressor of `compact`: correctors of class 0 (a bit), 1 (a symbol), 2 and 3 (a symbol and raw
bits). -/
def readyIc : IcRec := { smallIc with models := some (icInitModels smallIc) }

theorem witness_IcCompressCodesTheCorrector :
    (encoding compact).sound ∧ (encoding compact).mode = .encode ∧
    Store.find compact.ics 0 = some readyIc ∧ readyIc.models = some (icInitModels smallIc) ∧
    (1 : Word).toNat < readyIc.contexts ∧
    kClass (foldedCorrector readyIc 0 1) = 0 ∧ kClass (foldedCorrector readyIc 0 2) = 1 ∧
    kClass (foldedCorrector readyIc 0 3) = 2 ∧ kClass (foldedCorrector readyIc 0 4) = 3 ∧
    readyIc.corrBits < kClass (foldedCorrector readyIc 0 100) := by decide

/-- A corrector that one fold leaves outside the range, of a class that is not above `corr_bits`
(log entry 14). -/
theorem test_icFold_outside_the_range :
    icFold (icDerive 16 1 8 0) 0 131072 = 65536 ∧ kClass 65536 = 16 ∧
    kClass (icFold (icDerive 16 1 8 0) 0 200000) = 18 := by decide

theorem witness_IcDecompressReadsTheCorrector :
    reading.sound ∧ reading.mode = .decode ∧ Store.find reading.ics 0 = some readyIc ∧
    readyIc.models = some (icInitModels smallIc) ∧ (1 : Word).toNat < readyIc.contexts := by decide

/-- A ready compressor of the given width, with one context (3 bits: case 2 of R314; 0 bits: case 1). -/
def icOf (bits : Nat) : IcRec := { icDerive bits 1 1 0 with models := some (icInitModels (icDerive bits 1 1 0)) }

def compressing (bits : Nat) : State := encoding { compact with ics := [(0, icOf bits)] }

/-- The chunk that compressing 1 against 1 gives, and a decoder at its start. -/
def decompressing (bits : Nat) : State :=
  decoding { compact with ics := [(0, icOf bits)] }
    (after .doneEnc (after (.icCompress 0 1 1 0) (compressing bits))).outstream

theorem witness_DecompressInvertsCompress_range :
    (compressing 3).sound ∧ (compressing 3).mode = .encode ∧ Store.find (compressing 3).ics 0 = some (icOf 3) ∧
    exec (.icCompress 0 1 1 0) (compressing 3) = .next (after (.icCompress 0 1 1 0) (compressing 3)) ∧
    (after (.icCompress 0 1 1 0) (compressing 3)).mode ≠ .faulted ∧
    (decompressing 3).sound ∧ (decompressing 3).mode = .decode ∧
    Store.find (decompressing 3).ics 0 = some (icOf 3) ∧
    synced (compressing 3).coder (decompressing 3).coder 0 ∧
    leadsInto ((decompressing 3).coder.input.drop 0) (after (.icCompress 0 1 1 0) (compressing 3)).coder ∧
    invertible (icOf 3) 1 1 ∧ (icOf 3).corrRange ≠ 0 :=
  ⟨by decide, by decide, by decide, rfl, by decide, by decide, by decide, by decide,
    by unfold synced; decide, by unfold leadsInto; decide, by decide, by decide⟩

theorem witness_DecompressInvertsCompress_no_range :
    (compressing 0).sound ∧ (compressing 0).mode = .encode ∧ Store.find (compressing 0).ics 0 = some (icOf 0) ∧
    exec (.icCompress 0 1 1 0) (compressing 0) = .next (after (.icCompress 0 1 1 0) (compressing 0)) ∧
    (after (.icCompress 0 1 1 0) (compressing 0)).mode ≠ .faulted ∧
    (decompressing 0).sound ∧ (decompressing 0).mode = .decode ∧
    Store.find (decompressing 0).ics 0 = some (icOf 0) ∧
    synced (compressing 0).coder (decompressing 0).coder 0 ∧
    leadsInto ((decompressing 0).coder.input.drop 0) (after (.icCompress 0 1 1 0) (compressing 0)).coder ∧
    invertible (icOf 0) 1 1 ∧ (icOf 0).corrRange = 0 :=
  ⟨by decide, by decide, by decide, rfl, by decide, by decide, by decide, by decide,
    by unfold synced; decide, by unfold leadsInto; decide, by decide, by decide⟩

theorem witness_KClassIsTheSmallestClass :
    (-(2 ^ 31) : Int) ≤ -(2 ^ 31) ∧ (-(2 ^ 31) : Int) < 2 ^ 31 ∧ ((2 ^ 31 - 1 : Int)) < 2 ^ 31 ∧
    (0 : Nat) < kClass (-(2 ^ 31)) := by decide

theorem witness_CorrectorAdjustmentIsInvertible :
    kClass 0 = 0 ∧ kClass 1 = 0 ∧ kClass (-(2 ^ 31)) = 32 ∧ kClass 2 = 1 ∧ kClass (-1) = 1 ∧
    kClass (2 ^ 31 - 1) = 31 ∧ kClass (1 - 2 ^ 31) = 31 ∧ 2 ^ 31 - 1 < 2 ^ 31 := by
  decide

theorem witness_UnfoldReturnsTheFoldedValue :
    (icDerive 32 1 8 0).corrRange = 0 ∧ (icDerive 16 1 8 0).corrRange.toNat ≤ 0x55555556 ∧
    (icDerive 0 1 8 0x55555556#32).corrRange.toNat ≤ 0x55555556 ∧
    (icDerive 31 1 8 0).corrRange.toNat = 2 ^ 31 ∧
    (0 : Int) ≤ 0 ∧ (2 ^ 31 - 1 : Int) < (icDerive 31 1 8 0).corrRange.toNat := by decide

end Sys2Proof.Tests
end

section
/-! PROOF. The state after reset is sound (10_state.md R53): each condition of soundness at reset. -/

namespace Sys2Proof.Machine

/-- The largest parameters are allowed ones (00_scope.md R10). -/
theorem largestConfig_ok : Config.largest.ok := by decide

/-- An empty output buffer is within every capacity. -/
theorem fits_zero (g : Config) : fits g 0 := by
  cases hcap : g.outCapacity with
  | none => simp [fits, hcap]
  | some cap => simp [fits, hcap]

/-- After reset no fault is recorded, and the mode is not FAULTED. -/
theorem State.recordOk_resetWith (g : Config) : (State.resetWith g).recordOk := by
  simp [State.recordOk]

/-- The coder registers after reset are those of no open chunk: `OUTBUF` is empty. -/
theorem Coder.ok_reset : Coder.reset.ok .idle := by decide

/-- A block with allowed parameters is sound after reset: the parameters are the one condition that the reset
values do not settle. -/
theorem State.sound_resetWith {g : Config} (hg : g.ok) : (State.resetWith g).sound := by
  obtain ⟨hms, hics⟩ := Store.wf_reset g
  have hinpos : Coder.reset.inpos ≤ Coder.reset.input.length := Nat.le_refl 0
  exact (State.sound_iff _).2 ⟨hg, State.recordOk_resetWith g, Coder.ok_reset, fits_zero g, hinpos,
    hms, List.forall_mem_nil _, hics, List.forall_mem_nil _⟩

/-- Settles O10: the soundness of reset for all allowed parameters, and the largest parameters are allowed. -/
theorem resetStateIsSound : Obligations.ResetStateIsSound :=
  ⟨State.sound_resetWith largestConfig_ok, fun _ hg => State.sound_resetWith hg⟩

end Sys2Proof.Machine
end

section
/-! PROOF. What the coding procedures keep, in every state: an encoder's procedure never touches the input side
of the coder, a decoder's never the output side, and no fault they raise has the code 0 (10_state.md R32, R34,
R50; 60_exceptions.md R401). -/

namespace Sys2Proof.Machine

/-! ## Every answer of a piece of pseudocode -/

/-- Every answer of `r`: a value with the property `P`, a fault of the block with a code of its own, or a stop
of the model. -/
def Answers {α : Type} (r : Res α) (P : α → Prop) : Prop :=
  (∀ a, r = .ok a → P a) ∧ r ≠ raise .none

theorem answers_ok {α : Type} {P : α → Prop} {a : α} (h : P a) : Answers (.ok a) P :=
  ⟨fun _ hb => Except.ok.inj hb ▸ h, fun hb => raise_ne_ok _ _ hb.symm⟩

theorem answers_raise {α : Type} {P : α → Prop} {code : FaultCode} (h : code ≠ .none) :
    Answers (raise code) P :=
  ⟨fun _ hb => absurd hb (raise_ne_ok _ _), fun hb => h (by simpa [raise] using hb)⟩

theorem answers_stuck {α : Type} {P : α → Prop} (reason : Fault) : Answers (stuck reason) P :=
  ⟨fun _ hb => absurd hb (stuck_ne_ok _ _), fun hb => by simp [raise, stuck] at hb⟩

/-- A sequence: the second part may use what the first one answered. -/
theorem answers_bind {α β : Type} {r : Res α} {f : α → Res β} {P : α → Prop} {Q : β → Prop}
    (hr : Answers r P) (hf : ∀ a, r = .ok a → P a → Answers (f a) Q) : Answers (r >>= f) Q := by
  cases r with
  | ok a => exact hf a rfl (hr.1 a rfl)
  | error e => exact ⟨fun _ hb => (nomatch hb), fun hb => hr.2 (by simpa [raise] using hb)⟩

theorem answers_mono {α : Type} {r : Res α} {P Q : α → Prop} (hr : Answers r P) (h : ∀ a, P a → Q a) :
    Answers r Q :=
  ⟨fun a ha => h a (hr.1 a ha), hr.2⟩

/-- A choice between two procedures. -/
theorem answers_ite {α : Type} {c : Prop} [Decidable c] {r q : Res α} {P : α → Prop}
    (hr : c → Answers r P) (hq : ¬ c → Answers q P) : Answers (if c then r else q) P := by
  split
  · exact hr ‹_›
  · exact hq ‹_›

/-! ## The output side -/

/-- The input side of the coder is as it was. -/
def KeepsInput (c c' : Coder) : Prop :=
  c'.value = c.value ∧ c'.input = c.input ∧ c'.inpos = c.inpos ∧ c'.icount = c.icount

theorem KeepsInput.refl (c : Coder) : KeepsInput c c := ⟨rfl, rfl, rfl, rfl⟩

theorem KeepsInput.trans {a b c : Coder} (h : KeepsInput a b) (h' : KeepsInput b c) : KeepsInput a c :=
  ⟨h'.1.trans h.1, h'.2.1.trans h.2.1, h'.2.2.1.trans h.2.2.1, h'.2.2.2.trans h.2.2.2⟩

/-- An encoder's procedure that goes on from a coder with the input side of `c`. -/
theorem answers_keepsInput_trans {c d : Coder} {r : Res Coder} (h : KeepsInput c d)
    (hr : Answers r (KeepsInput d)) : Answers r (KeepsInput c) :=
  answers_mono hr fun _ => h.trans

theorem outPush_keepsInput (cap : Option Nat) (b : Byte) (c : Coder) :
    Answers (outPush cap b c) (KeepsInput c) := by
  cases cap with
  | none => exact answers_ok ⟨rfl, rfl, rfl, rfl⟩
  | some n => exact answers_ite (fun _ => answers_raise (by decide)) fun _ => answers_ok ⟨rfl, rfl, rfl, rfl⟩

theorem outZeros_keepsInput (cap : Option Nat) (n : Nat) (c : Coder) :
    Answers (outZeros cap n c) (KeepsInput c) := by
  induction n generalizing c with
  | zero => exact answers_ok (KeepsInput.refl c)
  | succ n ih =>
    exact answers_bind (outPush_keepsInput cap 0 c) fun d _ hd => answers_keepsInput_trans hd (ih d)

theorem addBase_keepsInput (x : Word) (c : Coder) : Answers (addBase x c) (KeepsInput c) := by
  refine answers_ite (fun _ => ?_) fun _ => answers_ok ⟨rfl, rfl, rfl, rfl⟩
  unfold propagateCarry
  split
  · exact answers_raise (by decide)
  · exact answers_ok ⟨rfl, rfl, rfl, rfl⟩

theorem renormEncLoop_keepsInput (cap : Option Nat) (fuel : Nat) (c : Coder) :
    Answers (renormEncLoop cap fuel c) (KeepsInput c) := by
  induction fuel generalizing c with
  | zero => exact answers_stuck _
  | succ fuel ih =>
    exact answers_bind (outPush_keepsInput cap _ c) fun d _ hd =>
      answers_keepsInput_trans (show KeepsInput c _ from hd)
        (answers_ite (fun _ => answers_ok (KeepsInput.refl _)) fun _ => ih _)

theorem renormEncIfShort_keepsInput (cap : Option Nat) (c : Coder) :
    Answers (renormEncIfShort cap c) (KeepsInput c) :=
  answers_ite (fun _ => renormEncLoop_keepsInput cap 4 c) fun _ => answers_ok (KeepsInput.refl c)

theorem encRaw_keepsInput (cap : Option Nat) (n v : Nat) (c : Coder) :
    Answers (encRaw cap n v c) (KeepsInput c) :=
  answers_bind (addBase_keepsInput _ { c with length := c.length >>> n }) fun d _ hd =>
    answers_keepsInput_trans hd (renormEncIfShort_keepsInput cap d)

theorem encBits_keepsInput (cap : Option Nat) (n v : Nat) (c : Coder) :
    Answers (encBits cap n v c) (KeepsInput c) :=
  answers_ite
    (fun _ => answers_bind (encRaw_keepsInput cap 16 _ c) fun d _ hd =>
      answers_keepsInput_trans hd (encRaw_keepsInput cap _ _ d))
    fun _ => encRaw_keepsInput cap n v c

theorem encWord_keepsInput (cap : Option Nat) (v : Nat) (c : Coder) :
    Answers (encWord cap v c) (KeepsInput c) :=
  answers_bind (encRaw_keepsInput cap 16 _ c) fun d _ hd =>
    answers_keepsInput_trans hd (encRaw_keepsInput cap 16 _ d)

theorem encDWord_keepsInput (cap : Option Nat) (v : Nat) (c : Coder) :
    Answers (encDWord cap v c) (KeepsInput c) :=
  answers_bind (encRaw_keepsInput cap 16 _ c) fun d _ hd =>
    answers_keepsInput_trans hd (answers_bind (encRaw_keepsInput cap 16 _ d) fun e _ he =>
      answers_keepsInput_trans he (answers_bind (encRaw_keepsInput cap 16 _ e) fun f _ hf =>
        answers_keepsInput_trans hf (encRaw_keepsInput cap 16 _ f)))

theorem encBitM_keepsInput (cap : Option Nat) (c : Coder) (m : BitModel) (b : Bool) :
    Answers (encBitM cap c m b) (fun r => KeepsInput c r.1) := by
  have renormed {d : Coder} (hd : KeepsInput c d) : Answers (do
      let e ← renormEncIfShort cap d
      .ok (e, bitModelCoded m b)) (fun r : Coder × BitModel => KeepsInput c r.1) :=
    answers_bind (answers_keepsInput_trans hd (renormEncIfShort_keepsInput cap d)) fun _ _ he => answers_ok he
  exact answers_ite
    (fun _ => answers_bind (addBase_keepsInput (bitSplit c m) c) fun d _ hd =>
      renormed (show KeepsInput c { d with length := d.length - bitSplit c m } from hd))
    fun _ => renormed (show KeepsInput c { c with length := bitSplit c m } from KeepsInput.refl c)

/-- A look into a record's list answers an entry or stops the model. -/
theorem entry_answers (l : List Word) (i : Nat) : Answers (entry l i) (fun _ => True) := by
  unfold entry
  split
  · exact answers_stuck _
  · exact answers_ok trivial

theorem symLow_answers (c : Coder) (m : SymModel) (s : Nat) : Answers (symLow c m s) (fun _ => True) :=
  answers_bind (entry_answers _ _) fun _ _ _ => answers_ok trivial

theorem symHigh_answers (c : Coder) (m : SymModel) (s : Nat) : Answers (symHigh c m s) (fun _ => True) :=
  answers_ite (fun _ => answers_ok trivial)
    fun _ => answers_bind (entry_answers _ _) fun _ _ _ => answers_ok trivial

theorem encSymM_keepsInput (cap : Option Nat) (c : Coder) (m : SymModel) (s : Nat) :
    Answers (encSymM cap c m s) (fun r => KeepsInput c r.1) :=
  answers_bind (symLow_answers c m s) fun x _ _ => answers_bind (symHigh_answers c m s) fun y _ _ =>
    answers_bind (addBase_keepsInput x c) fun d _ hd =>
      answers_bind (answers_keepsInput_trans (show KeepsInput c { d with length := y - x } from hd)
        (renormEncIfShort_keepsInput cap _)) fun _ _ he => answers_ok he

theorem flushEnc_keepsInput (cap : Option Nat) (c : Coder) :
    Answers (flushEnc cap c) (KeepsInput c) := by
  have flushed (x len : Word) (n : Nat) : Answers (do
      let d ← addBase x c
      let d ← renormEnc cap { d with length := len }
      outZeros cap n d) (KeepsInput c) :=
    answers_bind (addBase_keepsInput x c) fun d _ hd =>
      answers_bind (answers_keepsInput_trans (show KeepsInput c { d with length := len } from hd)
        (renormEncLoop_keepsInput cap 4 _)) fun e _ he =>
          answers_keepsInput_trans he (outZeros_keepsInput cap n e)
  exact answers_ite (fun _ => flushed _ _ 3) fun _ => flushed _ _ 2

theorem icModel_answers (l : List SymModel) (i : Nat) : Answers (icModel l i) (fun _ => True) := by
  unfold icModel
  split
  · exact answers_stuck _
  · exact answers_ok trivial

theorem writeBucket_keepsInput (cap : Option Nat) (bitsHigh k : Nat) (corr : Int) (c : Coder)
    (ms : IcModels) : Answers (writeBucket cap bitsHigh k corr c ms) (fun r => KeepsInput c r.1) :=
  answers_bind (icModel_answers _ _) fun q _ _ => answers_ite
    (fun _ => answers_bind (encSymM_keepsInput cap c q _) fun _ _ hd => answers_ok hd)
    fun _ => answers_bind (encSymM_keepsInput cap c q _) fun r _ hd =>
      answers_bind (answers_keepsInput_trans hd (encBits_keepsInput cap _ _ r.1))
        fun _ _ he => answers_ok he

theorem writeCorrector_keepsInput (cap : Option Nat) (c : Coder) (ic : IcRec) (ms : IcModels) (ctx : Nat)
    (corr : Int) : Answers (writeCorrector cap c ic ms ctx corr) (fun r => KeepsInput c r.1) :=
  answers_bind (icModel_answers _ _) fun m _ _ => answers_ite (fun _ => answers_raise (by decide)) fun _ =>
    answers_bind (encSymM_keepsInput cap c m _) fun r _ hr => answers_ite
      (fun _ => answers_bind (encBitM_keepsInput cap r.1 _ _) fun _ _ hd => answers_ok (hr.trans hd))
      fun _ => answers_ite
        (fun _ => answers_bind (writeBucket_keepsInput cap _ _ corr r.1 _) fun _ _ hd =>
          answers_ok (hr.trans hd))
        fun _ => answers_ok hr

/-! ## The input side -/

/-- The output side of the coder, and the bytes of the input, are as they were. -/
def KeepsOutput (c c' : Coder) : Prop :=
  c'.base = c.base ∧ c'.outbuf = c.outbuf ∧ c'.input = c.input

theorem KeepsOutput.refl (c : Coder) : KeepsOutput c c := ⟨rfl, rfl, rfl⟩

theorem KeepsOutput.trans {a b c : Coder} (h : KeepsOutput a b) (h' : KeepsOutput b c) : KeepsOutput a c :=
  ⟨h'.1.trans h.1, h'.2.1.trans h.2.1, h'.2.2.trans h.2.2⟩

theorem inPop_keepsOutput (c : Coder) : Answers (inPop c) (fun r => KeepsOutput c r.2) := by
  unfold inPop
  split
  · exact answers_raise (by decide)
  · exact answers_ok ⟨rfl, rfl, rfl⟩

theorem primeDec_keepsOutput (c : Coder) : Answers (primeDec c) (KeepsOutput c) :=
  answers_bind (inPop_keepsOutput { c with length := maxLen, icount := 0 }) fun _ _ h0 =>
    answers_bind (inPop_keepsOutput _) fun _ _ h1 => answers_bind (inPop_keepsOutput _) fun _ _ h2 =>
      answers_bind (inPop_keepsOutput _) fun _ _ h3 =>
        answers_ok (show KeepsOutput c _ from ((h0.trans h1).trans h2).trans h3)

theorem renormDecLoop_keepsOutput (fuel : Nat) (c : Coder) :
    Answers (renormDecLoop fuel c) (KeepsOutput c) := by
  have shifted (c : Coder) : Answers (shiftIn c) (KeepsOutput c) :=
    answers_bind (inPop_keepsOutput c) fun _ _ h => answers_ok h
  induction fuel generalizing c with
  | zero => exact answers_stuck _
  | succ fuel ih =>
    exact answers_bind (shifted c) fun d _ hd => answers_ite (fun _ => answers_ok hd) fun _ =>
      answers_mono (ih _) fun _ => KeepsOutput.trans (show KeepsOutput c _ from hd)

theorem renormDecIfShort_keepsOutput (c : Coder) : Answers (renormDecIfShort c) (KeepsOutput c) :=
  answers_ite (fun _ => renormDecLoop_keepsOutput 4 c) fun _ => answers_ok (KeepsOutput.refl c)

theorem decRaw_keepsOutput (n : Nat) (c : Coder) :
    Answers (decRaw n c) (fun r => KeepsOutput c r.2) :=
  answers_ite (fun _ => answers_stuck _) fun _ =>
    answers_bind (renormDecIfShort_keepsOutput
      { c with
        length := c.length >>> n
        value := c.value - u32 (c.value.toNat / (c.length >>> n).toNat * (c.length >>> n).toNat) })
      fun _ _ hd => answers_ite (fun _ => answers_raise (by decide)) fun _ => answers_ok hd

theorem decBits_keepsOutput (n : Nat) (c : Coder) :
    Answers (decBits n c) (fun r => KeepsOutput c r.2) :=
  answers_ite
    (fun _ => answers_bind (decRaw_keepsOutput 16 c) fun r _ hr =>
      answers_bind (decRaw_keepsOutput _ r.2) fun _ _ hd => answers_ok (hr.trans hd))
    fun _ => decRaw_keepsOutput n c

theorem decWord_keepsOutput (c : Coder) : Answers (decWord c) (fun r => KeepsOutput c r.2) :=
  answers_bind (decRaw_keepsOutput 16 c) fun r _ h0 =>
    answers_bind (decRaw_keepsOutput 16 r.2) fun _ _ h1 => answers_ok (h0.trans h1)

theorem decDWord_keepsOutput (c : Coder) : Answers (decDWord c) (fun r => KeepsOutput c r.2) :=
  answers_bind (decRaw_keepsOutput 16 c) fun r _ h0 =>
    answers_bind (decRaw_keepsOutput 16 r.2) fun r _ h1 =>
      answers_bind (decRaw_keepsOutput 16 r.2) fun r _ h2 =>
        answers_bind (decRaw_keepsOutput 16 r.2) fun _ _ h3 =>
          answers_ok (((h0.trans h1).trans h2).trans h3)

theorem decBitM_keepsOutput (c : Coder) (m : BitModel) :
    Answers (decBitM c m) (fun r => KeepsOutput c r.2.1) := by
  refine answers_bind (answers_mono (renormDecIfShort_keepsOutput _) fun _ => KeepsOutput.trans ?_)
    fun _ _ hd => answers_ok hd
  split <;> exact KeepsOutput.refl c

theorem decSymM_keepsOutput (c : Coder) (m : SymModel) :
    Answers (decSymM c m) (fun r => KeepsOutput c r.2.1) := by
  unfold decSymM
  split
  · exact answers_stuck _
  · rename_i s _
    exact answers_bind (symLow_answers c m s) fun x _ _ =>
      answers_bind (symHigh_answers c m s) fun y _ _ =>
        answers_bind (renormDecIfShort_keepsOutput { c with value := c.value - x, length := y - x })
          fun _ _ hd => answers_ok hd

theorem readBucket_keepsOutput (bitsHigh k : Nat) (c : Coder) (ms : IcModels) :
    Answers (readBucket bitsHigh k c ms) (fun r => KeepsOutput c r.2.1) :=
  answers_bind (icModel_answers _ _) fun q _ _ => answers_ite
    (fun _ => answers_bind (decSymM_keepsOutput c q) fun _ _ hd => answers_ok hd)
    fun _ => answers_bind (decSymM_keepsOutput c q) fun r _ hr =>
      answers_bind (decBits_keepsOutput _ r.2.1) fun _ _ hd => answers_ok (hr.trans hd)

theorem readCorrector_keepsOutput (c : Coder) (ic : IcRec) (ms : IcModels) (ctx : Nat) :
    Answers (readCorrector c ic ms ctx) (fun r => KeepsOutput c r.2.1) :=
  answers_bind (icModel_answers _ _) fun m _ _ =>
    answers_bind (decSymM_keepsOutput c m) fun r _ hr => answers_ite
      (fun _ => answers_bind (decBitM_keepsOutput r.2.1 _) fun _ _ hd => answers_ok (hr.trans hd))
      fun _ => answers_ite
        (fun _ => answers_bind (readBucket_keepsOutput _ _ r.2.1 _) fun _ _ hd => answers_ok (hr.trans hd))
        fun _ => answers_ok hr

end Sys2Proof.Machine
end

section
/-! PROOF. Everything a command can do, said once: it is ignored, it faults, or it completes with the effect
`Completes` lists for it. What it leaves unchanged follows by cases on that (10_state.md R31-R39, R54). -/

namespace Sys2Proof.Machine

/-! ## Completed commands -/

/-- The coding procedure of a raw write whose width and value are in range (41_raw_fields.md R204-R216). -/
def rawWriter (cap : Option Nat) : Instr → Option (Coder → Res Coder)
  | .wrBits n v => if n < 1 ∨ 32 < n ∨ 2 ^ n ≤ v.toNat then none else some (encBits cap n v.toNat)
  | .wrByte v => some (encRaw cap 8 v.toNat)
  | .wrShort v => some (encRaw cap 16 v.toNat)
  | .wrInt v => some (encWord cap v.toNat)
  | .wrInt64 v => some (encDWord cap v.toNat)
  | .wrFloat v => some (encWord cap v.toNat)
  | .wrDouble v => some (encDWord cap v.toNat)
  | _ => none

/-- The decoding procedure of a raw read whose width is in range (41_raw_fields.md R205-R217). -/
def rawReader : Instr → Option (Coder → Res (Nat × Coder))
  | .rdBits n => if n < 1 ∨ 32 < n then none else some (decBits n)
  | .rdByte => some (decRaw 8)
  | .rdShort => some (decRaw 16)
  | .rdInt => some decWord
  | .rdInt64 => some decDWord
  | .rdFloat => some decWord
  | .rdDouble => some decDWord
  | _ => none

/-- What a command that completes leaves, before `CCOUNT` advances: `Completes s i u` says that `i` takes `s`
to `u` in a mode of its row. Tied to the model by `exec_ends` and `exec_of_completes`. -/
inductive Completes (s : State) : Instr → State → Prop
  | initEnc : Completes s .initEnc
      { s with coder := { s.coder with base := 0, length := maxLen, outbuf := [] }, mode := .encode }
  | initDec {c : Coder} (hc : primeDec s.coder = .ok c) :
      Completes s .initDec { s with coder := c, mode := .decode }
  | doneEnc {c : Coder} (hc : flushEnc s.cfg.outCapacity s.coder = .ok c) :
      Completes s .doneEnc { s with
        coder := { c with outbuf := [] }, outstream := s.outstream ++ c.outbuf, mode := .idle
        res := zext64 c.outbuf.length }
  | doneDec : Completes s .doneDec { s with mode := .idle, res := zext64 s.coder.icount.toNat }
  | rdStatus : Completes s .rdStatus { s with res := s.statusPair }
  | nop : Completes s .nop s
  | encBit {h : Nat} {bit : Word} {m m' : BitModel} {c : Coder} (hm : getBit s h = .ok m)
      (hb : bit.toNat ≤ 1)
      (hc : encBitM s.cfg.outCapacity s.coder m (decide (bit = 1)) = .ok (c, m')) :
      Completes s (.encBit h bit) { s with coder := c, ms := Store.put s.ms h (.bit m') }
  | decBit {h : Nat} {m m' : BitModel} {b : Bool} {c : Coder} (hm : getBit s h = .ok m)
      (hc : decBitM s.coder m = .ok (b, c, m')) :
      Completes s (.decBit h)
        { s with coder := c, ms := Store.put s.ms h (.bit m'), res := zext64 b.toNat }
  | encSym {h : Nat} {sym : Word} {m m' : SymModel} {c : Coder} (hm : getReadySym s h = .ok m)
      (hs : sym.toNat ≤ m.last) (hc : encSymM s.cfg.outCapacity s.coder m sym.toNat = .ok (c, m')) :
      Completes s (.encSym h sym) { s with coder := c, ms := Store.put s.ms h (.sym m') }
  | decSym {h v : Nat} {m m' : SymModel} {c : Coder} (hm : getReadySym s h = .ok m)
      (hc : decSymM s.coder m = .ok (v, c, m')) :
      Completes s (.decSym h) { s with coder := c, ms := Store.put s.ms h (.sym m'), res := zext64 v }
  | write {i : Instr} {r : Coder → Res Coder} {c : Coder}
      (hr : rawWriter s.cfg.outCapacity i = some r) (hc : r s.coder = .ok c) :
      Completes s i { s with coder := c }
  | read {i : Instr} {r : Coder → Res (Nat × Coder)} {v : Nat} {c : Coder} (hr : rawReader i = some r)
      (hc : r s.coder = .ok (v, c)) : Completes s i { s with coder := c, res := zext64 v }
  | mdlNewBit {h : Nat} (he : needEmptySlot s h = .ok ()) :
      Completes s (.mdlNewBit h) { s with ms := Store.put s.ms h (.bit bitModelInit) }
  | mdlNewSym {h : Nat} {nsym : Word} (he : needEmptySlot s h = .ok ())
      (hn : nsymMin ≤ nsym.toNat ∧ nsym.toNat ≤ nsymMax) :
      Completes s (.mdlNewSym h nsym) { s with ms := Store.put s.ms h (.sym (symModelNew nsym.toNat)) }
  | mdlInitBit {h : Nat} {m : BitModel} (hm : getBit s h = .ok m) :
      Completes s (.mdlInitBit h) { s with ms := Store.put s.ms h (.bit bitModelInit) }
  | mdlInitSym {h : Nat} {m : SymModel} (hm : getSym s h = .ok m) :
      Completes s (.mdlInitSym h) { s with ms := Store.put s.ms h (.sym (symModelInit m)) }
  | mdlFree {h : Nat} {m : Slot} (hm : getSlot s h = .ok m) :
      Completes s (.mdlFree h) { s with ms := Store.drop s.ms h }
  | icConfig {h bits : Nat} {contexts bitsHigh range : Word} (he : needEmptyIc s h = .ok ())
      (hv : icValid s.cfg.maxIcContexts (icDerive bits contexts.toNat bitsHigh range) = true) :
      Completes s (.icConfig h bits contexts bitsHigh range)
        { s with ics := Store.put s.ics h (icDerive bits contexts.toNat bitsHigh range) }
  | icInit {h : Nat} {ic : IcRec} (hi : getIc s h = .ok ic) :
      Completes s (.icInit h)
        { s with ics := Store.put s.ics h { ic with models := some (icInitModels ic) } }
  | icCompress {h : Nat} {pred real context : Word} {ic ic' : IcRec} {ms : IcModels} {c : Coder}
      (hi : getReadyIc s h context = .ok (ic, ms))
      (hc : writeCorrector s.cfg.outCapacity s.coder ic ms context.toNat
        (icFold ic (signed pred) (signed real)) = .ok (c, ic')) :
      Completes s (.icCompress h pred real context)
        { s with coder := c, ics := Store.put s.ics h ic' }
  | icDecompress {h : Nat} {pred context : Word} {ic ic' : IcRec} {ms : IcModels} {corr : Int} {c : Coder}
      (hi : getReadyIc s h context = .ok (ic, ms))
      (hc : readCorrector s.coder ic ms context.toNat = .ok (corr, c, ic')) :
      Completes s (.icDecompress h pred context) { s with
        coder := c, ics := Store.put s.ics h ic'
        res := zext64 (s32 (icUnfold ic' (signed pred) corr)).toNat }
  | icGetK {h : Nat} {ic : IcRec} (hi : getIc s h = .ok ic) :
      Completes s (.icGetK h) { s with res := zext64 ic.k }
  | icFree {h : Nat} {ic : IcRec} (hi : getIc s h = .ok ic) :
      Completes s (.icFree h) { s with ics := Store.drop s.ics h }

/-- How a command can end: ignored in FAULTED, where RD_STATUS alone acts (60_exceptions.md R405), stopped by a
fault with a code of its own, or completed in a mode of its row. -/
inductive Ends (s : State) (i : Instr) : State → Prop
  | ignored (hf : s.mode = .faulted) : Ends s i s
  | reported (hf : s.mode = .faulted) (hi : i = .rdStatus) : Ends s i { s with res := s.statusPair }
  | fault {code : FaultCode} (hf : s.mode ≠ .faulted) (hc : code ≠ .none) :
      Ends s i (takeFault code i.opcode s)
  | done {u : State} (hm : s.mode ∈ modesOf i) (hu : Completes s i u) :
      Ends s i { u with ccount := u.ccount + 1 }

/-- A command ends as `command` says when its pseudocode answers only completions. -/
theorem command_ends {i : Instr} {s t : State} {body : Res State}
    (h : command i (modesOf i) s body = .next t) (hb : Answers body (Completes s i)) : Ends s i t := by
  obtain ⟨hf, rfl⟩ | ⟨hf, -, rfl⟩ | ⟨hf, hm, ⟨u, hu, rfl⟩ | ⟨code, hc, rfl⟩⟩ := command_next h
  · exact .ignored hf
  · exact .fault hf (by decide)
  · exact .done hm (hb.1 u hu)
  · exact .fault hf fun he => hb.2 (he ▸ hc)

/-- FAULTED is in no row of the mode table. -/
theorem open_of_mem_modesOf {i : Instr} {m : Mode} (h : m ∈ modesOf i) : m ≠ .faulted := by
  rintro rfl
  cases i <;> simp [modesOf] at h

/-! ## The checks raise faults of their own -/

theorem getSlot_answers (s : State) (h : Nat) : Answers (getSlot s h) (fun _ => True) := by
  refine answers_ite (fun _ => answers_raise (by decide)) fun _ => ?_
  split
  · exact answers_raise (by decide)
  · exact answers_ok trivial

theorem getBit_answers (s : State) (h : Nat) : Answers (getBit s h) (fun _ => True) :=
  answers_bind (getSlot_answers s h) fun m _ _ =>
    match m with
    | .bit _ => answers_ok trivial
    | .sym _ => answers_raise (by decide)

theorem getSym_answers (s : State) (h : Nat) : Answers (getSym s h) (fun _ => True) :=
  answers_bind (getSlot_answers s h) fun m _ _ =>
    match m with
    | .bit _ => answers_raise (by decide)
    | .sym _ => answers_ok trivial

theorem getReadySym_answers (s : State) (h : Nat) : Answers (getReadySym s h) (fun _ => True) :=
  answers_bind (getSym_answers s h) fun _ _ _ =>
    answers_ite (fun _ => answers_ok trivial) fun _ => answers_raise (by decide)

theorem needEmptySlot_answers (s : State) (h : Nat) : Answers (needEmptySlot s h) (fun _ => True) := by
  refine answers_ite (fun _ => answers_raise (by decide)) fun _ => ?_
  split
  · exact answers_ok trivial
  · exact answers_raise (by decide)

theorem getIc_answers (s : State) (h : Nat) : Answers (getIc s h) (fun _ => True) := by
  refine answers_ite (fun _ => answers_raise (by decide)) fun _ => ?_
  split
  · exact answers_raise (by decide)
  · exact answers_ok trivial

theorem needEmptyIc_answers (s : State) (h : Nat) : Answers (needEmptyIc s h) (fun _ => True) := by
  refine answers_ite (fun _ => answers_raise (by decide)) fun _ => ?_
  split
  · exact answers_ok trivial
  · exact answers_raise (by decide)

theorem getReadyIc_answers (s : State) (h : Nat) (context : Word) :
    Answers (getReadyIc s h context) (fun _ => True) := by
  refine answers_bind (getIc_answers s h) fun ic _ _ =>
    answers_ite (fun _ => answers_raise (by decide)) fun _ => ?_
  split
  · exact answers_raise (by decide)
  · exact answers_ok trivial

/-! ## Every command -/

/-- A raw write completes through its procedure. -/
theorem writeRaw_answers {s : State} {i : Instr} {r : Coder → Res Coder}
    (hr : rawWriter s.cfg.outCapacity i = some r) (hk : Answers (r s.coder) (KeepsInput s.coder)) :
    Answers (writeRaw s (r s.coder)) (Completes s i) :=
  answers_bind hk fun _ hc _ => answers_ok (.write hr hc)

/-- A raw read completes through its procedure. -/
theorem readRaw_answers {s : State} {i : Instr} {r : Coder → Res (Nat × Coder)}
    (hr : rawReader i = some r) (hk : Answers (r s.coder) (fun q => KeepsOutput s.coder q.2)) :
    Answers (readRaw s (r s.coder)) (Completes s i) :=
  answers_bind hk fun _ hc _ => answers_ok (.read hr hc)

/-- Everything a command can answer with a next state. -/
theorem exec_ends {i : Instr} {s t : State} (h : exec i s = .next t) : Ends s i t := by
  match i with
  | .initEnc => exact command_ends h (answers_ok .initEnc)
  | .initDec =>
    exact command_ends h (answers_bind (primeDec_keepsOutput _) fun _ hc _ => answers_ok (.initDec hc))
  | .doneEnc =>
    exact command_ends h (answers_bind (flushEnc_keepsInput _ _) fun _ hc _ => answers_ok (.doneEnc hc))
  | .doneDec => exact command_ends h (answers_ok .doneDec)
  | .rdStatus =>
    by_cases hf : s.mode = .faulted
    · obtain rfl := Host.Outcome.next.inj ((if_pos hf).symm.trans h)
      exact .reported hf rfl
    · obtain rfl := Host.Outcome.next.inj ((if_neg hf).symm.trans h)
      exact .done (by cases hm : s.mode <;> simp_all [modesOf]) .rdStatus
  | .nop => exact command_ends h (answers_ok .nop)
  | .encBit hd bit =>
    exact command_ends h (answers_bind (getBit_answers s hd) fun m hm _ =>
      answers_ite (fun _ => answers_raise (by decide)) fun hb =>
        answers_bind (encBitM_keepsInput _ _ m _) fun _ hc _ =>
          answers_ok (.encBit hm (Nat.not_lt.1 hb) hc))
  | .decBit hd =>
    exact command_ends h (answers_bind (getBit_answers s hd) fun m hm _ =>
      answers_bind (decBitM_keepsOutput _ m) fun _ hc _ => answers_ok (.decBit hm hc))
  | .encSym hd sym =>
    exact command_ends h (answers_bind (getReadySym_answers s hd) fun m hm _ =>
      answers_ite (fun _ => answers_raise (by decide)) fun hs =>
        answers_bind (encSymM_keepsInput _ _ m _) fun _ hc _ =>
          answers_ok (.encSym hm (Nat.not_lt.1 hs) hc))
  | .decSym hd =>
    exact command_ends h (answers_bind (getReadySym_answers s hd) fun m hm _ =>
      answers_bind (decSymM_keepsOutput _ m) fun _ hc _ => answers_ok (.decSym hm hc))
  | .wrBits n v =>
    refine command_ends h (answers_ite (fun _ => answers_raise (by decide)) fun hn =>
      answers_ite (fun _ => answers_raise (by decide)) fun hv =>
        writeRaw_answers (if_neg ?_) (encBits_keepsInput _ _ _ _))
    omega
  | .rdBits n =>
    exact command_ends h (answers_ite (fun _ => answers_raise (by decide)) fun hn =>
      readRaw_answers (if_neg hn) (decBits_keepsOutput _ _))
  | .wrByte v => exact command_ends h (writeRaw_answers rfl (encRaw_keepsInput _ _ _ _))
  | .rdByte => exact command_ends h (readRaw_answers rfl (decRaw_keepsOutput _ _))
  | .wrShort v => exact command_ends h (writeRaw_answers rfl (encRaw_keepsInput _ _ _ _))
  | .rdShort => exact command_ends h (readRaw_answers rfl (decRaw_keepsOutput _ _))
  | .wrInt v => exact command_ends h (writeRaw_answers rfl (encWord_keepsInput _ _ _))
  | .rdInt => exact command_ends h (readRaw_answers rfl (decWord_keepsOutput _))
  | .wrInt64 v => exact command_ends h (writeRaw_answers rfl (encDWord_keepsInput _ _ _))
  | .rdInt64 => exact command_ends h (readRaw_answers rfl (decDWord_keepsOutput _))
  | .wrFloat v => exact command_ends h (writeRaw_answers rfl (encWord_keepsInput _ _ _))
  | .rdFloat => exact command_ends h (readRaw_answers rfl (decWord_keepsOutput _))
  | .wrDouble v => exact command_ends h (writeRaw_answers rfl (encDWord_keepsInput _ _ _))
  | .rdDouble => exact command_ends h (readRaw_answers rfl (decDWord_keepsOutput _))
  | .mdlNewBit hd =>
    exact command_ends h (answers_bind (needEmptySlot_answers s hd) fun _ he _ =>
      answers_ok (.mdlNewBit he))
  | .mdlNewSym hd nsym =>
    refine command_ends h (answers_bind (needEmptySlot_answers s hd) fun _ he _ =>
      answers_ite (fun _ => answers_raise (by decide)) fun hn => answers_ok (.mdlNewSym he ?_))
    omega
  | .mdlInitBit hd =>
    exact command_ends h (answers_bind (getBit_answers s hd) fun _ hm _ => answers_ok (.mdlInitBit hm))
  | .mdlInitSym hd =>
    exact command_ends h (answers_bind (getSym_answers s hd) fun _ hm _ => answers_ok (.mdlInitSym hm))
  | .mdlFree hd =>
    exact command_ends h (answers_bind (getSlot_answers s hd) fun _ hm _ => answers_ok (.mdlFree hm))
  | .icConfig hd bits contexts bitsHigh range =>
    exact command_ends h (answers_bind (needEmptyIc_answers s hd) fun _ he _ =>
      answers_ite (fun hv => answers_ok (.icConfig he hv)) fun _ => answers_raise (by decide))
  | .icInit hd =>
    exact command_ends h (answers_bind (getIc_answers s hd) fun _ hi _ => answers_ok (.icInit hi))
  | .icCompress hd pred real context =>
    exact command_ends h (answers_bind (getReadyIc_answers s hd context) fun r hi _ =>
      answers_bind (writeCorrector_keepsInput _ _ r.1 r.2 _ _) fun _ hc _ =>
        answers_ok (.icCompress hi hc))
  | .icDecompress hd pred context =>
    exact command_ends h (answers_bind (getReadyIc_answers s hd context) fun r hi _ =>
      answers_bind (readCorrector_keepsOutput _ r.1 r.2 _) fun _ hc _ =>
        answers_ok (.icDecompress hi hc))
  | .icGetK hd =>
    exact command_ends h (answers_bind (getIc_answers s hd) fun _ hi _ => answers_ok (.icGetK hi))
  | .icFree hd =>
    exact command_ends h (answers_bind (getIc_answers s hd) fun _ hi _ => answers_ok (.icFree hi))

end Sys2Proof.Machine
end

section
/-! PROOF. The converse of `exec_ends` for completed commands, and what a completed command leaves unchanged. -/

namespace Sys2Proof.Machine

/-- A command whose pseudocode answers a state completes with it. -/
theorem command_completes {i : Instr} {s u : State} {body : Res State} (hm : s.mode ∈ modesOf i)
    (hb : body = .ok u) : command i (modesOf i) s body = .next { u with ccount := u.ccount + 1 } := by
  rw [command_allowed (open_of_mem_modesOf hm) hm, hb, finish_ok]

/-- The raw writes, with the rows of the tables they stand in. -/
theorem rawWriter_row {cap : Option Nat} {i : Instr} {r : Coder → Res Coder} (h : rawWriter cap i = some r) :
    modesOf i = [.encode] ∧ writesRes i = false ∧ writesMode i = false := by
  cases i <;> simp_all [rawWriter, modesOf, writesRes, writesMode, Instr.opcode]

/-- The raw reads, with the rows of the tables they stand in. -/
theorem rawReader_row {i : Instr} {r : Coder → Res (Nat × Coder)} (h : rawReader i = some r) :
    modesOf i = [.decode] ∧ writesRes i = true ∧ writesMode i = false := by
  cases i <;> simp_all [rawReader, modesOf, writesRes, writesMode, Instr.opcode]

theorem exec_of_write {s : State} {i : Instr} {r : Coder → Res Coder} {c : Coder}
    (hm : s.mode ∈ modesOf i) (hr : rawWriter s.cfg.outCapacity i = some r) (hc : r s.coder = .ok c) :
    exec i s = .next { s with coder := c, ccount := s.ccount + 1 } := by
  have written : writeRaw s (r s.coder) = .ok { s with coder := c } := by rw [hc]; rfl
  cases i with
  | wrBits n v =>
    obtain ⟨hn, rfl⟩ : ¬ (n < 1 ∨ 32 < n ∨ 2 ^ n ≤ v.toNat) ∧ encBits s.cfg.outCapacity n v.toNat = r := by
      simpa [rawWriter] using hr
    refine command_completes (u := { s with coder := c }) hm ?_
    rw [if_neg (by omega), if_neg (by omega), written]
  | wrByte v | wrShort v | wrInt v | wrInt64 v | wrFloat v | wrDouble v =>
    obtain rfl := Option.some.inj hr
    exact command_completes hm written
  | _ => cases hr

theorem exec_of_read {s : State} {i : Instr} {r : Coder → Res (Nat × Coder)} {v : Nat} {c : Coder}
    (hm : s.mode ∈ modesOf i) (hr : rawReader i = some r) (hc : r s.coder = .ok (v, c)) :
    exec i s = .next { s with coder := c, res := zext64 v, ccount := s.ccount + 1 } := by
  have answered : readRaw s (r s.coder) = .ok { s with coder := c, res := zext64 v } := by rw [hc]; rfl
  cases i with
  | rdBits n =>
    obtain ⟨hn, rfl⟩ : ¬ (n < 1 ∨ 32 < n) ∧ decBits n = r := by simpa [rawReader] using hr
    refine command_completes (u := { s with coder := c, res := zext64 v }) hm ?_
    rw [if_neg hn, answered]
  | rdByte | rdShort | rdInt | rdInt64 | rdFloat | rdDouble =>
    obtain rfl := Option.some.inj hr
    exact command_completes hm answered
  | _ => cases hr

/-- What `Completes` lists is what the command does in the modes of its row. -/
theorem exec_of_completes {i : Instr} {s u : State} (hu : Completes s i u) (hm : s.mode ∈ modesOf i) :
    exec i s = .next { u with ccount := u.ccount + 1 } := by
  cases hu with
  | rdStatus => exact if_neg (open_of_mem_modesOf hm)
  | write hr hc => exact exec_of_write hm hr hc
  | read hr hc => exact exec_of_read hm hr hc
  | initEnc | doneDec | nop => exact command_completes hm rfl
  | initDec hc | doneEnc hc => exact command_completes hm (by rw [hc]; rfl)
  | encBit hg hb hc => exact command_completes hm (by rw [hg, res_bind_ok, if_neg (by omega), hc]; rfl)
  | encSym hg hs hc => exact command_completes hm (by rw [hg, res_bind_ok, if_neg (by omega), hc]; rfl)
  | decBit hg hc | decSym hg hc => exact command_completes hm (by rw [hg, res_bind_ok, hc]; rfl)
  | mdlNewBit hg | mdlInitBit hg | mdlInitSym hg | mdlFree hg | icInit hg | icGetK hg | icFree hg =>
    exact command_completes hm (by rw [hg]; rfl)
  | mdlNewSym he hn => exact command_completes hm (by rw [he, res_bind_ok, if_neg (by omega)])
  | icConfig he hv => exact command_completes hm (by rw [he, res_bind_ok]; exact if_pos hv)
  | icCompress hi hc | icDecompress hi hc => exact command_completes hm (by simp only [hi, hc, res_bind_ok])

/-! ## What a completed command leaves -/

section
variable {s u : State} {i : Instr}

/-- No completed command touches the fault record, the parameters or the host's fields, or advances `CCOUNT`
itself. -/
theorem completes_frame (h : Completes s i u) :
    u = { s with
      coder := u.coder, res := u.res, mode := u.mode, outstream := u.outstream, ms := u.ms, ics := u.ics } := by
  cases h <;> rfl

theorem completes_ccount (h : Completes s i u) : u.ccount = s.ccount := by cases h <;> rfl

theorem completes_mode (h : Completes s i u) : u.mode = s.mode ∨ u.mode ≠ .faulted ∧ writesMode i = true := by
  cases h with
  | initEnc | initDec _ | doneEnc _ | doneDec => exact .inr ⟨nofun, rfl⟩
  | _ => exact .inl rfl

theorem completes_res (h : Completes s i u) (hi : writesRes i = false) : u.res = s.res := by
  cases h with
  | read hr _ => simp [(rawReader_row hr).2.1] at hi
  | doneEnc | doneDec | rdStatus | decBit | decSym | icDecompress | icGetK => simp [writesRes, Instr.opcode] at hi
  | _ => rfl

theorem completes_outstream (h : Completes s i u) :
    ∃ chunk, u.outstream = s.outstream ++ chunk ∧ (i ≠ .doneEnc → chunk = []) := by
  cases h with
  | doneEnc => exact ⟨_, rfl, fun h => absurd rfl h⟩
  | _ => exact ⟨[], (List.append_nil _).symm, fun _ => rfl⟩

/-- A raw write is one of the encoder's raw procedures. -/
theorem rawWriter_keepsInput {cap : Option Nat} {r : Coder → Res Coder} (h : rawWriter cap i = some r)
    (c : Coder) : Answers (r c) (KeepsInput c) := by
  cases i with
  | wrBits n v =>
    obtain ⟨-, rfl⟩ : ¬ (n < 1 ∨ 32 < n ∨ 2 ^ n ≤ v.toNat) ∧ encBits cap n v.toNat = r := by
      simpa [rawWriter] using h
    exact encBits_keepsInput _ _ _ _
  | wrByte v | wrShort v =>
    obtain rfl := Option.some.inj h
    exact encRaw_keepsInput _ _ _ _
  | wrInt v | wrFloat v =>
    obtain rfl := Option.some.inj h
    exact encWord_keepsInput _ _ _
  | wrInt64 v | wrDouble v =>
    obtain rfl := Option.some.inj h
    exact encDWord_keepsInput _ _ _
  | _ => cases h

/-- A raw read is one of the decoder's raw procedures. -/
theorem rawReader_keepsOutput {r : Coder → Res (Nat × Coder)} (h : rawReader i = some r) (c : Coder) :
    Answers (r c) (fun q => KeepsOutput c q.2) := by
  cases i with
  | rdBits n =>
    obtain ⟨-, rfl⟩ : ¬ (n < 1 ∨ 32 < n) ∧ decBits n = r := by simpa [rawReader] using h
    exact decBits_keepsOutput _ _
  | rdByte | rdShort =>
    obtain rfl := Option.some.inj h
    exact decRaw_keepsOutput _ _
  | rdInt | rdFloat =>
    obtain rfl := Option.some.inj h
    exact decWord_keepsOutput _
  | rdInt64 | rdDouble =>
    obtain rfl := Option.some.inj h
    exact decDWord_keepsOutput _
  | _ => cases h

/-- The encoder's commands leave the input side of the coder. -/
theorem completes_keepsInput (h : Completes s i u) (hi : modesOf i = [.encode] ∨ i = .initEnc) :
    KeepsInput s.coder u.coder := by
  cases h with
  | @doneEnc c hc => exact (show KeepsInput s.coder c from (flushEnc_keepsInput _ _).1 _ hc)
  | encBit _ _ hc => exact (encBitM_keepsInput _ _ _ _).1 _ hc
  | encSym _ _ hc => exact (encSymM_keepsInput _ _ _ _).1 _ hc
  | icCompress _ hc => exact (writeCorrector_keepsInput _ _ _ _ _ _).1 _ hc
  | write hr hc => exact (rawWriter_keepsInput hr _).1 _ hc
  | read hr =>
    obtain hi | rfl := hi
    · simp [(rawReader_row hr).1] at hi
    · cases hr
  | initDec | doneDec | decBit | decSym | icDecompress => simp [modesOf] at hi
  | _ => exact KeepsInput.refl _

/-- The decoder's commands leave the output side of the coder, and the bytes of the input. -/
theorem completes_keepsOutput (h : Completes s i u) (hi : modesOf i = [.decode] ∨ i = .initDec) :
    KeepsOutput s.coder u.coder := by
  cases h with
  | initDec hc => exact (primeDec_keepsOutput _).1 _ hc
  | decBit _ hc => exact (decBitM_keepsOutput _ _).1 _ hc
  | decSym _ hc => exact (decSymM_keepsOutput _ _).1 _ hc
  | icDecompress _ hc => exact (readCorrector_keepsOutput _ _ _ _).1 _ hc
  | read hr hc => exact (rawReader_keepsOutput hr _).1 _ hc
  | write hr =>
    obtain hi | rfl := hi
    · simp [(rawWriter_row hr).1] at hi
    · cases hr
  | initEnc | doneEnc | encBit | encSym | icCompress => simp [modesOf] at hi
  | _ => exact KeepsOutput.refl _

/-- The commands of all three modes leave the coder. -/
theorem completes_coder (h : Completes s i u) (hi : modesOf i = [.idle, .encode, .decode]) :
    u.coder = s.coder := by
  cases h with
  | read hr => simp [(rawReader_row hr).1] at hi
  | write hr => simp [(rawWriter_row hr).1] at hi
  | initEnc | initDec | doneEnc | doneDec | encBit | encSym | decBit | decSym | icCompress | icDecompress =>
    simp [modesOf] at hi
  | _ => rfl

end

/-! ## The statements -/

/-- `STATUS` is 0 after reset, whatever the parameters. -/
theorem status_resetWith (g : Config) : (State.resetWith g).status = 0 :=
  (status_congr (t := State.reset) rfl rfl rfl).trans (by decide)

/-- Settles O9: by the values of `State.resetWith`, and a step on RESET is `resetBlock`. -/
theorem resetGivesTheListedValues : Obligations.ResetGivesTheListedValues := by
  refine ⟨fun g => ?_, rfl, fun s rest hs => ?_⟩
  · exact ⟨rfl, rfl, rfl, rfl, rfl, rfl, rfl, status_resetWith g, rfl, rfl, rfl, rfl, rfl, rfl, fun _ => rfl,
      fun _ => rfl⟩
  · rw [step, hs]
    rfl

/-- `STATUS` as a number: its fields stand side by side (10_state.md R36). -/
theorem status_toNat (s : State) :
    s.status.toNat = s.mode.bits.toNat + s.fcode.code.toNat * 2 ^ 8 + s.fopc.toNat * 2 ^ 16 := by
  have hm := s.mode.bits.isLt
  have hc := s.fcode.code.isLt
  have ho := s.fopc.isLt
  simp only [State.status, BitVec.toNat_append]
  rw [← Nat.shiftLeft_add_eq_or_of_lt ho, ← Nat.shiftLeft_add_eq_or_of_lt hc,
    ← Nat.shiftLeft_add_eq_or_of_lt hm, ← Nat.shiftLeft_add_eq_or_of_lt (0#6).isLt]
  simp only [BitVec.toNat_ofNat, Nat.shiftLeft_eq]
  omega

/-- Settles O28: RD_STATUS by the two branches of its definition, NOP as a command without pseudocode. -/
theorem rdStatusReportsAndNopDoesNothing : Obligations.RdStatusReportsAndNopDoesNothing := by
  refine ⟨fun s => ?_, status_toNat, fun s hf => ?_⟩
  · by_cases hf : s.mode = .faulted
    · rw [if_pos hf]
      exact if_pos hf
    · rw [if_neg hf]
      exact if_neg hf
  · exact exec_of_completes .nop (by cases hm : s.mode <;> simp_all [modesOf])

/-- Settles O17: a completed command advances `CCOUNT` once and is never FAULTED, the other ends keep it. -/
theorem completedCommandAdvancesCcount : Obligations.CompletedCommandAdvancesCcount := by
  intro i s t h
  cases exec_ends h with
  | ignored hf | reported hf => simp [hf]
  | fault => simp
  | @done u hm hu =>
    have hs := open_of_mem_modesOf hm
    have ht : u.mode ≠ .faulted := (completes_mode hu).elim (fun he => he ▸ hs) And.left
    simp [hs, ht, completes_ccount hu]

/-- Settles O18: in FAULTED only RD_STATUS, which has a result, writes `RES`; a fault never does. -/
theorem resKeptWithoutAResult : Obligations.ResKeptWithoutAResult := by
  intro i s t h hi
  cases exec_ends h with
  | ignored | fault => rfl
  | reported hf hr => simp [hf, hr, writesRes, Instr.opcode] at hi
  | @done u hm hu =>
    obtain hi | ⟨hs, ht⟩ := hi
    · exact completes_res (u := u) hu hi
    · exact absurd ht ((completes_mode hu).elim (fun he => he ▸ hs) And.left)

/-- Settles O19: by what a completed command leaves in `OUTSTREAM`; every other end keeps it. -/
theorem outstreamOnlyGrowsAndOnlyAtDoneEnc : Obligations.OutstreamOnlyGrowsAndOnlyAtDoneEnc := by
  intro i s t h
  cases exec_ends h with
  | ignored | reported | fault => exact ⟨[], (List.append_nil _).symm, fun _ => rfl⟩
  | @done u hm hu => exact completes_outstream (u := u) hu

/-- Settles O21: by what a completed command of each family leaves in the coder; every other end keeps it. -/
theorem commandsLeaveTheOtherCoder : Obligations.CommandsLeaveTheOtherCoder := by
  intro i s t h
  cases exec_ends h with
  | ignored | reported | fault =>
    exact ⟨fun _ => KeepsInput.refl _, fun _ => KeepsOutput.refl _, fun _ => rfl⟩
  | @done u hm hu =>
    exact ⟨completes_keepsInput (u := u) hu, completes_keepsOutput (u := u) hu, completes_coder (u := u) hu⟩

/-- Settles O22: a completed command keeps the fault record, and the mode unless it is one of the four. -/
theorem statusChangesOnlyAtChunkEndsAndFaults : Obligations.StatusChangesOnlyAtChunkEndsAndFaults := by
  intro i s t h
  cases exec_ends h with
  | ignored | reported => exact ⟨fun _ => .inr rfl, fun _ => rfl, fun _ => ⟨rfl, rfl⟩, rfl, rfl, rfl⟩
  | fault hf =>
    exact ⟨fun _ => .inl rfl, fun hs => absurd hs hf, fun ht => absurd rfl ht, rfl, rfl, rfl⟩
  | @done u hm hu =>
    have kept := completes_frame hu
    refine ⟨fun hi => .inr (status_congr ?_ ?_ ?_), fun hs => absurd hs (open_of_mem_modesOf hm),
      fun _ => ⟨?_, ?_⟩, ?_, ?_, ?_⟩
    · exact (completes_mode hu).resolve_right fun he => by simp [hi] at he
    all_goals rw [kept]

end Sys2Proof.Machine
end

section
/-! PROOF. The bounds of the model records hold at the start and after every coded value (10_state.md R42, R44;
42_models.md R251-R254, R263). -/

namespace Sys2Proof.Machine

theorem u32_toNat {n : Nat} (h : n < 2 ^ 32) : (u32 n).toNat = n := by
  rw [u32, BitVec.toNat_ofNat, Nat.mod_eq_of_lt h]

/-- What a scale of 2^31 over a total of at most 2^k leaves of a part of the total. -/
theorem scaled_bounds {total k x : Nat} (ht : 1 ≤ total) (hk : total ≤ 2 ^ k) (hk31 : k ≤ 31) (hx : x < total) :
    2 ^ (31 - k) ≤ 2 ^ 31 / total ∧ 2 ^ 31 / total * x / 2 ^ (31 - k) < 2 ^ k := by
  have hpow : (2 : Nat) ^ (31 - k) * 2 ^ k = 2 ^ 31 := by rw [← Nat.pow_add, Nat.sub_add_cancel hk31]
  have hscale : 2 ^ (31 - k) ≤ 2 ^ 31 / total :=
    (Nat.le_div_iff_mul_le ht).2 (le_trans (Nat.mul_le_mul_left _ hk) hpow.le)
  refine ⟨hscale, (Nat.div_lt_iff_lt_mul (by positivity)).2 ?_⟩
  have hpos : 0 < 2 ^ 31 / total := lt_of_lt_of_le (by positivity) hscale
  calc 2 ^ 31 / total * x < 2 ^ 31 / total * total := Nat.mul_lt_mul_of_pos_left hx hpos
    _ ≤ 2 ^ 31 := Nat.div_mul_le_self _ _
    _ = 2 ^ k * 2 ^ (31 - k) := by rw [Nat.mul_comm, hpow]

/-! ## Bit models -/

/-- The parts of `BitModel.ok`. -/
theorem BitModel.ok_iff (m : BitModel) :
    m.ok = true ↔
      (1 ≤ m.p0.toNat ∧ m.p0.toNat ≤ 8191) ∧ 1 ≤ m.b0count.toNat ∧
      (2 ≤ m.count.toNat ∧ m.count.toNat ≤ 8192) ∧ (4 ≤ m.cycle.toNat ∧ m.cycle.toNat ≤ 64) ∧
      (1 ≤ m.remaining.toNat ∧ m.remaining.toNat ≤ m.cycle.toNat) ∧
      m.b0count.toNat + m.remaining.toNat < m.count.toNat + m.cycle.toNat := by
  simp only [BitModel.ok, Bool.and_eq_true, decide_eq_true_eq, and_assoc]

theorem bitModelInit_ok : bitModelInit.ok := by decide

/-- The halving keeps the bit-0 count below the total and brings the total to at most 2^13. -/
theorem bitRescale_bounds {b0 cnt : Nat} (h1 : 1 ≤ b0) (h2 : b0 < cnt) (h3 : cnt ≤ 8256) :
    1 ≤ (bitRescale b0 cnt).1 ∧ (bitRescale b0 cnt).1 < (bitRescale b0 cnt).2 ∧
      (bitRescale b0 cnt).2 ≤ 8192 := by
  simp only [bitRescale, bmMax, Nat.shiftRight_eq_div_pow]
  split
  · simp only
    split <;> omega
  · simp only
    omega

/-- An update gives a legal record from one whose counts are in order. -/
theorem bitModelUpdate_ok {m : BitModel} (hb : 1 ≤ m.b0count.toNat)
    (hlt : m.b0count.toNat < m.count.toNat + m.cycle.toNat) (hc : m.count.toNat ≤ 8192)
    (hy : 4 ≤ m.cycle.toNat ∧ m.cycle.toNat ≤ 64) : (bitModelUpdate m).ok := by
  obtain ⟨hb1, hb2, hb3⟩ := bitRescale_bounds hb hlt (by omega)
  unfold bitModelUpdate
  generalize bitRescale m.b0count.toNat (m.count.toNat + m.cycle.toNat) = r at hb1 hb2 hb3
  obtain ⟨b, n⟩ := r
  simp only at hb1 hb2 hb3
  obtain ⟨hs, hp⟩ := scaled_bounds (total := n) (k := 13) (x := b) (by omega) hb3 (by norm_num) hb2
  have hp1 : 1 ≤ 2 ^ 31 / n * b / 2 ^ 18 :=
    (Nat.le_div_iff_mul_le (by positivity)).2 (by rw [one_mul]; exact le_trans hs (Nat.le_mul_of_pos_right _ hb1))
  have hp0 : (u32 ((b * (0x80000000 / n)) >>> (31 - bmShift))).toNat = 2 ^ 31 / n * b / 2 ^ 18 := by
    rw [Nat.shiftRight_eq_div_pow, Nat.mul_comm]
    exact u32_toNat (lt_trans hp (by norm_num))
  have hcyc : nextCycle m.cycle.toNat bmCycleMax = min (5 * m.cycle.toNat / 4) 64 := by
    simp [nextCycle, bmCycleMax, Nat.shiftRight_eq_div_pow]
  rw [BitModel.ok_iff]
  simp only [hp0, hcyc, u32_toNat (show b < 2 ^ 32 by omega), u32_toNat (show n < 2 ^ 32 by omega),
    u32_toNat (show min (5 * m.cycle.toNat / 4) 64 < 2 ^ 32 by omega)]
  omega

/-- A coded bit keeps the bounds of its model. -/
theorem bitModelCoded_ok {m : BitModel} (b : Bool) (hm : m.ok) : (bitModelCoded m b).ok := by
  obtain ⟨hp, hb, hc, hy, hr, hbal⟩ := (BitModel.ok_iff m).1 hm
  have hcounted : (if b then m.b0count else m.b0count + 1).toNat = m.b0count.toNat + (if b then 0 else 1) := by
    cases b with
    | true => rfl
    | false => exact BitVec.toNat_add_of_lt (by simp; omega)
  have hle : (if b then 0 else 1) ≤ 1 := by cases b <;> decide
  by_cases h1 : m.remaining = 1
  · rw [bitModelCoded_updating b h1]
    have hr1 : m.remaining.toNat = 1 := by rw [h1]; rfl
    exact bitModelUpdate_ok (by simp only [hcounted]; omega) (by simp only [hcounted]; omega) hc.2 hy
  · have hr1 : m.remaining.toNat ≠ 1 := fun he => h1 (BitVec.eq_of_toNat_eq he)
    have hrem : (m.remaining - 1).toNat = m.remaining.toNat - 1 :=
      BitVec.toNat_sub_of_le (by rw [BitVec.le_def]; exact hr.1)
    rw [bitModelCoded_counting b h1, BitModel.ok_iff]
    simp only [hcounted, hrem]
    omega

/-! ## Symbol models -/

/-- The parts of `SymModel.shapeOk`. -/
theorem SymModel.shapeOk_iff (m : SymModel) :
    m.shapeOk = true ↔
      2 ≤ m.nsym ∧ m.nsym ≤ 2048 ∧ (m.tsize.toNat, m.tshift.toNat) = symModelGeometry m.nsym := by
  simp only [SymModel.shapeOk, Bool.and_eq_true, decide_eq_true_eq, and_assoc]

/-- The counts of a symbol model: one for each symbol, none 0. -/
def SymModel.countsOk (m : SymModel) : Prop := m.cnt.length = m.nsym ∧ ∀ c ∈ m.cnt, 1 ≤ c.toNat

/-- The countdown of a symbol model and its cadence. -/
def SymModel.cadenceOk (m : SymModel) : Prop :=
  1 ≤ m.remaining.toNat ∧ m.remaining.toNat ≤ m.cycle.toNat ∧ m.cycle.toNat ≤ (m.nsym + 6) * 8

/-- The distribution of a symbol model: rising from 0 below 2^15. -/
def risesBelowMax (dist : List Word) : Prop :=
  dist.Pairwise (fun x y => x.toNat < y.toNat) ∧ ∀ d ∈ dist, d.toNat < 32768

/-- The parts of `SymModel.tablesOk`. -/
theorem SymModel.tablesOk_iff (m : SymModel) :
    m.tablesOk = true ↔
      m.countsOk ∧ sumWords m.cnt + m.remaining.toNat = m.total.toNat + m.cycle.toNat ∧
      (m.nsym ≤ m.total.toNat ∧ m.total.toNat ≤ 32768) ∧ m.cadenceOk ∧
      m.dist.length = m.nsym ∧ m.dist.head? = some 0 ∧ risesBelowMax m.dist ∧
      m.dtab = if m.tsize = 0 then [] else buildTable m.tsize.toNat m.tshift.toNat m.last m.dist := by
  simp only [SymModel.tablesOk, SymModel.countsOk, SymModel.cadenceOk, risesBelowMax, Bool.and_eq_true,
    decide_eq_true_eq, List.all_eq_true, and_assoc]

theorem length_le_sumWords {l : List Word} (h : ∀ c ∈ l, 1 ≤ c.toNat) : l.length ≤ sumWords l := by
  induction l with
  | nil => exact Nat.le_refl 0
  | cons c rest ih =>
    have hc := h c (by simp)
    have := ih fun d hd => h d (by simp [hd])
    simp only [List.length_cons, sumWords]
    omega

theorem sumWords_replicate_one (n : Nat) : sumWords (List.replicate n 1) = n := by
  induction n with
  | zero => rfl
  | succ n ih =>
    rw [List.replicate_succ, sumWords, ih, Nat.add_comm]
    rfl

/-- Adding one to a count adds one to the sum, and leaves no count 0. -/
theorem sumWords_modify {l : List Word} {s : Nat} (hs : s < l.length) (h1 : ∀ c ∈ l, 1 ≤ c.toNat)
    (hsum : sumWords l < 2 ^ 32 - 1) :
    sumWords (l.modify s (fun c => c + 1)) = sumWords l + 1 ∧
      ∀ c ∈ l.modify s (fun c => c + 1), 1 ≤ c.toNat := by
  induction l generalizing s with
  | nil => simp at hs
  | cons c rest ih =>
    simp only [sumWords] at hsum
    cases s with
    | zero =>
      have hadd : (c + 1).toNat = c.toNat + 1 := BitVec.toNat_add_of_lt (by simp; omega)
      simp only [List.modify_zero_cons, sumWords, hadd, List.forall_mem_cons]
      exact ⟨by omega, by omega, fun d hd => h1 d (by simp [hd])⟩
    | succ s =>
      obtain ⟨ih1, ih2⟩ := ih (by simpa using hs) (fun d hd => h1 d (by simp [hd])) (by omega)
      simp only [List.modify_succ_cons, sumWords, ih1, List.forall_mem_cons]
      exact ⟨by omega, h1 c (by simp), ih2⟩

/-- Halving every count, rounding up, at most halves the sum and half of the number of counts. -/
theorem sumWords_halved (l : List Word) :
    2 * sumWords (l.map fun c => u32 ((c.toNat + 1) >>> 1)) ≤ sumWords l + l.length := by
  induction l with
  | nil => exact Nat.le_refl 0
  | cons c rest ih =>
    have hc := c.isLt
    have : (u32 ((c.toNat + 1) >>> 1)).toNat = (c.toNat + 1) / 2 := by
      rw [Nat.shiftRight_eq_div_pow, u32_toNat (by omega), pow_one]
    simp only [List.map_cons, sumWords, this, List.length_cons]
    omega

/-- After the halving the counts are one for each symbol, none 0, and their sum is the total, of at most
2^15. -/
theorem symRescale_bounds {cnt : List Word} (hn : cnt.length ≤ 2048) (h1 : ∀ c ∈ cnt, 1 ≤ c.toNat)
    (hsum : sumWords cnt ≤ 49200) :
    let r := symRescale cnt (sumWords cnt)
    r.1.length = cnt.length ∧ (∀ c ∈ r.1, 1 ≤ c.toNat) ∧ sumWords r.1 = r.2 ∧ r.2 ≤ 32768 := by
  simp only [symRescale, show dmMax = 32768 from rfl]
  split
  · have := sumWords_halved cnt
    refine ⟨List.length_map _, fun c hc => ?_, rfl, by simp only; omega⟩
    obtain ⟨d, hd, rfl⟩ := List.mem_map.1 hc
    have hd1 := h1 d hd
    have hd2 := d.isLt
    rw [Nat.shiftRight_eq_div_pow, u32_toNat (by omega)]
    omega
  · exact ⟨rfl, h1, rfl, by simp only; omega⟩

/-- The distribution loop from accumulator `acc` on gives entries from that of `acc` on, strictly rising and
below 2^15, when no count is 0 and the scale is that of the whole total. -/
theorem distFrom_bounds {total : Nat} (ht : total ≤ 32768) {cnt : List Word} {acc : Nat}
    (h1 : ∀ c ∈ cnt, 1 ≤ c.toNat) (hsum : acc + sumWords cnt = total) :
    (∀ d ∈ distFrom (2 ^ 31 / total) acc cnt, 2 ^ 31 / total * acc / 2 ^ 16 ≤ d.toNat) ∧
      risesBelowMax (distFrom (2 ^ 31 / total) acc cnt) := by
  induction cnt generalizing acc with
  | nil => exact ⟨fun _ hd => (nomatch hd), List.Pairwise.nil, fun _ hd => (nomatch hd)⟩
  | cons c rest ih =>
    have hc := h1 c (by simp)
    simp only [sumWords] at hsum
    obtain ⟨hlow, hrise, hmax⟩ := ih (acc := acc + c.toNat) (fun d hd => h1 d (by simp [hd])) (by omega)
    obtain ⟨hs, hlt⟩ := scaled_bounds (total := total) (k := 15) (x := acc) (by omega) ht (by norm_num) (by omega)
    have hfirst : (u32 ((2 ^ 31 / total * acc) >>> (31 - dmShift))).toNat = 2 ^ 31 / total * acc / 2 ^ 16 := by
      rw [Nat.shiftRight_eq_div_pow]
      exact u32_toNat (lt_trans hlt (by norm_num))
    have hstep : 2 ^ 31 / total * acc / 2 ^ 16 < 2 ^ 31 / total * (acc + c.toNat) / 2 ^ 16 := by
      have : 2 ^ 31 / total * acc + 2 ^ 16 ≤ 2 ^ 31 / total * (acc + c.toNat) := by
        rw [Nat.mul_add]
        exact Nat.add_le_add_left (le_trans hs (Nat.le_mul_of_pos_right _ hc)) _
      omega
    simp only [distFrom, risesBelowMax, List.forall_mem_cons, List.pairwise_cons, hfirst]
    exact ⟨⟨Nat.le_refl _, fun d hd => (hstep.trans_le (hlow d hd)).le⟩,
      ⟨fun d hd => hstep.trans_le (hlow d hd), hrise⟩, hlt, hmax⟩

theorem distFrom_head (scale : Nat) {cnt : List Word} (h : cnt ≠ []) :
    (distFrom scale 0 cnt).head? = some 0 := by
  cases cnt with
  | nil => exact absurd rfl h
  | cons c rest => simp [distFrom, u32]

theorem distFrom_length (scale acc : Nat) (cnt : List Word) : (distFrom scale acc cnt).length = cnt.length := by
  rw [distFrom_eq, List.length_map, List.length_range]

/-- An update gives a legal record from one whose counts are in order, with any legal cadence that is
counted down from its start. -/
theorem symModelUpdate_tablesOk {m : SymModel} (hshape : m.shapeOk) (hcnt : m.countsOk)
    (hsum : sumWords m.cnt = m.total.toNat + m.cycle.toNat) (hmax : sumWords m.cnt ≤ 49200) {cycle : Word}
    (hcyc : 1 ≤ cycle.toNat ∧ cycle.toNat ≤ (m.nsym + 6) * 8) (init : Bool) :
    SymModel.tablesOk { symModelUpdate m with cycle := cycle, remaining := cycle, init := init } := by
  obtain ⟨hn2, hn, -⟩ := (SymModel.shapeOk_iff m).1 hshape
  obtain ⟨hlen, h1⟩ := hcnt
  obtain ⟨hrlen, hr1, hrsum, hrmax⟩ := symRescale_bounds (by omega) h1 hmax
  rw [SymModel.tablesOk_iff]
  unfold symModelUpdate SymModel.countsOk SymModel.cadenceOk SymModel.last
  rw [← hsum]
  generalize symRescale m.cnt (sumWords m.cnt) = r at hrlen hr1 hrsum hrmax
  obtain ⟨cnt, total⟩ := r
  simp only at hrlen hr1 hrsum hrmax
  have htotal : (u32 total).toNat = total := u32_toNat (by omega)
  have hle := length_le_sumWords hr1
  obtain ⟨-, hrise⟩ := distFrom_bounds hrmax (acc := 0) hr1 (by omega)
  have hne : cnt ≠ [] := List.ne_nil_of_length_pos (by omega)
  simp only [htotal, hrsum, distFrom_length]
  exact ⟨⟨by omega, hr1⟩, trivial, by omega, ⟨hcyc.1, Nat.le_refl _, hcyc.2⟩, by omega, distFrom_head _ hne, hrise,
    trivial⟩

/-- Initialisation makes a legal shape a model that may be coded with. -/
theorem symModelInit_readyOk {m : SymModel} (hm : m.shapeOk) : (symModelInit m).readyOk := by
  obtain ⟨hn2, hn, -⟩ := (SymModel.shapeOk_iff m).1 hm
  have hcyc : (u32 ((m.nsym + 6) >>> 1)).toNat = (m.nsym + 6) / 2 := by
    rw [Nat.shiftRight_eq_div_pow, u32_toNat (by omega), pow_one]
  have hsum := sumWords_replicate_one m.nsym
  have htables := symModelUpdate_tablesOk (cycle := u32 ((m.nsym + 6) >>> 1)) (init := true)
    (m := { m with cnt := List.replicate m.nsym 1, total := 0, cycle := u32 m.nsym }) hm
    ⟨List.length_replicate, fun c hc => by rw [List.eq_of_mem_replicate hc]; decide⟩
    (by simp only [hsum, u32_toNat (show m.nsym < 2 ^ 32 by omega)]; simp) (by simp only [hsum]; omega)
    (by simp only [hcyc]; omega)
  exact (Bool.and_eq_true _ _).mpr ⟨(Bool.and_eq_true _ _).mpr ⟨hm, rfl⟩, htables⟩

/-- A coded symbol keeps the bounds of its model. -/
theorem symModelCoded_readyOk {m : SymModel} {s : Nat} (hm : m.readyOk) (hs : s < m.nsym) :
    (symModelCoded m s).readyOk := by
  simp only [SymModel.readyOk, Bool.and_eq_true] at hm
  obtain ⟨⟨hshape, hinit⟩, htables⟩ := hm
  obtain ⟨⟨hlen, h1⟩, hbal, htot, ⟨hr1, hr2, hcyc⟩, hdlen, hhead, hrise, hdtab⟩ :=
    (SymModel.tablesOk_iff m).1 htables
  obtain ⟨hn2, hn, -⟩ := (SymModel.shapeOk_iff m).1 hshape
  obtain ⟨hsum, hpos⟩ := sumWords_modify (s := s) (l := m.cnt) (by omega) h1 (by omega)
  have hcnt : (m.cnt.modify s fun c => c + 1).length = m.nsym := by rw [List.length_modify, hlen]
  by_cases h : m.remaining = 1
  · have hr : m.remaining.toNat = 1 := by rw [h]; rfl
    have hnext : nextCycle m.cycle.toNat ((m.nsym + 6) <<< 3) = min (5 * m.cycle.toNat / 4) ((m.nsym + 6) * 8) := by
      simp [nextCycle, Nat.shiftRight_eq_div_pow, Nat.shiftLeft_eq]
    have hcycle : (u32 (nextCycle m.cycle.toNat ((m.nsym + 6) <<< 3))).toNat =
        min (5 * m.cycle.toNat / 4) ((m.nsym + 6) * 8) := by rw [hnext, u32_toNat (by omega)]
    have := symModelUpdate_tablesOk (m := { m with cnt := m.cnt.modify s fun c => c + 1, remaining := 0 })
      (cycle := u32 (nextCycle m.cycle.toNat ((m.nsym + 6) <<< 3))) (init := m.init) hshape ⟨hcnt, hpos⟩
      (by simp only [hsum]; omega) (by simp only [hsum]; omega) (by simp only [hcycle]; omega)
    rw [symModelCoded_updating s h]
    exact (Bool.and_eq_true _ _).mpr ⟨(Bool.and_eq_true _ _).mpr ⟨hshape, hinit⟩, this⟩
  · have hr : m.remaining.toNat ≠ 1 := fun he => h (BitVec.eq_of_toNat_eq he)
    have hrem : (m.remaining - 1).toNat = m.remaining.toNat - 1 :=
      BitVec.toNat_sub_of_le (by rw [BitVec.le_def]; exact hr1)
    rw [symModelCoded_counting s h]
    refine (Bool.and_eq_true _ _).mpr ⟨(Bool.and_eq_true _ _).mpr ⟨hshape, hinit⟩, ?_⟩
    refine (SymModel.tablesOk_iff _).2 ⟨⟨hcnt, hpos⟩, ?_, htot, ⟨?_, ?_, hcyc⟩, hdlen, hhead, hrise, hdtab⟩
    all_goals simp only [hsum, hrem]; omega

/-- Settles O45: the four parts are the start and the coding step of each kind of model. -/
theorem codingKeepsTheModelBounds : Obligations.CodingKeepsTheModelBounds :=
  ⟨bitModelInit_ok, fun _ b hm => bitModelCoded_ok b hm, fun _ hm => symModelInit_readyOk hm,
    fun _ _ hm hs => symModelCoded_readyOk hm hs⟩

end Sys2Proof.Machine
end

section
/-! PROOF. What the coding procedures answer from a coder within its bounds: an encoder's moves to a sound
interval, a decoder's to a sound window (40_entropy_coder.md R161, R173). -/

namespace Sys2Proof.Reference

open Sys2Proof.Machine

/-! ## Windows -/

theorem Window.sound_field {w : Window} (hw : w.sound) (input : List Byte) {n : Nat} (hn : n ≤ 32) :
    (w.field input n).sound := by
  unfold Window.field
  split
  · exact Window.sound_raw (Window.sound_raw hw _ (by omega)) _ (by omega)
  · exact Window.sound_raw hw _ (by omega)

theorem Window.sound_halves {w : Window} (hw : w.sound) (input : List Byte) (n : Nat) :
    (Window.halves n w input).sound := by
  induction n generalizing w with
  | zero => exact hw
  | succ n ih => exact ih (Window.sound_raw hw _ (by omega))

theorem Window.sound_bit {w : Window} (hw : w.sound) (input : List Byte) {m : BitModel} (hm : m.ok) :
    (w.bit input m.p0.toNat).sound := by
  obtain ⟨⟨hp1, hp2⟩, -⟩ := (BitModel.ok_iff m).1 hm
  obtain ⟨h1, h2⟩ := bit_part_width hw.1 hp1 hp2
  have := hw.2.1
  unfold Window.bit
  split
  · exact Window.sound_shift w input _ (by omega) (by omega)
  · exact Window.sound_shift w input _ h1 (by omega)

/-- The first step of a field takes no more bytes than the field. -/
theorem Window.pos_field (w : Window) (input : List Byte) (n : Nat) :
    (w.raw input (firstStep n)).pos ≤ (w.field input n).pos := by
  unfold Window.field firstStep
  split
  · exact Window.pos_raw _ _ _
  · exact Nat.le_refl _

theorem Window.pos_halves (w : Window) (input : List Byte) (n : Nat) :
    (w.raw input 16).pos ≤ (Window.halves (n + 1) w input).pos := by
  induction n generalizing w with
  | zero => exact Nat.le_refl _
  | succ n ih => exact le_trans (Window.pos_raw _ _ _) (ih (w.raw input 16))

end Sys2Proof.Reference

namespace Sys2Proof.Machine

open Sys2Proof.Reference

/-! ## Encoding -/

theorem moved_eq_ok {g : Config} {c c' : Coder} {v : Interval} :
    moved g c v = .ok c' ↔ fits g v.bytes ∧ c' = withInterval c v := by
  unfold moved
  split
  · rename_i hf
    simp [hf, eq_comm]
  · rename_i hf
    simp [hf]

/-- The interval a raw write moves to (41_raw_fields.md R200-R216). -/
def writtenInterval (v : Interval) : Instr → Interval
  | .wrBits n x => v.field n x.toNat
  | .wrByte x => v.raw 8 x.toNat
  | .wrShort x => v.raw 16 x.toNat
  | .wrInt x => Interval.halves 2 v x.toNat
  | .wrInt64 x => Interval.halves 4 v x.toNat
  | .wrFloat x => Interval.halves 2 v x.toNat
  | .wrDouble x => Interval.halves 4 v x.toNat
  | _ => v

/-- The interval after a field of 16-bit parts is sound. -/
theorem sound_halves {v : Interval} (hv : v.sound) (n x : Nat) : (Interval.halves n v x).sound := by
  induction n generalizing v x with
  | zero => exact hv
  | succ n ih => exact ih (Interval.sound_raw hv (by omega) (Nat.mod_lt _ (by norm_num))) _

section
variable {g : Config} {c c' : Coder} (hv : (intervalOf c).sound) (hf : fits g c.outbuf.length)
include hv hf

theorem encBitM_ok {m m' : BitModel} {b : Bool} (hm : m.ok)
    (h : encBitM g.outCapacity c m b = .ok (c', m')) :
    moved g c ((intervalOf c).bit m.p0.toNat b) = .ok c' ∧ m' = bitModelCoded m b := by
  rw [← withInterval_intervalOf c, encBitM_eq g c _ m b hv hm hf] at h
  obtain ⟨d, hd, h⟩ := bind_eq_ok.1 h
  obtain ⟨rfl, rfl⟩ := Prod.mk.inj (Except.ok.inj h)
  exact ⟨hd, rfl⟩

theorem encSymM_ok {m m' : SymModel} {s : Nat} (hm : m.readyOk) (hs : s < m.nsym)
    (h : encSymM g.outCapacity c m s = .ok (c', m')) :
    moved g c ((intervalOf c).symbol m.dist s) = .ok c' ∧ m' = symModelCoded m s := by
  rw [← withInterval_intervalOf c, encSymM_eq g c _ m s hv hm hs hf] at h
  obtain ⟨d, hd, h⟩ := bind_eq_ok.1 h
  obtain ⟨rfl, rfl⟩ := Prod.mk.inj (Except.ok.inj h)
  exact ⟨hd, rfl⟩

/-- A raw write moves to its interval, which is sound. -/
theorem rawWriter_eq {i : Instr} {r : Coder → Res Coder} (hr : rawWriter g.outCapacity i = some r) :
    r c = moved g c (writtenInterval (intervalOf c) i) ∧ (writtenInterval (intervalOf c) i).sound := by
  have here {f : Coder → Res Coder} {v : Interval}
      (h : f (withInterval c (intervalOf c)) = moved g c v) : f c = moved g c v := by
    rwa [withInterval_intervalOf] at h
  cases i with
  | wrBits n x =>
    obtain ⟨hn, rfl⟩ : ¬ (n < 1 ∨ 32 < n ∨ 2 ^ n ≤ x.toNat) ∧ encBits g.outCapacity n x.toNat = r := by
      simpa [rawWriter] using hr
    exact ⟨here (encBits_eq g c _ n x.toNat hv (by omega) (by omega) hf),
      sound_field hv (by omega) (by omega)⟩
  | wrByte x | wrShort x =>
    obtain rfl := Option.some.inj hr
    exact ⟨here (encRaw_eq g c _ _ x.toNat hv (by omega) x.isLt hf),
      Interval.sound_raw hv (by omega) x.isLt⟩
  | wrInt x | wrFloat x =>
    obtain rfl := Option.some.inj hr
    exact ⟨here (encWord_eq g c _ x.toNat hv hf), sound_halves hv 2 _⟩
  | wrInt64 x | wrDouble x =>
    obtain rfl := Option.some.inj hr
    exact ⟨here (encDWord_eq g c _ x.toNat hv hf), sound_halves hv 4 _⟩
  | _ => cases hr

end

/-! ### Correctors -/

/-- The model of the class 0 corrector. -/
theorem mCorr0_ok {ic : IcRec} {ms : IcModels} (hms : ms.ok ic) : ms.mCorr0.ok := by
  obtain ⟨-, -, h, -⟩ := (IcModels.ok_iff ic ms).1 hms
  exact h

/-- A corrector is adjusted into the numbers of its class (43_integer_compressor.md R305). -/
theorem corrAdjust_lt (corr : Int) : corrAdjust (kClass corr) corr < 2 ^ kClass corr := by
  have hpos : 0 < 2 ^ kClass corr := by positivity
  unfold corrAdjust
  split
  · have : ((2 ^ kClass corr : Nat) : Int) = 2 ^ kClass corr := by push_cast; rfl
    omega
  · by_cases h0 : corr ≤ 0
    · rw [show (corr - 1).toNat = 0 by omega]
      exact hpos
    · rw [kClass, if_neg h0]
      exact (bitlen_le_iff _ _).1 (Nat.le_refl _)

/-- The modelled part of a corrector is a symbol of the model of its class. -/
theorem modelledPart_lt (ic : IcRec) (corr : Int) :
    modelledPart ic corr < 2 ^ min (kClass corr) ic.bitsHigh.toNat := by
  have h := corrAdjust_lt corr
  unfold modelledPart
  rw [Nat.div_lt_iff_lt_mul (by positivity), ← Nat.pow_add]
  rwa [show min (kClass corr) ic.bitsHigh.toNat + (kClass corr - ic.bitsHigh.toNat) = kClass corr by omega]

/-- The interval of a corrector of a class the compressor has is sound. -/
theorem sound_corrector {v : Interval} (hv : v.sound) {ic : IcRec} {ms : IcModels} (hms : ms.ok ic)
    {ctx : Nat} (hctx : ctx < ic.contexts) {corr : Int} (hk : kClass corr ≤ ic.corrBits) :
    (v.corrector ic ms ctx corr).sound := by
  obtain ⟨m, -, hm, hready, hnsym⟩ := mBits_getElem hms hctx
  have hclass := sound_symbol hv hready (s := kClass corr) (by omega)
  unfold Interval.corrector
  simp only [hm]
  split
  · exact sound_bit hclass (mCorr0_ok hms) _
  · split
    · exact hclass
    · obtain ⟨q, -, hq, hqready, hqnsym⟩ := mCorr_getElem hms (k := kClass corr) (by omega) hk
      have hpart := modelledPart_lt ic corr
      rw [modelledPart, ← hqnsym] at hpart
      simp only [hq]
      split
      · exact sound_symbol hclass hqready (by simpa [Nat.sub_eq_zero_of_le ‹_›] using hpart)
      · exact sound_field (sound_symbol hclass hqready hpart) (by omega) (Nat.mod_lt _ (by positivity))

/-- What `WriteCorrector` leaves when it completes. -/
theorem writeCorrector_ok {g : Config} {c c' : Coder} (hv : (intervalOf c).sound)
    (hf : fits g c.outbuf.length) {ic ic' : IcRec} {ms : IcModels} (hms : ms.ok ic) {ctx : Nat}
    (hctx : ctx < ic.contexts) {corr : Int} (h : writeCorrector g.outCapacity c ic ms ctx corr = .ok (c', ic')) :
    kClass corr ≤ ic.corrBits ∧ moved g c ((intervalOf c).corrector ic ms ctx corr) = .ok c' ∧
      ic' = codedCompressor ic ms ctx (kClass corr) (decide (corr = 1)) (modelledPart ic corr) := by
  have hk : kClass corr ≤ ic.corrBits := by
    obtain ⟨m, hm, -, -, hnsym⟩ := mBits_getElem hms hctx
    by_contra hgt
    simp [writeCorrector, icModel, hm, SymModel.last, show m.nsym - 1 < kClass corr by omega] at h
  rw [← withInterval_intervalOf c, writeCorrector_eq g c _ ic ms ctx corr hv hf hms hctx hk
    fun _ _ => corrAdjust_lt corr] at h
  obtain ⟨d, hd, h⟩ := bind_eq_ok.1 h
  obtain ⟨rfl, rfl⟩ := Prod.mk.inj (Except.ok.inj h)
  exact ⟨hk, hd, rfl⟩

/-! ## Decoding -/

theorem taken_eq_ok {c c' : Coder} {w : Window} :
    taken c w = .ok c' ↔ w.pos ≤ c.input.length ∧ c' = withWindow c w := by
  unfold taken
  split
  · rename_i h
    simp [h, eq_comm]
  · rename_i h
    simp [h]

/-- The coder has moved to a sound window of its input. -/
def MovesOn (c c' : Coder) : Prop := ∃ w : Window, w.sound ∧ w.pos ≤ c.input.length ∧ c' = withWindow c w

theorem movesOn_of_taken {c c' : Coder} {w : Window} (hw : w.sound) (h : taken c w = .ok c') : MovesOn c c' :=
  ⟨w, hw, taken_eq_ok.1 h⟩

/-- The window a raw read moves to (41_raw_fields.md R201-R217). -/
def readWindow (w : Window) (input : List Byte) : Instr → Window
  | .rdBits n => w.field input n
  | .rdByte => w.raw input 8
  | .rdShort => w.raw input 16
  | .rdInt => Window.halves 2 w input
  | .rdInt64 => Window.halves 4 w input
  | .rdFloat => Window.halves 2 w input
  | .rdDouble => Window.halves 4 w input
  | _ => w

/-- The value a raw read returns (41_raw_fields.md R201-R217). -/
def readValue (w : Window) (input : List Byte) : Instr → Nat
  | .rdBits n => w.fieldValue input n
  | .rdByte => w.rawValue 8
  | .rdShort => w.rawValue 16
  | .rdInt => Window.halvesValue 2 w input
  | .rdInt64 => Window.halvesValue 4 w input
  | .rdFloat => Window.halvesValue 2 w input
  | .rdDouble => Window.halvesValue 4 w input
  | _ => 0

/-- The width of the first step of a raw read, the one that can be out of range. -/
def readFirst : Instr → Nat
  | .rdBits n => firstStep n
  | .rdByte => 8
  | _ => 16

/-- What a raw read answers: its first step moves and is checked, then it moves on. -/
def readAnswer (c : Coder) (w : Window) (i : Instr) : Res (Nat × Coder) :=
  taken c (w.raw c.input (readFirst i)) >>= fun _ =>
    if 2 ^ readFirst i ≤ w.rawValue (readFirst i) then raise .rawDecodeRange
    else taken c (readWindow w c.input i) >>= fun c' => .ok (readValue w c.input i, c')

/-- A read of one step moves once. -/
theorem one_step_read (c : Coder) (w : Window) (n : Nat) :
    (taken c (w.raw c.input n) >>= fun c' =>
        if 2 ^ n ≤ w.rawValue n then raise .rawDecodeRange else .ok (w.rawValue n, c')) =
      (taken c (w.raw c.input n) >>= fun _ =>
        if 2 ^ n ≤ w.rawValue n then raise .rawDecodeRange
        else taken c (w.raw c.input n) >>= fun c' => .ok (w.rawValue n, c')) := by
  unfold taken
  split <;> rfl

/-- The symbol a window lies in is one of the alphabet. -/
theorem isSymbol_lt {w : Window} {m : SymModel} (hm : m.readyOk) {s : Nat} (hs : w.isSymbol m.dist s) :
    s < m.nsym := by
  obtain ⟨hlen, -⟩ := readyOk_dist hm
  exact hlen ▸ hs.1

section
variable {c : Coder} (hw : (windowOf c).sound) (hp : c.inpos ≤ c.input.length)
include hw hp

theorem decBitM_answer {m : BitModel} (hm : m.ok) :
    decBitM c m = (taken c ((windowOf c).bit c.input m.p0.toNat) >>= fun c' =>
      .ok ((windowOf c).bitValue m.p0.toNat, c', bitModelCoded m ((windowOf c).bitValue m.p0.toNat))) := by
  have h := decBitM_eq c (windowOf c) m hw hm (Nat.le_refl _) hp
  rwa [withWindow_windowOf] at h

theorem decSymM_answer {m : SymModel} (hm : m.readyOk) :
    ∃ s, (windowOf c).isSymbol m.dist s ∧
      decSymM c m = (taken c ((windowOf c).symbol c.input m.dist s) >>= fun c' =>
        .ok (s, c', symModelCoded m s)) := by
  obtain ⟨s, hs, -, h⟩ := decSymM_eq c (windowOf c) m hw hm (Nat.le_refl _) hp
  rw [withWindow_windowOf] at h
  exact ⟨s, hs, h⟩

/-- Every raw read answers as `readAnswer` says, and its window is sound. -/
theorem rawReader_eq {i : Instr} {r : Coder → Res (Nat × Coder)} (hr : rawReader i = some r) :
    r c = readAnswer c (windowOf c) i ∧ (readWindow (windowOf c) c.input i).sound := by
  have here {f : Coder → Res (Nat × Coder)} (h : f (withWindow c (windowOf c)) = readAnswer c (windowOf c) i) :
      f c = readAnswer c (windowOf c) i := by
    rwa [withWindow_windowOf] at h
  have hpos : c.inpos ≤ (windowOf c).pos := Nat.le_refl _
  cases i with
  | rdBits n =>
    obtain ⟨hn, rfl⟩ : ¬ (n < 1 ∨ 32 < n) ∧ decBits n = r := by simpa [rawReader] using hr
    exact ⟨here (decBits_eq c _ n hw (by omega) hpos hp), Window.sound_field hw _ (by omega)⟩
  | rdByte =>
    obtain rfl := Option.some.inj hr
    exact ⟨here ((decRaw_eq c _ 8 hw (by omega) hpos hp).trans (one_step_read c _ 8)),
      Window.sound_raw hw _ (by omega)⟩
  | rdShort =>
    obtain rfl := Option.some.inj hr
    exact ⟨here ((decRaw_eq c _ 16 hw (by omega) hpos hp).trans (one_step_read c _ 16)),
      Window.sound_raw hw _ (by omega)⟩
  | rdInt | rdFloat =>
    obtain rfl := Option.some.inj hr
    exact ⟨here (decWord_eq c _ hw hpos hp), Window.sound_halves hw _ 2⟩
  | rdInt64 | rdDouble =>
    obtain rfl := Option.some.inj hr
    exact ⟨here (decDWord_eq c _ hw hpos hp), Window.sound_halves hw _ 4⟩
  | _ => cases hr

theorem decBitM_ok {c' : Coder} {m m' : BitModel} {b : Bool} (hm : m.ok)
    (h : decBitM c m = .ok (b, c', m')) : MovesOn c c' ∧ m' = bitModelCoded m b := by
  rw [decBitM_answer hw hp hm] at h
  obtain ⟨d, hd, h⟩ := bind_eq_ok.1 h
  obtain ⟨rfl, rfl, rfl⟩ : _ ∧ d = c' ∧ _ := by simpa using h
  exact ⟨movesOn_of_taken (Window.sound_bit hw _ hm) hd, rfl⟩

theorem decSymM_ok {c' : Coder} {m m' : SymModel} {s : Nat} (hm : m.readyOk)
    (h : decSymM c m = .ok (s, c', m')) : MovesOn c c' ∧ s < m.nsym ∧ m' = symModelCoded m s := by
  obtain ⟨k, hk, he⟩ := decSymM_answer hw hp hm
  rw [he] at h
  obtain ⟨d, hd, h⟩ := bind_eq_ok.1 h
  obtain ⟨rfl, rfl, rfl⟩ : k = s ∧ d = c' ∧ _ := by simpa using h
  have hlt := isSymbol_lt hm hk
  exact ⟨movesOn_of_taken (window_sound_symbol hw _ hm hlt) hd, hlt, rfl⟩

theorem rawReader_ok {c' : Coder} {i : Instr} {r : Coder → Res (Nat × Coder)} {v : Nat}
    (hr : rawReader i = some r) (h : r c = .ok (v, c')) : MovesOn c c' := by
  obtain ⟨he, hs⟩ := rawReader_eq hw hp hr
  rw [he] at h
  obtain ⟨-, -, h⟩ := bind_eq_ok.1 h
  split at h
  · exact absurd h (raise_ne_ok _ _)
  · obtain ⟨d, hd, h⟩ := bind_eq_ok.1 h
    obtain ⟨-, rfl⟩ := Prod.mk.inj (Except.ok.inj h)
    exact movesOn_of_taken hs hd

/-- What `ReadCorrector` leaves when it completes. -/
theorem readCorrector_ok {c' : Coder} {ic ic' : IcRec} {ms : IcModels} (hms : ms.ok ic) {ctx : Nat}
    (hctx : ctx < ic.contexts) {corr : Int} (h : readCorrector c ic ms ctx = .ok (corr, c', ic')) :
    MovesOn c c' ∧ ∃ k b q, k ≤ ic.corrBits ∧ (1 ≤ k → k < 32 → q < 2 ^ min k ic.bitsHigh.toNat) ∧
      ic' = codedCompressor ic ms ctx k b q := by
  obtain ⟨k, q, hk, hkb, hq, he⟩ := readCorrector_eq c (windowOf c) ic ms ctx hw hms hctx (Nat.le_refl _) hp
  obtain ⟨m, -, hm, hready, hnsym⟩ := mBits_getElem hms hctx
  rw [withWindow_windowOf] at he
  rw [he] at h
  simp only [hm] at h hk hq
  have hw1 := window_sound_symbol hw c.input hready (isSymbol_lt hready hk)
  generalize (windowOf c).symbol c.input m.dist k = w1 at h hq hw1
  obtain ⟨_, h1, h⟩ := bind_eq_ok.1 h
  split at h
  · rename_i hk0
    obtain ⟨d, hd, h⟩ := bind_eq_ok.1 h
    obtain ⟨-, rfl, rfl⟩ : _ ∧ d = c' ∧ _ := by simpa using h
    exact ⟨movesOn_of_taken (Window.sound_bit hw1 _ (mCorr0_ok hms)) hd,
      k, _, q, hkb, fun h1 => by omega, rfl⟩
  · rename_i hk0
    split at h
    · rename_i hk32
      obtain ⟨p, -, hp, hpready, hpnsym⟩ := mCorr_getElem hms (k := k) (by omega) hkb
      simp only [hp] at h hq
      have hlt := isSymbol_lt hpready (hq (by omega) hk32)
      have hw2 := window_sound_symbol hw1 c.input hpready hlt
      rw [hpnsym] at hlt
      generalize w1.symbol c.input p.dist q = w2 at h hw2
      obtain ⟨_, h2, h⟩ := bind_eq_ok.1 h
      split at h
      · obtain ⟨-, rfl, rfl⟩ : _ ∧ withWindow c w2 = c' ∧ _ := by simpa using h
        exact ⟨⟨w2, hw2, (taken_eq_ok.1 h2).1, rfl⟩, k, _, q, hkb, fun _ _ => hlt, rfl⟩
      · obtain ⟨-, -, h⟩ := bind_eq_ok.1 h
        split at h
        · exact absurd h (raise_ne_ok _ _)
        · obtain ⟨d, hd, h⟩ := bind_eq_ok.1 h
          obtain ⟨-, rfl, rfl⟩ : _ ∧ d = c' ∧ _ := by simpa using h
          exact ⟨movesOn_of_taken (Window.sound_field hw2 _ (by omega)) hd, k, _, q, hkb,
            fun _ _ => hlt, rfl⟩
    · rename_i hk32
      obtain ⟨-, rfl, rfl⟩ : _ ∧ withWindow c w1 = c' ∧ _ := by simpa using h
      exact ⟨⟨w1, hw1, (taken_eq_ok.1 h1).1, rfl⟩, k, _, q, hkb, fun _ h => absurd h hk32, rfl⟩

end

/-! ## Opening a chunk to decode -/

/-- Four bytes as one word, the first one the most significant (20_memory.md R82). -/
theorem four_bytes_toNat (a b c d : Byte) : (a ++ b ++ c ++ d).toNat = bytesNumber [a, b, c, d] := by
  simp only [BitVec.toNat_append]
  rw [← Nat.shiftLeft_add_eq_or_of_lt b.isLt, ← Nat.shiftLeft_add_eq_or_of_lt c.isLt,
    ← Nat.shiftLeft_add_eq_or_of_lt d.isLt]
  simp only [Nat.shiftLeft_eq, bytesNumber, List.foldl_cons, List.foldl_nil]
  omega

/-- INIT_DEC takes the first four bytes of lookahead (40_entropy_coder.md R164). -/
theorem primeDec_eq (c : Coder) :
    primeDec c = taken { c with icount := 0 }
      ⟨bytesNumber ((c.input.drop c.inpos).take 4), 2 ^ 32 - 1, c.inpos + 4⟩ := by
  unfold primeDec taken
  by_cases h3 : c.inpos + 1 + 1 + 1 < c.input.length
  · have h2 : c.inpos + 1 + 1 < c.input.length := by omega
    have h1 : c.inpos + 1 < c.input.length := by omega
    have h0 : c.inpos < c.input.length := by omega
    have hbytes : (c.input.drop c.inpos).take 4 =
        [c.input[c.inpos], c.input[c.inpos + 1], c.input[c.inpos + 1 + 1], c.input[c.inpos + 1 + 1 + 1]] := by
      rw [List.drop_eq_getElem_cons h0, List.drop_eq_getElem_cons h1, List.drop_eq_getElem_cons h2,
        List.drop_eq_getElem_cons h3]
      rfl
    have hpop : c.inpos + 4 - c.inpos = 4 := by omega
    rw [if_pos (show c.inpos + 4 ≤ c.input.length by omega), hbytes, ← four_bytes_toNat]
    simp only [inPop_eq, dif_pos h0, dif_pos h1, dif_pos h2, dif_pos h3, res_bind_ok, withWindow,
      BitVec.ofNat_toNat, BitVec.setWidth_eq, hpop]
    rfl
  · rw [if_neg (show ¬ c.inpos + 4 ≤ c.input.length by omega)]
    by_cases h0 : c.inpos < c.input.length
    · by_cases h1 : c.inpos + 1 < c.input.length
      · by_cases h2 : c.inpos + 1 + 1 < c.input.length
        · simp only [inPop_eq, dif_pos h0, dif_pos h1, dif_pos h2, dif_neg h3, res_bind_ok, res_bind_raise]
        · simp only [inPop_eq, dif_pos h0, dif_pos h1, dif_neg h2, res_bind_ok, res_bind_raise]
      · simp only [inPop_eq, dif_pos h0, dif_neg h1, res_bind_ok, res_bind_raise]
    · simp only [inPop_eq, dif_neg h0, res_bind_raise]

theorem primeDec_ok {c c' : Coder} (h : primeDec c = .ok c') : MovesOn { c with icount := 0 } c' := by
  rw [primeDec_eq] at h
  refine movesOn_of_taken ⟨by norm_num, by norm_num, ?_⟩ h
  exact lt_of_lt_of_le (bytesNumber_lt _)
    (le_trans (Nat.pow_le_pow_right (by norm_num) (List.length_take_le _ _)) (by norm_num))

end Sys2Proof.Machine
end

section
/-! PROOF. Every step keeps a sound state sound: the coder, the two stores and the fault record one after the
other, for each way a command can complete (10_state.md R42, R44; 40_entropy_coder.md R161, R173;
43_integer_compressor.md R301). -/

namespace Sys2Proof.Machine

open Sys2Proof.Reference

/-! ## The parts of soundness -/

/-- The coder is within the bounds of its mode and of the two streams. -/
def coderWithin (g : Config) (mode : Mode) (c : Coder) : Prop :=
  c.ok mode ∧ fits g c.outbuf.length ∧ c.inpos ≤ c.input.length

/-- The model store is canonical and its records are legal. -/
def modelsWithin (g : Config) (ms : Store Slot) : Prop := ms.wf g.modelSlots ∧ ∀ x ∈ ms, x.2.ok

/-- The compressor store is canonical and its records are legal. -/
def compressorsWithin (g : Config) (ics : Store IcRec) : Prop :=
  ics.wf g.icSlots ∧ ∀ x ∈ ics, x.2.ok g.maxIcContexts

theorem sound_iff_within (s : State) :
    s.sound ↔ s.cfg.ok ∧ s.recordOk ∧ coderWithin s.cfg s.mode s.coder ∧ modelsWithin s.cfg s.ms ∧
      compressorsWithin s.cfg s.ics := by
  simp only [State.sound_iff, coderWithin, modelsWithin, compressorsWithin, and_assoc]

theorem modelsWithin_put {g : Config} {ms : Store Slot} (hms : modelsWithin g ms) {h : Nat} {m : Slot}
    (hh : h < g.modelSlots) (hm : m.ok) : modelsWithin g (Store.put ms h m) :=
  ⟨Store.wf_put hms.1 m hh, fun x hx => (Store.mem_put hx).elim (fun he => he ▸ hm) (hms.2 x)⟩

theorem modelsWithin_drop {g : Config} {ms : Store Slot} (hms : modelsWithin g ms) (h : Nat) :
    modelsWithin g (Store.drop ms h) :=
  ⟨Store.wf_drop hms.1 h, fun x hx => hms.2 x ((Store.drop_sublist ms h).subset hx)⟩

theorem compressorsWithin_put {g : Config} {ics : Store IcRec} (hics : compressorsWithin g ics) {h : Nat}
    {ic : IcRec} (hh : h < g.icSlots) (hic : ic.ok g.maxIcContexts) :
    compressorsWithin g (Store.put ics h ic) :=
  ⟨Store.wf_put hics.1 ic hh, fun x hx => (Store.mem_put hx).elim (fun he => he ▸ hic) (hics.2 x)⟩

theorem compressorsWithin_drop {g : Config} {ics : Store IcRec} (hics : compressorsWithin g ics) (h : Nat) :
    compressorsWithin g (Store.drop ics h) :=
  ⟨Store.wf_drop hics.1 h, fun x hx => hics.2 x ((Store.drop_sublist ics h).subset hx)⟩

/-! ## The records that commands make -/

theorem ok_of_readyOk {m : SymModel} (hm : m.readyOk) : m.ok := by
  simp only [SymModel.readyOk, Bool.and_eq_true] at hm
  obtain ⟨⟨hshape, hinit⟩, htables⟩ := hm
  simp [SymModel.ok, hshape, hinit, htables]

theorem shapeOk_of_ok {m : SymModel} (hm : m.ok) : m.shapeOk := by
  simp only [SymModel.ok, Bool.and_eq_true] at hm
  exact hm.1

theorem tableBits_le (nsym fuel tb : Nat) : tableBits nsym fuel tb ≤ tb + fuel := by
  induction fuel generalizing tb with
  | zero => exact Nat.le_refl _
  | succ fuel ih =>
    rw [tableBits]
    split
    · exact (ih (tb + 1)).trans (by omega)
    · omega

theorem symModelGeometry_lt (nsym : Nat) :
    (symModelGeometry nsym).1 < 2 ^ 32 ∧ (symModelGeometry nsym).2 < 2 ^ 32 := by
  unfold symModelGeometry
  split
  · exact ⟨by norm_num, by norm_num⟩
  · have htb := tableBits_le nsym 8 3
    have hpow : 2 ^ tableBits nsym 8 3 ≤ 2 ^ 11 := Nat.pow_le_pow_right (by norm_num) htb
    simp only [Nat.shiftLeft_eq, dmShift]
    omega

/-- A new symbol model of a legal alphabet has a legal shape. -/
theorem symModelNew_shapeOk {n : Nat} (h1 : 2 ≤ n) (h2 : n ≤ 2048) : (symModelNew n).shapeOk := by
  obtain ⟨hsize, hshift⟩ := symModelGeometry_lt n
  refine (SymModel.shapeOk_iff _).2 ⟨h1, h2, ?_⟩
  simp only [symModelNew, u32_toNat hsize, u32_toNat hshift]

theorem symModelNew_ok {n : Nat} (h1 : 2 ≤ n) (h2 : n ≤ 2048) : (symModelNew n).ok := by
  simp [SymModel.ok, symModelNew_shapeOk h1 h2]

theorem symModelFresh_readyOk {n : Nat} (h1 : 2 ≤ n) (h2 : n ≤ 2048) : (symModelFresh n).readyOk :=
  symModelInit_readyOk (symModelNew_shapeOk h1 h2)

/-- What `IcDerive` is given stands in the record it makes. -/
theorem icDerive_fields (bits contexts : Nat) (bitsHigh range : Word) :
    let ic := icDerive bits contexts bitsHigh range
    ic.bits = bits ∧ ic.contexts = contexts ∧ ic.bitsHigh = bitsHigh ∧ ic.range = range ∧ ic.k = 0 ∧
      ic.models = none := by
  unfold icDerive
  split
  · exact ⟨rfl, rfl, rfl, rfl, rfl, rfl⟩
  · split <;> exact ⟨rfl, rfl, rfl, rfl, rfl, rfl⟩

/-- A valid configuration gives a legal record (43_integer_compressor.md R308). -/
theorem icDerive_ok {maxContexts bits contexts : Nat} {bitsHigh range : Word}
    (hv : icValid maxContexts (icDerive bits contexts bitsHigh range)) :
    (icDerive bits contexts bitsHigh range).ok maxContexts := by
  obtain ⟨hbits, hcontexts, hhigh, hrange, hk, hmodels⟩ := icDerive_fields bits contexts bitsHigh range
  have fresh : { icDerive bits contexts bitsHigh range with k := 0, models := none } =
      icDerive bits contexts bitsHigh range := by rw [← hk, ← hmodels]
  refine (IcRec.ok_iff _ _).2 ⟨?_, hv, by omega, fun ms hms => ?_⟩
  · rw [fresh, hbits, hcontexts, hhigh, hrange]
  · rw [hmodels] at hms
    exact nomatch hms

/-- The parts of a valid configuration (43_integer_compressor.md R301). -/
theorem icValid_iff (maxContexts : Nat) (ic : IcRec) :
    icValid maxContexts ic = true ↔
      ic.bits ≤ 32 ∧ 1 ≤ ic.contexts ∧ ic.contexts ≤ maxContexts ∧ ic.range ≠ 1 ∧ 1 ≤ ic.bitsHigh.toNat ∧
        min ic.corrBits ic.bitsHigh.toNat ≤ 11 := by
  simp only [icValid, Bool.and_eq_true, decide_eq_true_eq, and_assoc]

theorem rangeBits_bounds {range : Nat} (h1 : 2 ≤ range) (h2 : range < 2 ^ 32) :
    1 ≤ rangeBits range ∧ rangeBits range ≤ 32 := by
  have hlo : ¬ bitlen range ≤ 1 := fun h => by have := (bitlen_le_iff range 1).1 h; omega
  have hhi := (bitlen_le_iff range 32).2 h2
  simp only [rangeBits]
  split <;> omega

/-- A range that is not 1 gives from 1 to 32 classes beside class 0. -/
theorem icDerive_corrBits {bits contexts : Nat} {bitsHigh range : Word} (hr : range ≠ 1) :
    1 ≤ (icDerive bits contexts bitsHigh range).corrBits ∧
      (icDerive bits contexts bitsHigh range).corrBits ≤ 32 := by
  unfold icDerive
  split
  · rename_i h0
    have hne : range.toNat ≠ 0 := fun h => h0 (BitVec.eq_of_toNat_eq h)
    have hne1 : range.toNat ≠ 1 := fun h => hr (BitVec.eq_of_toNat_eq h)
    exact rangeBits_bounds (by omega) range.isLt
  · split
    · simp only
      omega
    · exact ⟨by norm_num, Nat.le_refl _⟩

theorem corrBits_bounds {maxContexts : Nat} {ic : IcRec} (h : ic.ok maxContexts) :
    1 ≤ ic.corrBits ∧ ic.corrBits ≤ 32 := by
  obtain ⟨hderived, hv, -, -⟩ := (IcRec.ok_iff _ _).1 h
  obtain ⟨-, -, -, hr, -⟩ := (icValid_iff _ _).1 hv
  have hbits : ic.corrBits = (icDerive ic.bits ic.contexts ic.bitsHigh ic.range).corrBits := by rw [← hderived]
  rw [hbits]
  exact icDerive_corrBits hr

/-- The models IC_INIT builds for a legal record are legal (43_integer_compressor.md R302). -/
theorem icInitModels_ok {maxContexts : Nat} {ic : IcRec} (h : ic.ok maxContexts) :
    (icInitModels ic).ok ic := by
  obtain ⟨-, hv, -, -⟩ := (IcRec.ok_iff _ _).1 h
  obtain ⟨-, -, -, -, hhigh, hmin⟩ := (icValid_iff _ _).1 hv
  obtain ⟨hlo, hhi⟩ := corrBits_bounds h
  refine (IcModels.ok_iff _ _).2 ⟨List.length_replicate, fun m hm => ?_, bitModelInit_ok, fun m hm => ?_, ?_⟩
  · obtain rfl := List.eq_of_mem_replicate hm
    exact ⟨symModelFresh_readyOk (by omega) (by omega), rfl⟩
  · obtain ⟨j, hj, rfl⟩ := List.mem_map.1 hm
    have hj := List.mem_range.1 hj
    refine symModelFresh_readyOk ?_ ?_
    · exact Nat.le_self_pow (by omega) 2
    · calc 2 ^ min (j + 1) ic.bitsHigh.toNat ≤ 2 ^ 11 := Nat.pow_le_pow_right (by norm_num) (by omega)
        _ = 2048 := by norm_num
  · simp [icInitModels, Function.comp_def]

/-- A record with other models and another last exponent. -/
theorem icRec_ok_update {maxContexts k : Nat} {ic : IcRec} {ms : IcModels} (h : ic.ok maxContexts)
    (hk : k ≤ ic.corrBits) (hms : ms.ok ic) :
    IcRec.ok maxContexts { ic with k := k, models := some ms } := by
  obtain ⟨hderived, hv, -, -⟩ := (IcRec.ok_iff _ _).1 h
  exact (IcRec.ok_iff _ _).2 ⟨hderived, hv, hk, fun ms' hms' => Option.some.inj hms' ▸ hms⟩

/-- Changing one element of a list that has a property keeps the property of all. -/
theorem forall_mem_modify {α : Type} {P : α → Prop} {l : List α} {i : Nat} {f : α → α} (hl : ∀ x ∈ l, P x)
    (hf : ∀ x, l[i]? = some x → P (f x)) : ∀ x ∈ l.modify i f, P x := by
  intro x hx
  obtain ⟨j, hj, rfl⟩ := List.getElem_of_mem hx
  rw [List.getElem_modify]
  split
  · rename_i hij
    subst hij
    exact hf _ (List.getElem?_eq_getElem (by simpa using hj))
  · exact hl _ (List.getElem_mem _)

/-- The models of a compressor after a corrector of a class it has (43_integer_compressor.md R305, R306). -/
theorem codedCompressor_ok {maxContexts : Nat} {ic : IcRec} {ms : IcModels} (h : ic.ok maxContexts)
    (hms : ms.ok ic) {ctx k q : Nat} (b : Bool) (hk : k ≤ ic.corrBits)
    (hq : 1 ≤ k → k < 32 → q < 2 ^ min k ic.bitsHigh.toNat) :
    (codedCompressor ic ms ctx k b q).ok maxContexts := by
  obtain ⟨hlen, hbits, hcorr0, hcorr, hsizes⟩ := (IcModels.ok_iff ic ms).1 hms
  have hbits' : ∀ m ∈ ms.mBits.modify ctx (fun m => symModelCoded m k),
      m.readyOk ∧ m.nsym = ic.corrBits + 1 :=
    forall_mem_modify hbits fun m hm => by
      obtain ⟨hready, hnsym⟩ := hbits m (List.mem_of_getElem? hm)
      exact ⟨symModelCoded_readyOk hready (by omega), by rw [symModelCoded_nsym, hnsym]⟩
  have hlen' : (ms.mBits.modify ctx fun m => symModelCoded m k).length = ic.contexts := by
    rw [List.length_modify, hlen]
  unfold codedCompressor
  refine icRec_ok_update h hk ((IcModels.ok_iff _ _).2 ?_)
  split
  · exact ⟨hlen', hbits', bitModelCoded_ok b hcorr0, hcorr, hsizes⟩
  · rename_i hk0
    split
    · exact ⟨hlen', hbits', hcorr0, hcorr, hsizes⟩
    · obtain ⟨p, hp, -, -, hpnsym⟩ := mCorr_getElem hms (k := k) (by omega) hk
      refine ⟨hlen', hbits', hcorr0, forall_mem_modify hcorr fun m hm => ?_, ?_⟩
      · obtain rfl := Option.some.inj (hp.symm.trans hm)
        exact symModelCoded_readyOk (hcorr _ (List.mem_of_getElem? hm)) (hpnsym ▸ hq (by omega) (by omega))
      · rw [← hsizes]
        refine List.ext_getElem (by simp) fun j h1 h2 => ?_
        simp only [List.getElem_map, List.getElem_modify]
        split
        · exact symModelCoded_nsym _ _
        · rfl

/-! ## Completed commands -/

/-- The interval of an open encoder chunk is sound. -/
theorem sound_interval {s : State} (hs : s.sound) (hm : s.mode = .encode) : (intervalOf s.coder).sound :=
  (coder_ok_encode _).1 (hm ▸ sound_coder hs)

/-- The window of an open decoder chunk is sound. -/
theorem sound_window {s : State} (hs : s.sound) (hm : s.mode = .decode) : (windowOf s.coder).sound :=
  window_sound_of_ok (hm ▸ sound_coder hs)

/-- The models of a ready compressor are legal. -/
theorem icModels_ok_of_ready {maxContexts : Nat} {ic : IcRec} {ms : IcModels} (h : ic.ok maxContexts)
    (hms : ic.models = some ms) : ms.ok ic :=
  ((IcRec.ok_iff _ _).1 h).2.2.2 ms hms

/-- The symbols of an initialised model are those up to `last`. -/
theorem lt_nsym_of_le_last {m : SymModel} (hm : m.readyOk) {s : Nat} (hs : s ≤ m.last) : s < m.nsym := by
  obtain ⟨-, h2, -⟩ := readyOk_dist hm
  simp only [SymModel.last] at hs
  omega

/-- A decoder's command that moves on keeps the coder within its bounds, given an empty `OUTBUF`. -/
theorem coderWithin_of_movesOn {g : Config} {c d : Coder} (hd : d.outbuf = []) (h : MovesOn d c) :
    coderWithin g .decode c := by
  obtain ⟨w, hw, hp, rfl⟩ := h
  refine ⟨?_, by simp [hd, fits_zero], hp⟩
  simp only [Coder.ok, withWindow_length, withWindow_outbuf, hd, BitVec.toNat_ofNat, Nat.mod_eq_of_lt hw.2.1,
    Bool.and_eq_true, decide_eq_true_eq]
  exact ⟨hw.1, trivial⟩

/-- The interval of a chunk that has just been opened (40_entropy_coder.md R163). -/
theorem intervalOf_opened (c : Coder) :
    intervalOf { c with base := 0, length := maxLen, outbuf := [] } = ⟨0, 2 ^ 32 - 1, 0⟩ := by
  simp [intervalOf, maxLen]

section
variable {s u : State} {i : Instr} (hs : s.sound)
include hs

/-- The bit model a command works on is legal. -/
theorem bit_ok_of_getBit {h : Nat} {m : BitModel} (hm : getBit s h = .ok m) : h < s.cfg.modelSlots ∧ m.ok :=
  sound_bitModel hs (getBit_eq_ok.1 hm).2

/-- The symbol model a coding command works on may be coded with. -/
theorem ready_of_getReadySym {h : Nat} {m : SymModel} (hm : getReadySym s h = .ok m) :
    h < s.cfg.modelSlots ∧ m.readyOk := by
  obtain ⟨hh, hf, hi⟩ := getReadySym_eq_ok.1 hm
  exact ⟨hh, readyOk_of_ok (sound_symModel hs hf).2 hi⟩

/-- The compressor a coding command works on is legal, and so are its models and its context. -/
theorem legal_of_getReadyIc {h : Nat} {context : Word} {ic : IcRec} {ms : IcModels}
    (hi : getReadyIc s h context = .ok (ic, ms)) :
    h < s.cfg.icSlots ∧ ic.ok s.cfg.maxIcContexts ∧ ms.ok ic ∧ context.toNat < ic.contexts := by
  obtain ⟨hh, hf, hctx, hms⟩ := getReadyIc_eq_ok.1 hi
  have hic := (sound_ic hs hf).2
  exact ⟨hh, hic, icModels_ok_of_ready hic hms, hctx⟩

/-- An encoder's command that moves to a sound interval keeps the coder within its bounds. -/
theorem coderWithin_of_moved {c : Coder} {v : Interval} (hv : v.sound)
    (h : moved s.cfg s.coder v = .ok c) : coderWithin s.cfg .encode c := by
  obtain ⟨hf, rfl⟩ := moved_eq_ok.1 h
  exact ⟨coder_ok_withInterval _ hv, by simpa using hf, sound_inpos hs⟩

/-- Outside an encoder chunk `OUTBUF` is empty. -/
theorem sound_outbuf_nil (hm : s.mode = .idle ∨ s.mode = .decode) : s.coder.outbuf = [] := by
  have h := sound_coder hs
  obtain hm | hm := hm
  · simpa [hm, Coder.ok] using h
  · rw [hm] at h
    simp only [Coder.ok, Bool.and_eq_true, decide_eq_true_eq] at h
    exact h.2

theorem completes_coderWithin (h : Completes s i u) (hm : s.mode ∈ modesOf i) :
    coderWithin u.cfg u.mode u.coder := by
  have hf := sound_fits hs
  have hp := sound_inpos hs
  have same : coderWithin s.cfg s.mode s.coder := ⟨sound_coder hs, hf, hp⟩
  cases h with
  | initEnc =>
    refine ⟨(coder_ok_encode _).2 ?_, fits_zero _, hp⟩
    rw [intervalOf_opened, Interval.sound]
    norm_num
  | initDec hc =>
    have hm : s.mode = .idle := List.mem_singleton.1 hm
    exact coderWithin_of_movesOn (d := { s.coder with icount := 0 }) (sound_outbuf_nil hs (.inl hm))
      (primeDec_ok hc)
  | doneEnc hc =>
    obtain ⟨-, hin, hpos, -⟩ := (flushEnc_keepsInput _ _).1 _ hc
    exact ⟨rfl, fits_zero _, by simp only [hin, hpos]; exact hp⟩
  | doneDec =>
    have hm : s.mode = .decode := List.mem_singleton.1 hm
    have hnil := sound_outbuf_nil hs (.inr hm)
    exact ⟨decide_eq_true hnil, hf, hp⟩
  | encBit hg _ hc =>
    have hm : s.mode = .encode := List.mem_singleton.1 hm
    have hok := (bit_ok_of_getBit hs hg).2
    have hv := sound_interval hs hm
    simp only [hm]
    exact coderWithin_of_moved hs (sound_bit hv hok _) (encBitM_ok hv hf hok hc).1
  | encSym hg hx hc =>
    have hm : s.mode = .encode := List.mem_singleton.1 hm
    have hok := (ready_of_getReadySym hs hg).2
    have hv := sound_interval hs hm
    have hlt := lt_nsym_of_le_last hok hx
    simp only [hm]
    exact coderWithin_of_moved hs (sound_symbol hv hok hlt) (encSymM_ok hv hf hok hlt hc).1
  | write hr hc =>
    have hm : s.mode = .encode := by simpa [(rawWriter_row hr).1] using hm
    obtain ⟨he, hv⟩ := rawWriter_eq (sound_interval hs hm) hf hr
    simp only [hm]
    exact coderWithin_of_moved hs hv (he ▸ hc)
  | icCompress hi hc =>
    have hm : s.mode = .encode := List.mem_singleton.1 hm
    obtain ⟨-, hic, hms, hctx⟩ := legal_of_getReadyIc hs hi
    have hv := sound_interval hs hm
    obtain ⟨hk, hmoved, -⟩ := writeCorrector_ok hv hf hms hctx hc
    simp only [hm]
    exact coderWithin_of_moved hs (sound_corrector hv hms hctx hk) hmoved
  | decBit hg hc =>
    have hm : s.mode = .decode := List.mem_singleton.1 hm
    have hok := (bit_ok_of_getBit hs hg).2
    simp only [hm]
    exact coderWithin_of_movesOn (sound_outbuf_nil hs (.inr hm)) (decBitM_ok (sound_window hs hm) hp hok hc).1
  | decSym hg hc =>
    have hm : s.mode = .decode := List.mem_singleton.1 hm
    have hok := (ready_of_getReadySym hs hg).2
    simp only [hm]
    exact coderWithin_of_movesOn (sound_outbuf_nil hs (.inr hm)) (decSymM_ok (sound_window hs hm) hp hok hc).1
  | read hr hc =>
    have hm : s.mode = .decode := by simpa [(rawReader_row hr).1] using hm
    simp only [hm]
    exact coderWithin_of_movesOn (sound_outbuf_nil hs (.inr hm)) (rawReader_ok (sound_window hs hm) hp hr hc)
  | icDecompress hi hc =>
    have hm : s.mode = .decode := List.mem_singleton.1 hm
    obtain ⟨-, -, hms, hctx⟩ := legal_of_getReadyIc hs hi
    simp only [hm]
    exact coderWithin_of_movesOn (sound_outbuf_nil hs (.inr hm))
      (readCorrector_ok (sound_window hs hm) hp hms hctx hc).1
  | _ => exact same

theorem completes_modelsWithin (h : Completes s i u) (hm : s.mode ∈ modesOf i) : modelsWithin u.cfg u.ms := by
  obtain ⟨-, -, -, same, -⟩ := (sound_iff_within s).1 hs
  have hf := sound_fits hs
  have hp := sound_inpos hs
  cases h with
  | encBit hg _ hc =>
    obtain ⟨hh, hok⟩ := bit_ok_of_getBit hs hg
    obtain ⟨-, rfl⟩ := encBitM_ok (sound_interval hs (List.mem_singleton.1 hm)) hf hok hc
    exact modelsWithin_put same hh (bitModelCoded_ok _ hok)
  | decBit hg hc =>
    obtain ⟨hh, hok⟩ := bit_ok_of_getBit hs hg
    obtain ⟨-, rfl⟩ := decBitM_ok (sound_window hs (List.mem_singleton.1 hm)) hp hok hc
    exact modelsWithin_put same hh (bitModelCoded_ok _ hok)
  | encSym hg hx hc =>
    obtain ⟨hh, hok⟩ := ready_of_getReadySym hs hg
    have hlt := lt_nsym_of_le_last hok hx
    obtain ⟨-, rfl⟩ := encSymM_ok (sound_interval hs (List.mem_singleton.1 hm)) hf hok hlt hc
    exact modelsWithin_put same hh (ok_of_readyOk (symModelCoded_readyOk hok hlt))
  | decSym hg hc =>
    obtain ⟨hh, hok⟩ := ready_of_getReadySym hs hg
    obtain ⟨-, hlt, rfl⟩ := decSymM_ok (sound_window hs (List.mem_singleton.1 hm)) hp hok hc
    exact modelsWithin_put same hh (ok_of_readyOk (symModelCoded_readyOk hok hlt))
  | mdlNewBit he => exact modelsWithin_put same (needEmptySlot_eq_ok.1 he).1 bitModelInit_ok
  | mdlNewSym he hn => exact modelsWithin_put same (needEmptySlot_eq_ok.1 he).1 (symModelNew_ok hn.1 hn.2)
  | mdlInitBit hg => exact modelsWithin_put same (getBit_eq_ok.1 hg).1 bitModelInit_ok
  | mdlInitSym hg =>
    obtain ⟨hh, hfind⟩ := getSym_eq_ok.1 hg
    exact modelsWithin_put same hh
      (ok_of_readyOk (symModelInit_readyOk (shapeOk_of_ok (sound_symModel hs hfind).2)))
  | mdlFree => exact modelsWithin_drop same _
  | _ => exact same

theorem completes_compressorsWithin (h : Completes s i u) (hm : s.mode ∈ modesOf i) :
    compressorsWithin u.cfg u.ics := by
  obtain ⟨-, -, -, -, same⟩ := (sound_iff_within s).1 hs
  cases h with
  | icConfig he hv => exact compressorsWithin_put same (needEmptyIc_eq_ok.1 he).1 (icDerive_ok hv)
  | icInit hi =>
    obtain ⟨hh, hfind⟩ := getIc_eq_ok.1 hi
    have hic := (sound_ic hs hfind).2
    exact compressorsWithin_put same hh
      (icRec_ok_update hic ((IcRec.ok_iff _ _).1 hic).2.2.1 (icInitModels_ok hic))
  | icCompress hi hc =>
    obtain ⟨hh, hic, hms, hctx⟩ := legal_of_getReadyIc hs hi
    obtain ⟨hk, -, rfl⟩ :=
      writeCorrector_ok (sound_interval hs (List.mem_singleton.1 hm)) (sound_fits hs) hms hctx hc
    exact compressorsWithin_put same hh
      (codedCompressor_ok hic hms _ hk fun _ _ => modelledPart_lt _ _)
  | icDecompress hi hc =>
    obtain ⟨hh, hic, hms, hctx⟩ := legal_of_getReadyIc hs hi
    obtain ⟨-, k, b, q, hk, hq, rfl⟩ :=
      readCorrector_ok (sound_window hs (List.mem_singleton.1 hm)) (sound_inpos hs) hms hctx hc
    exact compressorsWithin_put same hh (codedCompressor_ok hic hms b hk hq)
  | icFree => exact compressorsWithin_drop same _
  | _ => exact same

theorem completes_recordOk (h : Completes s i u) (hm : s.mode ∈ modesOf i) : u.recordOk := by
  obtain ⟨-, hr, -⟩ := (State.sound_iff s).1 hs
  have hopen := open_of_mem_modesOf hm
  have hopen' : u.mode ≠ .faulted := (completes_mode h).elim (fun he => he ▸ hopen) And.left
  rw [State.recordOk, if_neg hopen] at hr
  rw [State.recordOk, if_neg hopen', completes_frame h]
  exact hr

/-- A completed command keeps a sound state sound. -/
theorem completes_sound (h : Completes s i u) (hm : s.mode ∈ modesOf i) : u.sound := by
  obtain ⟨hg, -⟩ := (State.sound_iff s).1 hs
  refine (sound_iff_within u).2 ⟨?_, completes_recordOk hs h hm, completes_coderWithin hs h hm,
    completes_modelsWithin hs h hm, completes_compressorsWithin hs h hm⟩
  rw [completes_frame h]
  exact hg

/-! ## Steps -/

/-- A fault with a code of its own keeps a sound state sound: nothing but its record changes. -/
theorem takeFault_sound {code : FaultCode} (hc : code ≠ .none) (opc : Byte) : (takeFault code opc s).sound := by
  obtain ⟨hg, -, ⟨-, hf, hp⟩, hms, hics⟩ := (sound_iff_within s).1 hs
  refine (sound_iff_within _).2 ⟨hg, ?_, ⟨rfl, hf, hp⟩, hms, hics⟩
  simp [State.recordOk, hc]

theorem exec_sound {t : State} (h : exec i s = .next t) : t.sound := by
  cases exec_ends h with
  | ignored | reported => exact hs
  | fault _ hc => exact takeFault_sound hs hc _
  | @done u hm hu => exact completes_sound (u := u) hs hu hm

theorem issue_sound {c : Command} {t : State} (h : issue c s = .next t) : t.sound := by
  obtain ⟨i, -, he⟩ | ⟨e, -, he⟩ := issue_cases c s
  · exact exec_sound hs (he ▸ h)
  · obtain rfl := Host.Outcome.next.inj (he.symm.trans h)
    by_cases hf : s.mode = .faulted
    · rw [illegalCommand_faulted c hf]
      exact hs
    · rw [illegalCommand_open c hf]
      exact takeFault_sound hs (by decide) _

theorem loadInput_sound (bytes : List Byte) : (loadInput bytes s).sound := by
  by_cases hm : s.mode = .idle
  · obtain ⟨hg, hr, ⟨-, hf, -⟩, hms, hics⟩ := (sound_iff_within s).1 hs
    rw [loadInput_idle bytes hm]
    refine (sound_iff_within _).2 ⟨hg, hr, ⟨?_, hf, Nat.zero_le _⟩, hms, hics⟩
    simpa [hm, Coder.ok] using sound_outbuf_nil hs (.inl hm)
  · rw [loadInput_not_idle bytes hm]
    exact hs

theorem runHostOp_sound {op : HostOp} {t : State} (h : runHostOp op s = .next t) : t.sound := by
  obtain ⟨c, u, -, hu, rfl⟩ | ⟨bytes, -, rfl⟩ | ⟨-, rfl⟩ | ⟨-, rfl⟩ := runHostOp_next h
  · exact (issue_sound hs hu : u.sound)
  · exact loadInput_sound hs bytes
  · exact hs
  · exact State.sound_resetWith ((State.sound_iff s).1 hs).1

end

/-- Settles O11: a step is a host operation on the state without it, or changes nothing. -/
theorem stepKeepsSoundness : Obligations.StepKeepsSoundness := by
  intro s t hs h
  obtain ⟨-, rfl⟩ | ⟨op, rest, -, h⟩ := step_next h
  · exact hs
  · exact runHostOp_sound (s := { s with pending := rest }) hs h

end Sys2Proof.Machine
end

section
/-! PROOF. Decoding undoes coding, in exact integers: a window that matches an interval, on bytes that lie in a
part of the interval, finds that part and matches it again (40_entropy_coder.md R162; 41_raw_fields.md R220). -/

namespace Sys2Proof.Reference

open Sys2Proof.Machine

/-! ## Bytes inside an interval -/

/-- The bytes `f` spell a number inside the interval. -/
def Interval.holds (v : Interval) (f : List Byte) : Prop :=
  v.bytes + 4 ≤ f.length ∧ v.number ≤ bytesNumber (f.take (v.bytes + 4)) ∧
    bytesNumber (f.take (v.bytes + 4)) < v.number + v.width

theorem leadsInto_iff (f : List Byte) (c : Coder) : leadsInto f c ↔ (intervalOf c).holds f := Iff.rfl

/-- The number of some more bytes of a sequence. -/
theorem bytesNumber_take_add {f : List Byte} {n r : Nat} (h : n + r ≤ f.length) :
    bytesNumber (f.take (n + r)) = bytesNumber (f.take n) * 256 ^ r + bytesNumber ((f.drop n).take r) ∧
      bytesNumber ((f.drop n).take r) < 256 ^ r := by
  have hlen : ((f.drop n).take r).length = r := by
    rw [List.length_take, List.length_drop]
    omega
  have hlt := bytesNumber_lt ((f.drop n).take r)
  rw [hlen] at hlt
  rw [List.take_add, bytesNumber_append, hlen]
  exact ⟨rfl, hlt⟩

/-- Bytes inside a part of an interval lie between the ends of that part. -/
theorem Interval.ends_of_holds_part {v : Interval} {x y : Nat} {f : List Byte} (h : (v.part x y).holds f) :
    v.bytes + 4 ≤ f.length ∧ v.number + x ≤ bytesNumber (f.take (v.bytes + 4)) ∧
      bytesNumber (f.take (v.bytes + 4)) < v.number + x + y := by
  obtain ⟨hlen, hlo, hhi⟩ := h
  simp only [Interval.part, Nat.add_right_comm v.bytes _ 4] at hlen hlo hhi
  obtain ⟨hB, hL⟩ := bytesNumber_take_add hlen
  rw [hB] at hlo hhi
  rw [← Nat.add_mul] at hhi
  refine ⟨by omega, ?_, Nat.lt_of_mul_lt_mul_right (lt_of_le_of_lt (Nat.le_add_right _ _) hhi)⟩
  refine Nat.le_of_lt_succ (Nat.lt_of_mul_lt_mul_right (lt_of_le_of_lt hlo ?_) (a := 256 ^ renormSteps y))
  rw [Nat.succ_mul]
  exact Nat.add_lt_add_left hL _

/-- The interval `u` was reached from `v`: no byte was taken back, and bytes inside `u` are inside `v`. -/
def Interval.inside (u v : Interval) : Prop := v.bytes ≤ u.bytes ∧ ∀ f, u.holds f → v.holds f

theorem Interval.inside_refl (v : Interval) : v.inside v := ⟨Nat.le_refl _, fun _ h => h⟩

theorem Interval.inside_trans {u v w : Interval} (h : u.inside v) (h' : v.inside w) : u.inside w :=
  ⟨h'.1.trans h.1, fun f hf => h'.2 f (h.2 f hf)⟩

/-- Bytes inside a part of an interval are inside the interval. -/
theorem Interval.inside_part {v : Interval} {x y : Nat} (hxy : x + y ≤ v.width) : (v.part x y).inside v := by
  refine ⟨Nat.le_add_right _ _, fun f h => ?_⟩
  obtain ⟨hlen, hlo, hhi⟩ := Interval.ends_of_holds_part h
  exact ⟨hlen, by omega, by omega⟩

/-- The parts of a raw step lie side by side in the interval (41_raw_fields.md R200). -/
theorem raw_part_le {width n x : Nat} (hx : x < 2 ^ n) : x * (width / 2 ^ n) + width / 2 ^ n ≤ width :=
  calc x * (width / 2 ^ n) + width / 2 ^ n = (x + 1) * (width / 2 ^ n) := by ring
    _ ≤ 2 ^ n * (width / 2 ^ n) := Nat.mul_le_mul_right _ hx
    _ ≤ width := Nat.mul_div_le _ _

theorem Interval.inside_raw (v : Interval) {n x : Nat} (hx : x < 2 ^ n) : (v.raw n x).inside v :=
  Interval.inside_part (raw_part_le hx)

/-- The upper part of a field of two steps fits its step. -/
theorem field_upper_lt {n x : Nat} (hn : 19 < n) (hx : x < 2 ^ n) : x / 2 ^ 16 < 2 ^ (n - 16) := by
  rw [Nat.div_lt_iff_lt_mul (by positivity), ← Nat.pow_add]
  rwa [show n - 16 + 16 = n by omega]

theorem Interval.inside_field (v : Interval) {n x : Nat} (hx : x < 2 ^ n) : (v.field n x).inside v := by
  unfold Interval.field
  split
  · exact Interval.inside_trans (Interval.inside_raw _ (field_upper_lt ‹_› hx))
      (Interval.inside_raw v (Nat.mod_lt _ (by norm_num)))
  · exact Interval.inside_raw v hx

theorem Interval.inside_halves (v : Interval) (n x : Nat) : (Interval.halves n v x).inside v := by
  induction n generalizing v x with
  | zero => exact Interval.inside_refl v
  | succ n ih => exact Interval.inside_trans (ih _ _) (Interval.inside_raw v (Nat.mod_lt _ (by norm_num)))

theorem Interval.inside_bit {v : Interval} (hv : v.sound) {m : BitModel} (hm : m.ok) (b : Bool) :
    (v.bit m.p0.toNat b).inside v := by
  obtain ⟨⟨hp1, hp2⟩, -⟩ := (BitModel.ok_iff m).1 hm
  obtain ⟨-, hlt⟩ := bit_part_width hv.1 hp1 hp2
  unfold Interval.bit
  split <;> exact Interval.inside_part (by omega)

theorem Interval.inside_symbol {v : Interval} (hv : v.sound) {m : SymModel} (hm : m.readyOk) {s : Nat}
    (hs : s < m.nsym) : (v.symbol m.dist s).inside v := by
  obtain ⟨h1, h2⟩ := symbolEnds_bounds hm hv.1 hs
  exact Interval.inside_part (x := (symbolEnds m.dist v.width s).1)
    (y := (symbolEnds m.dist v.width s).2 - (symbolEnds m.dist v.width s).1) (by omega)

/-! ## Windows that match intervals -/

/-- The window `w` on `input` matches the interval `v` of a chunk that begins at `at0`: equal widths, four bytes
of lookahead, and the offset of the bytes read so far in the interval, inside it (40_entropy_coder.md R162). -/
structure Matched (v : Interval) (w : Window) (input : List Byte) (at0 : Nat) : Prop where
  width : w.width = v.width
  pos : w.pos = at0 + (v.bytes + 4)
  inside : w.pos ≤ input.length
  offset : v.number + w.value = bytesNumber ((input.drop at0).take (v.bytes + 4))
  below : w.value < v.width

theorem synced_iff (c d : Coder) (at0 : Nat) :
    synced c d at0 ↔ Matched (intervalOf c) (windowOf d) d.input at0 := by
  constructor
  · rintro ⟨h1, h2, h3, h4, h5⟩
    exact ⟨congrArg BitVec.toNat h1, h2, h3, h4, h5⟩
  · rintro ⟨h1, h2, h3, h4, h5⟩
    exact ⟨BitVec.eq_of_toNat_eq h1, h2, h3, h4, h5⟩

section
variable {v : Interval} {w : Window} {input : List Byte} {at0 : Nat} (hw : Matched v w input at0)
include hw

/-- The offset lies in the part the bytes lie in, and moving there matches that part. -/
theorem Matched.part {x y : Nat} (hy : y < 2 ^ 32) (hf : (v.part x y).holds (input.drop at0)) :
    x ≤ w.value ∧ w.value < x + y ∧ Matched (v.part x y) (w.shift input (w.value - x) y) input at0 := by
  obtain ⟨-, hlo, hhi⟩ := Interval.ends_of_holds_part hf
  obtain ⟨hlen, -, -⟩ := hf
  have hoff := hw.offset
  have hx : x ≤ w.value := by omega
  have hxy : w.value < x + y := by omega
  refine ⟨hx, hxy, ?_⟩
  simp only [Interval.part, Nat.add_right_comm v.bytes _ 4] at hlen
  obtain ⟨hB, hL⟩ := bytesNumber_take_add hlen
  rw [List.drop_drop, ← hw.pos] at hB hL
  obtain ⟨-, hwidth⟩ := renormSteps_width (show 1 ≤ y by omega) hy
  have hbelow : (w.value - x) * 256 ^ renormSteps y + bytesNumber ((input.drop w.pos).take (renormSteps y)) <
      y * 256 ^ renormSteps y :=
    calc _ < (w.value - x) * 256 ^ renormSteps y + 256 ^ renormSteps y := Nat.add_lt_add_left hL _
      _ = (w.value - x + 1) * 256 ^ renormSteps y := by ring
      _ ≤ y * 256 ^ renormSteps y := Nat.mul_le_mul_right _ (by omega)
  rw [List.length_drop] at hlen
  have hpos := hw.pos
  refine ⟨rfl, ?_, ?_, ?_, ?_⟩
  · simp only [Window.shift, Interval.part]
    omega
  · simp only [Window.shift]
    omega
  · simp only [Window.shift, Interval.part, Nat.mod_eq_of_lt (hbelow.trans hwidth),
      Nat.add_right_comm v.bytes _ 4, hB, ← hoff]
    rw [← Nat.add_assoc, ← Nat.add_mul, show v.number + x + (w.value - x) = v.number + w.value by omega]
  · simp only [Window.shift, Interval.part, Nat.mod_eq_of_lt (hbelow.trans hwidth)]
    exact hbelow

/-- A raw step reads what was coded (41_raw_fields.md R201, R220). -/
theorem Matched.raw {n x : Nat} (hv : v.sound) (hf : (v.raw n x).holds (input.drop at0)) :
    w.rawValue n = x ∧ Matched (v.raw n x) (w.raw input n) input at0 := by
  have hlt : v.width / 2 ^ n < 2 ^ 32 := lt_of_le_of_lt (Nat.div_le_self _ _) hv.2.1
  obtain ⟨hlo, hhi, hmatched⟩ := hw.part hlt hf
  have hvalue : w.value / (w.width / 2 ^ n) = x := by
    rw [hw.width]
    refine Nat.div_eq_of_lt_le hlo ?_
    rwa [Nat.succ_mul]
  refine ⟨hvalue, ?_⟩
  rw [Window.raw, ← Nat.sub_eq_of_eq_add (Nat.mod_add_div' w.value (w.width / 2 ^ n)).symm, hvalue, hw.width]
  exact hmatched

/-- A field reads what was coded, and its first step is in range (41_raw_fields.md R203, R220). -/
theorem Matched.field {n x : Nat} (hv : v.sound) (hx : x < 2 ^ n)
    (hf : (v.field n x).holds (input.drop at0)) :
    w.rawValue (firstStep n) < 2 ^ firstStep n ∧ w.fieldValue input n = x ∧
      Matched (v.field n x) (w.field input n) input at0 := by
  unfold Interval.field at hf ⊢
  unfold Window.fieldValue Window.field firstStep
  split
  · rename_i hsplit
    rw [if_pos hsplit] at hf
    have hlow : x % 2 ^ 16 < 2 ^ 16 := Nat.mod_lt _ (by norm_num)
    obtain ⟨h1, hw1⟩ := hw.raw hv ((Interval.inside_raw _ (field_upper_lt hsplit hx)).2 _ hf)
    obtain ⟨h2, hw2⟩ := hw1.raw (Interval.sound_raw hv (by norm_num) hlow) hf
    refine ⟨by omega, ?_, hw2⟩
    rw [h1, h2]
    omega
  · rename_i hsplit
    rw [if_neg hsplit] at hf
    obtain ⟨h1, hw1⟩ := hw.raw hv hf
    exact ⟨by omega, h1, hw1⟩

/-- A field of 16-bit parts reads what was coded (41_raw_fields.md R211, R213, R220). -/
theorem Matched.halves {n x : Nat} (hv : v.sound) (hf : (Interval.halves n v x).holds (input.drop at0)) :
    Window.halvesValue n w input = x % 2 ^ (16 * n) ∧
      Matched (Interval.halves n v x) (Window.halves n w input) input at0 := by
  induction n generalizing v w x with
  | zero => exact ⟨by simp [Window.halvesValue, Nat.mod_one], hw⟩
  | succ n ih =>
    have hlow : x % 2 ^ 16 < 2 ^ 16 := Nat.mod_lt _ (by norm_num)
    obtain ⟨h1, hw1⟩ := hw.raw hv ((Interval.inside_halves _ n _).2 _ hf)
    obtain ⟨h2, hw2⟩ := ih hw1 (Interval.sound_raw hv (by norm_num) hlow) hf
    refine ⟨?_, hw2⟩
    rw [Window.halvesValue, h1, h2, show 16 * (n + 1) = 16 + 16 * n by ring, Nat.pow_add, Nat.mod_mul]

/-- The first step of a field of 16-bit parts is in range. -/
theorem Matched.halves_first {n x : Nat} (hv : v.sound)
    (hf : (Interval.halves (n + 1) v x).holds (input.drop at0)) : w.rawValue 16 < 2 ^ 16 := by
  obtain ⟨h, -⟩ := hw.raw hv ((Interval.inside_halves _ n _).2 _ hf)
  rw [h]
  exact Nat.mod_lt _ (by norm_num)

/-- A bit reads what was coded (40_entropy_coder.md R158). -/
theorem Matched.bit {m : BitModel} {b : Bool} (hv : v.sound) (hm : m.ok)
    (hf : (v.bit m.p0.toNat b).holds (input.drop at0)) :
    w.bitValue m.p0.toNat = b ∧ Matched (v.bit m.p0.toNat b) (w.bit input m.p0.toNat) input at0 := by
  obtain ⟨⟨hp1, hp2⟩, -⟩ := (BitModel.ok_iff m).1 hm
  obtain ⟨-, hlt⟩ := bit_part_width hv.1 hp1 hp2
  have hwidth := hv.2.1
  have hbelow := hw.below
  have hvalue : w.bitValue m.p0.toNat = b := by
    cases b with
    | true =>
      obtain ⟨hlo, -, -⟩ := hw.part (show v.width - m.p0.toNat * (v.width / 2 ^ 13) < 2 ^ 32 by omega) hf
      simpa [Window.bitValue, hw.width] using hlo
    | false =>
      obtain ⟨-, hhi, -⟩ := hw.part (x := 0) (show m.p0.toNat * (v.width / 2 ^ 13) < 2 ^ 32 by omega) hf
      simpa [Window.bitValue, hw.width] using hhi
  refine ⟨hvalue, ?_⟩
  unfold Window.bit
  rw [hvalue, hw.width]
  cases b with
  | true => exact (hw.part (show v.width - m.p0.toNat * (v.width / 2 ^ 13) < 2 ^ 32 by omega) hf).2.2
  | false =>
    exact (hw.part (x := 0) (show m.p0.toNat * (v.width / 2 ^ 13) < 2 ^ 32 by omega) hf).2.2

/-- A symbol reads what was coded (40_entropy_coder.md R160). -/
theorem Matched.symbol {m : SymModel} {s : Nat} (hv : v.sound) (hm : m.readyOk) (hs : s < m.nsym)
    (hf : (v.symbol m.dist s).holds (input.drop at0)) :
    w.isSymbol m.dist s ∧ Matched (v.symbol m.dist s) (w.symbol input m.dist s) input at0 := by
  obtain ⟨hends, hle⟩ := symbolEnds_bounds hm hv.1 hs
  have hwidth := hv.2.1
  obtain ⟨hlo, hhi, hmatched⟩ := hw.part (x := (symbolEnds m.dist v.width s).1)
    (y := (symbolEnds m.dist v.width s).2 - (symbolEnds m.dist v.width s).1) (by omega) hf
  refine ⟨⟨?_, ?_, fun i hi hlen => ?_⟩, ?_⟩
  · obtain ⟨hlen, -⟩ := readyOk_dist hm
    omega
  · rw [hw.width]
    exact hlo
  · obtain ⟨hlen', -, -, hrise, -⟩ := readyOk_dist hm
    have hbelow : w.value < (symbolEnds m.dist v.width s).2 := by omega
    rw [symbolEnds, if_neg (by omega)] at hbelow
    rw [hw.width]
    refine hbelow.trans_le (Nat.mul_le_mul_right _ ?_)
    have hs1 : s + 1 < m.dist.length := by omega
    simp only [List.getD_eq_getElem _ _ hs1, List.getD_eq_getElem _ _ hlen]
    rcases Nat.eq_or_lt_of_le (show s + 1 ≤ i by omega) with rfl | hgt
    · exact Nat.le_refl _
    · exact (List.pairwise_iff_getElem.1 hrise (s + 1) i hs1 hlen hgt).le
  · rw [Window.symbol, hw.width]
    exact hmatched

/-- A symbol and the field after it read what was coded (43_integer_compressor.md R305, R306). -/
theorem Matched.symbol_field {m : SymModel} {s n x : Nat} (hv : v.sound) (hm : m.readyOk) (hs : s < m.nsym)
    (hx : x < 2 ^ n) (hf : ((v.symbol m.dist s).field n x).holds (input.drop at0)) :
    w.isSymbol m.dist s ∧ (w.symbol input m.dist s).pos ≤ input.length ∧
      ((w.symbol input m.dist s).raw input (firstStep n)).pos ≤ input.length ∧
      (w.symbol input m.dist s).rawValue (firstStep n) < 2 ^ firstStep n ∧
      (w.symbol input m.dist s).fieldValue input n = x ∧
      Matched ((v.symbol m.dist s).field n x) ((w.symbol input m.dist s).field input n) input at0 := by
  obtain ⟨hsym, hw1⟩ := hw.symbol hv hm hs ((Interval.inside_field _ hx).2 _ hf)
  obtain ⟨hfirst, hvalue, hw2⟩ := hw1.field (sound_symbol hv hm hs) hx hf
  exact ⟨hsym, hw1.inside, (Window.pos_field _ _ n).trans hw2.inside, hfirst, hvalue, hw2⟩

end

end Sys2Proof.Reference
end

section
/-! PROOF. What the integer compressor promises of single values: a corrector is restored from its adjusted form,
and unfolding the folded corrector returns the value in the cases of 43_integer_compressor.md R314. -/

namespace Sys2Proof.Machine

open Sys2Proof.Reference

/-! ## Classes -/

/-- The class of a corrector that is not positive is the bit length of its magnitude. -/
theorem kClass_of_nonpos {c : Int} (h0 : c ≤ 0) (h1 : -(2 ^ 31) ≤ c) : kClass c = bitlen (-c).toNat := by
  have : (s32 (-c)).toNat = (-c).toNat := by
    rw [s32, BitVec.toNat_ofInt, Int.emod_eq_of_lt (by omega) (by omega)]
  rw [kClass, if_pos h0, this]

theorem kClass_of_pos {c : Int} (h0 : 0 < c) : kClass c = bitlen (c - 1).toNat := by
  rw [kClass, if_neg (by omega)]

/-- A number of a bit length that is not 0 has its top bit set. -/
theorem two_pow_le_of_bitlen {v : Nat} (h : 1 ≤ bitlen v) : 2 ^ (bitlen v - 1) ≤ v := by
  by_contra hlt
  have := (bitlen_le_iff v (bitlen v - 1)).2 (by omega)
  omega

/-- A corrector of class 0 is 0 or 1. -/
theorem eq_zero_or_one_of_kClass {c : Int} (h1 : -(2 ^ 31) ≤ c) (hk : kClass c = 0) : c = 0 ∨ c = 1 := by
  by_cases h0 : c ≤ 0
  · rw [kClass_of_nonpos h0 h1] at hk
    have := (bitlen_le_iff _ 0).1 hk.le
    omega
  · rw [kClass_of_pos (by omega)] at hk
    have := (bitlen_le_iff _ 0).1 hk.le
    omega

/-- A corrector of class 32 is -2^31. -/
theorem eq_min_of_kClass {c : Int} (h1 : -(2 ^ 31) ≤ c) (h2 : c < 2 ^ 31) (hk : 32 ≤ kClass c) :
    c = -(2 ^ 31) := by
  have hlt (n : Nat) (hn : 32 ≤ bitlen n) : 2 ^ 31 ≤ n := by
    by_contra hlt
    have := (bitlen_le_iff n 31).2 (by omega)
    omega
  by_cases h0 : c ≤ 0
  · rw [kClass_of_nonpos h0 h1] at hk
    have := hlt _ hk
    omega
  · rw [kClass_of_pos (by omega)] at hk
    have := hlt _ hk
    omega

/-- The reader restores a corrector from its adjusted form (43_integer_compressor.md R305, R306). -/
theorem corrRestore_corrAdjust {c : Int} (h1 : -(2 ^ 31) ≤ c) (h2 : c < 2 ^ 31) (hk : 1 ≤ kClass c) :
    corrRestore (kClass c) (corrAdjust (kClass c) c) = c := by
  by_cases h0 : c ≤ 0
  · have hclass := kClass_of_nonpos h0 h1
    have hlo := two_pow_le_of_bitlen (hclass ▸ hk)
    have hhi := (bitlen_le_iff (-c).toNat (kClass c)).1 hclass.ge
    rw [← hclass] at hlo
    have hpow : 2 ^ kClass c = 2 ^ (kClass c - 1) * 2 := by
      rw [← Nat.pow_succ, Nat.succ_eq_add_one, Nat.sub_add_cancel hk]
    have hpos : 0 < 2 ^ (kClass c - 1) := by positivity
    have hcast : ((2 ^ kClass c : Nat) : Int) = 2 ^ kClass c := by push_cast; rfl
    have hneg : c < 0 := by omega
    rw [corrAdjust, if_pos hneg, corrRestore, ← hcast, if_neg (by omega)]
    omega
  · have hclass := kClass_of_pos (c := c) (by omega)
    have hlo := two_pow_le_of_bitlen (hclass ▸ hk)
    rw [← hclass] at hlo
    rw [corrAdjust, if_neg (by omega), corrRestore, if_pos hlo, show (((c - 1).toNat : Nat) : Int) + 1 = c by omega,
      wrap32_of_range h1 h2]

/-! ## Folding -/

/-- The constants of a compressor without a range: every 32-bit corrector is in range. -/
def IcRec.unranged (ic : IcRec) : Prop :=
  ic.corrRange = 0 ∧ ic.corrMin.toInt = -(2 ^ 31) ∧ ic.corrMax.toInt = 2 ^ 31 - 1

/-- The constants of a compressor with a range: the correctors are as many numbers about 0, and a range of at
most 2^31 has no class 32. -/
def IcRec.ranged (ic : IcRec) : Prop :=
  ic.corrRange ≠ 0 ∧ ic.corrMin.toInt = -((ic.corrRange.toNat / 2 : Nat) : Int) ∧
    ic.corrMax.toInt = -((ic.corrRange.toNat / 2 : Nat) : Int) + ic.corrRange.toNat - 1 ∧
    (ic.corrRange.toNat ≤ 2 ^ 31 → ic.corrBits ≤ 31)

theorem toInt_s32 {v : Int} (h1 : -(2 ^ 31) ≤ v) (h2 : v < 2 ^ 31) : (s32 v).toInt = v := wrap32_of_range h1 h2

/-- The bits of a range of at most 2^31. -/
theorem rangeBits_le_31 {range : Nat} (h1 : 1 ≤ range) (h : range ≤ 2 ^ 31) : rangeBits range ≤ 31 := by
  simp only [rangeBits]
  by_cases htop : range = 2 ^ 31
  · subst htop
    have h32 : bitlen (2 ^ 31) = 32 := by rw [bitlen, if_neg (by norm_num), Nat.log2_two_pow]
    rw [h32]
    simp
  · have := (bitlen_le_iff range 31).2 (by omega)
    split <;> omega

/-- Every derived record has one of the two kinds of constants (43_integer_compressor.md R300). -/
theorem icDerive_constants (bits contexts : Nat) (bitsHigh range : Word) :
    (icDerive bits contexts bitsHigh range).unranged ∨ (icDerive bits contexts bitsHigh range).ranged := by
  unfold icDerive
  split
  · rename_i hr
    have hlt := range.isLt
    have hne : range.toNat ≠ 0 := fun h => hr (BitVec.eq_of_toNat_eq h)
    exact .inr ⟨hr, toInt_s32 (by omega) (by omega), toInt_s32 (by omega) (by omega),
      fun h => rangeBits_le_31 (by omega) h⟩
  · split
    · rename_i hb
      obtain ⟨hb1, hb2⟩ := hb
      have hpow : 2 ^ bits = 2 ^ (bits - 1) * 2 := by
        rw [← Nat.pow_succ, Nat.succ_eq_add_one, Nat.sub_add_cancel hb1]
      have hle : 2 ^ (bits - 1) ≤ 2 ^ 30 := Nat.pow_le_pow_right (by norm_num) (by omega)
      have hpos : 0 < 2 ^ (bits - 1) := by positivity
      have hcast : ((2 : Int) ^ (bits - 1)) = ((2 ^ (bits - 1) : Nat) : Int) := by push_cast; rfl
      have hrange : (u32 (1 <<< bits)).toNat = 2 ^ (bits - 1) * 2 := by
        rw [Nat.shiftLeft_eq, Nat.one_mul, u32_toNat (by omega), hpow]
      refine .inr ⟨fun h => ?_, ?_, ?_, fun _ => by simp only; omega⟩
      · rw [show u32 (1 <<< bits) = 0 from h] at hrange
        simp at hrange
      · simp only [hrange, hcast]
        rw [toInt_s32 (by omega) (by omega)]
        omega
      · simp only [hrange, hcast]
        rw [toInt_s32 (by omega) (by omega)]
        omega
    · exact .inl ⟨rfl, toInt_s32 (by norm_num) (by norm_num), toInt_s32 (by norm_num) (by norm_num)⟩

/-- A fold answers a 32-bit number. -/
theorem icFold_range (ic : IcRec) (pred real : Int) :
    -(2 ^ 31) ≤ icFold ic pred real ∧ icFold ic pred real < 2 ^ 31 := by
  unfold icFold
  simp only
  split
  · exact wrap32_range _
  · split <;> exact wrap32_range _

theorem s32_toNat_of_nonneg {v : Int} (h0 : 0 ≤ v) (h1 : v < 2 ^ 31) : (s32 v).toNat = v.toNat := by
  rw [s32, BitVec.toNat_ofInt, Int.emod_eq_of_lt (by omega) (by omega)]

/-- Without a range, unfolding the folded corrector returns the value. -/
theorem icUnfold_icFold_unranged {ic : IcRec} (hic : ic.unranged) {pred real : Int}
    (h1 : -(2 ^ 31) ≤ real) (h2 : real < 2 ^ 31) : icUnfold ic pred (icFold ic pred real) = real := by
  obtain ⟨hr, hmin, hmax⟩ := hic
  have hzero : ic.corrRange.toNat = 0 := by rw [hr]; rfl
  obtain ⟨hd1, hd2⟩ := wrap32_range (real - pred)
  have hfold : icFold ic pred real = wrap32 (real - pred) := by
    unfold icFold signed
    simp only [hmin, hmax]
    rw [if_neg (by omega), if_neg (by omega)]
  have hsum : wrap32 (pred + wrap32 (real - pred)) = real := by
    obtain ⟨q, hq⟩ := wrap32_add (real - pred)
    obtain ⟨p, hp⟩ := wrap32_add (pred + wrap32 (real - pred))
    obtain ⟨hs1, hs2⟩ := wrap32_range (pred + wrap32 (real - pred))
    omega
  unfold icUnfold
  rw [hfold, hsum]
  simp only [hzero, Nat.cast_zero, add_zero, sub_zero, wrap32_of_range h1 h2, ite_self]

/-- Unfolding corrects a sum that is one range off. -/
theorem icUnfold_of_sum {ic : IcRec} {pred corr real : Int} (hr : 0 ≤ real ∧ real < ic.corrRange.toNat)
    (hR : ic.corrRange.toNat ≤ 2 ^ 31)
    (h : wrap32 (pred + corr) = real ∨ wrap32 (pred + corr) = real + ic.corrRange.toNat ∨
      wrap32 (pred + corr) = real - ic.corrRange.toNat) : icUnfold ic pred corr = real := by
  obtain ⟨h1, h2⟩ := wrap32_range (pred + corr)
  have hreal := wrap32_of_range (v := real) (by omega) (by omega)
  unfold icUnfold
  simp only
  generalize wrap32 (pred + corr) = sum at h h1 h2
  split
  · rw [show sum + ic.corrRange.toNat = real by omega, hreal]
  · rw [s32_toNat_of_nonneg (by omega) h2]
    split
    · rw [show sum - ic.corrRange.toNat = real by omega, hreal]
    · omega

/-- Folding the difference of two values below a range of at most 2^31 moves it by a range, or not, to between
the constants. -/
theorem icFold_ranged {ic : IcRec} (hic : ic.ranged) {pred real : Int}
    (hp : 0 ≤ pred ∧ pred < ic.corrRange.toNat) (hr : 0 ≤ real ∧ real < ic.corrRange.toNat)
    (hR : ic.corrRange.toNat ≤ 2 ^ 31) :
    (-((ic.corrRange.toNat / 2 : Nat) : Int) ≤ icFold ic pred real ∧
      icFold ic pred real < -((ic.corrRange.toNat / 2 : Nat) : Int) + ic.corrRange.toNat) ∧
    (icFold ic pred real = real - pred ∨ icFold ic pred real = real - pred + ic.corrRange.toNat ∨
      icFold ic pred real = real - pred - ic.corrRange.toNat) := by
  obtain ⟨-, hmin, hmax, -⟩ := hic
  have hdiff := wrap32_of_range (v := real - pred) (by omega) (by omega)
  unfold icFold signed
  simp only [hmin, hmax, hdiff]
  split
  · rw [wrap32_of_range (by omega) (by omega)]
    omega
  · split
    · rw [wrap32_of_range (by omega) (by omega)]
      omega
    · omega

/-- With a range of at most 0x55555556 or of 2^31, unfolding the folded corrector of values below the range
returns the value (43_integer_compressor.md R314). -/
theorem icUnfold_icFold_ranged {ic : IcRec} (hic : ic.ranged) {pred real : Int}
    (hp : 0 ≤ pred ∧ pred < ic.corrRange.toNat) (hr : 0 ≤ real ∧ real < ic.corrRange.toNat)
    (hR : ic.corrRange.toNat ≤ 0x55555556 ∨ ic.corrRange.toNat = 2 ^ 31) :
    icUnfold ic pred (icFold ic pred real) = real := by
  obtain ⟨hbounds, hfold⟩ := icFold_ranged hic hp hr (by omega)
  refine icUnfold_of_sum hr (by omega) ?_
  obtain ⟨q, hq⟩ := wrap32_add (pred + icFold ic pred real)
  obtain ⟨h1, h2⟩ := wrap32_range (pred + icFold ic pred real)
  omega

/-- The value of a 32-bit word below 2^31 is its number. -/
theorem signed_of_lt {w : Word} (h : w.toNat < 2 ^ 31) : signed w = w.toNat := by
  rw [signed, BitVec.toInt_eq_toNat_of_lt (by omega)]

/-- In the cases of 43_integer_compressor.md R314 the decoded corrector unfolds to the value, also for class 32,
where `corr_min` is decoded. -/
theorem icUnfold_of_invertible {maxContexts : Nat} {ic : IcRec} (hic : ic.ok maxContexts) {pred real : Word}
    (hinv : invertible ic pred real) (hk : kClass (icFold ic (signed pred) (signed real)) ≤ ic.corrBits) :
    icUnfold ic (signed pred)
      (if 32 ≤ kClass (icFold ic (signed pred) (signed real)) then ic.corrMin.toInt
       else icFold ic (signed pred) (signed real)) = signed real := by
  obtain ⟨hderived, -⟩ := (IcRec.ok_iff _ _).1 hic
  obtain ⟨hf1, hf2⟩ := icFold_range ic (signed pred) (signed real)
  have hconst : ic.unranged ∨ ic.ranged := by
    have := icDerive_constants ic.bits ic.contexts ic.bitsHigh ic.range
    rwa [← hderived] at this
  obtain hun | hra := hconst
  · have hmin : ic.corrMin.toInt = -(2 ^ 31) := hun.2.1
    have hword : -(2 ^ 31) ≤ signed real ∧ signed real < 2 ^ 31 :=
      ⟨by simpa [signed] using BitVec.le_toInt real, by simpa [signed] using BitVec.toInt_lt (x := real)⟩
    have hunfold := icUnfold_icFold_unranged hun (pred := signed pred) hword.1 hword.2
    split
    · rename_i h32
      rwa [eq_min_of_kClass hf1 hf2 h32, ← hmin] at hunfold
    · exact hunfold
  · have hne := hra.1
    simp only [invertible, hne, decide_false, Bool.false_or, Bool.and_eq_true, Bool.or_eq_true,
      decide_eq_true_eq] at hinv
    obtain ⟨⟨hp, hr⟩, hR⟩ := hinv
    have hbits := hra.2.2.2 (by omega)
    rw [if_neg (by omega), signed_of_lt (by omega), signed_of_lt (by omega)]
    exact icUnfold_icFold_ranged hra (by omega) (by omega) hR

end Sys2Proof.Machine
end

section
/-! PROOF. The mirrored coding procedures: a decoder whose window matches the encoder's interval returns what was
coded and matches again (40_entropy_coder.md R162; 70_reset_and_hazards.md R453, R455). -/

namespace Sys2Proof.Machine

open Sys2Proof.Reference

/-! ## Where the encoder has moved -/

theorem intervalOf_moved (c : Coder) {v : Interval} (hv : v.sound) : intervalOf (withInterval c v) = v :=
  intervalOf_withInterval c hv.2.1 (by have := hv.1; have := hv.2.2; omega)

theorem inside_written {cap : Option Nat} {i : Instr} {r : Coder → Res Coder} (hr : rawWriter cap i = some r)
    (v : Interval) : (writtenInterval v i).inside v := by
  cases i with
  | wrBits n x =>
    obtain ⟨hn, -⟩ : ¬ (n < 1 ∨ 32 < n ∨ 2 ^ n ≤ x.toNat) ∧ encBits cap n x.toNat = r := by
      simpa [rawWriter] using hr
    exact Interval.inside_field v (by omega)
  | wrByte x | wrShort x => exact Interval.inside_raw v x.isLt
  | wrInt x | wrInt64 x | wrFloat x | wrDouble x => exact Interval.inside_halves v _ _
  | _ => cases hr

/-! ## Correctors -/

section
variable {v : Interval} (hv : v.sound) {ic : IcRec} {ms : IcModels} (hms : ms.ok ic) {ctx : Nat} {corr : Int}
  (hk : kClass corr ≤ ic.corrBits) {m : SymModel} (hm : ms.mBits.getD ctx (symModelNew 0) = m)
  (hready : m.readyOk) (hnsym : m.nsym = ic.corrBits + 1)
include hv hms hk hm hready hnsym

/-- A corrector lies in the part of its class. -/
theorem inside_class : (v.corrector ic ms ctx corr).inside (v.symbol m.dist (kClass corr)) := by
  have hclass := sound_symbol hv hready (s := kClass corr) (by omega)
  unfold Interval.corrector
  simp only [hm]
  split
  · exact Interval.inside_bit hclass (mCorr0_ok hms) _
  · split
    · exact Interval.inside_refl _
    · obtain ⟨q, -, hq, hqready, hqnsym⟩ := mCorr_getElem hms (k := kClass corr) (by omega) hk
      have hpart := modelledPart_lt ic corr
      rw [modelledPart, ← hqnsym] at hpart
      simp only [hq]
      split
      · exact Interval.inside_symbol hclass hqready (by simpa [Nat.sub_eq_zero_of_le ‹_›] using hpart)
      · exact Interval.inside_trans (Interval.inside_field _ (Nat.mod_lt _ (by positivity)))
          (Interval.inside_symbol hclass hqready hpart)

theorem inside_corrector : (v.corrector ic ms ctx corr).inside v :=
  Interval.inside_trans (inside_class hv hms hk hm hready hnsym)
    (Interval.inside_symbol hv hready (by omega))

end

/-- The bit counts for class 0 alone, and the symbol for classes 1 to 31 alone. -/
theorem codedCompressor_congr {ic : IcRec} {ms : IcModels} {ctx k q q' : Nat} {b b' : Bool}
    (hb : k = 0 → b = b') (hq : 1 ≤ k → k < 32 → q = q') :
    codedCompressor ic ms ctx k b q = codedCompressor ic ms ctx k b' q' := by
  unfold codedCompressor
  by_cases h0 : k = 0
  · simp only [if_pos h0, hb h0]
  · by_cases h32 : 32 ≤ k
    · simp only [if_neg h0, if_pos h32]
    · simp only [if_neg h0, if_neg h32, hq (by omega) (by omega)]

/-- The bit of a corrector of class 0 is the corrector. -/
theorem corrector_of_bit {corr : Int} (h1 : -(2 ^ 31) ≤ corr) (hk : kClass corr = 0) :
    (if decide (corr = 1) then (1 : Int) else 0) = corr := by
  obtain rfl | rfl := eq_zero_or_one_of_kClass h1 hk <;> rfl

/-- Reading a corrector that was written: the class, the models and the window follow the encoder, and the value
is the corrector itself, but for class 32, where it is `corr_min` (43_integer_compressor.md R305, R306). -/
theorem readCorrector_mirror {d : Coder} {ic : IcRec} {ms : IcModels} (hms : ms.ok ic) {ctx : Nat}
    (hctx : ctx < ic.contexts) {corr : Int} (hk : kClass corr ≤ ic.corrBits) (h1 : -(2 ^ 31) ≤ corr)
    (h2 : corr < 2 ^ 31) {v : Interval} (hv : v.sound) (hsd : (windowOf d).sound) {at0 : Nat}
    (hw : Matched v (windowOf d) d.input at0)
    (hf : (v.corrector ic ms ctx corr).holds (d.input.drop at0)) :
    ∃ w : Window, w.sound ∧ Matched (v.corrector ic ms ctx corr) w d.input at0 ∧
      readCorrector d ic ms ctx =
        .ok (if 32 ≤ kClass corr then ic.corrMin.toInt else corr, withWindow d w,
          codedCompressor ic ms ctx (kClass corr) (decide (corr = 1)) (modelledPart ic corr)) := by
  obtain ⟨m, -, hm, hready, hnsym⟩ := mBits_getElem hms hctx
  have hlt : kClass corr < m.nsym := by omega
  have hv1 := sound_symbol hv hready hlt
  obtain ⟨hsym, hw1⟩ := hw.symbol hv hready hlt ((inside_class hv hms hk hm hready hnsym).2 _ hf)
  have hs1 := window_sound_symbol hsd d.input hready hlt
  obtain ⟨k, q, hk1, -, hq, hread⟩ :=
    readCorrector_eq d (windowOf d) ic ms ctx hsd hms hctx (Nat.le_refl _) hw.inside
  rw [withWindow_windowOf] at hread
  rw [hm] at hk1
  obtain rfl := isSymbol_unique hk1 hsym
  unfold Interval.corrector at hf ⊢
  simp only [hm] at hf hq hread ⊢
  rw [hread, taken_eq_ok.2 ⟨hw1.inside, rfl⟩, res_bind_ok]
  clear hread hk1
  generalize (windowOf d).symbol d.input m.dist (kClass corr) = w1 at hw1 hs1 hq ⊢
  generalize v.symbol m.dist (kClass corr) = v1 at hv1 hw1 hf ⊢
  by_cases hk0 : kClass corr = 0
  · have hok := mCorr0_ok hms
    rw [if_pos hk0] at hf ⊢
    obtain ⟨hbit, hw2⟩ := hw1.bit hv1 hok hf
    refine ⟨_, Window.sound_bit hs1 d.input hok, hw2, ?_⟩
    rw [if_pos hk0, taken_eq_ok.2 ⟨hw2.inside, rfl⟩, res_bind_ok, hbit, corrector_of_bit h1 hk0,
      if_neg (by omega)]
    exact congrArg (fun r => Except.ok (corr, _, r)) (codedCompressor_congr (fun _ => rfl) (by omega))
  · rw [if_neg hk0] at hf ⊢
    by_cases hk32 : 32 ≤ kClass corr
    · rw [if_pos hk32] at hf ⊢
      refine ⟨w1, hs1, hw1, ?_⟩
      rw [if_neg hk0, if_neg (by omega), if_pos hk32]
      exact congrArg (fun r => Except.ok (_, _, r)) (codedCompressor_congr (by omega) (by omega))
    · rw [if_neg hk32] at hf ⊢
      rw [if_neg hk0, if_pos (show kClass corr < 32 by omega), if_neg hk32]
      obtain ⟨p, -, hp, hpready, hpnsym⟩ := mCorr_getElem hms (k := kClass corr) (by omega) hk
      have hrestore := corrRestore_corrAdjust h1 h2 (show 1 ≤ kClass corr by omega)
      have hpart := modelledPart_lt ic corr
      rw [← hpnsym] at hpart
      simp only [hp] at hf hq ⊢
      have hqsym := hq (by omega) (by omega)
      by_cases hb : kClass corr ≤ ic.bitsHigh.toNat
      · have hadj : modelledPart ic corr = corrAdjust (kClass corr) corr := by
          rw [modelledPart, Nat.sub_eq_zero_of_le hb, Nat.pow_zero, Nat.div_one]
        rw [if_pos hb, ← hadj] at hf ⊢
        obtain ⟨hsym2, hw2⟩ := hw1.symbol hv1 hpready hpart hf
        obtain rfl := isSymbol_unique hqsym hsym2
        refine ⟨_, window_sound_symbol hs1 d.input hpready hpart, hw2, ?_⟩
        rw [taken_eq_ok.2 ⟨hw2.inside, rfl⟩, res_bind_ok, if_pos hb, hadj, hrestore]
        exact congrArg (fun r => Except.ok (_, _, r)) (codedCompressor_congr (by omega) fun _ _ => rfl)
      · rw [if_neg hb] at hf ⊢
        have hlow : corrAdjust (kClass corr) corr % 2 ^ (kClass corr - ic.bitsHigh.toNat) <
            2 ^ (kClass corr - ic.bitsHigh.toNat) := Nat.mod_lt _ (by positivity)
        obtain ⟨hsym2, hpos2, hpos3, hfirst, hvalue, hw3⟩ := hw1.symbol_field hv1 hpready hpart hlow hf
        obtain rfl := isSymbol_unique hqsym hsym2
        refine ⟨_, Window.sound_field (window_sound_symbol hs1 d.input hpready hpart) d.input (by omega), hw3, ?_⟩
        rw [taken_eq_ok.2 ⟨hpos2, rfl⟩, res_bind_ok, if_neg hb, taken_eq_ok.2 ⟨hpos3, rfl⟩, res_bind_ok,
          if_neg (Nat.not_le.2 hfirst), taken_eq_ok.2 ⟨hw3.inside, rfl⟩, res_bind_ok, hvalue]
        have hwhole : modelledPart ic corr * 2 ^ (kClass corr - ic.bitsHigh.toNat) +
            corrAdjust (kClass corr) corr % 2 ^ (kClass corr - ic.bitsHigh.toNat) =
              corrAdjust (kClass corr) corr := Nat.div_add_mod' _ _
        rw [hwhole, hrestore]
        exact congrArg (fun r => Except.ok (_, _, r)) (codedCompressor_congr (by omega) fun _ _ => rfl)

end Sys2Proof.Machine
end

section
/-! PROOF. A whole chunk decodes to what was coded: each command of the encoder is mirrored by one of the decoder,
so the runs go side by side from INIT_ENC and INIT_DEC to DONE_ENC and DONE_DEC (40_entropy_coder.md R162, R174;
70_reset_and_hazards.md R453, R455, R456). -/

namespace Sys2Proof.Machine

open Sys2Proof.Reference

/-! ## Raw fields -/

/-- A raw read whose first step is in range and whose bytes are there. -/
theorem readAnswer_ok {d : Coder} {w : Window} {j : Instr} (hr : w.rawValue (readFirst j) < 2 ^ readFirst j)
    (hpos : (w.raw d.input (readFirst j)).pos ≤ (readWindow w d.input j).pos)
    (hin : (readWindow w d.input j).pos ≤ d.input.length) :
    readAnswer d w j = .ok (readValue w d.input j, withWindow d (readWindow w d.input j)) := by
  rw [readAnswer, taken_eq_ok.2 ⟨hpos.trans hin, rfl⟩, res_bind_ok, if_neg (Nat.not_le.2 hr),
    taken_eq_ok.2 ⟨hin, rfl⟩, res_bind_ok]

theorem zext64_toNat (y : DWord) : zext64 y.toNat = y := by simp [zext64]

/-- A raw read mirrors a raw write: it is in range, returns what was written and matches again. -/
theorem raw_mirror {s : State} {cap : Option Nat} {i j : Instr} {r : Coder → Res Coder} {x : Option DWord}
    (hr : rawWriter cap i = some r) (hj : mirror s i = some (j, x)) {d : Coder} {v : Interval} {at0 : Nat}
    (hv : v.sound) (hw : Matched v (windowOf d) d.input at0)
    (hf : (writtenInterval v i).holds (d.input.drop at0)) :
    Matched (writtenInterval v i) (readWindow (windowOf d) d.input j) d.input at0 ∧
      (∃ q, rawReader j = some q) ∧ x = some (zext64 (readValue (windowOf d) d.input j)) ∧
      readAnswer d (windowOf d) j =
        .ok (readValue (windowOf d) d.input j, withWindow d (readWindow (windowOf d) d.input j)) := by
  cases i with
  | wrBits n y =>
    obtain ⟨hn, -⟩ : ¬ (n < 1 ∨ 32 < n ∨ 2 ^ n ≤ y.toNat) ∧ encBits cap n y.toNat = r := by
      simpa [rawWriter] using hr
    obtain ⟨rfl, rfl⟩ := Prod.mk.inj (Option.some.inj hj)
    obtain ⟨hfirst, hvalue, hm⟩ := hw.field hv (by omega) hf
    exact ⟨hm, ⟨_, if_neg (by omega)⟩, congrArg (fun n => some (zext64 n)) hvalue.symm,
      readAnswer_ok hfirst (Window.pos_field _ _ n) hm.inside⟩
  | wrByte y | wrShort y =>
    obtain ⟨rfl, rfl⟩ := Prod.mk.inj (Option.some.inj hj)
    obtain ⟨hvalue, hm⟩ := hw.raw hv hf
    exact ⟨hm, ⟨_, rfl⟩, congrArg (fun n => some (zext64 n)) hvalue.symm,
      readAnswer_ok (hvalue.trans_lt y.isLt) (Nat.le_refl _) hm.inside⟩
  | wrInt y | wrFloat y =>
    obtain ⟨rfl, rfl⟩ := Prod.mk.inj (Option.some.inj hj)
    obtain ⟨hvalue, hm⟩ := hw.halves (n := 2) hv hf
    rw [Nat.mod_eq_of_lt y.isLt] at hvalue
    exact ⟨hm, ⟨_, rfl⟩, congrArg (fun n => some (zext64 n)) hvalue.symm,
      readAnswer_ok (hw.halves_first (n := 1) hv hf) (Window.pos_halves _ _ 1) hm.inside⟩
  | wrInt64 y | wrDouble y =>
    obtain ⟨rfl, rfl⟩ := Prod.mk.inj (Option.some.inj hj)
    obtain ⟨hvalue, hm⟩ := hw.halves (n := 4) hv hf
    rw [Nat.mod_eq_of_lt y.isLt] at hvalue
    exact ⟨hm, ⟨_, rfl⟩, congrArg some ((zext64_toNat y).symm.trans (congrArg zext64 hvalue.symm)),
      readAnswer_ok (hw.halves_first (n := 3) hv hf) (Window.pos_halves _ _ 3) hm.inside⟩
  | _ => cases hr

/-! ## Mirrored commands -/

/-- The decoder's coder `d` mirrors the encoder's coder `c`, with `ICOUNT` counting the bytes read of the
chunk. -/
def coderMirrors (c d : Coder) (input : List Byte) (at0 : Nat) : Prop :=
  d.input = input ∧ Matched (intervalOf c) (windowOf d) input at0 ∧
    d.icount = BitVec.ofNat 32 (d.inpos - at0)

theorem coderMirrors_moved {c d : Coder} {input : List Byte} {at0 : Nat} (h : coderMirrors c d input at0)
    {v : Interval} {w : Window} (hv : v.sound) (hw : w.sound) (hin : v.inside (intervalOf c))
    (hm : Matched v w input at0) : coderMirrors (withInterval c v) (withWindow d w) input at0 := by
  obtain ⟨hinput, hmatched, hcount⟩ := h
  have hpos : d.inpos = at0 + ((intervalOf c).bytes + 4) := hmatched.pos
  have hle := hin.1
  have hwpos := hm.pos
  refine ⟨hinput, ?_, ?_⟩
  · rw [intervalOf_moved c hv, windowOf_withWindow d hw]
    exact hm
  · rw [withWindow_icount, withWindow_inpos, hcount, ← BitVec.ofNat_add]
    congr 1
    omega

/-- The decoder's state `d` mirrors the encoder's state `s` inside a chunk that begins at `at0` of `input`. -/
structure Mirrors (s d : State) (input : List Byte) (at0 : Nat) : Prop where
  encoderSound : s.sound
  encode : s.mode = .encode
  decoderSound : d.sound
  decode : d.mode = .decode
  models : d.ms = s.ms
  compressors : d.ics = s.ics
  config : s.cfg = { d.cfg with outCapacity := s.cfg.outCapacity }
  coder : coderMirrors s.coder d.coder input at0

/-- A command that has a mirror stands in the encoder's row or in all three, its mirror in the decoder's, and
neither ends the chunk. -/
theorem mirror_row {s : State} {i j : Instr} {x : Option DWord} (h : mirror s i = some (j, x)) :
    (modesOf i = [.encode] ∨ modesOf i = [.idle, .encode, .decode]) ∧ .decode ∈ modesOf j ∧
      writesMode i = false ∧ writesMode j = false ∧ i ≠ .doneEnc := by
  cases i with
  | initEnc | initDec | doneEnc | doneDec | decBit | decSym | rdBits | rdByte | rdShort | rdInt | rdInt64
  | rdFloat | rdDouble | icDecompress => cases h
  | _ =>
    obtain ⟨rfl, -⟩ := Prod.mk.inj (Option.some.inj h)
    simp [modesOf, writesMode, Instr.opcode]

section
variable {s d : State} {input : List Byte} {at0 : Nat}

/-- Both blocks find the same slots. -/
theorem getSlot_mirror (h : Mirrors s d input at0) (hd : Nat) : getSlot d hd = getSlot s hd := by
  unfold getSlot
  rw [h.models, h.config]

theorem getBit_mirror (h : Mirrors s d input at0) (hd : Nat) : getBit d hd = getBit s hd := by
  unfold getBit
  rw [getSlot_mirror h]

theorem getSym_mirror (h : Mirrors s d input at0) (hd : Nat) : getSym d hd = getSym s hd := by
  unfold getSym
  rw [getSlot_mirror h]

theorem getReadySym_mirror (h : Mirrors s d input at0) (hd : Nat) : getReadySym d hd = getReadySym s hd := by
  unfold getReadySym
  rw [getSym_mirror h]

theorem needEmptySlot_mirror (h : Mirrors s d input at0) (hd : Nat) :
    needEmptySlot d hd = needEmptySlot s hd := by
  unfold needEmptySlot
  rw [h.models, h.config]

theorem getIc_mirror (h : Mirrors s d input at0) (hd : Nat) : getIc d hd = getIc s hd := by
  unfold getIc
  rw [h.compressors, h.config]

theorem needEmptyIc_mirror (h : Mirrors s d input at0) (hd : Nat) : needEmptyIc d hd = needEmptyIc s hd := by
  unfold needEmptyIc
  rw [h.compressors, h.config]

theorem getReadyIc_mirror (h : Mirrors s d input at0) (hd : Nat) (context : Word) :
    getReadyIc d hd context = getReadyIc s hd context := by
  unfold getReadyIc
  rw [getIc_mirror h]

end

/-- What the mirror of a completed command leaves: the value it promises, the encoder's stores, and a coder that
mirrors the encoder's. -/
structure MirrorLeaves (u e : State) (x : Option DWord) (input : List Byte) (at0 : Nat) : Prop where
  value : x = none ∨ x = some e.res
  models : e.ms = u.ms
  compressors : e.ics = u.ics
  coder : coderMirrors u.coder e.coder input at0

theorem icUnfold_codedCompressor (ic : IcRec) (ms : IcModels) (ctx k q : Nat) (b : Bool) (pred corr : Int) :
    icUnfold (codedCompressor ic ms ctx k b q) pred corr = icUnfold ic pred corr := rfl

section
variable {s d u : State} {i j : Instr} {x : Option DWord} {input : List Byte} {at0 : Nat}

/-- A legal bit operand is the bit it stands for. -/
theorem toNat_of_bit {bit : Word} (h : bit.toNat ≤ 1) : bit.toNat = (decide (bit = 1)).toNat := by
  by_cases h1 : bit = 1
  · subst h1
    rfl
  · have : bit.toNat ≠ 1 := fun he => h1 (BitVec.eq_of_toNat_eq he)
    simp only [h1, decide_false, Bool.toNat_false]
    omega

/-- The mirror of a coding command completes. -/
theorem mirror_completes_coding (h : Mirrors s d input at0) (hrow : modesOf i = [.encode])
    (hu : Completes s i u) (hj : mirror s i = some (j, x))
    (hf : (intervalOf u.coder).holds (input.drop at0)) :
    ∃ e, Completes d j e ∧ MirrorLeaves u e x input at0 := by
  obtain ⟨hinput, hmatched, -⟩ := h.coder
  subst hinput
  have hv := sound_interval h.encoderSound h.encode
  have hfit := sound_fits h.encoderSound
  have hw := sound_window h.decoderSound h.decode
  have hp := sound_inpos h.decoderSound
  cases hu with
  | read hr => simp [(rawReader_row hr).1] at hrow
  | doneEnc => cases hj
  | encBit hg hb hc =>
    obtain ⟨rfl, rfl⟩ := Prod.mk.inj (Option.some.inj hj)
    have hok := (bit_ok_of_getBit h.encoderSound hg).2
    obtain ⟨hmoved, rfl⟩ := encBitM_ok hv hfit hok hc
    obtain ⟨-, rfl⟩ := moved_eq_ok.1 hmoved
    have hsound := sound_bit hv hok
    simp only [intervalOf_moved _ (hsound _)] at hf
    obtain ⟨hbit, hm⟩ := hmatched.bit hv hok hf
    have hdec := decBitM_answer hw hp hok
    rw [taken_eq_ok.2 ⟨hm.inside, rfl⟩, res_bind_ok, hbit] at hdec
    exact ⟨_, .decBit (by rw [getBit_mirror h, hg]) hdec, .inr (by rw [toNat_of_bit hb]), by rw [h.models],
      h.compressors, coderMirrors_moved h.coder (hsound _) (Window.sound_bit hw _ hok)
        (Interval.inside_bit hv hok _) hm⟩
  | encSym hg hs hc =>
    obtain ⟨rfl, rfl⟩ := Prod.mk.inj (Option.some.inj hj)
    have hok := (ready_of_getReadySym h.encoderSound hg).2
    have hlt := lt_nsym_of_le_last hok hs
    obtain ⟨hmoved, rfl⟩ := encSymM_ok hv hfit hok hlt hc
    obtain ⟨-, rfl⟩ := moved_eq_ok.1 hmoved
    have hsound := sound_symbol hv hok hlt
    simp only [intervalOf_moved _ hsound] at hf
    obtain ⟨hsym, hm⟩ := hmatched.symbol hv hok hlt hf
    obtain ⟨k, hk, hdec⟩ := decSymM_answer hw hp hok
    obtain rfl := isSymbol_unique hk hsym
    rw [taken_eq_ok.2 ⟨hm.inside, rfl⟩, res_bind_ok] at hdec
    exact ⟨_, .decSym (by rw [getReadySym_mirror h, hg]) hdec, .inr rfl, by rw [h.models], h.compressors,
      coderMirrors_moved h.coder hsound (window_sound_symbol hw _ hok hlt) (Interval.inside_symbol hv hok hlt) hm⟩
  | write hr hc =>
    obtain ⟨he, hsound⟩ := rawWriter_eq hv hfit hr
    obtain ⟨-, rfl⟩ := moved_eq_ok.1 (he ▸ hc)
    simp only [intervalOf_moved _ hsound] at hf
    obtain ⟨hm, ⟨q, hq⟩, rfl, hread⟩ := raw_mirror hr hj hv hmatched hf
    obtain ⟨hanswer, hwsound⟩ := rawReader_eq hw hp hq
    exact ⟨_, .read hq (hanswer.trans hread), .inr rfl, h.models, h.compressors,
      coderMirrors_moved h.coder hsound hwsound (inside_written hr _) hm⟩
  | icCompress hi hc =>
    obtain ⟨rfl, rfl⟩ := Prod.mk.inj (Option.some.inj hj)
    obtain ⟨-, hic, hms, hctx⟩ := legal_of_getReadyIc h.encoderSound hi
    obtain ⟨hk, hmoved, rfl⟩ := writeCorrector_ok hv hfit hms hctx hc
    obtain ⟨-, rfl⟩ := moved_eq_ok.1 hmoved
    have hsound := sound_corrector hv hms hctx hk
    simp only [intervalOf_moved _ hsound] at hf
    obtain ⟨hr1, hr2⟩ := icFold_range _ _ _
    obtain ⟨w, hws, hm, hread⟩ := readCorrector_mirror hms hctx hk hr1 hr2 hv hw hmatched hf
    obtain ⟨m, -, hget, hready, hnsym⟩ := mBits_getElem hms hctx
    refine ⟨_, .icDecompress (by rw [getReadyIc_mirror h, hi]) hread, ?_, h.models, by rw [h.compressors],
      coderMirrors_moved h.coder hsound hws (inside_corrector hv hms hk hget hready hnsym) hm⟩
    obtain ⟨-, hfind, -⟩ := getReadyIc_eq_ok.1 hi
    simp only [hfind]
    split
    · rename_i hinv
      refine .inr (congrArg some ?_)
      rw [icUnfold_codedCompressor, icUnfold_of_invertible hic hinv hk, signed, s32, BitVec.ofInt_toInt]
    · exact .inl rfl
  | _ => simp [modesOf] at hrow

/-- The mirror of a command of all three modes, which is itself, completes. -/
theorem mirror_completes_open (h : Mirrors s d input at0) (hrow : modesOf i = [.idle, .encode, .decode])
    (hu : Completes s i u) (hj : mirror s i = some (j, x)) :
    ∃ e, Completes d j e ∧ MirrorLeaves u e x input at0 := by
  cases hu with
  | read hr => simp [(rawReader_row hr).1] at hrow
  | write hr => simp [(rawWriter_row hr).1] at hrow
  | initEnc | initDec | doneEnc | doneDec | encBit | encSym | decBit | decSym | icCompress | icDecompress =>
    simp [modesOf] at hrow
  | rdStatus =>
    obtain ⟨rfl, rfl⟩ := Prod.mk.inj (Option.some.inj hj)
    exact ⟨_, .rdStatus, .inl rfl, h.models, h.compressors, h.coder⟩
  | nop =>
    obtain ⟨rfl, rfl⟩ := Prod.mk.inj (Option.some.inj hj)
    exact ⟨_, .nop, .inl rfl, h.models, h.compressors, h.coder⟩
  | mdlNewBit he =>
    obtain ⟨rfl, rfl⟩ := Prod.mk.inj (Option.some.inj hj)
    exact ⟨_, .mdlNewBit (by rw [needEmptySlot_mirror h, he]), .inl rfl, by rw [h.models], h.compressors, h.coder⟩
  | mdlNewSym he hn =>
    obtain ⟨rfl, rfl⟩ := Prod.mk.inj (Option.some.inj hj)
    exact ⟨_, .mdlNewSym (by rw [needEmptySlot_mirror h, he]) hn, .inl rfl, by rw [h.models], h.compressors,
      h.coder⟩
  | mdlInitBit hg =>
    obtain ⟨rfl, rfl⟩ := Prod.mk.inj (Option.some.inj hj)
    exact ⟨_, .mdlInitBit (by rw [getBit_mirror h, hg]), .inl rfl, by rw [h.models], h.compressors, h.coder⟩
  | mdlInitSym hg =>
    obtain ⟨rfl, rfl⟩ := Prod.mk.inj (Option.some.inj hj)
    exact ⟨_, .mdlInitSym (by rw [getSym_mirror h, hg]), .inl rfl, by rw [h.models], h.compressors, h.coder⟩
  | mdlFree hg =>
    obtain ⟨rfl, rfl⟩ := Prod.mk.inj (Option.some.inj hj)
    exact ⟨_, .mdlFree (by rw [getSlot_mirror h, hg]), .inl rfl, by rw [h.models], h.compressors, h.coder⟩
  | icConfig he hv =>
    obtain ⟨rfl, rfl⟩ := Prod.mk.inj (Option.some.inj hj)
    exact ⟨_, .icConfig (by rw [needEmptyIc_mirror h, he]) (by rw [← hv, h.config]), .inl rfl, h.models,
      by rw [h.compressors], h.coder⟩
  | icInit hi =>
    obtain ⟨rfl, rfl⟩ := Prod.mk.inj (Option.some.inj hj)
    exact ⟨_, .icInit (by rw [getIc_mirror h, hi]), .inl rfl, h.models, by rw [h.compressors], h.coder⟩
  | icGetK hi =>
    obtain ⟨rfl, rfl⟩ := Prod.mk.inj (Option.some.inj hj)
    obtain ⟨-, hfind⟩ := getIc_eq_ok.1 hi
    exact ⟨_, .icGetK (by rw [getIc_mirror h, hi]), .inr (by rw [hfind]; rfl), h.models, h.compressors, h.coder⟩
  | icFree hi =>
    obtain ⟨rfl, rfl⟩ := Prod.mk.inj (Option.some.inj hj)
    exact ⟨_, .icFree (by rw [getIc_mirror h, hi]), .inl rfl, h.models, by rw [h.compressors], h.coder⟩

end

end Sys2Proof.Machine
end

section
/-! PROOF. The runs of a chunk, side by side: the encoder's commands one by one with their mirrors, and INIT_ENC,
DONE_ENC, INIT_DEC and DONE_DEC around them (40_entropy_coder.md R162-R164, R169, R170, R174). -/

namespace Sys2Proof.Machine

open Sys2Proof.Reference

/-! ## One command -/

/-- A command that ends outside FAULTED in a block that was not there has completed. -/
theorem completes_of_exec {i : Instr} {s t : State} (h : exec i s = .next t) (hs : s.mode ≠ .faulted)
    (ht : t.mode ≠ .faulted) :
    s.mode ∈ modesOf i ∧ ∃ u, Completes s i u ∧ t = { u with ccount := u.ccount + 1 } := by
  cases exec_ends h with
  | ignored hf | reported hf => exact absurd hf hs
  | fault => exact absurd rfl ht
  | @done u hm hu => exact ⟨hm, u, hu, rfl⟩

theorem encode_open {s : State} (h : s.mode = .encode) : s.mode ≠ .faulted := by simp [h]

theorem mode_of_completes {s u : State} {i : Instr} (h : Completes s i u) (hi : writesMode i = false) :
    u.mode = s.mode :=
  (completes_mode h).resolve_right fun he => by simp [hi] at he

/-- A command that has a mirror moves the encoder inside its interval. -/
theorem completes_inside {s u : State} {i j : Instr} {x : Option DWord} (hs : s.sound) (he : s.mode = .encode)
    (hu : Completes s i u) (hj : mirror s i = some (j, x)) :
    (intervalOf u.coder).inside (intervalOf s.coder) := by
  obtain ⟨hrow | hrow, -⟩ := mirror_row hj
  swap
  · rw [completes_coder hu hrow]
    exact Interval.inside_refl _
  have hv := sound_interval hs he
  have hfit := sound_fits hs
  cases hu with
  | read hr => simp [(rawReader_row hr).1] at hrow
  | doneEnc => cases hj
  | encBit hg _ hc =>
    have hok := (bit_ok_of_getBit hs hg).2
    obtain ⟨-, rfl⟩ := moved_eq_ok.1 (encBitM_ok hv hfit hok hc).1
    simp only [intervalOf_moved _ (sound_bit hv hok _)]
    exact Interval.inside_bit hv hok _
  | encSym hg hx hc =>
    have hok := (ready_of_getReadySym hs hg).2
    have hlt := lt_nsym_of_le_last hok hx
    obtain ⟨-, rfl⟩ := moved_eq_ok.1 (encSymM_ok hv hfit hok hlt hc).1
    simp only [intervalOf_moved _ (sound_symbol hv hok hlt)]
    exact Interval.inside_symbol hv hok hlt
  | write hr hc =>
    obtain ⟨hmoved, hsound⟩ := rawWriter_eq hv hfit hr
    obtain ⟨-, rfl⟩ := moved_eq_ok.1 (hmoved ▸ hc)
    simp only [intervalOf_moved _ hsound]
    exact inside_written hr _
  | icCompress hi hc =>
    obtain ⟨-, -, hms, hctx⟩ := legal_of_getReadyIc hs hi
    obtain ⟨hk, hmoved, -⟩ := writeCorrector_ok hv hfit hms hctx hc
    obtain ⟨-, rfl⟩ := moved_eq_ok.1 hmoved
    obtain ⟨m, -, hget, hready, hnsym⟩ := mBits_getElem hms hctx
    simp only [intervalOf_moved _ (sound_corrector hv hms hctx hk)]
    exact inside_corrector hv hms hk hget hready hnsym
  | _ => simp [modesOf] at hrow

/-- A command and its mirror, executed: both complete, and the blocks mirror each other again. -/
theorem mirror_step {s d t : State} {i j : Instr} {x : Option DWord} {input : List Byte} {at0 : Nat}
    (h : Mirrors s d input at0) (ht : exec i s = .next t) (hopen : t.mode ≠ .faulted)
    (hj : mirror s i = some (j, x)) (hf : (intervalOf t.coder).holds (input.drop at0)) :
    ∃ e, exec j d = .next e ∧ e.mode ≠ .faulted ∧ (x = none ∨ x = some e.res) ∧ Mirrors t e input at0 := by
  obtain ⟨-, u, hu, rfl⟩ := completes_of_exec ht (encode_open h.encode) hopen
  obtain ⟨hi, hrow, hkeep, hkeep', -⟩ := mirror_row hj
  obtain ⟨e, he, hleaves⟩ : ∃ e, Completes d j e ∧ MirrorLeaves u e x input at0 :=
    hi.elim (fun hi => mirror_completes_coding h hi hu hj hf) fun hi => mirror_completes_open h hi hu hj
  have hexec := exec_of_completes he (h.decode ▸ hrow)
  have hmode : e.mode = .decode := (mode_of_completes he hkeep').trans h.decode
  refine ⟨_, hexec, by simp [hmode], hleaves.value, exec_sound h.encoderSound ht,
    (mode_of_completes hu hkeep).trans h.encode, exec_sound h.decoderSound hexec, hmode, hleaves.models,
    hleaves.compressors, ?_, hleaves.coder⟩
  rw [completes_frame hu, completes_frame he]
  exact h.config

/-! ## Runs -/

theorem runAll_cons {i : Instr} {rest : List Instr} {s p : State} (h : runAll (i :: rest) s = some p) :
    ∃ t, exec i s = .next t ∧ t.mode ≠ .faulted ∧ runAll rest t = some p := by
  rw [runAll] at h
  split at h
  · rename_i t ht
    split at h
    · cases h
    · exact ⟨t, ht, ‹_›, h⟩
  · cases h
  · cases h

/-- A run of one command is that command. -/
theorem runAll_singleton {i : Instr} {s t : State} :
    runAll [i] s = some t ↔ exec i s = .next t ∧ t.mode ≠ .faulted := by
  constructor
  · intro h
    obtain ⟨t', ht, hopen, h⟩ := runAll_cons h
    obtain rfl := Option.some.inj h
    exact ⟨ht, hopen⟩
  · rintro ⟨h, hopen⟩
    simp [runAll, h, hopen]

theorem mirrorAll_cons {i : Instr} {rest : List Instr} {s t : State} {reads : List (Instr × Option DWord)}
    (h : mirrorAll (i :: rest) s = some reads) (ht : exec i s = .next t) :
    ∃ j x reads', mirror s i = some (j, x) ∧ mirrorAll rest t = some reads' ∧ reads = (j, x) :: reads' := by
  rw [mirrorAll, ht] at h
  cases hm : mirror s i with
  | none => simp [hm] at h
  | some r =>
    simp only [hm] at h
    obtain ⟨reads', hr, rfl⟩ := Option.map_eq_some_iff.1 h
    exact ⟨r.1, r.2, reads', rfl, hr, rfl⟩

/-- A run of commands that have mirrors stays in the chunk: the encoder stays sound and in ENCODE, appends nothing
to `OUTSTREAM` and moves inside its interval. -/
theorem run_inside {writes : List Instr} {s p : State} {reads : List (Instr × Option DWord)} (hs : s.sound)
    (he : s.mode = .encode) (hp : runAll writes s = some p) (hr : mirrorAll writes s = some reads) :
    p.sound ∧ p.mode = .encode ∧ p.outstream = s.outstream ∧
      (intervalOf p.coder).inside (intervalOf s.coder) := by
  induction writes generalizing s reads with
  | nil =>
    obtain rfl := Option.some.inj hp
    exact ⟨hs, he, rfl, Interval.inside_refl _⟩
  | cons i rest ih =>
    obtain ⟨t, ht, hopen, hp⟩ := runAll_cons hp
    obtain ⟨j, x, reads', hj, hr, -⟩ := mirrorAll_cons hr ht
    obtain ⟨-, u, hu, rfl⟩ := completes_of_exec ht (encode_open he) hopen
    obtain ⟨-, -, hkeep, -, hne⟩ := mirror_row hj
    obtain ⟨chunk, hout, hnil⟩ := completes_outstream hu
    obtain ⟨h1, h2, h3, h4⟩ := ih (exec_sound hs ht) ((mode_of_completes hu hkeep).trans he) hp hr
    refine ⟨h1, h2, h3.trans ?_, Interval.inside_trans h4 (completes_inside (u := u) hs he hu hj)⟩
    simp [hout, hnil hne]

/-- A run of commands and the run of their mirrors, on bytes inside the interval where the encoder ends. -/
theorem runReading_mirror {writes : List Instr} {s d p : State} {reads : List (Instr × Option DWord)}
    {input : List Byte} {at0 : Nat} (h : Mirrors s d input at0) (hp : runAll writes s = some p)
    (hr : mirrorAll writes s = some reads) (hf : (intervalOf p.coder).holds (input.drop at0)) :
    ∃ f, runReading reads d = some f ∧ Mirrors p f input at0 := by
  induction writes generalizing s d reads with
  | nil =>
    obtain rfl := Option.some.inj hp
    obtain rfl := Option.some.inj hr
    exact ⟨d, rfl, h⟩
  | cons i rest ih =>
    obtain ⟨t, ht, hopen, hp⟩ := runAll_cons hp
    obtain ⟨j, x, reads', hj, hrest, rfl⟩ := mirrorAll_cons hr ht
    obtain ⟨-, u, hu, he⟩ := completes_of_exec ht (encode_open h.encode) hopen
    obtain ⟨-, -, hkeep, -⟩ := mirror_row hj
    have hmode : t.mode = .encode := by
      rw [he]
      exact (mode_of_completes hu hkeep).trans h.encode
    obtain ⟨-, -, -, hin⟩ := run_inside (exec_sound h.encoderSound ht) hmode hp hrest
    obtain ⟨e, hexec, heopen, hvalue, hnext⟩ := mirror_step h ht hopen hj (hin.2 _ hf)
    obtain ⟨f, hrun, hlast⟩ := ih hnext hp hrest
    refine ⟨f, ?_, hlast⟩
    have hread : ¬ (e.mode = .faulted ∨ (x ≠ none ∧ x ≠ some e.res)) := by
      rintro (hbad | ⟨h1, h2⟩)
      · exact heopen hbad
      · exact hvalue.elim h1 h2
    rw [runReading, hexec]
    simp only [if_neg hread, hrun]

/-! ## The ends of a chunk -/

/-- The flushed chunk spells a number inside the last interval and is four bytes longer than `OUTBUF` was
(40_entropy_coder.md R169). -/
theorem flushEnc_holds {g : Config} {c c' : Coder} (hv : (intervalOf c).sound)
    (h : flushEnc g.outCapacity c = .ok c') (after : List Byte) :
    c'.outbuf.length = c.outbuf.length + 4 ∧ (intervalOf c).holds (c'.outbuf ++ after) := by
  obtain ⟨d, -, hlen, hnum, hflush⟩ := flushEnc_eq g c (intervalOf c) hv
  rw [withInterval_intervalOf, h] at hflush
  split at hflush
  · obtain rfl := Except.ok.inj hflush
    have hbytes : (intervalOf c).bytes = c.outbuf.length := rfl
    obtain ⟨hw, -, -⟩ := hv
    have htake : (c'.outbuf ++ after).take ((intervalOf c).bytes + 4) = c'.outbuf := by
      rw [← hlen, List.take_left]
    refine ⟨by omega, by rw [List.length_append]; omega, ?_, ?_⟩
    all_goals
      rw [htake, hnum]
      split <;> omega
  · exact absurd hflush.symm (raise_ne_ok _ _)

/-- INIT_ENC opens a chunk with the whole range (40_entropy_coder.md R163). -/
theorem initEnc_opens {s o : State} (h : exec .initEnc s = .next o) (hs : s.mode = .idle)
    (ho : o.mode ≠ .faulted) :
    intervalOf o.coder = ⟨0, 2 ^ 32 - 1, 0⟩ ∧ o.mode = .encode ∧ o.outstream = s.outstream ∧ o.ms = s.ms ∧
      o.ics = s.ics ∧ o.cfg = s.cfg := by
  obtain ⟨-, u, hu, rfl⟩ := completes_of_exec h (by simp [hs]) ho
  cases hu with
  | initEnc => exact ⟨intervalOf_opened _, rfl, rfl, rfl, rfl, rfl⟩
  | write hr => cases hr
  | read hr => cases hr

/-- DONE_ENC moves the flushed chunk to `OUTSTREAM` and returns its length (40_entropy_coder.md R169). -/
theorem doneEnc_closes {p t : State} (h : exec .doneEnc p = .next t) (hp : p.mode = .encode)
    (ht : t.mode ≠ .faulted) :
    ∃ c, flushEnc p.cfg.outCapacity p.coder = .ok c ∧ t.outstream = p.outstream ++ c.outbuf ∧
      t.res = zext64 c.outbuf.length ∧ t.ms = p.ms ∧ t.ics = p.ics := by
  obtain ⟨-, u, hu, rfl⟩ := completes_of_exec h (encode_open hp) ht
  cases hu with
  | doneEnc hc => exact ⟨_, hc, rfl, rfl, rfl, rfl⟩
  | write hr => cases hr
  | read hr => cases hr

/-- INIT_DEC on a chunk mirrors INIT_ENC (40_entropy_coder.md R162, R164). -/
theorem initDec_mirrors {o d : State} (ho : o.sound) (hmode : o.mode = .encode)
    (hopened : intervalOf o.coder = ⟨0, 2 ^ 32 - 1, 0⟩) (hd : d.sound) (hidle : d.mode = .idle)
    (hms : d.ms = o.ms) (hics : d.ics = o.ics)
    (hcfg : o.cfg = { d.cfg with outCapacity := o.cfg.outCapacity })
    (hf : (intervalOf o.coder).holds (d.coder.input.drop d.coder.inpos)) :
    ∃ e, runAll [.initDec] d = some e ∧ Mirrors o e d.coder.input d.coder.inpos := by
  rw [hopened] at hf
  obtain ⟨hlen, hlo, hhi⟩ := hf
  simp only [List.length_drop, Nat.zero_add] at hlen hlo hhi
  let w : Window := ⟨bytesNumber ((d.coder.input.drop d.coder.inpos).take 4), 2 ^ 32 - 1, d.coder.inpos + 4⟩
  have hw : w.sound := ⟨by norm_num [w], by norm_num [w], by simp only [w]; omega⟩
  have hprime : primeDec d.coder = .ok (withWindow { d.coder with icount := 0 } w) := by
    rw [primeDec_eq]
    exact taken_eq_ok.2 ⟨show d.coder.inpos + 4 ≤ d.coder.input.length by omega, rfl⟩
  have hexec := exec_of_completes (.initDec hprime) (by simp [hidle, modesOf])
  refine ⟨_, runAll_singleton.2 ⟨hexec, nofun⟩, ho, hmode, exec_sound hd hexec, rfl, hms, hics, hcfg, rfl, ?_, ?_⟩
  · rw [hopened]
    simp only [windowOf_withWindow _ hw]
    refine ⟨rfl, by simp [w], show d.coder.inpos + 4 ≤ d.coder.input.length by omega, by simp [w], hhi⟩
  · simp [w, show d.coder.inpos + 4 - d.coder.inpos = 4 by omega]

/-- DONE_DEC closes the chunk and returns the bytes read (40_entropy_coder.md R170). -/
theorem doneDec_closes {f : State} (h : f.mode = .decode) :
    runAll [.doneDec] f = some { f with
      mode := .idle, res := zext64 f.coder.icount.toNat, ccount := f.ccount + 1 } :=
  runAll_singleton.2 ⟨exec_of_completes .doneDec (by simp [h, modesOf]), nofun⟩

/-- Settles O50: the chunk lies in every interval of the encoder, so each mirror follows its command, from INIT_DEC
to DONE_DEC. -/
theorem chunkDecodesToWhatWasCoded : Obligations.ChunkDecodesToWhatWasCoded := by
  intro s o p t d writes reads chunk before after hs hsidle ho hp ht hreads hout hd hdidle hms hics hcfg hinput hinpos
  obtain ⟨ho, hoopen⟩ := runAll_singleton.1 ho
  obtain ⟨ht, htopen⟩ := runAll_singleton.1 ht
  obtain ⟨hopened, homode, hoout, homs, hoics, hocfg⟩ := initEnc_opens ho hsidle hoopen
  have hosound := exec_sound hs ho
  obtain ⟨hpsound, hpmode, hpout, hinside⟩ := run_inside hosound homode hp hreads
  obtain ⟨c, hflush, htout, htres, htms, htics⟩ := doneEnc_closes ht hpmode htopen
  obtain rfl : chunk = c.outbuf := by
    rw [htout, hpout, hoout] at hout
    exact (List.append_cancel_left hout).symm
  obtain ⟨hlen, hholds⟩ := flushEnc_holds (sound_interval hpsound hpmode) hflush after
  have hdrop : d.coder.input.drop d.coder.inpos = c.outbuf ++ after := by
    rw [hinput, hinpos, List.append_assoc, List.drop_left]
  rw [← hdrop] at hholds
  obtain ⟨e, he, hstart⟩ := initDec_mirrors hosound homode hopened hd hdidle (hms.trans homs.symm)
    (hics.trans hoics.symm) (by rw [hocfg]; exact hcfg) (hinside.2 _ hholds)
  obtain ⟨f, hf, hend⟩ := runReading_mirror hstart hp hreads hholds
  obtain ⟨-, hmatched, hcount⟩ := hend.coder
  have hpos : f.coder.inpos = before.length + c.outbuf.length := by
    have : f.coder.inpos = d.coder.inpos + (p.coder.outbuf.length + 4) := hmatched.pos
    omega
  refine ⟨e, f, _, he, hf, doneDec_closes hend.decode, hend.models.trans htms.symm,
    hend.compressors.trans htics.symm, rfl, hpos, fun hshort => ?_⟩
  have hread : f.coder.icount.toNat = c.outbuf.length := by
    rw [hcount, hpos, hinpos, Nat.add_sub_cancel_left, BitVec.toNat_ofNat, Nat.mod_eq_of_lt hshort]
  simp only [hread, htres]

end Sys2Proof.Machine
end

section
/-! PROOF. A command leaves the stores alone but for the slot it names, in the store it reaches
(20_memory.md R80). -/

namespace Sys2Proof.Machine

section
variable {s u : State} {i : Instr}

/-- A handle that is not the command's is another slot than the one the command names. -/
theorem ne_of_handle_ne {h j : Nat} (hj : some h ≠ some j) : j ≠ h := fun he => hj (congrArg some he.symm)

/-- A completed command keeps the model store, or it reaches it and keeps every slot but its own. -/
theorem completes_ms (h : Completes s i u) :
    u.ms = s.ms ∨
    reachesModels i = true ∧ ∀ j, i.handle? ≠ some j → Store.find u.ms j = Store.find s.ms j := by
  cases h with
  | encBit | decBit | encSym | decSym | mdlNewBit | mdlNewSym | mdlInitBit | mdlInitSym =>
    exact .inr ⟨rfl, fun _ hj => Store.find_put_other _ _ (ne_of_handle_ne hj)⟩
  | mdlFree => exact .inr ⟨rfl, fun _ hj => Store.find_drop_other _ (ne_of_handle_ne hj)⟩
  | _ => exact .inl rfl

/-- A completed command keeps the compressor store, or it reaches it and keeps every slot but its own. -/
theorem completes_ics (h : Completes s i u) :
    u.ics = s.ics ∨
    reachesCompressors i = true ∧ ∀ j, i.handle? ≠ some j → Store.find u.ics j = Store.find s.ics j := by
  cases h with
  | icConfig | icInit | icCompress | icDecompress =>
    exact .inr ⟨rfl, fun _ hj => Store.find_put_other _ _ (ne_of_handle_ne hj)⟩
  | icFree => exact .inr ⟨rfl, fun _ hj => Store.find_drop_other _ (ne_of_handle_ne hj)⟩
  | _ => exact .inl rfl

end

/-- Settles O20: by what a completed command leaves in each store; every other end keeps both. -/
theorem storesChangeOnlyAtTheHandle : Obligations.StoresChangeOnlyAtTheHandle := by
  intro i s t h
  cases exec_ends h with
  | ignored | reported | fault => exact ⟨fun _ => rfl, fun _ => rfl, fun _ _ => ⟨rfl, rfl⟩⟩
  | @done u hm hu =>
    have hms := completes_ms hu
    have hics := completes_ics hu
    refine ⟨fun hi => hms.resolve_right fun hr => ?_, fun hi => hics.resolve_right fun hr => ?_,
      fun j hj => ⟨?_, ?_⟩⟩
    · exact absurd hr.1 (by simp [hi])
    · exact absurd hr.1 (by simp [hi])
    · exact hms.elim (fun he => congrArg (Store.find · j) he) fun hr => hr.2 j hj
    · exact hics.elim (fun he => congrArg (Store.find · j) he) fun hr => hr.2 j hj

end Sys2Proof.Machine
end

section
/-! PROOF. What a command answers when its first check or procedure raises a fault: the slot checks, which come
right after the mode (60_exceptions.md R401, R402), and the lookahead of INIT_DEC (40_entropy_coder.md R164). -/

namespace Sys2Proof.Machine

open Sys2Proof.Reference

/-- In a mode of its row a command whose pseudocode begins with a raise faults, whatever would come after. -/
theorem command_faults {α : Type} {i : Instr} {s : State} {first : Res α} {rest : α → Res State}
    {code : FaultCode} (hm : s.mode ∈ modesOf i) (hr : first = raise code) :
    command i (modesOf i) s (first >>= rest) = faulted s code i.opcode := by
  rw [command_allowed (open_of_mem_modesOf hm) hm, hr, res_bind_raise, finish_raise, takeFault_eq_faulted]

/-! ## Opening a chunk to decode -/

/-- With four bytes left they become `VALUE`, and the reader is four bytes on. -/
theorem primeDec_of_four_bytes {c : Coder} {c0 c1 c2 c3 : Byte} {rest : List Byte}
    (h : c.input.drop c.inpos = c0 :: c1 :: c2 :: c3 :: rest) :
    primeDec c = .ok { c with
      length := maxLen, value := c0 ++ c1 ++ c2 ++ c3, inpos := c.inpos + 4, icount := 4 } := by
  have hlen : c.inpos + 4 ≤ c.input.length := by
    have := congrArg List.length h
    simp only [List.length_drop, List.length_cons] at this
    omega
  have hvalue : BitVec.ofNat 32 (bytesNumber [c0, c1, c2, c3]) = c0 ++ c1 ++ c2 ++ c3 := by
    rw [← four_bytes_toNat, BitVec.ofNat_toNat, BitVec.setWidth_eq]
  rw [primeDec_eq, h]
  refine taken_eq_ok.2 ⟨hlen, ?_⟩
  simp only [List.take_succ_cons, List.take_zero, withWindow, hvalue, Nat.add_sub_cancel_left]
  rfl

/-- With fewer than four bytes left the input runs out. -/
theorem primeDec_exhausted {c : Coder} (h : c.input.length < c.inpos + 4) :
    primeDec c = raise .inputExhausted := by
  rw [primeDec_eq]
  exact if_neg (Nat.not_le.2 h)

/-- Settles O25: INIT_DEC ends as its lookahead does. -/
theorem initDecPrimesFourBytes : Obligations.InitDecPrimesFourBytes := by
  intro s hs
  have hm : s.mode ∈ modesOf .initDec := by simp [hs, modesOf]
  exact ⟨fun _ _ _ _ _ hbytes => exec_of_completes (.initDec (primeDec_of_four_bytes hbytes)) hm,
    fun hshort => command_faults hm (primeDec_exhausted hshort)⟩

/-! ## What the slot checks raise -/

section
variable {s : State} {h : Nat} {code : FaultCode}

theorem getSlot_past (hh : s.cfg.modelSlots ≤ h) : getSlot s h = raise .badHandle := if_pos hh

theorem getSlot_empty (hh : h < s.cfg.modelSlots) (he : Store.find s.ms h = none) :
    getSlot s h = raise .badHandle := by
  rw [getSlot, if_neg (Nat.not_le.2 hh), he]

theorem needEmptySlot_past (hh : s.cfg.modelSlots ≤ h) : needEmptySlot s h = raise .badHandle := if_pos hh

theorem needEmptySlot_filled (hh : h < s.cfg.modelSlots) (he : Store.find s.ms h ≠ none) :
    needEmptySlot s h = raise .slotOccupied := by
  obtain ⟨m, hm⟩ := Option.ne_none_iff_exists'.1 he
  rw [needEmptySlot, if_neg (Nat.not_le.2 hh), hm]

theorem getIc_past (hh : s.cfg.icSlots ≤ h) : getIc s h = raise .badHandle := if_pos hh

theorem getIc_empty (hh : h < s.cfg.icSlots) (he : Store.find s.ics h = none) :
    getIc s h = raise .badHandle := by
  rw [getIc, if_neg (Nat.not_le.2 hh), he]

theorem needEmptyIc_past (hh : s.cfg.icSlots ≤ h) : needEmptyIc s h = raise .badHandle := if_pos hh

theorem needEmptyIc_filled (hh : h < s.cfg.icSlots) (he : Store.find s.ics h ≠ none) :
    needEmptyIc s h = raise .slotOccupied := by
  obtain ⟨ic, hic⟩ := Option.ne_none_iff_exists'.1 he
  rw [needEmptyIc, if_neg (Nat.not_le.2 hh), hic]

/-! The checks that look into a slot first need it filled. -/

theorem getBit_raise (hr : getSlot s h = raise code) : getBit s h = raise code := by
  rw [getBit, hr, res_bind_raise]

theorem getSym_raise (hr : getSlot s h = raise code) : getSym s h = raise code := by
  rw [getSym, hr, res_bind_raise]

theorem getReadySym_raise (hr : getSlot s h = raise code) : getReadySym s h = raise code := by
  rw [getReadySym, getSym_raise hr, res_bind_raise]

theorem getReadyIc_raise {context : Word} (hr : getIc s h = raise code) :
    getReadyIc s h context = raise code := by
  rw [getReadyIc, hr, res_bind_raise]

/-! ## The slot check is the first one -/

variable {i : Instr}

/-- A command on a filled model slot faults as its slot check does. -/
theorem exec_of_getSlot_raise (hm : s.mode ∈ modesOf i) (hh : i.handle? = some h)
    (hi : reachesModels i = true) (hn : creates i = false) (hr : getSlot s h = raise code) :
    exec i s = faulted s code i.opcode := by
  cases i with
  | encBit | decBit | mdlInitBit =>
    obtain rfl := Option.some.inj hh
    exact command_faults hm (getBit_raise hr)
  | encSym | decSym =>
    obtain rfl := Option.some.inj hh
    exact command_faults hm (getReadySym_raise hr)
  | mdlInitSym =>
    obtain rfl := Option.some.inj hh
    exact command_faults hm (getSym_raise hr)
  | mdlFree =>
    obtain rfl := Option.some.inj hh
    exact command_faults hm hr
  | mdlNewBit | mdlNewSym => simp [creates, Instr.opcode] at hn
  | _ => simp [reachesModels, Instr.opcode] at hi

/-- A command that creates a model faults as its slot check does. -/
theorem exec_of_needEmptySlot_raise (hm : s.mode ∈ modesOf i) (hh : i.handle? = some h)
    (hi : reachesModels i = true) (hn : creates i = true) (hr : needEmptySlot s h = raise code) :
    exec i s = faulted s code i.opcode := by
  cases i with
  | mdlNewBit | mdlNewSym =>
    obtain rfl := Option.some.inj hh
    exact command_faults hm hr
  | icConfig => simp [reachesModels, Instr.opcode] at hi
  | _ => simp [creates, Instr.opcode] at hn

/-- A command on a filled compressor slot faults as its slot check does. -/
theorem exec_of_getIc_raise (hm : s.mode ∈ modesOf i) (hh : i.handle? = some h)
    (hi : reachesCompressors i = true) (hn : creates i = false) (hr : getIc s h = raise code) :
    exec i s = faulted s code i.opcode := by
  cases i with
  | icInit | icGetK | icFree =>
    obtain rfl := Option.some.inj hh
    exact command_faults hm hr
  | icCompress | icDecompress =>
    obtain rfl := Option.some.inj hh
    exact command_faults hm (getReadyIc_raise hr)
  | icConfig => simp [creates, Instr.opcode] at hn
  | _ => simp [reachesCompressors, Instr.opcode] at hi

/-- The command that creates a compressor faults as its slot check does. -/
theorem exec_of_needEmptyIc_raise (hm : s.mode ∈ modesOf i) (hh : i.handle? = some h)
    (hi : reachesCompressors i = true) (hn : creates i = true) (hr : needEmptyIc s h = raise code) :
    exec i s = faulted s code i.opcode := by
  cases i with
  | icConfig =>
    obtain rfl := Option.some.inj hh
    exact command_faults hm hr
  | mdlNewBit | mdlNewSym => simp [reachesCompressors, Instr.opcode] at hi
  | _ => simp [creates, Instr.opcode] at hn

end

/-- Settles O34: the slot check comes first, so its fault is the command's; past the slot count both kinds of
check raise BAD_HANDLE. -/
theorem slotChecksComeAfterTheMode : Obligations.SlotChecksComeAfterTheMode := by
  intro i h s _ hm hh
  refine ⟨fun hi => ⟨fun hpast => ?_, fun hlt hn he => ?_, fun hlt hn he => ?_⟩,
    fun hi => ⟨fun hpast => ?_, fun hlt hn he => ?_, fun hlt hn he => ?_⟩⟩
  · cases hn : creates i with
    | false => exact exec_of_getSlot_raise hm hh hi hn (getSlot_past hpast)
    | true => exact exec_of_needEmptySlot_raise hm hh hi hn (needEmptySlot_past hpast)
  · exact exec_of_getSlot_raise hm hh hi hn (getSlot_empty hlt he)
  · exact exec_of_needEmptySlot_raise hm hh hi hn (needEmptySlot_filled hlt he)
  · cases hn : creates i with
    | false => exact exec_of_getIc_raise hm hh hi hn (getIc_past hpast)
    | true => exact exec_of_needEmptyIc_raise hm hh hi hn (needEmptyIc_past hpast)
  · exact exec_of_getIc_raise hm hh hi hn (getIc_empty hlt he)
  · exact exec_of_needEmptyIc_raise hm hh hi hn (needEmptyIc_filled hlt he)

end Sys2Proof.Machine
end

section
/-! PROOF. Decoding and encoding (30_encoding.md R111-R119). A command word is the fields of R111 side by side; a
tuple carries the command whose opcode, fields and operands it holds, and the opcode map fills in that command and
no other. -/

namespace Sys2Proof

open Sys2Proof.Machine

/-! ## The fields of a command word -/

section
variable {c : Command} {opc : Byte} {h n : Nat}

/-- With RSV = 0, a command word is its other three fields side by side (R111). -/
theorem cw_eq_commandWord (hr : c.rsv = 0) : c.cw = commandWord c.opc c.h c.n := by
  have hrsv : c.cw.extractLsb' 26 6 = 0#6 := BitVec.eq_of_toNat_eq hr
  simp only [commandWord, Command.opc, Command.h, Command.n, BitVec.ofNat_toNat, BitVec.setWidth_eq]
  rw [← hrsv, BitVec.extractLsb'_append_extractLsb'_eq_extractLsb' (by rfl),
    BitVec.extractLsb'_append_extractLsb'_eq_extractLsb' (by rfl),
    BitVec.extractLsb'_append_extractLsb'_eq_extractLsb' (by rfl), BitVec.extractLsb'_eq_self]

theorem opc_of_commandWord (hc : c.cw = commandWord opc h n) : c.opc = opc := by
  rw [Command.opc, hc, commandWord, BitVec.extractLsb'_append_eq_right]

theorem h_of_commandWord (hc : c.cw = commandWord opc h n) (hh : h < 4096) : c.h = h := by
  rw [Command.h, hc, commandWord, BitVec.extractLsb'_append_eq_of_le (by decide),
    BitVec.extractLsb'_append_eq_right, BitVec.toNat_ofNat, Nat.mod_eq_of_lt hh]

theorem n_of_commandWord (hc : c.cw = commandWord opc h n) (hn : n < 64) : c.n = n := by
  rw [Command.n, hc, commandWord, BitVec.extractLsb'_append_eq_of_le (by decide),
    BitVec.extractLsb'_append_eq_of_le (by decide), BitVec.extractLsb'_append_eq_right,
    BitVec.toNat_ofNat, Nat.mod_eq_of_lt hn]

theorem rsv_of_commandWord (hc : c.cw = commandWord opc h n) : c.rsv = 0 := by
  rw [Command.rsv, hc, commandWord, BitVec.extractLsb'_append_eq_of_le (by decide),
    BitVec.extractLsb'_append_eq_of_le (by decide), BitVec.extractLsb'_append_eq_left]
  rfl

theorem Command.h_lt (c : Command) : c.h < 4096 := (c.cw.extractLsb' 8 12).isLt

theorem Command.n_lt (c : Command) : c.n < 64 := (c.cw.extractLsb' 20 6).isLt

end

/-! ## The fields a format does not use -/

/-- A field above the opcode is 0 where a mask that covers it leaves the opcode alone. -/
theorem field_eq_zero_of_masked {cw mask : Word} {opc : Byte} {start len : Nat} (hs : 8 ≤ start)
    (hmask : mask.extractLsb' start len = BitVec.allOnes len) (hm : cw &&& mask = opc.setWidth 32) :
    cw.extractLsb' start len = 0#len := by
  have hopc : (opc.setWidth 32).extractLsb' start len = 0#len := by
    ext j hj
    simp [BitVec.getLsbD_of_ge opc (start + j) (by omega)]
  rw [← hopc, ← hm, BitVec.extractLsb'_and, hmask, BitVec.and_allOnes]

/-- A word with RSV = 0 has its unused fields 0 exactly when its format's mask leaves its opcode alone
(R112, R114). -/
theorem masked_eq_opc_iff {c : Command} (hr : c.rsv = 0) (f : Format) :
    c.cw &&& f.mask = c.opc.setWidth 32 ↔ f.unusedSet c = false := by
  have hword := cw_eq_commandWord hr
  constructor
  · intro hm
    have hh (hmask : f.mask.extractLsb' 8 12 = BitVec.allOnes 12) : c.h = 0 :=
      congrArg BitVec.toNat (field_eq_zero_of_masked (by decide) hmask hm)
    have hn (hmask : f.mask.extractLsb' 20 6 = BitVec.allOnes 6) : c.n = 0 :=
      congrArg BitVec.toNat (field_eq_zero_of_masked (by decide) hmask hm)
    cases f with
    | f0 => simp [Format.unusedSet, hh rfl, hn rfl]
    | fh => simp [Format.unusedSet, hn rfl]
    | fn => simp [Format.unusedSet, hh rfl]
    | fhn => rfl
  · intro hu
    cases f with
    | f0 =>
      obtain ⟨hh, hn⟩ : c.h = 0 ∧ c.n = 0 := by simpa [Format.unusedSet] using hu
      rw [hword, hh, hn, Laws.commandWord_f0]
    | fh =>
      have hn : c.n = 0 := by simpa [Format.unusedSet] using hu
      rw [hword, hn, Laws.commandWord_fh]
    | fn =>
      have hh : c.h = 0 := by simpa [Format.unusedSet] using hu
      rw [hword, hh, Laws.commandWord_fn]
    | fhn => rw [hword, Laws.commandWord_fhn]

/-- A command's format uses the fields the command has (R112). -/
theorem format_unusedSet_iff (i : Instr) (c : Command) :
    i.format.unusedSet c = false ↔ (i.handle? = none → c.h = 0) ∧ (i.width? = none → c.n = 0) := by
  cases i <;> simp [Instr.format, Format.unusedSet, Instr.handle?, Instr.width?]

theorem wellFormed_iff (i : Instr) :
    i.wellFormed ↔ (∀ h, i.handle? = some h → h < 4096) ∧ (∀ n, i.width? = some n → n < 64) := by
  cases hh : i.handle? <;> cases hn : i.width? <;> simp [Instr.wellFormed, handleFits, widthFits, hh, hn]

/-- A field holds an optional value, 0 for none. -/
theorem eq_getD_zero_iff {x : Nat} {o : Option Nat} :
    x = o.getD 0 ↔ (o = none → x = 0) ∧ ∀ v, o = some v → x = v := by
  cases o <;> simp

/-! ## The operand bits a command reads -/

/-- The bits that a mask of the lowest bits lets through are those of a part behind zeros exactly when they are
the part. -/
theorem and_lowMask_eq_iff {m k : Nat} (x : BitVec (m + k)) (v : BitVec k) :
    x &&& (0#m ++ BitVec.allOnes k) = 0#m ++ v ↔ x.extractLsb' 0 k = v := by
  have hlow : x &&& (0#m ++ BitVec.allOnes k) = 0#m ++ x.extractLsb' 0 k := by
    calc x &&& (0#m ++ BitVec.allOnes k)
        = (x.extractLsb' k m ++ x.extractLsb' 0 k) &&& (0#m ++ BitVec.allOnes k) := by
          rw [BitVec.extractLsb'_append_extractLsb']
      _ = 0#m ++ x.extractLsb' 0 k := by
          rw [BitVec.and_append, BitVec.and_zero, BitVec.and_allOnes]
  rw [hlow, BitVec.append_right_inj]

/-- A word is two parts side by side exactly when they are its high and its low part. -/
theorem eq_append_iff {m k : Nat} {x : BitVec (m + k)} {high : BitVec m} {low : BitVec k} :
    x = high ++ low ↔ x.extractLsb' k m = high ∧ x.extractLsb' 0 k = low := by
  constructor
  · rintro rfl
    exact ⟨BitVec.extractLsb'_append_eq_left, BitVec.extractLsb'_append_eq_right⟩
  · rintro ⟨rfl, rfl⟩
    exact BitVec.extractLsb'_append_extractLsb'.symm

/-- WR_BYTE reads B[7:0]. -/
theorem lowByte_of_b_iff (b : Word) (v : Byte) :
    b &&& 0x000000FF#32 = 0#24 ++ v ↔ b.extractLsb' 0 8 = v :=
  and_lowMask_eq_iff (m := 24) b v

/-- WR_SHORT reads B[15:0]. -/
theorem lowHalf_of_b_iff (b : Word) (v : BitVec 16) :
    b &&& 0x0000FFFF#32 = 0#16 ++ v ↔ b.extractLsb' 0 16 = v :=
  and_lowMask_eq_iff (m := 16) b v

/-- The other commands that read B read all of it. -/
theorem whole_b (b : Word) : b &&& 0xFFFFFFFF#32 = b := BitVec.and_allOnes

/-- IC_DECOMPRESS reads A[31:0]. -/
theorem lowWord_of_a_iff (a : DWord) (v : Word) :
    a &&& 0x00000000FFFFFFFF#64 = 0#32 ++ v ↔ a.extractLsb' 0 32 = v :=
  and_lowMask_eq_iff (m := 32) a v

/-- The other commands that read A read all of it. -/
theorem whole_a (a : DWord) : a &&& 0xFFFFFFFFFFFFFFFF#64 = a := BitVec.and_allOnes

/-- IC_CONFIG and IC_COMPRESS read A[63:32] and A[31:0] as two operands. -/
theorem halves_of_a_iff (c : Command) (high low : Word) :
    c.a = high ++ low ↔ c.aLow = low ∧ c.aHigh = high :=
  (eq_append_iff (m := 32) (k := 32)).trans and_comm

/-! ## The command a tuple carries -/

/-- The tuple carries the command: its opcode, the fields the command has, and the operand bits its opcode
reads (R113) are the command's. -/
structure Command.Carries (c : Command) (i : Instr) : Prop where
  opcode : c.opc = i.opcode
  handle : ∀ h, i.handle? = some h → c.h = h
  width : ∀ n, i.width? = some n → c.n = n
  operandA : c.a &&& readsA i.opcode = i.operandA
  operandB : c.b &&& readsB i.opcode = i.operandB

theorem Command.carries_iff (c : Command) (i : Instr) :
    c.Carries i ↔ c.opc = i.opcode ∧ (∀ h, i.handle? = some h → c.h = h) ∧
      (∀ n, i.width? = some n → c.n = n) ∧
      c.a &&& readsA i.opcode = i.operandA ∧ c.b &&& readsB i.opcode = i.operandB :=
  ⟨fun ⟨ho, hh, hn, ha, hb⟩ => ⟨ho, hh, hn, ha, hb⟩, fun ⟨ho, hh, hn, ha, hb⟩ => ⟨ho, hh, hn, ha, hb⟩⟩

/-- The row of the opcode map for a command's opcode has the command's format. -/
theorem tableRow_of_opcode {c : Command} {i : Instr} (h : c.opc = i.opcode) :
    ∃ j, tableRow c = some (i.format, j) := by
  rw [tableRow, h]
  cases i <;> exact ⟨_, rfl⟩

/-- The opcode map gives a command with the opcode it is asked for. -/
theorem opcode_of_tableRow {c : Command} {f : Format} {i : Instr} (h : tableRow c = some (f, i)) :
    c.opc = i.opcode := by
  unfold tableRow at h
  split at h <;> cases h <;> exact BitVec.eq_of_toNat_eq ‹_›

/-- The row of a command's opcode is filled with what the tuple carries: row by row, the operands that R114's map
fills in are the bits that R113 lists. -/
theorem tableRow_iff_of_opcode {c : Command} {f : Format} {i : Instr} (ho : c.opc = i.opcode) :
    tableRow c = some (f, i) ↔ i.format = f ∧ c.Carries i := by
  rw [tableRow, Command.carries_iff, ho]
  cases i <;>
    simp [Instr.opcode, Instr.format, Instr.handle?, Instr.width?, Instr.operandA, Instr.operandB,
      readsA, readsB, Command.aLow, lowByte_of_b_iff, lowHalf_of_b_iff, whole_b,
      lowWord_of_a_iff, whole_a, halves_of_a_iff, and_assoc, and_left_comm, and_comm]

/-- The opcode map fills in what the tuple carries, and nothing else (R113, R114). -/
theorem tableRow_eq_some_iff {c : Command} {f : Format} {i : Instr} :
    tableRow c = some (f, i) ↔ i.format = f ∧ c.Carries i :=
  ⟨fun h => (tableRow_iff_of_opcode (opcode_of_tableRow h)).1 h,
   fun h => (tableRow_iff_of_opcode h.2.opcode).2 h⟩

/-! ## Decoding -/

/-- A command decodes to what it carries, when no reserved bit and no unused field is set (R119). -/
theorem decode_eq_ok_iff {c : Command} {i : Instr} :
    decode c = .ok i ↔ c.rsv = 0 ∧ i.format.unusedSet c = false ∧ c.Carries i := by
  constructor
  · intro h
    unfold decode at h
    split at h
    · cases h
    · next hr =>
      split at h
      · cases h
      · next f j hrow =>
        split at h
        · cases h
        · next hu =>
          cases h
          obtain ⟨rfl, hc⟩ := tableRow_eq_some_iff.1 hrow
          exact ⟨not_not.1 hr, Bool.eq_false_iff.2 hu, hc⟩
  · rintro ⟨hr, hu, hc⟩
    simp [decode, hr, tableRow_eq_some_iff.2 ⟨rfl, hc⟩, hu]

/-- A word decodes exactly when RSV = 0 and it has an assigned opcode and no unused field set; the operands
have no say. -/
theorem decodes_iff {c : Command} :
    (∃ i, decode c = .ok i) ↔ c.rsv = 0 ∧ ∃ i : Instr, c.opc = i.opcode ∧ i.format.unusedSet c = false := by
  constructor
  · rintro ⟨i, h⟩
    obtain ⟨hr, hu, hc⟩ := decode_eq_ok_iff.1 h
    exact ⟨hr, i, hc.opcode, hu⟩
  · rintro ⟨hr, i, ho, hu⟩
    obtain ⟨j, hrow⟩ := tableRow_of_opcode ho
    obtain ⟨hf, hc⟩ := tableRow_eq_some_iff.1 hrow
    exact ⟨j, decode_eq_ok_iff.2 ⟨hr, hf ▸ hu, hc⟩⟩

/-- Commands with the same opcode have the same format. -/
theorem format_eq_of_opcode_eq {i j : Instr} (h : i.opcode = j.opcode) : i.format = j.format := by
  obtain ⟨k, hk⟩ := tableRow_of_opcode (c := encode i) (i := i) (opc_of_commandWord rfl)
  obtain ⟨l, hl⟩ := tableRow_of_opcode (c := encode i) (i := j) ((opc_of_commandWord rfl).trans h)
  exact congrArg Prod.fst (Option.some.inj (hk.symm.trans hl))

/-! ## Encoding -/

section
variable {i : Instr}

theorem encode_h (hw : i.wellFormed) : (encode i).h = i.handle?.getD 0 := by
  refine h_of_commandWord rfl ?_
  cases hh : i.handle? with
  | none => decide
  | some h => exact ((wellFormed_iff i).1 hw).1 h hh

theorem encode_n (hw : i.wellFormed) : (encode i).n = i.width?.getD 0 := by
  refine n_of_commandWord rfl ?_
  cases hn : i.width? with
  | none => decide
  | some n => exact ((wellFormed_iff i).1 hw).2 n hn

/-- A command's operands have no bit that its opcode does not read. -/
theorem operands_read (i : Instr) :
    i.operandA &&& readsA i.opcode = i.operandA ∧ i.operandB &&& readsB i.opcode = i.operandB := by
  cases i with
  | wrByte v => exact ⟨BitVec.zero_and, (lowByte_of_b_iff _ v).2 BitVec.extractLsb'_append_eq_right⟩
  | wrShort v => exact ⟨BitVec.zero_and, (lowHalf_of_b_iff _ v).2 BitVec.extractLsb'_append_eq_right⟩
  | icDecompress h pred context =>
    exact ⟨(lowWord_of_a_iff _ pred).2 BitVec.extractLsb'_append_eq_right, whole_b _⟩
  | _ => simp [Instr.opcode, Instr.operandA, Instr.operandB, readsA, readsB, whole_a, whole_b]

/-- The tuple of a well-formed command carries the command. -/
theorem encode_carries (hw : i.wellFormed) : (encode i).Carries i where
  opcode := opc_of_commandWord rfl
  handle := (eq_getD_zero_iff.1 (encode_h hw)).2
  width := (eq_getD_zero_iff.1 (encode_n hw)).2
  operandA := (operands_read i).1
  operandB := (operands_read i).2

end

/-- Settles O1: the tuple of a well-formed command carries it, with no reserved bit and no unused field set. -/
theorem decodeOfEncodeIsTheCommand : Obligations.DecodeOfEncodeIsTheCommand := by
  intro i hw
  have hu : i.format.unusedSet (encode i) = false :=
    (format_unusedSet_iff i (encode i)).2
      ⟨(eq_getD_zero_iff.1 (encode_h hw)).1, (eq_getD_zero_iff.1 (encode_n hw)).1⟩
  exact decode_eq_ok_iff.2 ⟨rsv_of_commandWord rfl, hu, encode_carries hw⟩

/-- Settles O2: the fields that the word holds are the command's, and those that the command lacks are 0. -/
theorem decodedWordIsTheCommandsWord : Obligations.DecodedWordIsTheCommandsWord := by
  intro c i h
  obtain ⟨hr, hu, hc⟩ := decode_eq_ok_iff.1 h
  obtain ⟨hh, hn⟩ := (format_unusedSet_iff i c).1 hu
  have hhandle : c.h = i.handle?.getD 0 := eq_getD_zero_iff.2 ⟨hh, hc.handle⟩
  have hwidth : c.n = i.width?.getD 0 := eq_getD_zero_iff.2 ⟨hn, hc.width⟩
  refine ⟨(wellFormed_iff i).2 ⟨fun h hi => hc.handle h hi ▸ c.h_lt, fun n hi => hc.width n hi ▸ c.n_lt⟩, ?_⟩
  calc (encode i).cw = commandWord c.opc c.h c.n := by rw [hc.opcode, hhandle, hwidth]; rfl
    _ = c.cw := (cw_eq_commandWord hr).symm

/-- Settles O3: each word is the encoding of the command beside it. -/
theorem exampleWordsDecodeAsListed : Obligations.ExampleWordsDecodeAsListed :=
  have back := decodeOfEncodeIsTheCommand
  ⟨back .initEnc rfl, back (.encBit 3 1) rfl, back (.encSym 1 3) rfl, back (.wrBits 20 0xABCDE#32) rfl,
    back (.wrInt64 0x0123456789ABCDEF#64) rfl, back (.mdlNewSym 7 256) rfl, back (.icConfig 2 16 2 8 0) rfl,
    back (.icCompress 2 100 101 1) rfl, back (.icCompress 0 0 0xFFFFFFFF#32 0) rfl,
    back (.icDecompress 2 100 1) rfl⟩

/-- Settles O4: a word that decodes has RSV = 0 and an assigned opcode, and the mask of its opcode's format
leaves that opcode. -/
theorem rejectedWordsAreTheIllegalOnes : Obligations.RejectedWordsAreTheIllegalOnes := by
  intro c
  have hreject : (∃ e, decode c = .error e) ↔ ¬ ∃ i, decode c = .ok i := by
    cases decode c <;> simp
  rw [hreject, decodes_iff]
  constructor
  · intro hn
    by_cases hr : c.rsv = 0
    · by_cases ha : ∃ i : Instr, i.opcode = c.opc
      · obtain ⟨i, ho⟩ := ha
        exact .inr (.inr ⟨i, ho, fun hm =>
          hn ⟨hr, i, ho.symm, (masked_eq_opc_iff hr _).1 (hm.trans (congrArg _ ho))⟩⟩)
      · exact .inr (.inl (not_exists.1 ha))
    · exact .inl fun h => hr (congrArg BitVec.toNat h)
  · rintro (hrsv | hunassigned | ⟨i, ho, hm⟩) ⟨hr, j, hj, hu⟩
    · exact hrsv (BitVec.eq_of_toNat_eq hr)
    · exact hunassigned j hj.symm
    · rw [format_eq_of_opcode_eq (ho.trans hj)] at hm
      exact hm (((masked_eq_opc_iff hr _).2 hu).trans (congrArg _ ho.symm))

/-- Two tuples with one command word and the same read operand bits carry the same commands. -/
theorem carries_congr {cw : Word} {a a' : DWord} {b b' : Word} {i : Instr}
    (ha : a &&& readsA (cw.extractLsb' 0 8) = a' &&& readsA (cw.extractLsb' 0 8))
    (hb : b &&& readsB (cw.extractLsb' 0 8) = b' &&& readsB (cw.extractLsb' 0 8)) :
    (⟨cw, a, b⟩ : Command).Carries i ↔ (⟨cw, a', b'⟩ : Command).Carries i := by
  rw [Command.carries_iff, Command.carries_iff]
  refine and_congr_right fun ho => ?_
  rw [show cw.extractLsb' 0 8 = i.opcode from ho] at ha hb
  rw [ha, hb]
  rfl

/-- Settles O5: the conditions for decoding are on the command word, and the opcode map fills in what the tuple
carries. -/
theorem unreadOperandBitsAreIgnored : Obligations.UnreadOperandBitsAreIgnored := by
  rintro ⟨cw, a, b⟩ ⟨-, a', b'⟩ rfl
  refine ⟨?_, fun ha hb => ?_⟩
  · rw [decodes_iff, decodes_iff]
    rfl
  · have hrow : tableRow ⟨cw, a, b⟩ = tableRow ⟨cw, a', b'⟩ :=
      Option.ext fun ⟨f, i⟩ => by
        rw [tableRow_eq_some_iff, tableRow_eq_some_iff, carries_congr ha hb]
    rw [decode, hrow]
    rfl

/-- An illegal word faults ILLEGAL_COMMAND in every mode but FAULTED (R402, R403). -/
theorem issue_illegal {s : State} {c : Command} {e : Reject} (he : decode c = .error e)
    (hm : s.mode ≠ .faulted) : issue c s = .next (takeFault .illegalCommand c.opc s) := by
  rw [issue, he, ← illegalCommand_open c hm]

/-- Settles O7: the step takes the fault of the illegal word in the state without the operation. -/
theorem illegalWordFaultsIllegalCommand : Obligations.IllegalWordFaultsIllegalCommand := by
  intro s c rest e hp he hm
  rw [step, hp]
  simp only [runHostOp, issue_illegal (s := { s with pending := rest }) he hm]
  rfl

end Sys2Proof
end

section
/-! PROOF. The commands of the entropy coder as steps of exact integers: opening and closing a chunk, and coding
a modelled bit or symbol (40_entropy_coder.md R157-R160, R163, R165-R170). -/

namespace Sys2Proof.Machine

open Sys2Proof.Reference

/-- In a mode of its row a command whose pseudocode raises a fault takes it. -/
theorem command_raises {i : Instr} {s : State} {body : Res State} {code : FaultCode}
    (hm : s.mode ∈ modesOf i) (hb : body = raise code) :
    command i (modesOf i) s body = faulted s code i.opcode := by
  rw [command_allowed (open_of_mem_modesOf hm) hm, hb, finish_raise, takeFault_eq_faulted]

theorem moved_overflow {g : Config} {c : Coder} {v : Interval} (h : ¬ fits g v.bytes) :
    moved g c v = raise .outputOverflow := if_neg h

theorem taken_exhausted {c : Coder} {w : Window} (h : ¬ w.pos ≤ c.input.length) :
    taken c w = raise .inputExhausted := if_neg h

section
variable {g : Config} {c : Coder} (hv : (intervalOf c).sound) (hf : fits g c.outbuf.length)
include hv hf

theorem encBitM_answer {m : BitModel} (hm : m.ok) (b : Bool) :
    encBitM g.outCapacity c m b =
      (moved g c ((intervalOf c).bit m.p0.toNat b) >>= fun c' => .ok (c', bitModelCoded m b)) := by
  have h := encBitM_eq g c (intervalOf c) m b hv hm hf
  rwa [withInterval_intervalOf] at h

theorem encSymM_answer {m : SymModel} (hm : m.readyOk) {s : Nat} (hs : s < m.nsym) :
    encSymM g.outCapacity c m s =
      (moved g c ((intervalOf c).symbol m.dist s) >>= fun c' => .ok (c', symModelCoded m s)) := by
  have h := encSymM_eq g c (intervalOf c) m s hv hm hs hf
  rwa [withInterval_intervalOf] at h

end

/-! ## Chunk ends -/

/-- Settles O24: INIT_ENC always completes in IDLE. -/
theorem initEncOpensAnEmptyChunk : Obligations.InitEncOpensAnEmptyChunk := fun _ hs =>
  exec_of_completes .initEnc (by simp [hs, modesOf])

/-- Settles O27: DONE_DEC always completes in DECODE, and `ICOUNT` is a number of 32 bits. -/
theorem doneDecReturnsTheByteCount : Obligations.DoneDecReturnsTheByteCount := by
  intro s hs
  have h := exec_of_completes (.doneDec (s := s)) (by simp [hs, modesOf])
  rwa [zext64, BitVec.ofNat_toNat] at h

/-- The low end of an interval moved up is `BASE` moved up: the bytes in `OUTBUF` leave the 32-bit window. -/
theorem ofNat_number_add_mul (c : Coder) (x k : Nat) :
    BitVec.ofNat 32 (((intervalOf c).number + x) * k) = BitVec.ofNat 32 ((c.base.toNat + x) * k) := by
  apply BitVec.eq_of_toNat_eq
  rw [BitVec.toNat_ofNat, BitVec.toNat_ofNat,
    show ((intervalOf c).number + x) * k = (c.base.toNat + x) * k + 2 ^ 32 * (bytesNumber c.outbuf * k) by
      simp only [intervalOf]; ring,
    Nat.add_mul_mod_self_left]

/-- Settles O26: the flush adds four bytes or overflows, and DONE_ENC ends as its flush does. -/
theorem doneEncFlushesFourBytes : Obligations.DoneEncFlushesFourBytes := by
  intro s hs he
  have hm : s.mode ∈ modesOf .doneEnc := by simp [he, modesOf]
  obtain ⟨c', hc', hlen, hnum, hflush⟩ :=
    flushEnc_eq s.cfg s.coder (intervalOf s.coder) (sound_interval hs he)
  rw [withInterval_intervalOf, ← hlen] at hflush
  refine ⟨c'.outbuf, hlen, hnum, ?_⟩
  split at hflush
  · rename_i hfit
    rw [if_pos hfit, show exec .doneEnc s = _ from exec_of_completes (.doneEnc hflush) hm, hc']
    simp only [ofNat_number_add_mul, zext64, apply_ite (BitVec.ofNat 32)]
    rfl
  · rename_i hfit
    rw [if_neg hfit]
    exact command_faults hm hflush

/-! ## Modelled coding -/

/-- Settles O29: ENC_BIT ends as its coding procedure does, which moves to the part of the bit or overflows. -/
theorem encBitTakesThePartOfTheBit : Obligations.EncBitTakesThePartOfTheBit := by
  intro h bit m s hs he hfind hb v
  have hm : s.mode ∈ modesOf (.encBit h bit) := by simp [he, modesOf]
  obtain ⟨hh, hok⟩ := sound_bitModel hs hfind
  have hget := getBit_eq_ok.2 ⟨hh, hfind⟩
  have hc := encBitM_answer (sound_interval hs he) (sound_fits hs) hok (decide (bit = 1))
  by_cases hfit : fits s.cfg v.bytes
  · rw [moved_eq_ok.2 ⟨hfit, rfl⟩, res_bind_ok] at hc
    rw [if_pos hfit]
    exact exec_of_completes (.encBit hget hb hc) hm
  · rw [moved_overflow hfit, res_bind_raise] at hc
    rw [if_neg hfit]
    exact command_raises hm (by rw [hget, res_bind_ok, if_neg (by omega), hc, res_bind_raise])

/-- Settles O31: ENC_SYM ends as its coding procedure does, which moves to the part of the symbol or overflows. -/
theorem encSymTakesThePartOfTheSymbol : Obligations.EncSymTakesThePartOfTheSymbol := by
  intro h sym m s hs he hfind hinit hsym v
  have hm : s.mode ∈ modesOf (.encSym h sym) := by simp [he, modesOf]
  obtain ⟨hh, hok⟩ := sound_symModel hs hfind
  have hget := getReadySym_eq_ok.2 ⟨hh, hfind, hinit⟩
  have hlast : sym.toNat ≤ m.last := Nat.le_sub_one_of_lt hsym
  have hc := encSymM_answer (sound_interval hs he) (sound_fits hs) (readyOk_of_ok hok hinit) hsym
  by_cases hfit : fits s.cfg v.bytes
  · rw [moved_eq_ok.2 ⟨hfit, rfl⟩, res_bind_ok] at hc
    rw [if_pos hfit]
    exact exec_of_completes (.encSym hget hlast hc) hm
  · rw [moved_overflow hfit, res_bind_raise] at hc
    rw [if_neg hfit]
    exact command_raises hm (by rw [hget, res_bind_ok, if_neg (by omega), hc, res_bind_raise])

/-- Settles O30: DEC_BIT ends as its coding procedure does, which moves to the part of the bit it finds or runs
out of input. -/
theorem decBitReturnsTheBitOfItsPart : Obligations.DecBitReturnsTheBitOfItsPart := by
  intro h m s hs hd hfind w b w'
  have hm : s.mode ∈ modesOf (.decBit h) := by simp [hd, modesOf]
  obtain ⟨hh, hok⟩ := sound_bitModel hs hfind
  have hget := getBit_eq_ok.2 ⟨hh, hfind⟩
  have hc := decBitM_answer (sound_window hs hd) (sound_inpos hs) hok
  by_cases hin : w'.pos ≤ s.coder.input.length
  · rw [taken_eq_ok.2 ⟨hin, rfl⟩, res_bind_ok] at hc
    have hres : (if b then 1 else 0 : DWord) = zext64 b.toNat := by cases b <;> rfl
    rw [if_pos hin, hres]
    exact exec_of_completes (.decBit hget hc) hm
  · rw [taken_exhausted hin, res_bind_raise] at hc
    rw [if_neg hin]
    exact command_raises hm (by rw [hget, res_bind_ok, hc, res_bind_raise])

/-- Settles O32: DEC_SYM ends as its coding procedure does, which finds the symbol of R160 and moves to its part
or runs out of input. -/
theorem decSymReturnsTheSymbolOfItsPart : Obligations.DecSymReturnsTheSymbolOfItsPart := by
  intro h m s hs hd hfind hinit
  have hm : s.mode ∈ modesOf (.decSym h) := by simp [hd, modesOf]
  obtain ⟨hh, hok⟩ := sound_symModel hs hfind
  have hready := readyOk_of_ok hok hinit
  have hget := getReadySym_eq_ok.2 ⟨hh, hfind, hinit⟩
  obtain ⟨v, hv, hc⟩ := decSymM_answer (sound_window hs hd) (sound_inpos hs) hready
  refine ⟨v, hv, isSymbol_lt hready hv, ?_⟩
  intro w'
  by_cases hin : w'.pos ≤ s.coder.input.length
  · rw [taken_eq_ok.2 ⟨hin, rfl⟩, res_bind_ok] at hc
    rw [if_pos hin]
    exact exec_of_completes (.decSym hget hc) hm
  · rw [taken_exhausted hin, res_bind_raise] at hc
    rw [if_neg hin]
    exact command_raises hm (by rw [hget, res_bind_ok, hc, res_bind_raise])

/-! ## The checks before coding -/

section
variable {s : State} {h : Nat}

theorem getBit_of_sym {m : SymModel} (hh : h < s.cfg.modelSlots) (hm : Store.find s.ms h = some (.sym m)) :
    getBit s h = raise .wrongModelType := by
  rw [getBit, getSlot_eq_ok.2 ⟨hh, hm⟩, res_bind_ok]

theorem getSym_of_bit {m : BitModel} (hh : h < s.cfg.modelSlots) (hm : Store.find s.ms h = some (.bit m)) :
    getSym s h = raise .wrongModelType := by
  rw [getSym, getSlot_eq_ok.2 ⟨hh, hm⟩, res_bind_ok]

theorem getReadySym_of_uninit {m : SymModel} (hh : h < s.cfg.modelSlots)
    (hm : Store.find s.ms h = some (.sym m)) (hi : m.init = false) :
    getReadySym s h = raise .modelUninit := by
  rw [getReadySym, getSym_eq_ok.2 ⟨hh, hm⟩, res_bind_ok, if_neg (by simp [hi])]

end

/-- Settles O33: the first check that fails is the command's fault, and the check of the value comes when the
others have passed. -/
theorem modelledCommandsCheckModelThenValue : Obligations.ModelledCommandsCheckModelThenValue := by
  intro h x s hs
  have enc : ∀ i, modesOf i = [.encode] → s.mode = .encode → s.mode ∈ modesOf i := by
    intro i hi he
    simp [hi, he]
  have dec : ∀ i, modesOf i = [.decode] → s.mode = .decode → s.mode ∈ modesOf i := by
    intro i hi hd
    simp [hi, hd]
  refine ⟨fun m hfind => ?_, fun m hfind => ?_⟩
  · obtain ⟨hh, -⟩ := sound_symModel hs hfind
    have htype := getBit_of_sym hh hfind
    refine ⟨fun he => command_faults (enc (.encBit h x) rfl he) htype,
      fun hd => command_faults (dec (.decBit h) rfl hd) htype, fun hi => ?_, fun hi he hx => ?_⟩
    · have huninit := getReadySym_of_uninit hh hfind hi
      exact ⟨fun he => command_faults (enc (.encSym h x) rfl he) huninit,
        fun hd => command_faults (dec (.decSym h) rfl hd) huninit⟩
    · have hget := getReadySym_eq_ok.2 ⟨hh, hfind, hi⟩
      obtain ⟨-, hn, -⟩ := readyOk_dist (readyOk_of_ok (sound_symModel hs hfind).2 hi)
      have hlast : m.last < x.toNat := by
        unfold SymModel.last
        omega
      exact command_raises (enc (.encSym h x) rfl he) (by rw [hget, res_bind_ok, if_pos hlast])
  · obtain ⟨hh, -⟩ := sound_bitModel hs hfind
    have htype : getReadySym s h = raise .wrongModelType := by
      rw [getReadySym, getSym_of_bit hh hfind, res_bind_raise]
    refine ⟨fun he => command_faults (enc (.encSym h x) rfl he) htype,
      fun hd => command_faults (dec (.decSym h) rfl hd) htype, fun he hx => ?_⟩
    have hget := getBit_eq_ok.2 ⟨hh, hfind⟩
    exact command_raises (enc (.encBit h x) rfl he) (by rw [hget, res_bind_ok, if_pos hx])

end Sys2Proof.Machine
end

section
/-! PROOF. The search the source describes finds the symbol that 40_entropy_coder.md R160 defines: the decode table
brackets it and the bisection narrows the bracket down (42_models.md R252, R255). -/

namespace Sys2Proof.Machine

open Sys2Proof.Reference

/-! ## Bisection -/

/-- The entry `s` of a distribution is the largest one at or below `dv`. -/
def lastAtOrBelow (dist : List Word) (dv s : Nat) : Prop :=
  (dist.getD s 0).toNat ≤ dv ∧ ∀ i, s < i → i < dist.length → dv < (dist.getD i 0).toNat

/-- In a rising distribution what lies above `dv` at one entry does so at every later one. -/
theorem rising_above {dist : List Word} (hrise : dist.Pairwise (fun x y => x.toNat < y.toNat)) {dv c i : Nat}
    (hc : dv < (dist.getD c 0).toNat) (hi : c ≤ i) (hlen : i < dist.length) : dv < (dist.getD i 0).toNat := by
  rcases Nat.eq_or_lt_of_le hi with rfl | hlt
  · exact hc
  · rw [List.getD_eq_getElem _ _ (hlt.trans hlen)] at hc
    rw [List.getD_eq_getElem _ _ hlen]
    exact hc.trans (List.pairwise_iff_getElem.1 hrise c i (hlt.trans hlen) hlen hlt)

/-- The bisection finds the entry between `a` and `b` when `dv` lies there and the turns are enough. -/
theorem bisect_finds {dist : List Word} (hrise : dist.Pairwise (fun x y => x.toNat < y.toNat)) {dv fuel a b : Nat}
    (hab : a < b) (hb : b ≤ dist.length) (hfuel : b ≤ a + fuel) (hlo : (dist.getD a 0).toNat ≤ dv)
    (hhi : ∀ i, b ≤ i → i < dist.length → dv < (dist.getD i 0).toNat) :
    bisect dist dv fuel a b < b ∧ lastAtOrBelow dist dv (bisect dist dv fuel a b) := by
  induction fuel generalizing a b with
  | zero => omega
  | succ fuel ih =>
    rw [bisect]
    split
    · rename_i hgap
      have hmid : a < (a + b) >>> 1 ∧ (a + b) >>> 1 < b := by
        rw [Nat.shiftRight_eq_div_pow]
        omega
      dsimp only
      generalize (a + b) >>> 1 = c at hmid
      split
      · rename_i hc
        obtain ⟨hlt, hfound⟩ := ih hmid.1 (by omega) (by omega) hlo fun i => rising_above hrise hc
        exact ⟨hlt.trans hmid.2, hfound⟩
      · rename_i hc
        exact ih hmid.2 hb (by omega) (Nat.not_lt.1 hc) hhi
    · exact ⟨hab, hlo, fun i hi => hhi i (by omega)⟩

/-! ## The decode table -/

/-- The first entry of a distribution whose table part is `j` or more, and the number of entries if none is. -/
def firstFrom (tshift j : Nat) (dist : List Word) : Nat := dist.findIdx fun d => decide (j ≤ d.toNat >>> tshift)

/-- The entry of the table at `j` is the last one of the distribution before those whose table part is `j` or
more. -/
theorem tableFrom_getD {tsize tshift last k s j : Nat} {rest : List Word} (hlen : k + rest.length = last + 1)
    (hsj : s < j) (hj : j ≤ tsize + 1) :
    (tableFrom tsize tshift last k s rest).getD (j - s - 1) 0 = u32 (k + firstFrom tshift j rest - 1) := by
  induction rest generalizing k s with
  | nil =>
    rw [tableFrom, List.getD_replicate _ (by omega), firstFrom, List.findIdx_nil]
    rw [List.length_nil] at hlen
    rw [hlen]
    rfl
  | cons d rest ih =>
    rw [List.length_cons] at hlen
    rw [tableFrom, firstFrom, List.findIdx_cons]
    by_cases hd : j ≤ d.toNat >>> tshift
    · rw [List.getD_append _ _ _ _ (by rw [List.length_replicate]; omega), List.getD_replicate _ (by omega)]
      simp [hd]
    · have := ih (k := k + 1) (s := max s (d.toNat >>> tshift)) (by omega) (by omega)
      rw [List.getD_append_right _ _ _ _ (by rw [List.length_replicate]; omega), List.length_replicate,
        show j - s - 1 - (d.toNat >>> tshift - s) = j - max s (d.toNat >>> tshift) - 1 by omega, this]
      simp only [hd, decide_false, cond_false, firstFrom]
      congr 1
      omega

theorem table_lt_of_lt_firstFrom {tshift j i : Nat} {dist : List Word} (hi : i < firstFrom tshift j dist) :
    (dist.getD i 0).toNat >>> tshift < j := by
  have hlen : i < dist.length := hi.trans_le List.findIdx_le_length
  rw [List.getD_eq_getElem _ _ hlen]
  simpa using List.not_of_lt_findIdx hi

theorem le_table_of_firstFrom_le {tshift j i : Nat} {dist : List Word}
    (hrise : dist.Pairwise (fun x y => x.toNat < y.toNat)) (hi : firstFrom tshift j dist ≤ i)
    (hlen : i < dist.length) : j ≤ (dist.getD i 0).toNat >>> tshift := by
  have hfirst : j ≤ dist[firstFrom tshift j dist].toNat >>> tshift :=
    of_decide_eq_true (List.findIdx_getElem (w := hi.trans_lt hlen))
  rw [List.getD_eq_getElem _ _ hlen]
  rcases Nat.eq_or_lt_of_le hi with rfl | hlt
  · exact hfirst
  · have := List.pairwise_iff_getElem.1 hrise _ i (hlt.trans hlen) hlen hlt
    rw [Nat.shiftRight_eq_div_pow] at hfirst ⊢
    exact hfirst.trans (Nat.div_le_div_right this.le)

theorem lt_of_table_lt {a b tshift : Nat} (h : a >>> tshift < b >>> tshift) : a < b := by
  simp only [Nat.shiftRight_eq_div_pow] at h
  exact Nat.lt_of_not_le fun hle => Nat.not_le.2 h (Nat.div_le_div_right hle)

/-- An alphabet of at most 2048 symbols needs at most 9 table bits. -/
theorem tableBits_le_nine {nsym fuel tb : Nat} (hn : nsym ≤ 2048) (htb : tb ≤ 9) :
    tableBits nsym fuel tb ≤ 9 := by
  induction fuel generalizing tb with
  | zero => exact htb
  | succ fuel ih =>
    rw [tableBits, Nat.shiftLeft_eq, one_mul]
    split
    · rename_i h
      have : (2 : Nat) ^ (tb + 2) < 2 ^ 11 := h.trans_le hn
      have := (Nat.pow_lt_pow_iff_right (by norm_num)).1 this
      exact ih (by omega)
    · exact htb

section
variable {m : SymModel} (hm : m.readyOk)
include hm

/-- A decode table has 2^tb entries for at most 9 bits tb (42_models.md R252). -/
theorem table_geometry (ht : m.tsize ≠ 0) :
    ∃ tb ≤ 9, m.tsize.toNat = 2 ^ tb ∧ m.tshift.toNat = 15 - tb := by
  obtain ⟨-, hn, hgeometry⟩ := (SymModel.shapeOk_iff m).1 (shapeOk_of_ok (ok_of_readyOk hm))
  unfold symModelGeometry at hgeometry
  split at hgeometry
  · exact absurd (BitVec.eq_of_toNat_eq (congrArg Prod.fst hgeometry)) ht
  · obtain ⟨hsize, hshift⟩ := Prod.mk.inj hgeometry
    exact ⟨_, tableBits_le_nine hn (by norm_num), by rw [hsize, Nat.shiftLeft_eq, one_mul], hshift⟩

/-- The decode table of a model that may be coded with (42_models.md R255). -/
theorem dtab_of_ready (ht : m.tsize ≠ 0) :
    m.dtab = buildTable m.tsize.toNat m.tshift.toNat m.last m.dist := by
  simp only [SymModel.readyOk, Bool.and_eq_true] at hm
  obtain ⟨-, -, -, -, -, -, -, hdtab⟩ := (SymModel.tablesOk_iff m).1 hm.2
  rw [hdtab, if_neg ht]

/-- The part of symbol 0 begins at 0. -/
theorem dist_getD_zero : (m.dist.getD 0 0).toNat = 0 := by
  obtain ⟨-, -, hhead, -⟩ := readyOk_dist hm
  rw [List.getD_eq_getElem?_getD, ← List.head?_eq_getElem?, hhead]
  rfl

/-- Entry `j` of the table is the last symbol whose table part is below `j`; there is one, since symbol 0 has
part 0. -/
theorem dtab_getD {j : Nat} (ht : m.tsize ≠ 0) (hj : j ≤ m.tsize.toNat) :
    (m.dtab.getD (j + 1) 0).toNat + 1 = firstFrom m.tshift.toNat (j + 1) m.dist := by
  obtain ⟨hlen, hn, -, hrise, -⟩ := readyOk_dist hm
  obtain ⟨-, hmax, -⟩ := (SymModel.shapeOk_iff m).1 (shapeOk_of_ok (ok_of_readyOk hm))
  have hentry : (tableFrom m.tsize.toNat m.tshift.toNat m.last 0 0 m.dist).getD j 0 =
      u32 (0 + firstFrom m.tshift.toNat (j + 1) m.dist - 1) :=
    tableFrom_getD (by rw [SymModel.last]; omega) (Nat.succ_pos j) (Nat.succ_le_succ hj)
  have hpos : firstFrom m.tshift.toNat (j + 1) m.dist ≠ 0 := fun h0 => by
    have hle := le_table_of_firstFrom_le hrise h0.le (show 0 < m.dist.length by omega)
    rw [dist_getD_zero hm, Nat.zero_shiftRight] at hle
    omega
  have hbound : firstFrom m.tshift.toNat (j + 1) m.dist ≤ m.dist.length := List.findIdx_le_length
  rw [dtab_of_ready hm ht, buildTable, List.getD_cons_succ, hentry, u32_toNat (by omega)]
  omega

/-- The index into the table is at most `tsize`, also for a `dv` above 2^15. -/
theorem table_index_le {dv : Nat} (ht : m.tsize ≠ 0) (hdv : dv < 2 ^ 15 + 2 ^ 6) :
    dv >>> m.tshift.toNat ≤ m.tsize.toNat := by
  obtain ⟨tb, htb, hsize, hshift⟩ := table_geometry hm ht
  have h15 : (2 : Nat) ^ tb * 2 ^ (15 - tb) = 2 ^ 15 := by rw [← Nat.pow_add]; congr 1; omega
  have h6 : (2 : Nat) ^ 6 ≤ 2 ^ (15 - tb) := Nat.pow_le_pow_right (by norm_num) (by omega)
  have hmax : dv < (2 ^ tb + 1) * 2 ^ (15 - tb) := by
    rw [Nat.add_mul, h15]
    omega
  rw [hshift, hsize, Nat.shiftRight_eq_div_pow]
  exact Nat.le_of_lt_succ ((Nat.div_lt_iff_lt_mul (by positivity)).2 hmax)

/-- The table entry of `dv` is a symbol at or below `dv`, and its table part is not above that of `dv`. -/
theorem table_entry_le {dv : Nat} (ht : m.tsize ≠ 0) (hindex : dv >>> m.tshift.toNat ≤ m.tsize.toNat) :
    (m.dtab.getD (dv >>> m.tshift.toNat) 0).toNat < m.dist.length ∧
      (m.dist.getD (m.dtab.getD (dv >>> m.tshift.toNat) 0).toNat 0).toNat ≤ dv := by
  obtain ⟨hlen, hn, -⟩ := readyOk_dist hm
  cases hdv : dv >>> m.tshift.toNat with
  | zero =>
    have h0 : m.dtab.getD 0 0 = 0 := by rw [dtab_of_ready hm ht, buildTable, List.getD_cons_zero]
    rw [h0]
    exact ⟨show 0 < m.dist.length by omega, (dist_getD_zero hm).le.trans (Nat.zero_le _)⟩
  | succ j =>
    have hentry := dtab_getD hm (j := j) ht (by omega)
    have hbound : firstFrom m.tshift.toNat (j + 1) m.dist ≤ m.dist.length := List.findIdx_le_length
    refine ⟨by omega, (lt_of_table_lt (tshift := m.tshift.toNat) ?_).le⟩
    rw [hdv]
    exact table_lt_of_lt_firstFrom (by omega)

/-- The search finds the last entry at or below `dv` (42_models.md R255). The bound on `dv` is what the index
into the table needs: it is above 2^15, as `VALUE` below `LENGTH` allows. -/
theorem searchSymbol_finds {dv : Nat} (hdv : dv < 2 ^ 15 + 2 ^ 6) :
    searchSymbol m dv < m.nsym ∧ lastAtOrBelow m.dist dv (searchSymbol m dv) := by
  obtain ⟨hlen, hn, -, hrise, -⟩ := readyOk_dist hm
  unfold searchSymbol
  split
  · exact bisect_finds hrise (by omega) hlen.ge (by omega)
      ((dist_getD_zero hm).le.trans (Nat.zero_le _)) fun i hi hi' => by omega
  · rename_i ht
    have hindex := table_index_le hm ht hdv
    have hupper := dtab_getD hm ht hindex
    obtain ⟨hlt, hlo⟩ := table_entry_le hm ht hindex
    dsimp only
    generalize hj : dv >>> m.tshift.toNat = j at *
    rw [hupper]
    have hbound : firstFrom m.tshift.toNat (j + 1) m.dist ≤ m.dist.length := List.findIdx_le_length
    have habove : ∀ i, firstFrom m.tshift.toNat (j + 1) m.dist ≤ i → i < m.dist.length →
        dv < (m.dist.getD i 0).toNat := fun i hi hi' =>
      lt_of_table_lt (tshift := m.tshift.toNat) (by rw [hj]; exact le_table_of_firstFrom_le hrise hi hi')
    have hbelow : (m.dtab.getD j 0).toNat < firstFrom m.tshift.toNat (j + 1) m.dist :=
      Nat.lt_of_not_le fun hle => Nat.not_le.2 (habove _ hle hlt) hlo
    obtain ⟨hs, hfound⟩ := bisect_finds (fuel := m.nsym) hrise hbelow hbound (by omega) hlo habove
    exact ⟨by omega, hfound⟩

end

/-- Settles O48: the offset in units of the distribution is small enough for the table, and one entry is the last
at or below it exactly when its part begins at or below the offset. -/
theorem tableSearchFindsTheSymbol : Obligations.TableSearchFindsTheSymbol := by
  intro m w hm hw _ hvalue
  obtain ⟨hlen, -⟩ := readyOk_dist hm
  have hunit : 0 < w.width / 2 ^ 15 := by omega
  have hdv : w.value / (w.width / 2 ^ 15) < 2 ^ 15 + 2 ^ 6 := by
    rw [Nat.div_lt_iff_lt_mul hunit]
    omega
  obtain ⟨hlt, hlo, hhi⟩ := searchSymbol_finds hm hdv
  exact ⟨by omega, (Nat.le_div_iff_mul_le hunit).1 hlo, fun i hi hi' =>
    (Nat.div_lt_iff_lt_mul hunit).1 (hhi i hi hi')⟩

end Sys2Proof.Machine
end

section
/-! PROOF. One coding step decodes to what was coded (40_entropy_coder.md R162; 42_models.md R257). A step that
completes in a bounded output buffer does the same in an unbounded one, so it moves to its part of the interval
whatever the capacity. -/

namespace Sys2Proof.Machine

open Sys2Proof.Reference

/-! ## Without a capacity -/

/-- What `r` answers, `q` answers too. -/
def AnswersAlso {α : Type} (r q : Res α) : Prop := ∀ a, r = .ok a → q = .ok a

theorem answersAlso_refl {α : Type} (r : Res α) : AnswersAlso r r := fun _ h => h

theorem answersAlso_bind {α β : Type} {r q : Res α} {f f' : α → Res β} (h : AnswersAlso r q)
    (hf : ∀ a, AnswersAlso (f a) (f' a)) : AnswersAlso (r >>= f) (q >>= f') := by
  intro b hb
  obtain ⟨a, ha, hb⟩ := bind_eq_ok.1 hb
  rw [h a ha, res_bind_ok]
  exact hf a b hb

theorem answersAlso_ite {α : Type} {c : Prop} [Decidable c] {r r' q q' : Res α} (h : AnswersAlso r q)
    (h' : AnswersAlso r' q') : AnswersAlso (if c then r else r') (if c then q else q') := by
  split
  · exact h
  · exact h'

theorem outPush_uncapped (cap : Option Nat) (b : Byte) (c : Coder) :
    AnswersAlso (outPush cap b c) (outPush none b c) := by
  intro c' h
  cases cap with
  | none => exact h
  | some n =>
    rw [outPush] at h
    split at h
    · exact absurd h (raise_ne_ok _ _)
    · exact h

theorem renormEncLoop_uncapped (cap : Option Nat) (fuel : Nat) (c : Coder) :
    AnswersAlso (renormEncLoop cap fuel c) (renormEncLoop none fuel c) := by
  induction fuel generalizing c with
  | zero => exact answersAlso_refl _
  | succ fuel ih =>
    exact answersAlso_bind (outPush_uncapped cap _ c) fun _ => answersAlso_ite (answersAlso_refl _) (ih _)

theorem renormEncIfShort_uncapped (cap : Option Nat) (c : Coder) :
    AnswersAlso (renormEncIfShort cap c) (renormEncIfShort none c) :=
  answersAlso_ite (renormEncLoop_uncapped cap 4 c) (answersAlso_refl _)

theorem encRaw_uncapped (cap : Option Nat) (n v : Nat) (c : Coder) :
    AnswersAlso (encRaw cap n v c) (encRaw none n v c) :=
  answersAlso_bind (answersAlso_refl _) fun d => renormEncIfShort_uncapped cap d

theorem encBitM_uncapped (cap : Option Nat) (c : Coder) (m : BitModel) (b : Bool) :
    AnswersAlso (encBitM cap c m b) (encBitM none c m b) := by
  have renormed (d : Coder) : AnswersAlso
      (renormEncIfShort cap d >>= fun e => (.ok (e, bitModelCoded m b) : Res (Coder × BitModel)))
      (renormEncIfShort none d >>= fun e => .ok (e, bitModelCoded m b)) :=
    answersAlso_bind (renormEncIfShort_uncapped cap d) fun _ => answersAlso_refl _
  exact answersAlso_ite (answersAlso_bind (answersAlso_refl _) fun _ => renormed _) (renormed _)

theorem encSymM_uncapped (cap : Option Nat) (c : Coder) (m : SymModel) (s : Nat) :
    AnswersAlso (encSymM cap c m s) (encSymM none c m s) :=
  answersAlso_bind (answersAlso_refl _) fun _ => answersAlso_bind (answersAlso_refl _) fun _ =>
    answersAlso_bind (answersAlso_refl _) fun _ =>
      answersAlso_bind (renormEncIfShort_uncapped cap _) fun _ => answersAlso_refl _

/-- The buffer of a block with the largest parameters has no capacity. -/
theorem fits_largest (n : Nat) : fits Config.largest n := rfl

/-! ## Steps in step -/

/-- Moving to the part the bytes lie in leaves the two coders in step. -/
theorem synced_moved {c d : Coder} {v : Interval} {w : Window} {at0 : Nat} (hv : v.sound) (hw : w.sound)
    (h : Matched v w d.input at0) : synced (withInterval c v) (withWindow d w) at0 := by
  rw [synced_iff, intervalOf_moved c hv, windowOf_withWindow d hw]
  exact h

section
variable {c d : Coder} {at0 : Nat} (hc : c.ok .encode) (hsync : synced c d at0)
include hc hsync

theorem window_sound_of_synced : (windowOf d).sound := by
  obtain ⟨hw, -, -⟩ := (coder_ok_encode c).1 hc
  refine ⟨?_, d.length.isLt, d.value.isLt⟩
  rwa [((synced_iff c d at0).1 hsync).width]

/-- A raw step (41_raw_fields.md R200, R201, R220). -/
theorem raw_step_decodes {cap : Option Nat} {c' : Coder} {n x : Nat} (hf : leadsInto (d.input.drop at0) c')
    (hn : n ≤ 19) (hx : x < 2 ^ n) (h : encRaw cap n x c = .ok c') :
    ∃ d', decRaw n d = .ok (x, d') ∧ synced c' d' at0 := by
  have hv := (coder_ok_encode c).1 hc
  have hw := window_sound_of_synced hc hsync
  have hmatched := (synced_iff c d at0).1 hsync
  have henc := encRaw_eq Config.largest c (intervalOf c) n x hv hn hx (fits_largest _)
  rw [withInterval_intervalOf] at henc
  obtain ⟨-, rfl⟩ := moved_eq_ok.1 (henc.symm.trans (encRaw_uncapped cap n x c c' h))
  have hsound := Interval.sound_raw hv hn hx
  rw [leadsInto_iff, intervalOf_moved c hsound] at hf
  obtain ⟨hvalue, hm⟩ := hmatched.raw hv hf
  have hdec := decRaw_in_range d (windowOf d) n hw hn (Nat.le_refl _) hmatched.inside (hvalue.trans_lt hx)
  rw [withWindow_windowOf, taken_eq_ok.2 ⟨hm.inside, rfl⟩, res_bind_ok, hvalue] at hdec
  exact ⟨_, hdec, synced_moved hsound (Window.sound_raw hw _ hn) hm⟩

/-- A modelled bit (40_entropy_coder.md R157, R158). -/
theorem bit_step_decodes {cap : Option Nat} {c' : Coder} {m m' : BitModel} {b : Bool}
    (hf : leadsInto (d.input.drop at0) c') (hm : m.ok) (h : encBitM cap c m b = .ok (c', m')) :
    ∃ d', decBitM d m = .ok (b, d', m') ∧ synced c' d' at0 := by
  have hv := (coder_ok_encode c).1 hc
  have hw := window_sound_of_synced hc hsync
  have hmatched := (synced_iff c d at0).1 hsync
  obtain ⟨hmoved, rfl⟩ := encBitM_ok (g := Config.largest) hv (fits_largest _) hm (encBitM_uncapped cap c m b _ h)
  obtain ⟨-, rfl⟩ := moved_eq_ok.1 hmoved
  have hsound := sound_bit hv hm b
  rw [leadsInto_iff, intervalOf_moved c hsound] at hf
  obtain ⟨hvalue, hm'⟩ := hmatched.bit hv hm hf
  have hdec := decBitM_answer hw hmatched.inside hm
  rw [taken_eq_ok.2 ⟨hm'.inside, rfl⟩, res_bind_ok, hvalue] at hdec
  exact ⟨_, hdec, synced_moved hsound (Window.sound_bit hw _ hm) hm'⟩

/-- A modelled symbol (40_entropy_coder.md R159, R160). -/
theorem symbol_step_decodes {cap : Option Nat} {c' : Coder} {m m' : SymModel} {s : Nat}
    (hf : leadsInto (d.input.drop at0) c') (hm : m.readyOk) (hs : s < m.nsym)
    (h : encSymM cap c m s = .ok (c', m')) :
    ∃ d', decSymM d m = .ok (s, d', m') ∧ synced c' d' at0 := by
  have hv := (coder_ok_encode c).1 hc
  have hw := window_sound_of_synced hc hsync
  have hmatched := (synced_iff c d at0).1 hsync
  obtain ⟨hmoved, rfl⟩ :=
    encSymM_ok (g := Config.largest) hv (fits_largest _) hm hs (encSymM_uncapped cap c m s _ h)
  obtain ⟨-, rfl⟩ := moved_eq_ok.1 hmoved
  have hsound := sound_symbol hv hm hs
  rw [leadsInto_iff, intervalOf_moved c hsound] at hf
  obtain ⟨hsym, hm'⟩ := hmatched.symbol hv hm hs hf
  obtain ⟨k, hk, hdec⟩ := decSymM_answer hw hmatched.inside hm
  obtain rfl := isSymbol_unique hk hsym
  rw [taken_eq_ok.2 ⟨hm'.inside, rfl⟩, res_bind_ok] at hdec
  exact ⟨_, hdec, synced_moved hsound (window_sound_symbol hw _ hm hs) hm'⟩

end

/-- Settles O49: the encoder has moved to a part of its interval, and the decoder finds the part its bytes lie
in. -/
theorem codingStepsDecodeToWhatWasCoded : Obligations.CodingStepsDecodeToWhatWasCoded := by
  intro cap c c' d at0 hc hsync hf
  exact ⟨fun _ _ _ hn hx h => raw_step_decodes hc hsync hf hn hx h,
    fun _ _ _ hm h => bit_step_decodes hc hsync hf hm h,
    fun _ _ _ hm hs h => symbol_step_decodes hc hsync hf hm hs h⟩

end Sys2Proof.Machine
end

section
/-! PROOF. A carry never passes the first byte of the chunk (40_entropy_coder.md R173): in a sound state every
procedure of the encoder moves inside its interval, so no command raises CARRY_UNDERFLOW. -/

namespace Sys2Proof.Machine

open Sys2Proof.Reference

/-! ## Pseudocode without a lost carry -/

/-- `r` does not raise CARRY_UNDERFLOW, and every value it answers has the property `P`. -/
def CarryFree {α : Type} (r : Res α) (P : α → Prop) : Prop :=
  (∀ a, r = .ok a → P a) ∧ r ≠ raise .carryUnderflow

/-- `r` does not raise CARRY_UNDERFLOW, whatever it answers. -/
abbrev KeepsCarry {α : Type} (r : Res α) : Prop := CarryFree r fun _ => True

theorem carryFree_ok {α : Type} {P : α → Prop} {a : α} (h : P a) : CarryFree (.ok a) P :=
  ⟨fun _ hb => Except.ok.inj hb ▸ h, fun hb => raise_ne_ok _ _ hb.symm⟩

theorem carryFree_raise {α : Type} {P : α → Prop} {code : FaultCode} (h : code ≠ .carryUnderflow) :
    CarryFree (raise code) P :=
  ⟨fun _ hb => absurd hb (raise_ne_ok _ _), fun hb => h (by simpa [raise] using hb)⟩

/-- A sequence: the second part may use what the first one answered. -/
theorem carryFree_bind {α β : Type} {r : Res α} {f : α → Res β} {Q : β → Prop} (hr : KeepsCarry r)
    (hf : ∀ a, r = .ok a → CarryFree (f a) Q) : CarryFree (r >>= f) Q := by
  cases r with
  | ok a => exact hf a rfl
  | error e => exact ⟨fun _ hb => (nomatch hb), fun hb => hr.2 (by simpa [raise] using hb)⟩

/-- A choice between two procedures. -/
theorem carryFree_ite {α : Type} {c : Prop} [Decidable c] {r q : Res α} {P : α → Prop}
    (hr : c → CarryFree r P) (hq : ¬ c → CarryFree q P) : CarryFree (if c then r else q) P := by
  split
  · exact hr ‹_›
  · exact hq ‹_›

/-! ## The checks -/

theorem getSlot_keepsCarry (s : State) (h : Nat) : KeepsCarry (getSlot s h) := by
  refine carryFree_ite (fun _ => carryFree_raise (by decide)) fun _ => ?_
  split
  · exact carryFree_raise (by decide)
  · exact carryFree_ok trivial

theorem getBit_keepsCarry (s : State) (h : Nat) : KeepsCarry (getBit s h) :=
  carryFree_bind (getSlot_keepsCarry s h) fun m _ =>
    match m with
    | .bit _ => carryFree_ok trivial
    | .sym _ => carryFree_raise (by decide)

theorem getSym_keepsCarry (s : State) (h : Nat) : KeepsCarry (getSym s h) :=
  carryFree_bind (getSlot_keepsCarry s h) fun m _ =>
    match m with
    | .bit _ => carryFree_raise (by decide)
    | .sym _ => carryFree_ok trivial

theorem getReadySym_keepsCarry (s : State) (h : Nat) : KeepsCarry (getReadySym s h) :=
  carryFree_bind (getSym_keepsCarry s h) fun _ _ =>
    carryFree_ite (fun _ => carryFree_ok trivial) fun _ => carryFree_raise (by decide)

theorem needEmptySlot_keepsCarry (s : State) (h : Nat) : KeepsCarry (needEmptySlot s h) := by
  refine carryFree_ite (fun _ => carryFree_raise (by decide)) fun _ => ?_
  split
  · exact carryFree_ok trivial
  · exact carryFree_raise (by decide)

theorem getIc_keepsCarry (s : State) (h : Nat) : KeepsCarry (getIc s h) := by
  refine carryFree_ite (fun _ => carryFree_raise (by decide)) fun _ => ?_
  split
  · exact carryFree_raise (by decide)
  · exact carryFree_ok trivial

theorem needEmptyIc_keepsCarry (s : State) (h : Nat) : KeepsCarry (needEmptyIc s h) := by
  refine carryFree_ite (fun _ => carryFree_raise (by decide)) fun _ => ?_
  split
  · exact carryFree_ok trivial
  · exact carryFree_raise (by decide)

theorem getReadyIc_keepsCarry (s : State) (h : Nat) (context : Word) : KeepsCarry (getReadyIc s h context) := by
  refine carryFree_bind (getIc_keepsCarry s h) fun ic _ =>
    carryFree_ite (fun _ => carryFree_raise (by decide)) fun _ => ?_
  split
  · exact carryFree_raise (by decide)
  · exact carryFree_ok trivial

/-! ## The coding procedures -/

theorem moved_keepsCarry (g : Config) (c : Coder) (v : Interval) : KeepsCarry (moved g c v) :=
  carryFree_ite (fun _ => carryFree_ok trivial) fun _ => carryFree_raise (by decide)

theorem taken_keepsCarry (c : Coder) (w : Window) : KeepsCarry (taken c w) :=
  carryFree_ite (fun _ => carryFree_ok trivial) fun _ => carryFree_raise (by decide)

theorem primeDec_keepsCarry (c : Coder) : KeepsCarry (primeDec c) := by
  rw [primeDec_eq]
  exact taken_keepsCarry _ _

section
variable {g : Config} {c : Coder} (hv : (intervalOf c).sound)
include hv

theorem flushEnc_keepsCarry : KeepsCarry (flushEnc g.outCapacity c) := by
  obtain ⟨c', -, -, -, h⟩ := flushEnc_eq g c (intervalOf c) hv
  rw [withInterval_intervalOf] at h
  rw [h]
  exact carryFree_ite (fun _ => carryFree_ok trivial) fun _ => carryFree_raise (by decide)

variable (hf : fits g c.outbuf.length)
include hf

theorem encBitM_keepsCarry {m : BitModel} (hm : m.ok) (b : Bool) : KeepsCarry (encBitM g.outCapacity c m b) := by
  rw [encBitM_answer hv hf hm]
  exact carryFree_bind (moved_keepsCarry g c _) fun _ _ => carryFree_ok trivial

theorem encSymM_keepsCarry {m : SymModel} (hm : m.readyOk) {s : Nat} (hs : s < m.nsym) :
    KeepsCarry (encSymM g.outCapacity c m s) := by
  rw [encSymM_answer hv hf hm hs]
  exact carryFree_bind (moved_keepsCarry g c _) fun _ _ => carryFree_ok trivial

/-- A corrector of a class the compressor has no model for is turned away before anything is coded. -/
theorem writeCorrector_keepsCarry {ic : IcRec} {ms : IcModels} (hms : ms.ok ic) {ctx : Nat}
    (hctx : ctx < ic.contexts) (corr : Int) : KeepsCarry (writeCorrector g.outCapacity c ic ms ctx corr) := by
  by_cases hk : kClass corr ≤ ic.corrBits
  · have h := writeCorrector_eq g c _ ic ms ctx corr hv hf hms hctx hk fun _ _ => corrAdjust_lt corr
    rw [withInterval_intervalOf] at h
    rw [h]
    exact carryFree_bind (moved_keepsCarry g c _) fun _ _ => carryFree_ok trivial
  · obtain ⟨m, hm, -, -, hnsym⟩ := mBits_getElem hms hctx
    have hlast : m.last < kClass corr := by
      unfold SymModel.last
      omega
    simp only [writeCorrector, icModel, hm, res_bind_ok, if_pos hlast]
    exact carryFree_raise (by decide)

end

section
variable {c : Coder} (hw : (windowOf c).sound) (hp : c.inpos ≤ c.input.length)
include hw hp

theorem decBitM_keepsCarry {m : BitModel} (hm : m.ok) : KeepsCarry (decBitM c m) := by
  rw [decBitM_answer hw hp hm]
  exact carryFree_bind (taken_keepsCarry c _) fun _ _ => carryFree_ok trivial

theorem decSymM_keepsCarry {m : SymModel} (hm : m.readyOk) : KeepsCarry (decSymM c m) := by
  obtain ⟨s, -, h⟩ := decSymM_answer hw hp hm
  rw [h]
  exact carryFree_bind (taken_keepsCarry c _) fun _ _ => carryFree_ok trivial

theorem rawReader_keepsCarry {i : Instr} {r : Coder → Res (Nat × Coder)} (hr : rawReader i = some r) :
    KeepsCarry (r c) := by
  rw [(rawReader_eq hw hp hr).1]
  exact carryFree_bind (taken_keepsCarry c _) fun _ _ =>
    carryFree_ite (fun _ => carryFree_raise (by decide)) fun _ =>
      carryFree_bind (taken_keepsCarry c _) fun _ _ => carryFree_ok trivial

theorem readCorrector_keepsCarry {ic : IcRec} {ms : IcModels} (hms : ms.ok ic) {ctx : Nat}
    (hctx : ctx < ic.contexts) : KeepsCarry (readCorrector c ic ms ctx) := by
  obtain ⟨k, q, -, -, -, h⟩ := readCorrector_eq c (windowOf c) ic ms ctx hw hms hctx (Nat.le_refl _) hp
  rw [withWindow_windowOf] at h
  rw [h]
  exact carryFree_bind (taken_keepsCarry c _) fun _ _ => carryFree_ite
    (fun _ => carryFree_bind (taken_keepsCarry c _) fun _ _ => carryFree_ok trivial)
    fun _ => carryFree_ite
      (fun _ => carryFree_bind (taken_keepsCarry c _) fun _ _ => carryFree_ite
        (fun _ => carryFree_ok trivial)
        fun _ => carryFree_bind (taken_keepsCarry c _) fun _ _ =>
          carryFree_ite (fun _ => carryFree_raise (by decide)) fun _ =>
            carryFree_bind (taken_keepsCarry c _) fun _ _ => carryFree_ok trivial)
      fun _ => carryFree_ok trivial

end

/-! ## Every command -/

section
variable {s t : State} {i : Instr} (hs : s.sound)
include hs

/-- A sound state outside FAULTED has no fault recorded. -/
theorem sound_fcode (hf : s.mode ≠ .faulted) : s.fcode = .none := by
  have h := ((State.sound_iff s).1 hs).2.1
  simp only [State.recordOk, if_neg hf, Bool.and_eq_true, decide_eq_true_eq] at h
  exact h.1

/-- A command shows no lost carry when its pseudocode is free of one and leaves the fault code. -/
theorem command_fcode (hf : s.mode ≠ .faulted) (h : exec i s = .next t) {body : Res State}
    (hx : exec i s = command i (modesOf i) s body)
    (hb : s.mode ∈ modesOf i → CarryFree body fun u => u.fcode = s.fcode) : t.fcode ≠ .carryUnderflow := by
  obtain ⟨hf', -⟩ | ⟨-, -, rfl⟩ | ⟨-, hm, ⟨u, hu, rfl⟩ | ⟨code, hc, rfl⟩⟩ := command_next (hx.symm.trans h)
  · exact absurd hf' hf
  · simp
  · simp [(hb hm).1 u hu, sound_fcode hs hf]
  · exact fun he => (hb hm).2 (he ▸ hc)

theorem sound_interval_of_mem (hm : s.mode ∈ [Mode.encode]) : (intervalOf s.coder).sound :=
  sound_interval hs (List.mem_singleton.1 hm)

theorem sound_window_of_mem (hm : s.mode ∈ [Mode.decode]) : (windowOf s.coder).sound :=
  sound_window hs (List.mem_singleton.1 hm)

theorem writeRaw_carryFree (hm : s.mode ∈ modesOf i) {r : Coder → Res Coder}
    (hr : rawWriter s.cfg.outCapacity i = some r) : CarryFree (writeRaw s (r s.coder)) fun u => u.fcode = s.fcode := by
  rw [(rawWriter_row hr).1] at hm
  rw [(rawWriter_eq (sound_interval_of_mem hs hm) (sound_fits hs) hr).1]
  exact carryFree_bind (moved_keepsCarry _ _ _) fun _ _ => carryFree_ok rfl

theorem readRaw_carryFree (hm : s.mode ∈ modesOf i) {r : Coder → Res (Nat × Coder)}
    (hr : rawReader i = some r) : CarryFree (readRaw s (r s.coder)) fun u => u.fcode = s.fcode := by
  rw [(rawReader_row hr).1] at hm
  exact carryFree_bind (rawReader_keepsCarry (sound_window_of_mem hs hm) (sound_inpos hs) hr) fun _ _ =>
    carryFree_ok rfl

/-- In a sound state outside FAULTED no command shows a lost carry. -/
theorem exec_fcode (hf : s.mode ≠ .faulted) (h : exec i s = .next t) : t.fcode ≠ .carryUnderflow := by
  have runs {body : Res State} (hx : exec i s = command i (modesOf i) s body) := command_fcode hs hf h hx
  cases i with
  | rdStatus =>
    obtain rfl := Host.Outcome.next.inj ((if_neg hf).symm.trans h)
    simp [sound_fcode hs hf]
  | initEnc | doneDec | nop => exact runs rfl fun _ => carryFree_ok rfl
  | initDec =>
    exact runs rfl fun _ => carryFree_bind (primeDec_keepsCarry _) fun _ _ => carryFree_ok rfl
  | doneEnc =>
    exact runs rfl fun hm =>
      carryFree_bind (flushEnc_keepsCarry (sound_interval_of_mem hs hm)) fun _ _ => carryFree_ok rfl
  | encBit hd bit =>
    exact runs rfl fun hm => carryFree_bind (getBit_keepsCarry s hd) fun m hg =>
      carryFree_ite (fun _ => carryFree_raise (by decide)) fun _ =>
        carryFree_bind (encBitM_keepsCarry (sound_interval_of_mem hs hm) (sound_fits hs)
          (bit_ok_of_getBit hs hg).2 _) fun _ _ => carryFree_ok rfl
  | encSym hd sym =>
    exact runs rfl fun hm => carryFree_bind (getReadySym_keepsCarry s hd) fun m hg =>
      carryFree_ite (fun _ => carryFree_raise (by decide)) fun hx =>
        have hready := (ready_of_getReadySym hs hg).2
        carryFree_bind (encSymM_keepsCarry (sound_interval_of_mem hs hm) (sound_fits hs) hready
          (lt_nsym_of_le_last hready (Nat.not_lt.1 hx))) fun _ _ => carryFree_ok rfl
  | decBit hd =>
    exact runs rfl fun hm => carryFree_bind (getBit_keepsCarry s hd) fun m hg =>
      carryFree_bind (decBitM_keepsCarry (sound_window_of_mem hs hm) (sound_inpos hs)
        (bit_ok_of_getBit hs hg).2) fun _ _ => carryFree_ok rfl
  | decSym hd =>
    exact runs rfl fun hm => carryFree_bind (getReadySym_keepsCarry s hd) fun m hg =>
      carryFree_bind (decSymM_keepsCarry (sound_window_of_mem hs hm) (sound_inpos hs)
        (ready_of_getReadySym hs hg).2) fun _ _ => carryFree_ok rfl
  | wrBits n v =>
    refine runs rfl fun hm => carryFree_ite (fun _ => carryFree_raise (by decide)) fun hn =>
      carryFree_ite (fun _ => carryFree_raise (by decide)) fun hv => writeRaw_carryFree hs hm (if_neg ?_)
    omega
  | rdBits n =>
    exact runs rfl fun hm => carryFree_ite (fun _ => carryFree_raise (by decide)) fun hn =>
      readRaw_carryFree hs hm (if_neg hn)
  | wrByte | wrShort | wrInt | wrInt64 | wrFloat | wrDouble =>
    exact runs rfl fun hm => writeRaw_carryFree hs hm rfl
  | rdByte | rdShort | rdInt | rdInt64 | rdFloat | rdDouble =>
    exact runs rfl fun hm => readRaw_carryFree hs hm rfl
  | mdlNewBit hd =>
    exact runs rfl fun _ => carryFree_bind (needEmptySlot_keepsCarry s hd) fun _ _ => carryFree_ok rfl
  | mdlNewSym hd nsym =>
    exact runs rfl fun _ => carryFree_bind (needEmptySlot_keepsCarry s hd) fun _ _ =>
      carryFree_ite (fun _ => carryFree_raise (by decide)) fun _ => carryFree_ok rfl
  | mdlInitBit hd =>
    exact runs rfl fun _ => carryFree_bind (getBit_keepsCarry s hd) fun _ _ => carryFree_ok rfl
  | mdlInitSym hd =>
    exact runs rfl fun _ => carryFree_bind (getSym_keepsCarry s hd) fun _ _ => carryFree_ok rfl
  | mdlFree hd =>
    exact runs rfl fun _ => carryFree_bind (getSlot_keepsCarry s hd) fun _ _ => carryFree_ok rfl
  | icConfig hd bits contexts bitsHigh range =>
    exact runs rfl fun _ => carryFree_bind (needEmptyIc_keepsCarry s hd) fun _ _ =>
      carryFree_ite (fun _ => carryFree_ok rfl) fun _ => carryFree_raise (by decide)
  | icInit hd | icGetK hd | icFree hd =>
    exact runs rfl fun _ => carryFree_bind (getIc_keepsCarry s hd) fun _ _ => carryFree_ok rfl
  | icCompress hd pred real context =>
    exact runs rfl fun hm => carryFree_bind (getReadyIc_keepsCarry s hd context) fun r hi =>
      have ⟨_, _, hms, hctx⟩ := legal_of_getReadyIc hs (ic := r.1) (ms := r.2) hi
      carryFree_bind (writeCorrector_keepsCarry (sound_interval_of_mem hs hm) (sound_fits hs)
        hms hctx _) fun _ _ => carryFree_ok rfl
  | icDecompress hd pred context =>
    exact runs rfl fun hm => carryFree_bind (getReadyIc_keepsCarry s hd context) fun r hi =>
      have ⟨_, _, hms, hctx⟩ := legal_of_getReadyIc hs (ic := r.1) (ms := r.2) hi
      carryFree_bind (readCorrector_keepsCarry (sound_window_of_mem hs hm) (sound_inpos hs)
        hms hctx) fun _ _ => carryFree_ok rfl

end

/-- Settles O23: outside FAULTED no command raises the fault, and in FAULTED none touches the record. -/
theorem carryNeverPassesTheFirstByte : Obligations.CarryNeverPassesTheFirstByte := by
  intro i s t hs h
  by_cases hf : s.mode = .faulted
  · cases exec_ends h with
    | ignored | reported => exact (em' _).imp_right (And.intro hf)
    | fault hf' => exact absurd hf hf'
    | done hm => exact absurd hf (open_of_mem_modesOf hm)
  · exact .inl (exec_fcode hs hf h)

end Sys2Proof.Machine
end

section
/-! PROOF. The raw-field commands as steps of exact integers: a write moves to its interval or overflows, a read
moves to its window, runs out of input or is out of range in its first step. From these two answers follow the
single commands, the equivalent pairs and the bytes moved (41_raw_fields.md R200-R218, R221). -/

namespace Sys2Proof.Machine

open Sys2Proof.Reference

/-! ## Raw commands as their procedures -/

/-- A raw write is its coding procedure, in every state. -/
theorem exec_eq_of_rawWriter {s : State} {i : Instr} {r : Coder → Res Coder}
    (hr : rawWriter s.cfg.outCapacity i = some r) :
    exec i s = command i (modesOf i) s (writeRaw s (r s.coder)) := by
  cases i with
  | wrBits n v =>
    obtain ⟨hn, rfl⟩ : ¬ (n < 1 ∨ 32 < n ∨ 2 ^ n ≤ v.toNat) ∧ encBits s.cfg.outCapacity n v.toNat = r := by
      simpa [rawWriter] using hr
    show command _ _ s (if _ then _ else if _ then _ else _) = _
    rw [if_neg (by omega), if_neg (by omega)]
    rfl
  | wrByte v | wrShort v | wrInt v | wrInt64 v | wrFloat v | wrDouble v =>
    obtain rfl := Option.some.inj hr
    rfl
  | _ => cases hr

/-- A raw read is its decoding procedure, in every state. -/
theorem exec_eq_of_rawReader {s : State} {i : Instr} {r : Coder → Res (Nat × Coder)}
    (hr : rawReader i = some r) : exec i s = command i (modesOf i) s (readRaw s (r s.coder)) := by
  cases i with
  | rdBits n =>
    obtain ⟨hn, rfl⟩ : ¬ (n < 1 ∨ 32 < n) ∧ decBits n = r := by simpa [rawReader] using hr
    show command _ _ s (if _ then _ else _) = _
    rw [if_neg hn]
    rfl
  | rdByte | rdShort | rdInt | rdInt64 | rdFloat | rdDouble =>
    obtain rfl := Option.some.inj hr
    rfl
  | _ => cases hr

/-! ## Raw commands as steps of exact integers -/

section
variable {s : State} {i : Instr} (hs : s.sound)
include hs

/-- A raw write moves to its interval, if the bytes fit. -/
theorem exec_eq_writeAnswer (he : s.mode = .encode) {r : Coder → Res Coder}
    (hr : rawWriter s.cfg.outCapacity i = some r) :
    exec i s = writeAnswer s i.opcode (writtenInterval (intervalOf s.coder) i) := by
  have hm : s.mode ∈ modesOf i := by simp [(rawWriter_row hr).1, he]
  have hc := (rawWriter_eq (sound_interval hs he) (sound_fits hs) hr).1
  unfold writeAnswer
  split
  · rename_i hfit
    rw [moved_eq_ok.2 ⟨hfit, rfl⟩] at hc
    exact exec_of_write hm hr hc
  · rename_i hfit
    rw [moved_overflow hfit] at hc
    rw [exec_eq_of_rawWriter hr]
    exact command_faults hm hc

/-- A raw read moves to the window of its first step, is checked, and moves on to its last window. -/
theorem exec_eq_rawReadAnswer (hd : s.mode = .decode) {r : Coder → Res (Nat × Coder)}
    (hr : rawReader i = some r) :
    exec i s = rawReadAnswer s i.opcode (readFirst i)
      ((windowOf s.coder).raw s.coder.input (readFirst i))
      (readWindow (windowOf s.coder) s.coder.input i)
      (readValue (windowOf s.coder) s.coder.input i) := by
  have hm : s.mode ∈ modesOf i := by simp [(rawReader_row hr).1, hd]
  have hc := (rawReader_eq (sound_window hs hd) (sound_inpos hs) hr).1
  have faults {code : FaultCode} (hf : r s.coder = raise code) : exec i s = faulted s code i.opcode := by
    rw [exec_eq_of_rawReader hr]
    exact command_faults hm hf
  unfold readAnswer at hc
  unfold rawReadAnswer
  split
  · rename_i hfirst
    exact faults (by rw [hc, taken_exhausted (Nat.not_le.2 hfirst), res_bind_raise])
  · rename_i hfirst
    rw [taken_eq_ok.2 ⟨Nat.not_lt.1 hfirst, rfl⟩, res_bind_ok] at hc
    split
    · rename_i hrange
      exact faults (by rw [hc, if_pos hrange])
    · rename_i hrange
      rw [if_neg hrange] at hc
      split
      · rename_i hlast
        exact faults (by rw [hc, taken_exhausted (Nat.not_le.2 hlast), res_bind_raise])
      · rename_i hlast
        rw [taken_eq_ok.2 ⟨Nat.not_lt.1 hlast, rfl⟩, res_bind_ok] at hc
        exact exec_of_read hm hr hc

end

/-! ## Writes and reads -/

/-- Settles O35: the checks of WR_BITS come first, and a field that passes them is a raw write. -/
theorem wrBitsCodesTheField : Obligations.WrBitsCodesTheField := by
  intro n v s hs he
  have hm : s.mode ∈ modesOf (.wrBits n v) := by simp [he, modesOf]
  split
  · exact command_raises hm (if_pos ‹_›)
  · split
    · exact command_raises hm (by rw [if_neg ‹_›, if_pos ‹_›])
    · exact exec_eq_writeAnswer (i := .wrBits n v) hs he (if_neg (by omega))

/-- Settles O36: the check of the width comes first, and a field that passes it is a raw read. -/
theorem rdBitsReadsTheField : Obligations.RdBitsReadsTheField := by
  intro n s hs hd
  have hm : s.mode ∈ modesOf (.rdBits n) := by simp [hd, modesOf]
  split
  · exact command_raises hm (if_pos ‹_›)
  · exact exec_eq_rawReadAnswer (i := .rdBits n) hs hd (if_neg ‹_›)

/-- Settles O37: each is a raw write, and its interval is the one listed. -/
theorem fixedWidthWritesCodeTheirParts : Obligations.FixedWidthWritesCodeTheirParts := by
  intro s hs he
  exact ⟨fun v => exec_eq_writeAnswer (i := .wrByte v) hs he rfl,
    fun v => exec_eq_writeAnswer (i := .wrShort v) hs he rfl,
    fun v => exec_eq_writeAnswer (i := .wrInt v) hs he rfl,
    fun v => exec_eq_writeAnswer (i := .wrInt64 v) hs he rfl,
    fun v => exec_eq_writeAnswer (i := .wrFloat v) hs he rfl,
    fun v => exec_eq_writeAnswer (i := .wrDouble v) hs he rfl⟩

/-- Settles O38: each is a raw read, and its first step, last window and value are the ones listed. -/
theorem fixedWidthReadsReadTheirParts : Obligations.FixedWidthReadsReadTheirParts := by
  intro s hs hd
  exact ⟨exec_eq_rawReadAnswer (i := .rdByte) hs hd rfl, exec_eq_rawReadAnswer (i := .rdShort) hs hd rfl,
    exec_eq_rawReadAnswer (i := .rdInt) hs hd rfl, exec_eq_rawReadAnswer (i := .rdInt64) hs hd rfl,
    exec_eq_rawReadAnswer (i := .rdFloat) hs hd rfl, exec_eq_rawReadAnswer (i := .rdDouble) hs hd rfl⟩

/-! ## Equivalent commands -/

/-- Which completed states a command reaches depends on its modes and its pseudocode alone: its opcode is only
recorded by a fault. -/
theorem command_completes_iff {i : Instr} {modes : List Mode} {s t : State} {body : Res State}
    (ht : t.mode ≠ .faulted) :
    command i modes s body = .next t ↔
      s.mode ≠ .faulted ∧ s.mode ∈ modes ∧ ∃ u, body = .ok u ∧ t = { u with ccount := u.ccount + 1 } := by
  constructor
  · intro h
    obtain ⟨hf, rfl⟩ | ⟨-, -, rfl⟩ | ⟨hf, hm, hu | ⟨code, -, rfl⟩⟩ := command_next h
    · exact absurd hf ht
    · exact absurd rfl ht
    · exact ⟨hf, hm, hu⟩
    · exact absurd rfl ht
  · rintro ⟨hf, hm, u, rfl, rfl⟩
    rw [command_allowed hf hm, finish_ok]

section
variable {s t : State} {i j : Instr} (ht : t.mode ≠ .faulted)
include ht

/-- Raw writes with one procedure complete with the same states. -/
theorem exec_iff_of_same_writer {r : Coder → Res Coder} (hi : rawWriter s.cfg.outCapacity i = some r)
    (hj : rawWriter s.cfg.outCapacity j = some r) : exec i s = .next t ↔ exec j s = .next t := by
  rw [exec_eq_of_rawWriter hi, exec_eq_of_rawWriter hj, command_completes_iff ht, command_completes_iff ht,
    (rawWriter_row hi).1, (rawWriter_row hj).1]

/-- Raw reads with one procedure complete with the same states. -/
theorem exec_iff_of_same_reader {r : Coder → Res (Nat × Coder)} (hi : rawReader i = some r)
    (hj : rawReader j = some r) : exec i s = .next t ↔ exec j s = .next t := by
  rw [exec_eq_of_rawReader hi, exec_eq_of_rawReader hj, command_completes_iff ht, command_completes_iff ht,
    (rawReader_row hi).1, (rawReader_row hj).1]

end

/-- A width from 1 to 32 and a value below it pass the checks of WR_BITS. -/
theorem rawWriter_wrBits (cap : Option Nat) {n : Nat} {v : Word} (h1 : 1 ≤ n) (h2 : n ≤ 32)
    (hv : v.toNat < 2 ^ n) : rawWriter cap (.wrBits n v) = some (encBits cap n v.toNat) :=
  if_neg (by omega)

/-- A field of at most 16 bits is one raw step, and passes the checks of WR_BITS (41_raw_fields.md R202). -/
theorem rawWriter_wrBits_setWidth (cap : Option Nat) {n : Nat} (h1 : 1 ≤ n) (h2 : n ≤ 16) (v : BitVec n) :
    rawWriter cap (.wrBits n (v.setWidth 32)) = some (encRaw cap n v.toNat) := by
  have hv : (v.setWidth 32).toNat = v.toNat := BitVec.toNat_setWidth_of_le (by omega)
  rw [rawWriter_wrBits cap h1 (by omega) (hv ▸ v.isLt), hv]
  exact congrArg some (funext fun _ => if_neg (show ¬ 19 < n by omega))

/-- A 32-bit field is its two halves (41_raw_fields.md R202, R210). -/
theorem encBits_32 (cap : Option Nat) (v : Word) : encBits cap 32 v.toNat = encWord cap v.toNat := by
  have h0 : half v.toNat 0 = v.toNat % 65536 := rfl
  have h1 : half v.toNat 1 = v.toNat >>> 16 := by
    have := v.isLt
    simp only [half, Nat.shiftRight_eq_div_pow]
    omega
  funext c
  rw [encWord, h0, h1]
  rfl

/-- Settles O39: the commands of each pair have one procedure, so they complete alike. -/
theorem equivalentRawCommandsAgree : Obligations.EquivalentRawCommandsAgree := by
  intro s t ht
  refine ⟨fun v => exec_iff_of_same_writer ht rfl ?_, fun v => exec_iff_of_same_writer ht rfl rfl,
    fun v => exec_iff_of_same_writer ht rfl (rawWriter_wrBits_setWidth _ (by omega) (by omega) v),
    fun v => exec_iff_of_same_writer ht rfl (rawWriter_wrBits_setWidth _ (by omega) (by omega) v),
    fun v => exec_iff_of_same_writer ht rfl rfl,
    exec_iff_of_same_reader ht rfl rfl, exec_iff_of_same_reader ht rfl rfl,
    exec_iff_of_same_reader ht rfl rfl, exec_iff_of_same_reader ht rfl rfl,
    exec_iff_of_same_reader ht rfl rfl⟩
  rw [← encBits_32]
  exact rawWriter_wrBits _ (by omega) (by omega) v.isLt

/-! ## The bytes a fixed-width command moves -/

/-- A step of `k` whole bytes of a renormalised width needs `k` renormalisation steps, whatever the width
(41_raw_fields.md R221). -/
theorem renormSteps_whole_bytes {width k : Nat} (h1 : 2 ^ 24 ≤ width) (h2 : width < 2 ^ 32) (hk : k ≤ 2) :
    renormSteps (width / 2 ^ (8 * k)) = k := by
  unfold renormSteps
  interval_cases k
  · exact if_pos (by omega)
  · rw [if_neg (by omega), if_pos (by omega)]
  · rw [if_neg (by omega), if_neg (by omega), if_pos (by omega)]

theorem interval_bytes_raw {v : Interval} (hv : v.sound) {k : Nat} (hk : k ≤ 2) (x : Nat) :
    (v.raw (8 * k) x).bytes = v.bytes + k :=
  congrArg (v.bytes + ·) (renormSteps_whole_bytes hv.1 hv.2.1 hk)

theorem window_pos_raw {w : Window} (hw : w.sound) {k : Nat} (hk : k ≤ 2) (input : List Byte) :
    (w.raw input (8 * k)).pos = w.pos + k :=
  congrArg (w.pos + ·) (renormSteps_whole_bytes hw.1 hw.2.1 hk)

theorem interval_bytes_halves {v : Interval} (hv : v.sound) (n x : Nat) :
    (Interval.halves n v x).bytes = v.bytes + 2 * n := by
  induction n generalizing v x with
  | zero => rfl
  | succ n ih =>
    have hb : (v.raw 16 (x % 2 ^ 16)).bytes = v.bytes + 2 := interval_bytes_raw hv (k := 2) (by omega) _
    rw [Interval.halves, ih (Interval.sound_raw hv (by omega) (Nat.mod_lt _ (by norm_num))), hb]
    omega

theorem window_pos_halves {w : Window} (hw : w.sound) (input : List Byte) (n : Nat) :
    (Window.halves n w input).pos = w.pos + 2 * n := by
  induction n generalizing w with
  | zero => rfl
  | succ n ih =>
    have hp : (w.raw input 16).pos = w.pos + 2 := window_pos_raw hw (k := 2) (by omega) input
    rw [Window.halves, ih (Window.sound_raw hw input (by omega)), hp]
    omega

/-- The bytes of a fixed-width command's field (41_raw_fields.md R221). -/
def fixedBytes : Instr → Option Nat
  | .wrByte _ | .rdByte => some 1
  | .wrShort _ | .rdShort => some 2
  | .wrInt _ | .rdInt | .wrFloat _ | .rdFloat => some 4
  | .wrInt64 _ | .rdInt64 | .wrDouble _ | .rdDouble => some 8
  | _ => none

/-- The opcodes of the fixed-width commands, each with the bytes of its field. -/
theorem fixedBytes_of_opcode {i : Instr} {n : Nat}
    (h : (i.opcode, n) ∈ [(0x22#8, 1), (0x23#8, 1), (0x24#8, 2), (0x25#8, 2), (0x26#8, 4), (0x27#8, 4),
      (0x2A#8, 4), (0x2B#8, 4), (0x28#8, 8), (0x29#8, 8), (0x2C#8, 8), (0x2D#8, 8)]) :
    fixedBytes i = some n := by
  cases i with
  | wrByte | rdByte | wrShort | rdShort | wrInt | rdInt | wrFloat | rdFloat | wrInt64 | rdInt64 | wrDouble
  | rdDouble =>
    obtain rfl : n = _ := by simpa [Instr.opcode] using h
    rfl
  | _ => simp [Instr.opcode] at h

/-- The fixed-width commands of the encoder are raw writes. -/
theorem rawWriter_of_fixedBytes (cap : Option Nat) {i : Instr} {n : Nat} (hn : fixedBytes i = some n)
    (hi : modesOf i = [.encode]) : ∃ r, rawWriter cap i = some r := by
  cases i with
  | wrByte | wrShort | wrInt | wrInt64 | wrFloat | wrDouble => exact ⟨_, rfl⟩
  | rdByte | rdShort | rdInt | rdInt64 | rdFloat | rdDouble => simp [modesOf] at hi
  | _ => cases hn

/-- The fixed-width commands of the decoder are raw reads. -/
theorem rawReader_of_fixedBytes {i : Instr} {n : Nat} (hn : fixedBytes i = some n)
    (hi : modesOf i = [.decode]) : ∃ r, rawReader i = some r := by
  cases i with
  | rdByte | rdShort | rdInt | rdInt64 | rdFloat | rdDouble => exact ⟨_, rfl⟩
  | wrByte | wrShort | wrInt | wrInt64 | wrFloat | wrDouble => simp [modesOf] at hi
  | _ => cases hn

/-- A fixed-width write appends the bytes of its field. -/
theorem bytes_writtenInterval {v : Interval} (hv : v.sound) {cap : Option Nat} {i : Instr} {n : Nat}
    {r : Coder → Res Coder} (hn : fixedBytes i = some n) (hr : rawWriter cap i = some r) :
    (writtenInterval v i).bytes = v.bytes + n := by
  cases i with
  | wrByte x =>
    obtain rfl := Option.some.inj hn
    exact interval_bytes_raw hv (k := 1) (by omega) _
  | wrShort x =>
    obtain rfl := Option.some.inj hn
    exact interval_bytes_raw hv (k := 2) (by omega) _
  | wrInt x | wrFloat x =>
    obtain rfl := Option.some.inj hn
    exact interval_bytes_halves hv 2 _
  | wrInt64 x | wrDouble x =>
    obtain rfl := Option.some.inj hn
    exact interval_bytes_halves hv 4 _
  | wrBits => cases hn
  | _ => cases hr

/-- A fixed-width read takes the bytes of its field. -/
theorem pos_readWindow {w : Window} (hw : w.sound) (input : List Byte) {i : Instr} {n : Nat}
    {r : Coder → Res (Nat × Coder)} (hn : fixedBytes i = some n) (hr : rawReader i = some r) :
    (readWindow w input i).pos = w.pos + n := by
  cases i with
  | rdByte =>
    obtain rfl := Option.some.inj hn
    exact window_pos_raw hw (k := 1) (by omega) _
  | rdShort =>
    obtain rfl := Option.some.inj hn
    exact window_pos_raw hw (k := 2) (by omega) _
  | rdInt | rdFloat =>
    obtain rfl := Option.some.inj hn
    exact window_pos_halves hw _ 2
  | rdInt64 | rdDouble =>
    obtain rfl := Option.some.inj hn
    exact window_pos_halves hw _ 4
  | rdBits => cases hn
  | _ => cases hr

/-- A raw write that completes is in its interval. -/
theorem coder_of_writeAnswer {s t : State} {opc : Byte} {v : Interval} (ht : t.mode ≠ .faulted)
    (h : writeAnswer s opc v = .next t) : t.coder = withInterval s.coder v := by
  unfold writeAnswer at h
  split at h
  · obtain rfl := Host.Outcome.next.inj h
    rfl
  · obtain rfl := Host.Outcome.next.inj h
    exact absurd rfl ht

/-- A raw read that completes is in its last window. -/
theorem coder_of_rawReadAnswer {s t : State} {opc : Byte} {n v : Nat} {first last : Window}
    (ht : t.mode ≠ .faulted) (h : rawReadAnswer s opc n first last v = .next t) :
    t.coder = withWindow s.coder last := by
  have unfaulted {code : FaultCode} : faulted s code opc ≠ .next t := fun he => by
    obtain rfl := Host.Outcome.next.inj he
    exact ht rfl
  unfold rawReadAnswer at h
  rw [ite_eq_iff, or_iff_right fun he => unfaulted he.2] at h
  rw [ite_eq_iff, or_iff_right fun he => unfaulted he.2] at h
  rw [ite_eq_iff, or_iff_right fun he => unfaulted he.2] at h
  obtain ⟨-, -, -, h⟩ := h
  obtain rfl := Host.Outcome.next.inj h
  rfl

/-- Settles O40: a completed fixed-width command is in the interval or window of its steps, each of which moves
whole bytes. -/
theorem fixedWidthCommandsMoveFixedBytes : Obligations.FixedWidthCommandsMoveFixedBytes := by
  intro i s t n hs h ht hn
  have hfix := fixedBytes_of_opcode hn
  refine ⟨fun hi => ?_, fun hi => ?_⟩
  · obtain ⟨r, hr⟩ := rawWriter_of_fixedBytes s.cfg.outCapacity hfix hi
    have he : s.mode = .encode := by
      obtain ⟨-, hm, -⟩ := (command_completes_iff ht).1 ((exec_eq_of_rawWriter hr).symm.trans h)
      simpa [hi] using hm
    rw [exec_eq_writeAnswer hs he hr] at h
    rw [coder_of_writeAnswer ht h, withInterval_outbuf, digits_length,
      bytes_writtenInterval (sound_interval hs he) hfix hr]
    rfl
  · obtain ⟨r, hr⟩ := rawReader_of_fixedBytes hfix hi
    have hd : s.mode = .decode := by
      obtain ⟨-, hm, -⟩ := (command_completes_iff ht).1 ((exec_eq_of_rawReader hr).symm.trans h)
      simpa [hi] using hm
    rw [exec_eq_rawReadAnswer hs hd hr] at h
    rw [coder_of_rawReadAnswer ht h, withWindow_inpos, pos_readWindow (sound_window hs hd) _ hfix hr]
    rfl

end Sys2Proof.Machine
end

section
/-! PROOF. The models as their formulas: what the model commands leave in their slot, the decode-table geometry of
an alphabet, and what a coded bit or symbol leaves in its record (42_models.md R250-R254, R258-R262;
43_integer_compressor.md R313). -/

namespace Sys2Proof.Machine

/-! ## The commands that make and free records -/

/-- Every mode but FAULTED is in the row of a command that is legal in all of them (60_exceptions.md R420). -/
theorem mem_openModes {m : Mode} (hm : m ≠ .faulted) : m ∈ [Mode.idle, .encode, .decode] := by
  cases m with
  | faulted => exact absurd rfl hm
  | idle | encode | decode => decide

/-- The record of R250, its fields as numbers. -/
theorem bitModelInit_eq :
    bitModelInit = { p0 := 4096, b0count := 1, count := 2, cycle := 4, remaining := 4 } := by decide

/-- Settles O41: the slot check passes, and both commands write the same record. -/
theorem bitModelCommandsGiveTheInitialModel : Obligations.BitModelCommandsGiveTheInitialModel := by
  intro h s hf hh
  rw [← bitModelInit_eq]
  intro fresh t
  have hm : s.mode ∈ modesOf (.mdlNewBit h) := mem_openModes hf
  refine ⟨fun he => ?_, fun m hfind => ?_, fun m hfind => ?_, Store.find_put_same _ _ _⟩
  · exact exec_of_completes (.mdlNewBit (needEmptySlot_eq_ok.2 ⟨hh, he⟩)) hm
  · exact exec_of_completes (.mdlInitBit (getBit_eq_ok.2 ⟨hh, hfind⟩)) hm
  · exact command_faults (i := .mdlInitBit h) hm (getBit_of_sym hh hfind)

/-- Settles O44: the slot is filled, so the command completes, and in a store of canonical form what it drops is
the one entry of the slot. -/
theorem freeEmptiesTheSlot : Obligations.FreeEmptiesTheSlot := by
  intro h s hs hf
  obtain ⟨-, -, -, -, -, hms, -, hics, -⟩ := (State.sound_iff s).1 hs
  refine ⟨fun hfilled => ?_, fun hfilled => ?_⟩
  · obtain ⟨m, hfind⟩ := Option.ne_none_iff_exists'.1 hfilled
    have hget := getSlot_eq_ok.2 ⟨(sound_slot hs hfind).1, hfind⟩
    exact ⟨Store.drop s.ms h, Store.find_drop_same hms h, fun _ => Store.find_drop_other _,
      exec_of_completes (.mdlFree hget) (mem_openModes hf)⟩
  · obtain ⟨ic, hfind⟩ := Option.ne_none_iff_exists'.1 hfilled
    have hget := getIc_eq_ok.2 ⟨(sound_ic hs hfind).1, hfind⟩
    exact ⟨Store.drop s.ics h, Store.find_drop_same hics h, fun _ => Store.find_drop_other _,
      exec_of_completes (.icFree hget) (mem_openModes hf)⟩

/-! ## The geometry of the decode table -/

/-- An alphabet of at most 16 symbols has no decode table. -/
theorem symModelGeometry_of_le {n : Nat} (hn : n ≤ 16) : symModelGeometry n = (0, 0) :=
  if_pos (Nat.lt_succ_of_le hn)

/-- The search finds the smallest number of table bits, from `tb` on, that leaves at most four symbols for each
entry, when the turns are enough. -/
theorem tableBits_minimal {n fuel tb : Nat} (hn : n ≤ 2 ^ (tb + fuel + 2)) :
    tb ≤ tableBits n fuel tb ∧ n ≤ 2 ^ (tableBits n fuel tb + 2) ∧
      (tableBits n fuel tb = tb ∨ 2 ^ (tableBits n fuel tb + 1) < n) := by
  induction fuel generalizing tb with
  | zero => exact ⟨Nat.le_refl _, hn, .inl rfl⟩
  | succ fuel ih =>
    rw [tableBits, Nat.shiftLeft_eq, one_mul]
    split
    · rename_i hmore
      obtain ⟨hle, hfit, hmin⟩ := ih (tb := tb + 1) (by rwa [Nat.add_right_comm tb 1 fuel])
      refine ⟨Nat.le_of_succ_le hle, hfit, .inr ?_⟩
      obtain heq | hlt := hmin
      · rwa [heq]
      · exact hlt
    · rename_i hfit
      exact ⟨Nat.le_refl _, Nat.not_lt.1 hfit, .inl rfl⟩

/-- An alphabet of 17 to 2048 symbols has the smallest table of at least 8 entries that leaves at most four
symbols for each (42_models.md R252). -/
theorem symModelGeometry_table {n : Nat} (h1 : 17 ≤ n) (h2 : n ≤ 2048) :
    ∃ tb, 3 ≤ tb ∧ symModelGeometry n = (2 ^ tb, 15 - tb) ∧
      n ≤ 2 ^ (tb + 2) ∧ (tb = 3 ∨ 2 ^ (tb + 1) < n) := by
  obtain ⟨hle, hfit, hmin⟩ := tableBits_minimal (n := n) (fuel := 8) (tb := 3) (h2.trans (by norm_num))
  refine ⟨_, hle, ?_, hfit, hmin⟩
  rw [← Nat.one_mul (2 ^ _), ← Nat.shiftLeft_eq]
  exact if_neg (Nat.not_lt.2 h1)

/-- A model of legal shape has no decode table exactly when its alphabet has fewer than 17 symbols. -/
theorem tsize_eq_zero_iff {m : SymModel} (hm : m.shapeOk) : m.tsize = 0 ↔ m.nsym < 17 := by
  obtain ⟨-, hn, hgeometry⟩ := (SymModel.shapeOk_iff m).1 hm
  rcases Nat.lt_or_ge m.nsym 17 with hlt | hge
  · rw [symModelGeometry_of_le (Nat.le_of_lt_succ hlt)] at hgeometry
    exact iff_of_true (BitVec.eq_of_toNat_eq (congrArg Prod.fst hgeometry)) hlt
  · obtain ⟨tb, -, htable, -⟩ := symModelGeometry_table hge hn
    have hsize : m.tsize.toNat = 2 ^ tb := congrArg Prod.fst (hgeometry.trans htable)
    refine iff_of_false (fun h0 => ?_) (Nat.not_lt.2 hge)
    rw [h0] at hsize
    exact (Nat.two_pow_pos tb).ne hsize

/-- A new record holds the geometry of its alphabet. -/
theorem symModelNew_geometry (n : Nat) :
    (symModelNew n).tsize.toNat = (symModelGeometry n).1 ∧
      (symModelNew n).tshift.toNat = (symModelGeometry n).2 :=
  ⟨u32_toNat (symModelGeometry_lt n).1, u32_toNat (symModelGeometry_lt n).2⟩

/-- Settles O42: the slot check passes, the size check decides, and the record has the geometry of its
alphabet. -/
theorem mdlNewSymMakesAnUninitialisedModel : Obligations.MdlNewSymMakesAnUninitialisedModel := by
  intro h nsym s hf hh he
  have hm : s.mode ∈ modesOf (.mdlNewSym h nsym) := mem_openModes hf
  have hempty := needEmptySlot_eq_ok (u := ()).2 ⟨hh, he⟩
  split
  · rename_i hsize
    exact command_raises hm (by rw [hempty, res_bind_ok]; exact if_pos hsize)
  · rename_i hsize
    obtain ⟨h2, h2048⟩ := not_or.1 hsize
    obtain ⟨htsize, htshift⟩ := symModelNew_geometry nsym.toNat
    refine ⟨symModelNew nsym.toNat, ?_, Store.find_put_same _ _ _, rfl, rfl, rfl, fun hsmall => ?_,
      fun hlarge => ?_⟩
    · exact exec_of_completes (.mdlNewSym hempty ⟨Nat.not_lt.1 h2, Nat.not_lt.1 h2048⟩) hm
    · rw [symModelGeometry_of_le hsmall] at htsize htshift
      exact ⟨BitVec.eq_of_toNat_eq htsize, BitVec.eq_of_toNat_eq htshift⟩
    · obtain ⟨tb, hle, htable, hfit, hmin⟩ := symModelGeometry_table hlarge (Nat.not_lt.1 h2048)
      rw [htable] at htsize htshift
      exact ⟨tb, hle, htsize, htshift, hfit, hmin⟩

/-! ## The bit-model update -/

/-- A total of at most 2^13 is not halved. -/
theorem bitRescale_of_le {b0 n : Nat} (hn : n ≤ 2 ^ 13) : bitRescale b0 n = (b0, n) :=
  if_neg (Nat.not_lt.2 hn)

/-- A total above 2^13 is halved with the bit-0 count, and raised by 1 if the two became equal. -/
theorem bitRescale_of_lt {b0 n : Nat} (hn : 2 ^ 13 < n) :
    bitRescale b0 n =
      ((b0 + 1) / 2, if (b0 + 1) / 2 = (n + 1) / 2 then (n + 1) / 2 + 1 else (n + 1) / 2) := by
  rw [bitRescale, if_pos (show bmMax < n from hn)]
  simp only [Nat.shiftRight_eq_div_pow, pow_one]

/-- The cadence after an update, as a number: within its cap it fits its field. -/
theorem u32_nextCycle_toNat (cycle : Nat) {cap : Nat} (hcap : cap < 2 ^ 32) :
    (u32 (nextCycle cycle cap)).toNat = min (5 * cycle / 4) cap := by
  rw [nextCycle, Nat.shiftRight_eq_div_pow]
  exact u32_toNat ((Nat.min_le_right _ _).trans_lt hcap)

/-- The fields of a bit model after an update, as numbers: no field wraps when the counts are in order. -/
theorem bitModelUpdate_toNat {m : BitModel} {b n : Nat}
    (hr : bitRescale m.b0count.toNat (m.count.toNat + m.cycle.toNat) = (b, n)) (hb : b < n) (hn : n ≤ 8192) :
    (bitModelUpdate m).b0count.toNat = b ∧ (bitModelUpdate m).count.toNat = n ∧
      (bitModelUpdate m).p0.toNat = b * (2 ^ 31 / n) / 2 ^ 18 ∧
      (bitModelUpdate m).cycle.toNat = min (5 * m.cycle.toNat / 4) 64 ∧
      (bitModelUpdate m).remaining = (bitModelUpdate m).cycle := by
  obtain ⟨-, hp0⟩ := scaled_bounds (total := n) (k := 13) (x := b) (by omega) hn (by norm_num) hb
  rw [Nat.mul_comm] at hp0
  unfold bitModelUpdate
  simp only [hr, Nat.shiftRight_eq_div_pow]
  exact ⟨u32_toNat (by omega), u32_toNat (by omega), u32_toNat (hp0.trans (by norm_num)),
    u32_nextCycle_toNat _ (by decide), trivial⟩

/-- When the countdown ends, the bit-0 count with the coded bit counted is above 0 and below the total of the
update. -/
theorem countdownEnd_bitCounts {m : BitModel} (b : Bool) (hm : m.ok) (hr : m.remaining = 1) :
    (if b then m.b0count else m.b0count + 1).toNat = m.b0count.toNat + (if b then 0 else 1) ∧
      1 ≤ m.b0count.toNat + (if b then 0 else 1) ∧
      m.b0count.toNat + (if b then 0 else 1) < m.count.toNat + m.cycle.toNat ∧
      m.count.toNat + m.cycle.toNat ≤ 8256 := by
  obtain ⟨-, hb, hc, hy, -, hbal⟩ := (BitModel.ok_iff m).1 hm
  have hr1 : m.remaining.toNat = 1 := by rw [hr]; rfl
  cases b with
  | false => exact ⟨BitVec.toNat_add_of_lt (by simp; omega), by simp, by simp; omega, by omega⟩
  | true => exact ⟨rfl, hb, by simp; omega, by omega⟩

/-- Settles O46: the counting step in every record, and the update in a legal one, whose counts keep every field
from wrapping. -/
theorem bitModelUpdateFollowsItsFormula : Obligations.BitModelUpdateFollowsItsFormula := by
  intro m b m' b0 n
  refine ⟨fun hr => ?_, fun hm hr => ?_⟩
  · have hcounted : m.b0count + (if b then 0 else 1) = if b then m.b0count else m.b0count + 1 := by
      cases b with
      | false => rfl
      | true => exact BitVec.add_zero _
    rw [hcounted]
    exact bitModelCoded_counting b hr
  · obtain ⟨hb0, hpos, hlt, hmax⟩ := countdownEnd_bitCounts b hm hr
    obtain ⟨-, hrlt, hrmax⟩ := bitRescale_bounds hpos hlt hmax
    have hm' : m' = bitModelUpdate { m with
        b0count := if b then m.b0count else m.b0count + 1, remaining := 0 } := bitModelCoded_updating b hr
    obtain ⟨hb', hn', hp', hcyc', hrem'⟩ := bitModelUpdate_toNat
      (m := { m with b0count := if b then m.b0count else m.b0count + 1, remaining := 0 })
      (by rw [hb0]) hrlt hrmax
    rw [← hm'] at hb' hn' hp' hcyc' hrem'
    refine ⟨fun hsmall => ?_, fun hlarge => ?_, by rw [hp', hb', hn'], hcyc', hrem'⟩
    · rw [hb', hn', bitRescale_of_le hsmall]
      exact ⟨rfl, rfl⟩
    · rw [hb', hn', bitRescale_of_lt hlarge]
      exact ⟨rfl, rfl⟩

/-! ## The symbol-model update -/

/-- A total of at most 2^15 is not halved. -/
theorem symRescale_of_le {cnt : List Word} {total : Nat} (h : total ≤ 2 ^ 15) :
    symRescale cnt total = (cnt, total) :=
  if_neg (Nat.not_lt.2 h)

/-- The counts after the halving, as numbers. -/
theorem symRescale_counts (cnt : List Word) (total : Nat) :
    (symRescale cnt total).1.map BitVec.toNat =
      if 2 ^ 15 < total then cnt.map (fun c => (c.toNat + 1) / 2) else cnt.map BitVec.toNat := by
  rw [symRescale, show dmMax = 2 ^ 15 from rfl]
  split
  · rw [List.map_map]
    refine List.map_congr_left fun c _ => ?_
    have hc := c.isLt
    rw [Function.comp_apply, Nat.shiftRight_eq_div_pow, u32_toNat (by omega), pow_one]
  · rfl

/-- The counts, the total, the distribution, the decode table and the cadence after an update. -/
theorem symModelUpdate_fields {m : SymModel} {cnt : List Word} {total : Nat}
    (hr : symRescale m.cnt (m.total.toNat + m.cycle.toNat) = (cnt, total)) :
    (symModelUpdate m).cnt = cnt ∧ (symModelUpdate m).total = u32 total ∧
      (symModelUpdate m).dist = (List.range cnt.length).map (fun i =>
        BitVec.ofNat 32 (2 ^ 31 / total * ((cnt.map BitVec.toNat).take i).sum / 2 ^ 16)) ∧
      (symModelUpdate m).dtab = (if m.tsize = 0 then [] else
        buildTable m.tsize.toNat m.tshift.toNat m.last (symModelUpdate m).dist) ∧
      (symModelUpdate m).cycle = u32 (nextCycle m.cycle.toNat ((m.nsym + 6) * 8)) := by
  have hdist := distFrom_eq (2 ^ 31 / total) 0 cnt
  simp only [Nat.zero_add] at hdist
  rw [← hdist, symModelUpdate, hr, Nat.shiftLeft_eq]
  exact ⟨rfl, rfl, rfl, rfl, rfl⟩

/-- With a count of 1 for every symbol the counts before symbol i sum to i. -/
theorem sum_take_ones {n i : Nat} (hi : i ≤ n) :
    (((List.replicate n (1 : Word)).map BitVec.toNat).take i).sum = i := by
  simp [List.map_replicate, List.take_replicate, Nat.min_eq_left hi]

/-- Initialisation sets the first cadence from the alphabet size alone, whatever the update left there. -/
theorem symModelInit_cycle_toNat {m : SymModel} (hn : m.nsym ≤ 2048) :
    (symModelInit m).cycle.toNat = (m.nsym + 6) / 2 := by
  have hcycle : (symModelInit m).cycle = u32 ((m.nsym + 6) >>> 1) := rfl
  rw [hcycle, Nat.shiftRight_eq_div_pow, pow_one, u32_toNat (by omega)]

/-- Settles O43: initialisation is an update of counts of 1, whose total is not halved. -/
theorem mdlInitSymGivesTheInitialModel : Obligations.MdlInitSymGivesTheInitialModel := by
  intro h s hs hf
  have hm : s.mode ∈ modesOf (.mdlInitSym h) := mem_openModes hf
  refine ⟨fun m hfind => command_faults hm (getSym_of_bit (sound_bitModel hs hfind).1 hfind), fun m hfind => ?_⟩
  obtain ⟨hh, hok⟩ := sound_symModel hs hfind
  obtain ⟨-, hn, -⟩ := (SymModel.shapeOk_iff m).1 (shapeOk_of_ok hok)
  have htotal : (u32 m.nsym).toNat = m.nsym := u32_toNat (by omega)
  obtain ⟨hcnt, htot, hdist, -, -⟩ := symModelUpdate_fields
    (m := { m with cnt := List.replicate m.nsym 1, total := 0, cycle := u32 m.nsym })
    (cnt := List.replicate m.nsym 1) (total := m.nsym) (by
      rw [show (0 : Word).toNat + (u32 m.nsym).toNat = m.nsym by rw [htotal]; exact Nat.zero_add _]
      exact symRescale_of_le (hn.trans (by norm_num)))
  refine ⟨symModelInit m, exec_of_completes (.mdlInitSym (getSym_eq_ok.2 ⟨hh, hfind⟩)) hm,
    rfl, rfl, rfl, rfl, hcnt, (congrArg BitVec.toNat htot).trans htotal, hdist.trans ?_,
    symModelInit_cycle_toNat hn, rfl⟩
  rw [List.length_replicate]
  refine List.map_congr_left fun i hi => ?_
  rw [sum_take_ones (List.mem_range.1 hi).le]

/-- When the countdown ends, the counts with the coded one added are one for each symbol, none 0, and sum to what
the update takes as its total. -/
theorem countdownEnd_counts {m : SymModel} {s : Nat} (hm : m.readyOk) (hs : s < m.nsym) (hr : m.remaining = 1) :
    let cnt := m.cnt.modify s (fun c => c + 1)
    cnt.length = m.nsym ∧ (∀ c ∈ cnt, 1 ≤ c.toNat) ∧ sumWords cnt = m.total.toNat + m.cycle.toNat ∧
      sumWords cnt ≤ 49200 := by
  obtain ⟨-, hn, -⟩ := (SymModel.shapeOk_iff m).1 (shapeOk_of_ok (ok_of_readyOk hm))
  simp only [SymModel.readyOk, Bool.and_eq_true] at hm
  obtain ⟨⟨hlen, hpos⟩, hbal, ⟨-, htot⟩, ⟨-, -, hcyc⟩, -⟩ := (SymModel.tablesOk_iff m).1 hm.2
  obtain ⟨hadd, hcpos⟩ := sumWords_modify (s := s) (l := m.cnt) (by omega) hpos (by omega)
  have hr1 : m.remaining.toNat = 1 := by rw [hr]; rfl
  exact ⟨(List.length_modify _ _ _).trans hlen, hcpos, by omega, by omega⟩

/-- Settles O47: the counting step, and the update of the counts with the coded one added. -/
theorem symModelUpdateFollowsItsFormula : Obligations.SymModelUpdateFollowsItsFormula := by
  intro m s hm hs m' cnt
  refine ⟨symModelCoded_counting s, fun hr => ?_⟩
  have hshape := shapeOk_of_ok (ok_of_readyOk hm)
  obtain ⟨-, hn, -⟩ := (SymModel.shapeOk_iff m).1 hshape
  obtain ⟨hlen, hpos, hsum, hmax⟩ := countdownEnd_counts hm hs hr
  obtain ⟨hrlen, -, hrsum, hrmax⟩ := symRescale_bounds (cnt := cnt) (hlen.trans_le hn) hpos hmax
  have hm' : m' = symModelUpdate { m with cnt := cnt, remaining := 0 } := symModelCoded_updating s hr
  obtain ⟨hcnt', htot', hdist', hdtab', hcyc'⟩ :=
    symModelUpdate_fields (m := { m with cnt := cnt, remaining := 0 }) (by rw [← hsum])
  rw [← hm'] at hcnt' htot' hdist' hdtab' hcyc'
  have htotal : m'.total.toNat = (symRescale cnt (sumWords cnt)).2 := by
    rw [htot']
    exact u32_toNat (hrmax.trans_lt (by norm_num))
  have hcap : (m.nsym + 6) * 8 < 2 ^ 32 := by omega
  refine ⟨?_, ?_, ?_, ?_, ?_, by rw [hm']; rfl, symModelCoded_nsym m s, symModelCoded_init m s,
    symModelCoded_tsize m s, symModelCoded_tshift m s⟩
  · rw [hcnt', symRescale_counts, sumWords_eq]
  · rw [htotal, hcnt', ← sumWords_eq]
    exact hrsum.symm
  · rw [hdist', htotal, hcnt', hrlen, hlen]
  · rw [hdtab']
    exact ite_congr (propext (tsize_eq_zero_iff hshape)) (fun _ => rfl) fun _ => rfl
  · rw [hcyc']
    exact u32_nextCycle_toNat _ hcap

end Sys2Proof.Machine
end

section
/-! PROOF. The integer compressor's arithmetic in plain integers: the class of a corrector, its adjusted form, the
fold and the unfold (43_integer_compressor.md R303-R307, R314). -/

namespace Sys2Proof.Machine

open Sys2Proof.Reference

/-! ## Classes -/

/-- The class of a corrector is at most `j` exactly when the corrector lies in the range of `j`. -/
theorem kClass_le_iff {c : Int} (h1 : -(2 ^ 31) ≤ c) (j : Nat) :
    kClass c ≤ j ↔ -((2 : Int) ^ j - 1) ≤ c ∧ c ≤ (2 : Int) ^ j := by
  have hcast : ((2 : Int) ^ j) = ((2 ^ j : Nat) : Int) := by push_cast; rfl
  have hpos : 0 < 2 ^ j := Nat.two_pow_pos j
  rw [hcast]
  by_cases h0 : c ≤ 0
  · rw [kClass_of_nonpos h0 h1, bitlen_le_iff]
    omega
  · rw [kClass_of_pos (Int.not_le.1 h0), bitlen_le_iff]
    omega

/-- Settles O58: a class is at most the first class whose range holds the corrector, and at least it. -/
theorem kClassIsTheSmallestClass : Obligations.KClassIsTheSmallestClass := by
  intro c h1 h2
  obtain ⟨hlo, hhi⟩ := (kClass_le_iff h1 _).1 (Nat.le_refl (kClass c))
  refine ⟨(kClass_le_iff h1 32).2 (by omega), hlo, hhi, fun j hj hrange => ?_⟩
  exact Nat.not_le.2 hj ((kClass_le_iff h1 j).2 hrange)

/-! ## Adjusted correctors -/

/-- A negative corrector is adjusted into the lower half of its class (43_integer_compressor.md R305). -/
theorem corrAdjust_of_neg {c : Int} (h1 : -(2 ^ 31) ≤ c) (h0 : c < 0) (hk : 1 ≤ kClass c) :
    (corrAdjust (kClass c) c : Int) = c + 2 ^ kClass c - 1 ∧ corrAdjust (kClass c) c < 2 ^ (kClass c - 1) := by
  have hlo := ((kClass_le_iff h1 _).1 (Nat.le_refl (kClass c))).1
  have hclass := kClass_of_nonpos h0.le h1
  have htop := two_pow_le_of_bitlen (hclass ▸ hk)
  rw [← hclass] at htop
  have hhalf : (2 : Int) ^ kClass c = 2 * ((2 ^ (kClass c - 1) : Nat) : Int) := by
    rw [← Nat.sub_add_cancel hk, pow_succ']
    push_cast
    rfl
  rw [corrAdjust, if_pos h0]
  omega

/-- A positive corrector of a class above 0 is adjusted into the upper half of its class
(43_integer_compressor.md R305). -/
theorem corrAdjust_of_pos {c : Int} (h0 : 0 < c) (hk : 1 ≤ kClass c) :
    (corrAdjust (kClass c) c : Int) = c - 1 ∧ 2 ^ (kClass c - 1) ≤ corrAdjust (kClass c) c := by
  have hclass := kClass_of_pos h0
  have htop := two_pow_le_of_bitlen (hclass ▸ hk)
  rw [← hclass] at htop
  rw [corrAdjust, if_neg h0.le.not_gt]
  omega

/-- The reader's two cases (43_integer_compressor.md R306): the one number that `s32` moves is 2^31 - 1. -/
theorem corrRestore_eq {k x : Nat} (hk : k ≤ 31) (hx : x < 2 ^ k) :
    corrRestore k x =
      if x < 2 ^ (k - 1) then (x : Int) - (2 ^ k - 1) else if x = 2 ^ 31 - 1 then -(2 ^ 31) else x + 1 := by
  have hmax : 2 ^ k ≤ 2 ^ 31 := Nat.pow_le_pow_right (by norm_num) hk
  unfold corrRestore
  by_cases hlow : x < 2 ^ (k - 1)
  · rw [if_neg (Nat.not_le.2 hlow), if_pos hlow]
  · rw [if_pos (Nat.not_lt.1 hlow), if_neg hlow]
    by_cases htop : x = 2 ^ 31 - 1
    · rw [if_pos htop, htop]
      decide
    · rw [if_neg htop, wrap32_of_range (by omega) (by omega)]

/-- Settles O59: the halves of a class by the sign of the corrector, and what the reader makes of them. -/
theorem correctorAdjustmentIsInvertible : Obligations.CorrectorAdjustmentIsInvertible := by
  refine ⟨fun c h1 h2 => ⟨eq_zero_or_one_of_kClass h1, fun hk => eq_min_of_kClass h1 h2 hk.ge, fun hk _ => ?_⟩,
    fun k x _ hk hx => corrRestore_eq hk hx⟩
  refine ⟨fun h0 => corrAdjust_of_neg h1 h0 hk, fun h0 => ?_, corrRestore_corrAdjust h1 h2 hk⟩
  obtain ⟨heq, hhalf⟩ := corrAdjust_of_pos h0 hk
  exact ⟨heq, hhalf, corrAdjust_lt c⟩

/-! ## Folding and unfolding -/

theorem wrap32_eq_bmod (v : Int) : wrap32 v = v.bmod (2 ^ 32) := BitVec.toInt_ofInt (n := 32) v

/-- With the constants of R300 a fold stays in the 32-bit signed range, so its `s32` changes nothing. -/
theorem icFold_eq_foldedCorrector {ic : IcRec} (hic : ic.unranged ∨ ic.ranged) (pred real : Int) :
    icFold ic pred real = foldedCorrector ic pred real := by
  obtain ⟨hd1, hd2⟩ := wrap32_range (real - pred)
  have hR := ic.corrRange.isLt
  unfold icFold foldedCorrector signed
  simp only [← wrap32_eq_bmod]
  generalize wrap32 (real - pred) = d at hd1 hd2
  obtain ⟨-, hmin, hmax⟩ | ⟨-, hmin, hmax, -⟩ := hic
  · rw [hmin, hmax, if_neg (by omega), if_neg (by omega), if_neg (by omega), if_neg (by omega)]
  · rw [hmin, hmax]
    split
    · exact wrap32_of_range (by omega) (by omega)
    · split
      · exact wrap32_of_range (by omega) (by omega)
      · rfl

/-- Subtracting the range in the unfold stays in the 32-bit signed range, so its `s32` changes nothing. -/
theorem icUnfold_eq_unfoldedValue (ic : IcRec) (pred corr : Int) :
    icUnfold ic pred corr = unfoldedValue ic pred corr := by
  obtain ⟨hr1, hr2⟩ := wrap32_range (pred + corr)
  unfold icUnfold unfoldedValue
  simp only [← wrap32_eq_bmod]
  generalize wrap32 (pred + corr) = r at hr1 hr2
  by_cases hneg : r < 0
  · rw [if_pos hneg, if_pos hneg]
  · rw [if_neg hneg, if_neg hneg, s32_toNat_of_nonneg (Int.not_lt.1 hneg) hr2]
    by_cases hle : (ic.corrRange.toNat : Int) ≤ r
    · rw [if_pos (by omega), if_pos hle, wrap32_of_range (by omega) (by omega)]
    · rw [if_neg (by omega), if_neg hle]

/-- Settles O60: the fold and the unfold in plain integers, and the cases of R314 by the kind of constants. -/
theorem unfoldReturnsTheFoldedValue : Obligations.UnfoldReturnsTheFoldedValue := by
  intro bits contexts bitsHigh range pred real _ hreal ic
  have hic : ic.unranged ∨ ic.ranged := icDerive_constants bits contexts bitsHigh range
  refine ⟨icFold_eq_foldedCorrector hic pred real, fun c _ _ => icUnfold_eq_unfoldedValue ic pred c,
    fun hcase => ?_⟩
  obtain hun | hra := hic
  · exact icUnfold_icFold_unranged hun hreal.1 hreal.2
  · obtain ⟨hp0, hp, hr0, hr, hR⟩ := hcase.resolve_left hra.1
    exact icUnfold_icFold_ranged hra ⟨hp0, hp⟩ ⟨hr0, hr⟩ hR

end Sys2Proof.Machine
end

section
/-! PROOF. The compressor records: the constants of a configuration, the model set of IC_INIT, the last exponent, and
the checks before a corrector is coded (43_integer_compressor.md R300-R302, R308-R312). -/

namespace Sys2Proof.Machine

open Sys2Proof.Reference

/-! ## Configurations -/

/-- The bits of a range are the fewest whose power of two reaches the range (43_integer_compressor.md R300). -/
theorem rangeBits_minimal {range : Nat} (h : 1 ≤ range) :
    range ≤ 2 ^ rangeBits range ∧ (range ≠ 1 → 2 ^ (rangeBits range - 1) < range) := by
  have hlt := (bitlen_le_iff range _).1 (Nat.le_refl (bitlen range))
  have hone : 1 ≤ bitlen range := by
    by_contra h0
    have := (bitlen_le_iff range 0).1 (by omega)
    omega
  have hle := two_pow_le_of_bitlen hone
  simp only [rangeBits, Nat.shiftLeft_eq, Nat.one_mul]
  split
  · rename_i hpow
    refine ⟨hpow.le, fun hne => ?_⟩
    have hexp : bitlen range - 1 ≠ 0 := fun h0 => hne (by rw [hpow, h0, Nat.pow_zero])
    calc 2 ^ (bitlen range - 1 - 1) < 2 ^ (bitlen range - 1) := Nat.pow_lt_pow_right (by norm_num) (by omega)
      _ = range := hpow.symm
  · rename_i hpow
    exact ⟨hlt.le, fun _ => lt_of_le_of_ne hle (Ne.symm hpow)⟩

section
variable {bits contexts : Nat} {bitsHigh range : Word}

/-- The constants of an explicit range (43_integer_compressor.md R300). -/
theorem icDerive_of_range (hr : range ≠ 0) :
    let ic := icDerive bits contexts bitsHigh range
    ic.corrBits = rangeBits range.toNat ∧ ic.corrRange = range ∧
      ic.corrMin.toInt = -((range.toNat / 2 : Nat) : Int) ∧
      ic.corrMax.toInt = -((range.toNat / 2 : Nat) : Int) + range.toNat - 1 := by
  have hlt := range.isLt
  have hne : range.toNat ≠ 0 := fun h => hr (BitVec.eq_of_toNat_eq h)
  unfold icDerive
  rw [if_pos hr]
  exact ⟨rfl, rfl, toInt_s32 (by omega) (by omega), toInt_s32 (by omega) (by omega)⟩

/-- The constants of a width below 32 (43_integer_compressor.md R300). -/
theorem icDerive_of_bits (h1 : 0 < bits) (h2 : bits < 32) :
    let ic := icDerive bits contexts bitsHigh 0
    ic.corrBits = bits ∧ ic.corrRange.toNat = 2 ^ bits ∧ ic.corrMin.toInt = -(2 : Int) ^ (bits - 1) ∧
      ic.corrMax.toInt = (2 : Int) ^ (bits - 1) - 1 := by
  have hcast : ((2 : Int) ^ (bits - 1)) = ((2 ^ (bits - 1) : Nat) : Int) := by push_cast; rfl
  have hpos : 0 < 2 ^ (bits - 1) := Nat.two_pow_pos _
  have hhalf : 2 ^ (bits - 1) ≤ 2 ^ 30 := Nat.pow_le_pow_right (by norm_num) (by omega)
  have hrange : 2 ^ bits ≤ 2 ^ 31 := Nat.pow_le_pow_right (by norm_num) (by omega)
  unfold icDerive
  rw [if_neg (by simp), if_pos ⟨h1, h2⟩]
  refine ⟨rfl, ?_, toInt_s32 (by omega) (by omega), toInt_s32 (by omega) (by omega)⟩
  rw [Nat.shiftLeft_eq, Nat.one_mul]
  exact u32_toNat (by omega)

/-- The constants of a full width (43_integer_compressor.md R300). -/
theorem icDerive_of_full (h : bits = 0 ∨ 32 ≤ bits) :
    let ic := icDerive bits contexts bitsHigh 0
    ic.corrBits = 32 ∧ ic.corrRange = 0 ∧ ic.corrMin.toInt = -(2 : Int) ^ 31 ∧
      ic.corrMax.toInt = (2 : Int) ^ 31 - 1 := by
  unfold icDerive
  rw [if_neg (by simp), if_neg (by omega)]
  exact ⟨rfl, rfl, toInt_s32 (by norm_num) (by norm_num), toInt_s32 (by norm_num) (by norm_num)⟩

end

/-- IC_CONFIG on an empty slot fills it or faults, as its record is valid or not. -/
theorem exec_icConfig {h bits : Nat} {contexts bitsHigh range : Word} {s : State} (hf : s.mode ≠ .faulted)
    (hh : h < s.cfg.icSlots) (he : Store.find s.ics h = none) :
    exec (.icConfig h bits contexts bitsHigh range) s =
      if icValid s.cfg.maxIcContexts (icDerive bits contexts.toNat bitsHigh range) then
        .next { s with
          ics := Store.put s.ics h (icDerive bits contexts.toNat bitsHigh range), ccount := s.ccount + 1 }
      else faulted s .badIcConfig 0x40#8 := by
  have hm : s.mode ∈ modesOf (.icConfig h bits contexts bitsHigh range) := mem_openModes hf
  have hempty := needEmptyIc_eq_ok (u := ()).2 ⟨hh, he⟩
  split
  · rename_i hv
    exact exec_of_completes (.icConfig hempty hv) hm
  · rename_i hv
    exact command_raises hm (by rw [hempty, res_bind_ok]; exact if_neg hv)

/-- Settles O51: the derived record has the constants of its kind of configuration, and its validity decides. -/
theorem icConfigDerivesItsConstants : Obligations.IcConfigDerivesItsConstants := by
  intro h bits contexts bitsHigh range s hf hh he
  obtain ⟨hbits, hcontexts, hhigh, hrange, hk, hmodels⟩ := icDerive_fields bits contexts.toNat bitsHigh range
  refine ⟨icDerive bits contexts.toNat bitsHigh range, hbits, hcontexts, hhigh, hrange, hk, ?_,
    fun hr => ?_, ?_, ?_, ?_⟩
  · rw [IcRec.ready, hmodels, Option.isSome_none]
  · obtain ⟨hcb, hcr, hmin, hmax⟩ :=
      icDerive_of_range (bits := bits) (contexts := contexts.toNat) (bitsHigh := bitsHigh) hr
    obtain ⟨hreach, hleast⟩ := rangeBits_minimal (range := range.toNat)
      (Nat.one_le_iff_ne_zero.2 fun h0 => hr (BitVec.eq_of_toNat_eq h0))
    rw [hcb]
    exact ⟨hcr, hmin, hmax, hreach, fun hne => hleast fun h1 => hne (BitVec.eq_of_toNat_eq h1),
      fun h1 => by rw [h1]; decide⟩
  · rintro rfl
    exact icDerive_of_bits
  · rintro rfl
    exact icDerive_of_full
  · rw [exec_icConfig hf hh he]
    refine if_congr ?_ rfl rfl
    rw [icValid_iff, hbits, hcontexts, hhigh, hrange]

/-! ## Model sets -/

/-- The alphabets of the corrector models of a legal record are legal (43_integer_compressor.md R301). -/
theorem mCorr_alphabet_bounds {maxContexts : Nat} {ic : IcRec} (hic : ic.ok maxContexts) {i : Nat} (h1 : 1 ≤ i)
    (h2 : i ≤ ic.corrBits) : 2 ≤ 2 ^ min i ic.bitsHigh.toNat ∧ 2 ^ min i ic.bitsHigh.toNat ≤ 2048 := by
  obtain ⟨m, -, -, hready, hnsym⟩ := mCorr_getElem (icInitModels_ok hic) h1 h2
  obtain ⟨hlo, hhi, -⟩ := (SymModel.shapeOk_iff m).1 (shapeOk_of_ok (ok_of_readyOk hready))
  exact ⟨hnsym ▸ hlo, hnsym ▸ hhi⟩

/-- Settles O52: the slot is filled, so IC_INIT completes with the set of R302. -/
theorem icInitBuildsTheModelSet : Obligations.IcInitBuildsTheModelSet := by
  intro h ic s hs hf hfind
  obtain ⟨hh, hic⟩ := sound_ic hs hfind
  refine ⟨icInitModels ic, exec_of_completes (.icInit (getIc_eq_ok.2 ⟨hh, hfind⟩)) (mem_openModes hf),
    List.length_replicate, fun m hm => List.eq_of_mem_replicate hm, bitModelInit_eq, by simp [icInitModels],
    fun i h1 h2 => ⟨?_, mCorr_alphabet_bounds hic h1 h2⟩⟩
  rw [icInitModels, List.getElem?_map, List.getElem?_range (by omega), Option.map_some, Nat.sub_add_cancel h1]

/-- Settles O53: the slot is filled, and readiness is not asked for. -/
theorem icGetKReturnsTheLastExponent : Obligations.IcGetKReturnsTheLastExponent := fun _ _ _ hf hh hfind =>
  exec_of_completes (.icGetK (getIc_eq_ok.2 ⟨hh, hfind⟩)) (mem_openModes hf)

/-! ## The checks before a corrector -/

section
variable {s : State} {h : Nat} {context : Word} {ic : IcRec} (hi : getIc s h = .ok ic)
include hi

theorem getReadyIc_bad_context (hc : ic.contexts ≤ context.toNat) :
    getReadyIc s h context = raise .badContext := by
  rw [getReadyIc, hi, res_bind_ok, if_pos hc]

theorem getReadyIc_uninit (hc : context.toNat < ic.contexts) (hm : ic.models = none) :
    getReadyIc s h context = raise .icUninit := by
  rw [getReadyIc, hi, res_bind_ok, if_neg (Nat.not_le.2 hc), hm]

end

/-- IC_COMPRESS and IC_DECOMPRESS fault as their check of the compressor does. -/
theorem exec_of_getReadyIc_raise {h : Nat} {pred real context : Word} {s : State} {code : FaultCode}
    (hr : getReadyIc s h context = raise code) :
    (s.mode = .encode → exec (.icCompress h pred real context) s = faulted s code 0x42#8) ∧
    (s.mode = .decode → exec (.icDecompress h pred context) s = faulted s code 0x43#8) :=
  ⟨fun he => command_faults (i := .icCompress h pred real context) (by simp [he, modesOf]) hr,
    fun hd => command_faults (i := .icDecompress h pred context) (by simp [hd, modesOf]) hr⟩

/-- Settles O54: the slot is filled, so the context is checked, and then the models. -/
theorem compressorChecksContextThenReadiness : Obligations.CompressorChecksContextThenReadiness := by
  intro h pred real context ic s hs hfind
  have hi := getIc_eq_ok.2 ⟨(sound_ic hs hfind).1, hfind⟩
  exact ⟨fun hc => exec_of_getReadyIc_raise (getReadyIc_bad_context hi hc),
    fun hc hm => exec_of_getReadyIc_raise (getReadyIc_uninit hi hc hm)⟩

end Sys2Proof.Machine
end

section
/-! PROOF. Coding a corrector as a step of exact integers: what IC_COMPRESS and IC_DECOMPRESS answer for a ready
compressor and one of its contexts (43_integer_compressor.md R303-R307, R310, R311, R317). -/

namespace Sys2Proof.Machine

open Sys2Proof.Reference

/-! ## IC_COMPRESS -/

/-- A legal record has the constants of R300. -/
theorem constants_of_ok {maxContexts : Nat} {ic : IcRec} (hic : ic.ok maxContexts) : ic.unranged ∨ ic.ranged := by
  obtain ⟨hderived, -⟩ := (IcRec.ok_iff _ _).1 hic
  have := icDerive_constants ic.bits ic.contexts ic.bitsHigh ic.range
  rwa [← hderived] at this

/-- A corrector of a class the compressor does not have is not a symbol of the model of its context
(43_integer_compressor.md R305). -/
theorem writeCorrector_beyond {cap : Option Nat} {c : Coder} {ic : IcRec} {ms : IcModels} (hms : ms.ok ic) {ctx : Nat}
    (hctx : ctx < ic.contexts) {corr : Int} (hk : ic.corrBits < kClass corr) :
    writeCorrector cap c ic ms ctx corr = raise .symbolOutOfAlphabet := by
  obtain ⟨m, hm, -, -, hnsym⟩ := mBits_getElem hms hctx
  have hlast : m.last < kClass corr := by
    unfold SymModel.last
    omega
  rw [writeCorrector, icModel, hm, res_bind_ok, if_pos hlast]

/-- What `WriteCorrector` answers from an open chunk, for a corrector of a class the compressor has. -/
theorem writeCorrector_answer {g : Config} {c : Coder} (hv : (intervalOf c).sound) (hf : fits g c.outbuf.length)
    {ic : IcRec} {ms : IcModels} (hms : ms.ok ic) {ctx : Nat} (hctx : ctx < ic.contexts) {corr : Int}
    (hk : kClass corr ≤ ic.corrBits) :
    writeCorrector g.outCapacity c ic ms ctx corr =
      (moved g c ((intervalOf c).corrector ic ms ctx corr) >>= fun c' =>
        .ok (c', codedCompressor ic ms ctx (kClass corr) (decide (corr = 1)) (modelledPart ic corr))) := by
  have h := writeCorrector_eq g c (intervalOf c) ic ms ctx corr hv hf hms hctx hk fun _ _ => corrAdjust_lt corr
  rwa [withInterval_intervalOf] at h

/-- Settles O55: IC_COMPRESS ends as `WriteCorrector` does on the folded corrector, which faults for a class past
the last, moves to the interval of the corrector or overflows. -/
theorem icCompressCodesTheCorrector : Obligations.IcCompressCodesTheCorrector := by
  intro h pred real context ic ms s hs he hfind hmodels hctx corr v
  have hm : s.mode ∈ modesOf (.icCompress h pred real context) := by simp [he, modesOf]
  obtain ⟨hh, hic⟩ := sound_ic hs hfind
  have hms := icModels_ok_of_ready hic hmodels
  have hready := getReadyIc_eq_ok.2 ⟨hh, hfind, hctx, hmodels⟩
  have hcorr : icFold ic (signed pred) (signed real) = corr := icFold_eq_foldedCorrector (constants_of_ok hic) _ _
  have hraise {code : FaultCode}
      (hw : writeCorrector s.cfg.outCapacity s.coder ic ms context.toNat corr = raise code) :
      exec (.icCompress h pred real context) s = faulted s code 0x42#8 :=
    command_raises hm (by simp only [hready, res_bind_ok, hcorr, hw, res_bind_raise])
  by_cases hk : ic.corrBits < kClass corr
  · rw [if_pos hk]
    exact hraise (writeCorrector_beyond hms hctx hk)
  · rw [if_neg hk]
    have hw := writeCorrector_answer (sound_interval hs he) (sound_fits hs) hms hctx (Nat.not_lt.1 hk)
    by_cases hfit : fits s.cfg v.bytes
    · rw [moved_eq_ok.2 ⟨hfit, rfl⟩, res_bind_ok, ← hcorr] at hw
      rw [if_pos hfit, ← hcorr]
      exact exec_of_completes (.icCompress hready hw) hm
    · rw [moved_overflow hfit, res_bind_raise] at hw
      rw [if_neg hfit]
      exact hraise hw

/-! ## IC_DECOMPRESS -/

/-- After a move only the coder that was moved to counts. -/
theorem taken_bind_congr {α : Type} {c : Coder} {w : Window} {f r : Coder → Res α}
    (h : w.pos ≤ c.input.length → f (withWindow c w) = r (withWindow c w)) :
    (taken c w >>= f) = (taken c w >>= r) :=
  taken_bind_taken c (Nat.le_refl _) f r fun hin => by rw [h hin, taken_eq_ok.2 ⟨hin, rfl⟩, res_bind_ok]

/-- A move of the decoder at the front of a command either runs out of input or is made. -/
theorem finish_taken {i : Instr} {s : State} {w : Window} {f : Coder → Res State} :
    finish i s (taken s.coder w >>= f) =
      if s.coder.input.length < w.pos then faulted s .inputExhausted i.opcode
      else finish i s (f (withWindow s.coder w)) := by
  split
  · rename_i hin
    rw [taken_exhausted (Nat.not_le.2 hin), res_bind_raise, finish_raise, takeFault_eq_faulted]
  · rename_i hin
    rw [taken_eq_ok.2 ⟨Nat.not_lt.1 hin, rfl⟩, res_bind_ok]

/-- IC_DECOMPRESS ends as `ReadCorrector` does: where that moves to `first`, is checked and moves to `last`, the
command has three places to fault, and else it returns the unfolded value. -/
theorem exec_icDecompress_of_read {h : Nat} {pred context : Word} {s : State} {ic : IcRec} {ms : IcModels}
    (hd : s.mode = .decode) (hready : getReadyIc s h context = .ok (ic, ms)) {first last : Window} {outOfRange : Prop}
    [Decidable outOfRange] {corr : Int} {k q : Nat} {b : Bool}
    (hread : readCorrector s.coder ic ms context.toNat =
      (taken s.coder first >>= fun _ =>
        if outOfRange then raise .rawDecodeRange
        else taken s.coder last >>= fun c => .ok (corr, c, codedCompressor ic ms context.toNat k b q))) :
    exec (.icDecompress h pred context) s =
      if s.coder.input.length < first.pos then faulted s .inputExhausted 0x43#8
      else if outOfRange then faulted s .rawDecodeRange 0x43#8
      else if s.coder.input.length < last.pos then faulted s .inputExhausted 0x43#8
      else .next { s with
        coder := withWindow s.coder last
        ics := Store.put s.ics h (codedCompressor ic ms context.toNat k b q)
        res := (BitVec.ofInt 32 (unfoldedValue ic pred.toInt corr)).setWidth 64
        ccount := s.ccount + 1 } := by
  have hm : s.mode ∈ modesOf (.icDecompress h pred context) := by simp [hd, modesOf]
  have hvalue : zext64 (s32 (icUnfold ic (signed pred) corr)).toNat =
      (BitVec.ofInt 32 (unfoldedValue ic pred.toInt corr)).setWidth 64 := by
    rw [icUnfold_eq_unfoldedValue, zext64, BitVec.ofNat_toNat]
    rfl
  refine (command_allowed (open_of_mem_modesOf hm) hm).trans ?_
  simp only [hready, hread, res_bind_ok, res_bind_assoc, finish_taken]
  refine if_congr Iff.rfl rfl ?_
  split
  · rw [res_bind_raise, finish_raise, takeFault_eq_faulted]
    rfl
  · simp only [res_bind_assoc, res_bind_ok, finish_taken, finish_ok, icUnfold_codedCompressor, hvalue]
    rfl

/-- Settles O56: what follows the class depends on it: a bit, nothing, a symbol, or a symbol and a raw field. -/
theorem icDecompressReadsTheCorrector : Obligations.IcDecompressReadsTheCorrector := by
  intro h pred context ic ms s hs hd hfind hmodels hctx _ _
  obtain ⟨hh, hic⟩ := sound_ic hs hfind
  have hready := getReadyIc_eq_ok.2 ⟨hh, hfind, hctx, hmodels⟩
  obtain ⟨k, q, hk, hle, hq, hread⟩ := readCorrector_eq s.coder (windowOf s.coder) ic ms context.toNat
    (sound_window hs hd) (icModels_ok_of_ready hic hmodels) hctx (Nat.le_refl _) (sound_inpos hs)
  rw [withWindow_windowOf] at hread
  refine ⟨k, q, hk, hle, hq, exec_icDecompress_of_read hd hready (hread.trans ?_)⟩
  clear hread hq
  by_cases hk0 : k = 0
  · have hraw : ¬ (1 ≤ k ∧ k < 32 ∧ ic.bitsHigh.toNat < k) := by omega
    simp only [if_pos hk0, if_neg hraw, if_neg (not_and_of_not_left _ hraw)]
    rfl
  by_cases hk32 : 32 ≤ k
  · have hraw : ¬ (1 ≤ k ∧ k < 32 ∧ ic.bitsHigh.toNat < k) := by omega
    simp only [if_neg hk0, if_neg (Nat.not_lt.2 hk32), if_pos hk32, if_neg hraw, if_neg (not_and_of_not_left _ hraw)]
    exact taken_bind_congr fun hin => by rw [taken_eq_ok.2 ⟨hin, rfl⟩, res_bind_ok]
  by_cases hhigh : k ≤ ic.bitsHigh.toNat
  · have hraw : ¬ (1 ≤ k ∧ k < 32 ∧ ic.bitsHigh.toNat < k) := by omega
    simp only [if_neg hk0, if_pos (Nat.not_le.1 hk32), if_neg hk32, if_pos hhigh, if_neg hraw,
      if_neg (not_and_of_not_left _ hraw)]
    exact taken_bind_congr fun _ => taken_bind_congr fun _ => rfl
  · have hraw : 1 ≤ k ∧ k < 32 ∧ ic.bitsHigh.toNat < k := by omega
    simp only [if_neg hk0, if_pos (Nat.not_le.1 hk32), if_neg hk32, if_neg hhigh, if_pos hraw, and_iff_right hraw]
    refine taken_bind_taken s.coder ((Window.pos_shift _ _ _ _).trans (Window.pos_raw _ _ _)) _ _ fun _ => ?_
    exact taken_bind_taken s.coder (Window.pos_raw _ _ _) _ _ fun _ => rfl

end Sys2Proof.Machine
end

section
/-! PROOF. IC_DECOMPRESS undoes IC_COMPRESS: the encoder has moved to the part of its corrector, and the decoder
reads the corrector its bytes lie in and unfolds it (43_integer_compressor.md R314, R316). -/

namespace Sys2Proof.Machine

open Sys2Proof.Reference

/-- What IC_COMPRESS leaves when it completes: the class is one the compressor has, the coder has moved to the
interval of the corrector, and the slot holds the adapted compressor. -/
theorem icCompress_completed {h : Nat} {pred real context : Word} {ic : IcRec} {s t : State} (hs : s.sound)
    (he : s.mode = .encode) (hfind : Store.find s.ics h = some ic)
    (ht : exec (.icCompress h pred real context) s = .next t) (hopen : t.mode ≠ .faulted) :
    ∃ ms, ic.models = some ms ∧ context.toNat < ic.contexts ∧
      let corr := icFold ic (signed pred) (signed real)
      kClass corr ≤ ic.corrBits ∧
      t.coder = withInterval s.coder ((intervalOf s.coder).corrector ic ms context.toNat corr) ∧
      Store.find t.ics h = some
        (codedCompressor ic ms context.toNat (kClass corr) (decide (corr = 1)) (modelledPart ic corr)) := by
  obtain ⟨-, u, hu, rfl⟩ := completes_of_exec ht (encode_open he) hopen
  cases hu with
  | write hr => cases hr
  | read hr => cases hr
  | icCompress hi hc =>
    obtain ⟨-, hfind', hctx, hmodels⟩ := getReadyIc_eq_ok.1 hi
    obtain rfl := Option.some.inj (hfind.symm.trans hfind')
    have hms := icModels_ok_of_ready (sound_ic hs hfind).2 hmodels
    obtain ⟨hk, hmoved, rfl⟩ := writeCorrector_ok (sound_interval hs he) (sound_fits hs) hms hctx hc
    exact ⟨_, hmodels, hctx, hk, (moved_eq_ok.1 hmoved).2, Store.find_put_same _ _ _⟩

/-- Settles O57: the decoder finds the class and the part that were coded, so it moves with the encoder and adapts
the same models, and the fold is undone where it can be. -/
theorem decompressInvertsCompress : Obligations.DecompressInvertsCompress := by
  intro h pred real context ic s t d at0 hs he hfind ht hopen hd hdec hdfind hsync hf
  obtain ⟨ms, hmodels, hctx, hk, hcoder, htic⟩ := icCompress_completed hs he hfind ht hopen
  have hic := (sound_ic hs hfind).2
  have hms := icModels_ok_of_ready hic hmodels
  have hv := sound_interval hs he
  have hsound := sound_corrector hv hms hctx hk
  rw [leadsInto_iff, hcoder, intervalOf_moved _ hsound] at hf
  obtain ⟨hr1, hr2⟩ := icFold_range ic (signed pred) (signed real)
  obtain ⟨w, hws, hmatched, hread⟩ := readCorrector_mirror hms hctx hk hr1 hr2 hv (sound_window hd hdec)
    ((synced_iff _ _ _).1 hsync) hf
  have hready := getReadyIc_eq_ok.2 ⟨(sound_ic hd hdfind).1, hdfind, hctx, hmodels⟩
  refine ⟨_, exec_of_completes (.icDecompress hready hread) (by simp [hdec, modesOf]), hdec, fun hinv => ?_, ?_, ?_⟩
  · simp only [icUnfold_codedCompressor, icUnfold_of_invertible hic hinv hk]
    rw [signed, s32, BitVec.ofInt_toInt, zext64, BitVec.ofNat_toNat]
  · rw [htic]
    exact Store.find_put_same _ _ _
  · rw [hcoder]
    exact synced_moved hsound hws hmatched

end Sys2Proof.Machine
end

section
/-! PROOF. What a step answers for a host operation (60_exceptions.md R415-R418), and what it answers in FAULTED,
where RD_STATUS alone acts and only RESET leads out (R403-R406). -/

namespace Sys2Proof.Machine

/-! ## Host operations -/

/-- A step carries out the next host operation in the state without it. -/
theorem step_of_pending {s : State} {op : HostOp} {rest : List HostOp} (hp : s.pending = op :: rest) :
    step s = runHostOp op { s with pending := rest } := by rw [step, hp]

/-- ISSUE leaves its reply in the state the command ends in. -/
theorem runHostOp_issue {s u : State} {c : Command} (h : issue c s = .next u) :
    runHostOp (.issue c) s = .next { u with reply := .command u.res u.status } := by
  rw [runHostOp, h]
  rfl

/-- Issuing a word that decodes runs its command. -/
theorem issue_of_decode {s : State} {c : Command} {i : Instr} (hd : decode c = .ok i) : issue c s = exec i s := by
  rw [issue, hd]

/-- Settles O6: the step is the ISSUE of the word, whose reply is read off the state that `exec` answers. -/
theorem stepRunsTheDecodedCommand : Obligations.StepRunsTheDecodedCommand := by
  intro s c rest i hp hd
  have hissue : issue c { s with pending := rest } = exec i { s with pending := rest } := issue_of_decode hd
  rw [step_of_pending hp, ← hissue]
  cases h : issue c { s with pending := rest } with
  | next u => exact runHostOp_issue h
  | fault r | refused r => rw [runHostOp, h]

/-- HOST_LOAD_INPUT looks at the mode (60_exceptions.md R417). -/
theorem runHostOp_loadInput (bytes : List Byte) (s : State) :
    runHostOp (.loadInput bytes) s = .next
      (if s.mode = .idle then { s with coder := { s.coder with input := bytes, inpos := 0 }, reply := .loadOk }
       else { s with reply := .loadRefused }) := by
  rw [runHostOp]
  by_cases hm : s.mode = .idle
  · simp [loadInput_idle bytes hm, acceptsInput, hm]
  · simp [loadInput_not_idle bytes hm, acceptsInput, hm]

/-- Settles O8: the step is the host operation, and HOST_READ_OUTPUT does not look at the mode. -/
theorem hostLoadsInIdleAndReadsAnywhere : Obligations.HostLoadsInIdleAndReadsAnywhere := fun _ _ =>
  ⟨fun bytes hp => (step_of_pending hp).trans (runHostOp_loadInput bytes _), fun hp => step_of_pending hp⟩

/-! ## Faults -/

/-- A command that completes is not in FAULTED afterwards. -/
theorem completes_open {s u : State} {i : Instr} (hu : Completes s i u) (hm : s.mode ∈ modesOf i) :
    u.mode ≠ .faulted :=
  (completes_mode hu).elim (fun he => he ▸ open_of_mem_modesOf hm) And.left

/-- Settles O13: of the ways a command can end, only its fault leads into FAULTED, and that is `takeFault` on the
state before it. -/
theorem faultDiscardsAllButItsRecord : Obligations.FaultDiscardsAllButItsRecord := by
  intro i s t h hs ht
  cases exec_ends h with
  | ignored hf | reported hf => exact absurd hf hs
  | fault _ hc => exact ⟨rfl, hc⟩
  | @done u hm hu => exact absurd ht (completes_open (u := u) hu hm)

/-- The word 0x00000005 is the one word of RD_STATUS, whatever the operands (60_exceptions.md R405). -/
theorem decode_eq_rdStatus_iff {c : Command} : decode c = .ok .rdStatus ↔ c.cw = 0x00000005#32 := by
  constructor
  · intro h
    exact (decodedWordIsTheCommandsWord c .rdStatus h).2.symm
  · intro h
    have hopc : c.opc = 0x05#8 := by rw [Command.opc, h]; rfl
    obtain ⟨-, hsame⟩ := unreadOperandBitsAreIgnored c (encode .rdStatus) h
    rw [hsame (by simp [hopc, readsA]) (by simp [hopc, readsB])]
    exact decodeOfEncodeIsTheCommand .rdStatus rfl

/-- In FAULTED every command but RD_STATUS is ignored. -/
theorem exec_ignored {i : Instr} {s : State} (hf : s.mode = .faulted) (hi : i ≠ .rdStatus) :
    exec i s = .next s := by
  cases i with
  | rdStatus => exact absurd rfl hi
  | _ => exact command_ignored hf

/-- In FAULTED only the word of RD_STATUS acts, and it writes `RES` alone. -/
theorem issue_faulted {c : Command} {s : State} (hf : s.mode = .faulted) :
    issue c s = .next (if c.cw = 0x00000005#32 then { s with res := s.statusPair } else s) := by
  split
  · rename_i hcw
    rw [issue_of_decode (decode_eq_rdStatus_iff.2 hcw)]
    exact if_pos hf
  · rename_i hcw
    obtain ⟨i, hd, he⟩ | ⟨e, -, he⟩ := issue_cases c s
    · rw [he, exec_ignored hf]
      rintro rfl
      exact hcw (decode_eq_rdStatus_iff.1 hd)
    · rw [he, illegalCommand_faulted c hf]

/-- Settles O14: the step is the ISSUE of the word in FAULTED. -/
theorem faultedBlockRunsOnlyRdStatus : Obligations.FaultedBlockRunsOnlyRdStatus := by
  intro s c rest hp hf
  rw [step_of_pending hp, runHostOp_issue (issue_faulted (s := { s with pending := rest }) hf)]
  split <;> rfl

/-- Settles O15: with no operation, and at each operation but RESET, a step keeps FAULTED. -/
theorem onlyResetLeavesFaulted : Obligations.OnlyResetLeavesFaulted := by
  intro s t hf h ht
  obtain ⟨-, rfl⟩ | ⟨op, rest, hp, h⟩ := step_next h
  · exact absurd hf ht
  obtain ⟨c, u, -, hu, rfl⟩ | ⟨bytes, -, rfl⟩ | ⟨-, rfl⟩ | ⟨rfl, -⟩ := runHostOp_next h
  · obtain rfl := Host.Outcome.next.inj ((issue_faulted (s := { s with pending := rest }) hf).symm.trans hu)
    refine absurd ?_ ht
    split <;> exact hf
  · rw [loadInput_not_idle bytes (by simp [hf])] at ht
    exact absurd hf ht
  · exact absurd hf ht
  · exact ⟨rest, hp⟩

end Sys2Proof.Machine
end

section
/-! PROOF. How a command's pseudocode can end early: a decoded command is `command` on a body that never raises
WRONG_MODE, in any state, and never stops the model, in a sound one (60_exceptions.md R402, R408, R420). -/

namespace Sys2Proof.Machine

open Sys2Proof.Reference

/-! ## Early ends of pseudocode -/

/-- `r` does not raise WRONG_MODE, it stops the model only if `p` holds, and every value it answers has the
property `P`. -/
def Behaves {α : Type} (p : Prop) (r : Res α) (P : α → Prop) : Prop :=
  (∀ a, r = .ok a → P a) ∧ r ≠ raise .wrongMode ∧ ∀ reason, r = stuck reason → p

/-- `r` does not raise WRONG_MODE, and stops the model only if `p` holds. -/
abbrev Runs {α : Type} (p : Prop) (r : Res α) : Prop := Behaves p r fun _ => True

/-- `r` does not raise WRONG_MODE; it may stop the model. -/
abbrev NoWrongMode {α : Type} (r : Res α) : Prop := Runs True r

section
variable {α β : Type} {p : Prop} {r q : Res α} {P : α → Prop}

theorem behaves_ok {a : α} (h : P a) : Behaves p (.ok a) P :=
  ⟨fun _ hb => Except.ok.inj hb ▸ h, fun hb => raise_ne_ok _ _ hb.symm, fun _ hb => absurd hb.symm (stuck_ne_ok _ _)⟩

theorem behaves_raise {code : FaultCode} (h : code ≠ .wrongMode) : Behaves p (raise code) P :=
  ⟨fun _ hb => absurd hb (raise_ne_ok _ _), fun hb => h (by simpa [raise] using hb),
    fun _ hb => by simp [raise, stuck] at hb⟩

theorem behaves_stuck (hp : p) (reason : Fault) : Behaves p (stuck reason) P :=
  ⟨fun _ hb => absurd hb (stuck_ne_ok _ _), fun hb => by simp [raise, stuck] at hb, fun _ _ => hp⟩

/-- A sequence: the second part may use what the first one answered. -/
theorem behaves_bind {f : α → Res β} {Q : β → Prop} (hr : Runs p r) (hf : ∀ a, r = .ok a → Behaves p (f a) Q) :
    Behaves p (r >>= f) Q := by
  cases r with
  | ok a => exact hf a rfl
  | error e =>
    obtain ⟨-, hcode, hstop⟩ := hr
    exact ⟨fun _ hb => (nomatch hb), fun hb => hcode (by simpa [raise] using hb),
      fun reason hb => hstop reason (by simpa [stuck] using hb)⟩

/-- A choice between two procedures. -/
theorem behaves_ite {c : Prop} [Decidable c] (hr : c → Behaves p r P) (hq : ¬ c → Behaves p q P) :
    Behaves p (if c then r else q) P := by
  split
  · exact hr ‹_›
  · exact hq ‹_›

end

/-! ## The checks -/

section
variable {p : Prop}

theorem getSlot_runs (s : State) (h : Nat) : Runs p (getSlot s h) := by
  refine behaves_ite (fun _ => behaves_raise (by decide)) fun _ => ?_
  split
  · exact behaves_raise (by decide)
  · exact behaves_ok trivial

theorem getBit_runs (s : State) (h : Nat) : Runs p (getBit s h) :=
  behaves_bind (getSlot_runs s h) fun m _ =>
    match m with
    | .bit _ => behaves_ok trivial
    | .sym _ => behaves_raise (by decide)

theorem getSym_runs (s : State) (h : Nat) : Runs p (getSym s h) :=
  behaves_bind (getSlot_runs s h) fun m _ =>
    match m with
    | .bit _ => behaves_raise (by decide)
    | .sym _ => behaves_ok trivial

theorem getReadySym_runs (s : State) (h : Nat) : Runs p (getReadySym s h) :=
  behaves_bind (getSym_runs s h) fun _ _ =>
    behaves_ite (fun _ => behaves_ok trivial) fun _ => behaves_raise (by decide)

theorem needEmptySlot_runs (s : State) (h : Nat) : Runs p (needEmptySlot s h) := by
  refine behaves_ite (fun _ => behaves_raise (by decide)) fun _ => ?_
  split
  · exact behaves_ok trivial
  · exact behaves_raise (by decide)

theorem getIc_runs (s : State) (h : Nat) : Runs p (getIc s h) := by
  refine behaves_ite (fun _ => behaves_raise (by decide)) fun _ => ?_
  split
  · exact behaves_raise (by decide)
  · exact behaves_ok trivial

theorem needEmptyIc_runs (s : State) (h : Nat) : Runs p (needEmptyIc s h) := by
  refine behaves_ite (fun _ => behaves_raise (by decide)) fun _ => ?_
  split
  · exact behaves_ok trivial
  · exact behaves_raise (by decide)

theorem getReadyIc_runs (s : State) (h : Nat) (context : Word) : Runs p (getReadyIc s h context) := by
  refine behaves_bind (getIc_runs s h) fun ic _ => behaves_ite (fun _ => behaves_raise (by decide)) fun _ => ?_
  split
  · exact behaves_raise (by decide)
  · exact behaves_ok trivial

/-! ## The procedures without a stop of the model -/

theorem outPush_runs (cap : Option Nat) (b : Byte) (c : Coder) : Runs p (outPush cap b c) := by
  cases cap with
  | none => exact behaves_ok trivial
  | some n => exact behaves_ite (fun _ => behaves_raise (by decide)) fun _ => behaves_ok trivial

theorem outZeros_runs (cap : Option Nat) (n : Nat) (c : Coder) : Runs p (outZeros cap n c) := by
  induction n generalizing c with
  | zero => exact behaves_ok trivial
  | succ n ih => exact behaves_bind (outPush_runs cap 0 c) fun d _ => ih d

theorem addBase_runs (x : Word) (c : Coder) : Runs p (addBase x c) := by
  refine behaves_ite (fun _ => ?_) fun _ => behaves_ok trivial
  unfold propagateCarry
  split
  · exact behaves_raise (by decide)
  · exact behaves_ok trivial

theorem inPop_runs (c : Coder) : Runs p (inPop c) := by
  unfold inPop
  split
  · exact behaves_raise (by decide)
  · exact behaves_ok trivial

theorem primeDec_runs (c : Coder) : Runs p (primeDec c) :=
  behaves_bind (inPop_runs _) fun _ _ => behaves_bind (inPop_runs _) fun _ _ =>
    behaves_bind (inPop_runs _) fun _ _ => behaves_bind (inPop_runs _) fun _ _ => behaves_ok trivial

end

/-! ## The coding procedures in any state -/

theorem renormEncLoop_noWrongMode (cap : Option Nat) (fuel : Nat) (c : Coder) :
    NoWrongMode (renormEncLoop cap fuel c) := by
  induction fuel generalizing c with
  | zero => exact behaves_stuck trivial _
  | succ fuel ih =>
    exact behaves_bind (outPush_runs cap _ c) fun _ _ => behaves_ite (fun _ => behaves_ok trivial) fun _ => ih _

theorem renormEncIfShort_noWrongMode (cap : Option Nat) (c : Coder) : NoWrongMode (renormEncIfShort cap c) :=
  behaves_ite (fun _ => renormEncLoop_noWrongMode cap 4 c) fun _ => behaves_ok trivial

theorem encRaw_noWrongMode (cap : Option Nat) (n v : Nat) (c : Coder) : NoWrongMode (encRaw cap n v c) :=
  behaves_bind (addBase_runs _ _) fun d _ => renormEncIfShort_noWrongMode cap d

theorem encBits_noWrongMode (cap : Option Nat) (n v : Nat) (c : Coder) : NoWrongMode (encBits cap n v c) :=
  behaves_ite (fun _ => behaves_bind (encRaw_noWrongMode cap 16 _ c) fun d _ => encRaw_noWrongMode cap _ _ d)
    fun _ => encRaw_noWrongMode cap n v c

theorem encWord_noWrongMode (cap : Option Nat) (v : Nat) (c : Coder) : NoWrongMode (encWord cap v c) :=
  behaves_bind (encRaw_noWrongMode cap 16 _ c) fun d _ => encRaw_noWrongMode cap 16 _ d

theorem encDWord_noWrongMode (cap : Option Nat) (v : Nat) (c : Coder) : NoWrongMode (encDWord cap v c) :=
  behaves_bind (encRaw_noWrongMode cap 16 _ c) fun d _ => behaves_bind (encRaw_noWrongMode cap 16 _ d) fun e _ =>
    behaves_bind (encRaw_noWrongMode cap 16 _ e) fun f _ => encRaw_noWrongMode cap 16 _ f

theorem encBitM_noWrongMode (cap : Option Nat) (c : Coder) (m : BitModel) (b : Bool) :
    NoWrongMode (encBitM cap c m b) := by
  have renormed (d : Coder) : NoWrongMode (do
      let e ← renormEncIfShort cap d
      .ok (e, bitModelCoded m b)) :=
    behaves_bind (renormEncIfShort_noWrongMode cap d) fun _ _ => behaves_ok trivial
  exact behaves_ite (fun _ => behaves_bind (addBase_runs (bitSplit c m) c) fun _ _ => renormed _) fun _ => renormed _

theorem entry_noWrongMode (l : List Word) (i : Nat) : NoWrongMode (entry l i) := by
  unfold entry
  split
  · exact behaves_stuck trivial _
  · exact behaves_ok trivial

theorem symLow_noWrongMode (c : Coder) (m : SymModel) (s : Nat) : NoWrongMode (symLow c m s) :=
  behaves_bind (entry_noWrongMode _ _) fun _ _ => behaves_ok trivial

theorem symHigh_noWrongMode (c : Coder) (m : SymModel) (s : Nat) : NoWrongMode (symHigh c m s) :=
  behaves_ite (fun _ => behaves_ok trivial)
    fun _ => behaves_bind (entry_noWrongMode _ _) fun _ _ => behaves_ok trivial

theorem encSymM_noWrongMode (cap : Option Nat) (c : Coder) (m : SymModel) (s : Nat) :
    NoWrongMode (encSymM cap c m s) :=
  behaves_bind (symLow_noWrongMode c m s) fun x _ => behaves_bind (symHigh_noWrongMode c m s) fun _ _ =>
    behaves_bind (addBase_runs x c) fun _ _ =>
      behaves_bind (renormEncIfShort_noWrongMode cap _) fun _ _ => behaves_ok trivial

theorem flushEnc_noWrongMode (cap : Option Nat) (c : Coder) : NoWrongMode (flushEnc cap c) := by
  have flushed (x len : Word) (n : Nat) : NoWrongMode (do
      let d ← addBase x c
      let d ← renormEnc cap { d with length := len }
      outZeros cap n d) :=
    behaves_bind (addBase_runs x c) fun _ _ =>
      behaves_bind (renormEncLoop_noWrongMode cap 4 _) fun d _ => outZeros_runs cap n d
  exact behaves_ite (fun _ => flushed _ _ 3) fun _ => flushed _ _ 2

theorem icModel_noWrongMode (l : List SymModel) (i : Nat) : NoWrongMode (icModel l i) := by
  unfold icModel
  split
  · exact behaves_stuck trivial _
  · exact behaves_ok trivial

theorem writeBucket_noWrongMode (cap : Option Nat) (bitsHigh k : Nat) (corr : Int) (c : Coder) (ms : IcModels) :
    NoWrongMode (writeBucket cap bitsHigh k corr c ms) :=
  behaves_bind (icModel_noWrongMode _ _) fun q _ => behaves_ite
    (fun _ => behaves_bind (encSymM_noWrongMode cap c q _) fun _ _ => behaves_ok trivial)
    fun _ => behaves_bind (encSymM_noWrongMode cap c q _) fun r _ =>
      behaves_bind (encBits_noWrongMode cap _ _ r.1) fun _ _ => behaves_ok trivial

theorem writeCorrector_noWrongMode (cap : Option Nat) (c : Coder) (ic : IcRec) (ms : IcModels) (ctx : Nat)
    (corr : Int) : NoWrongMode (writeCorrector cap c ic ms ctx corr) :=
  behaves_bind (icModel_noWrongMode _ _) fun m _ => behaves_ite (fun _ => behaves_raise (by decide)) fun _ =>
    behaves_bind (encSymM_noWrongMode cap c m _) fun r _ => behaves_ite
      (fun _ => behaves_bind (encBitM_noWrongMode cap r.1 _ _) fun _ _ => behaves_ok trivial)
      fun _ => behaves_ite
        (fun _ => behaves_bind (writeBucket_noWrongMode cap _ _ corr r.1 _) fun _ _ => behaves_ok trivial)
        fun _ => behaves_ok trivial

theorem renormDecLoop_noWrongMode (fuel : Nat) (c : Coder) : NoWrongMode (renormDecLoop fuel c) := by
  have shifted (c : Coder) : NoWrongMode (shiftIn c) :=
    behaves_bind (inPop_runs c) fun _ _ => behaves_ok trivial
  induction fuel generalizing c with
  | zero => exact behaves_stuck trivial _
  | succ fuel ih =>
    exact behaves_bind (shifted c) fun _ _ => behaves_ite (fun _ => behaves_ok trivial) fun _ => ih _

theorem renormDecIfShort_noWrongMode (c : Coder) : NoWrongMode (renormDecIfShort c) :=
  behaves_ite (fun _ => renormDecLoop_noWrongMode 4 c) fun _ => behaves_ok trivial

theorem decRaw_noWrongMode (n : Nat) (c : Coder) : NoWrongMode (decRaw n c) :=
  behaves_ite (fun _ => behaves_stuck trivial _) fun _ =>
    behaves_bind (renormDecIfShort_noWrongMode _) fun _ _ =>
      behaves_ite (fun _ => behaves_raise (by decide)) fun _ => behaves_ok trivial

theorem decBits_noWrongMode (n : Nat) (c : Coder) : NoWrongMode (decBits n c) :=
  behaves_ite
    (fun _ => behaves_bind (decRaw_noWrongMode 16 c) fun r _ =>
      behaves_bind (decRaw_noWrongMode _ r.2) fun _ _ => behaves_ok trivial)
    fun _ => decRaw_noWrongMode n c

theorem decWord_noWrongMode (c : Coder) : NoWrongMode (decWord c) :=
  behaves_bind (decRaw_noWrongMode 16 c) fun r _ =>
    behaves_bind (decRaw_noWrongMode 16 r.2) fun _ _ => behaves_ok trivial

theorem decDWord_noWrongMode (c : Coder) : NoWrongMode (decDWord c) :=
  behaves_bind (decRaw_noWrongMode 16 c) fun r _ => behaves_bind (decRaw_noWrongMode 16 r.2) fun r _ =>
    behaves_bind (decRaw_noWrongMode 16 r.2) fun r _ =>
      behaves_bind (decRaw_noWrongMode 16 r.2) fun _ _ => behaves_ok trivial

theorem decBitM_noWrongMode (c : Coder) (m : BitModel) : NoWrongMode (decBitM c m) :=
  behaves_bind (renormDecIfShort_noWrongMode _) fun _ _ => behaves_ok trivial

theorem decSymM_noWrongMode (c : Coder) (m : SymModel) : NoWrongMode (decSymM c m) := by
  unfold decSymM
  split
  · exact behaves_stuck trivial _
  · exact behaves_bind (symLow_noWrongMode c m _) fun _ _ => behaves_bind (symHigh_noWrongMode c m _) fun _ _ =>
      behaves_bind (renormDecIfShort_noWrongMode _) fun _ _ => behaves_ok trivial

theorem readBucket_noWrongMode (bitsHigh k : Nat) (c : Coder) (ms : IcModels) :
    NoWrongMode (readBucket bitsHigh k c ms) :=
  behaves_bind (icModel_noWrongMode _ _) fun q _ => behaves_ite
    (fun _ => behaves_bind (decSymM_noWrongMode c q) fun _ _ => behaves_ok trivial)
    fun _ => behaves_bind (decSymM_noWrongMode c q) fun r _ =>
      behaves_bind (decBits_noWrongMode _ r.2.1) fun _ _ => behaves_ok trivial

theorem readCorrector_noWrongMode (c : Coder) (ic : IcRec) (ms : IcModels) (ctx : Nat) :
    NoWrongMode (readCorrector c ic ms ctx) :=
  behaves_bind (icModel_noWrongMode _ _) fun m _ => behaves_bind (decSymM_noWrongMode c m) fun r _ => behaves_ite
    (fun _ => behaves_bind (decBitM_noWrongMode r.2.1 _) fun _ _ => behaves_ok trivial)
    fun _ => behaves_ite
      (fun _ => behaves_bind (readBucket_noWrongMode _ _ r.2.1 _) fun _ _ => behaves_ok trivial)
      fun _ => behaves_ok trivial

theorem rawWriter_noWrongMode {cap : Option Nat} {i : Instr} {r : Coder → Res Coder}
    (h : rawWriter cap i = some r) (c : Coder) : NoWrongMode (r c) := by
  cases i with
  | wrBits n v =>
    obtain ⟨-, rfl⟩ : ¬ (n < 1 ∨ 32 < n ∨ 2 ^ n ≤ v.toNat) ∧ encBits cap n v.toNat = r := by
      simpa [rawWriter] using h
    exact encBits_noWrongMode _ _ _ _
  | wrByte v | wrShort v =>
    obtain rfl := Option.some.inj h
    exact encRaw_noWrongMode _ _ _ _
  | wrInt v | wrFloat v =>
    obtain rfl := Option.some.inj h
    exact encWord_noWrongMode _ _ _
  | wrInt64 v | wrDouble v =>
    obtain rfl := Option.some.inj h
    exact encDWord_noWrongMode _ _ _
  | _ => cases h

theorem rawReader_noWrongMode {i : Instr} {r : Coder → Res (Nat × Coder)} (h : rawReader i = some r) (c : Coder) :
    NoWrongMode (r c) := by
  cases i with
  | rdBits n =>
    obtain ⟨-, rfl⟩ : ¬ (n < 1 ∨ 32 < n) ∧ decBits n = r := by simpa [rawReader] using h
    exact decBits_noWrongMode _ _
  | rdByte | rdShort =>
    obtain rfl := Option.some.inj h
    exact decRaw_noWrongMode _ _
  | rdInt | rdFloat =>
    obtain rfl := Option.some.inj h
    exact decWord_noWrongMode _
  | rdInt64 | rdDouble =>
    obtain rfl := Option.some.inj h
    exact decDWord_noWrongMode _
  | _ => cases h

/-! ## The coding procedures in a sound state -/

section
variable {p : Prop}

theorem moved_runs (g : Config) (c : Coder) (v : Interval) : Runs p (moved g c v) :=
  behaves_ite (fun _ => behaves_ok trivial) fun _ => behaves_raise (by decide)

theorem taken_runs (c : Coder) (w : Window) : Runs p (taken c w) :=
  behaves_ite (fun _ => behaves_ok trivial) fun _ => behaves_raise (by decide)

end

/-- The coding procedures of the commands do not raise WRONG_MODE in the state, and stop the model there only if `p`
holds. Each is asked about as its command calls it: in the mode of the command's row, and after its checks. -/
structure CodingRuns (p : Prop) (s : State) : Prop where
  flush : s.mode = .encode → Runs p (flushEnc s.cfg.outCapacity s.coder)
  write {i : Instr} {r : Coder → Res Coder} :
    s.mode = .encode → rawWriter s.cfg.outCapacity i = some r → Runs p (r s.coder)
  encBit {h : Nat} {m : BitModel} (b : Bool) :
    s.mode = .encode → getBit s h = .ok m → Runs p (encBitM s.cfg.outCapacity s.coder m b)
  encSym {h v : Nat} {m : SymModel} :
    s.mode = .encode → getReadySym s h = .ok m → v ≤ m.last → Runs p (encSymM s.cfg.outCapacity s.coder m v)
  compress {h : Nat} {context : Word} {ic : IcRec} {ms : IcModels} (corr : Int) :
    s.mode = .encode → getReadyIc s h context = .ok (ic, ms) →
      Runs p (writeCorrector s.cfg.outCapacity s.coder ic ms context.toNat corr)
  read {i : Instr} {r : Coder → Res (Nat × Coder)} :
    s.mode = .decode → rawReader i = some r → Runs p (r s.coder)
  decBit {h : Nat} {m : BitModel} : s.mode = .decode → getBit s h = .ok m → Runs p (decBitM s.coder m)
  decSym {h : Nat} {m : SymModel} : s.mode = .decode → getReadySym s h = .ok m → Runs p (decSymM s.coder m)
  decompress {h : Nat} {context : Word} {ic : IcRec} {ms : IcModels} :
    s.mode = .decode → getReadyIc s h context = .ok (ic, ms) →
      Runs p (readCorrector s.coder ic ms context.toNat)

/-- In any state no coding procedure raises WRONG_MODE. -/
theorem codingRuns_any (s : State) : CodingRuns True s where
  flush _ := flushEnc_noWrongMode _ _
  write _ hr := rawWriter_noWrongMode hr _
  encBit b _ _ := encBitM_noWrongMode _ _ _ b
  encSym _ _ _ := encSymM_noWrongMode _ _ _ _
  compress corr _ _ := writeCorrector_noWrongMode _ _ _ _ _ corr
  read _ hr := rawReader_noWrongMode hr _
  decBit _ _ := decBitM_noWrongMode _ _
  decSym _ _ := decSymM_noWrongMode _ _
  decompress _ _ := readCorrector_noWrongMode _ _ _ _

/-- In a sound state every coding procedure is a move of the exact interval or window, so none stops the model: it
only overflows, runs out of input, is out of range, or turns a corrector away. -/
theorem codingRuns_of_sound {s : State} (hs : s.sound) : CodingRuns False s where
  flush hm := by
    obtain ⟨c', -, -, -, h⟩ := flushEnc_eq s.cfg s.coder _ (sound_interval hs hm)
    rw [withInterval_intervalOf] at h
    rw [h]
    exact behaves_ite (fun _ => behaves_ok trivial) fun _ => behaves_raise (by decide)
  write hm hr := by
    rw [(rawWriter_eq (sound_interval hs hm) (sound_fits hs) hr).1]
    exact moved_runs _ _ _
  encBit b hm hg := by
    rw [encBitM_answer (sound_interval hs hm) (sound_fits hs) (bit_ok_of_getBit hs hg).2]
    exact behaves_bind (moved_runs _ _ _) fun _ _ => behaves_ok trivial
  encSym hm hg hv := by
    have hready := (ready_of_getReadySym hs hg).2
    rw [encSymM_answer (sound_interval hs hm) (sound_fits hs) hready (lt_nsym_of_le_last hready hv)]
    exact behaves_bind (moved_runs _ _ _) fun _ _ => behaves_ok trivial
  compress {_ _ ic _} corr hm hi := by
    obtain ⟨-, -, hms, hctx⟩ := legal_of_getReadyIc hs hi
    by_cases hk : kClass corr ≤ ic.corrBits
    · rw [writeCorrector_answer (sound_interval hs hm) (sound_fits hs) hms hctx hk]
      exact behaves_bind (moved_runs _ _ _) fun _ _ => behaves_ok trivial
    · rw [writeCorrector_beyond hms hctx (Nat.not_le.1 hk)]
      exact behaves_raise (by decide)
  read hm hr := by
    rw [(rawReader_eq (sound_window hs hm) (sound_inpos hs) hr).1]
    exact behaves_bind (taken_runs _ _) fun _ _ => behaves_ite (fun _ => behaves_raise (by decide)) fun _ =>
      behaves_bind (taken_runs _ _) fun _ _ => behaves_ok trivial
  decBit hm hg := by
    rw [decBitM_answer (sound_window hs hm) (sound_inpos hs) (bit_ok_of_getBit hs hg).2]
    exact behaves_bind (taken_runs _ _) fun _ _ => behaves_ok trivial
  decSym hm hg := by
    obtain ⟨v, -, h⟩ := decSymM_answer (sound_window hs hm) (sound_inpos hs) (ready_of_getReadySym hs hg).2
    rw [h]
    exact behaves_bind (taken_runs _ _) fun _ _ => behaves_ok trivial
  decompress hm hi := by
    obtain ⟨-, -, hms, hctx⟩ := legal_of_getReadyIc hs hi
    obtain ⟨k, q, -, -, -, h⟩ :=
      readCorrector_eq s.coder _ _ _ _ (sound_window hs hm) hms hctx (Nat.le_refl _) (sound_inpos hs)
    rw [withWindow_windowOf] at h
    rw [h]
    refine behaves_bind (taken_runs _ _) fun _ _ => behaves_ite
      (fun _ => behaves_bind (taken_runs _ _) fun _ _ => behaves_ok trivial) fun _ => behaves_ite
        (fun _ => behaves_bind (taken_runs _ _) fun _ _ => behaves_ite (fun _ => behaves_ok trivial) fun _ => ?_)
        fun _ => behaves_ok trivial
    exact behaves_bind (taken_runs _ _) fun _ _ => behaves_ite (fun _ => behaves_raise (by decide)) fun _ =>
      behaves_bind (taken_runs _ _) fun _ _ => behaves_ok trivial

/-! ## Every command -/

section
variable {p : Prop} {s : State} {i : Instr} (hc : CodingRuns p s)
include hc

theorem writeRaw_behaves (hm : s.mode ∈ modesOf i) {r : Coder → Res Coder}
    (hr : rawWriter s.cfg.outCapacity i = some r) :
    Behaves p (writeRaw s (r s.coder)) fun u => u.mode ≠ .faulted := by
  have he : s.mode = .encode := by simpa [(rawWriter_row hr).1] using hm
  exact behaves_bind (hc.write he hr) fun _ _ => behaves_ok (encode_open he)

theorem readRaw_behaves (hm : s.mode ∈ modesOf i) {r : Coder → Res (Nat × Coder)} (hr : rawReader i = some r) :
    Behaves p (readRaw s (r s.coder)) fun u => u.mode ≠ .faulted := by
  have hd : s.mode = .decode := by simpa [(rawReader_row hr).1] using hm
  exact behaves_bind (hc.read hd hr) fun _ _ => behaves_ok (open_of_mem_modesOf (i := i) hm)

/-- Every command but RD_STATUS is its pseudocode under the rules of `command`; in a mode of its row the pseudocode
does not raise WRONG_MODE, stops the model only if a coding procedure does, and answers no FAULTED state. -/
theorem exec_eq_command (hi : i ≠ .rdStatus) : ∃ body, exec i s = command i (modesOf i) s body ∧
    (s.mode ∈ modesOf i → Behaves p body fun u => u.mode ≠ .faulted) := by
  cases i with
  | rdStatus => exact absurd rfl hi
  | nop => exact ⟨_, rfl, fun hm => behaves_ok (open_of_mem_modesOf hm)⟩
  | initEnc | doneDec => exact ⟨_, rfl, fun _ => behaves_ok nofun⟩
  | initDec => exact ⟨_, rfl, fun _ => behaves_bind (primeDec_runs _) fun _ _ => behaves_ok nofun⟩
  | doneEnc =>
    exact ⟨_, rfl, fun hm => behaves_bind (hc.flush (List.mem_singleton.1 hm)) fun _ _ => behaves_ok nofun⟩
  | encBit hd bit =>
    exact ⟨_, rfl, fun hm => behaves_bind (getBit_runs s hd) fun m hg =>
      behaves_ite (fun _ => behaves_raise (by decide)) fun _ =>
        behaves_bind (hc.encBit _ (List.mem_singleton.1 hm) hg) fun _ _ => behaves_ok (open_of_mem_modesOf hm)⟩
  | encSym hd sym =>
    exact ⟨_, rfl, fun hm => behaves_bind (getReadySym_runs s hd) fun m hg =>
      behaves_ite (fun _ => behaves_raise (by decide)) fun hv =>
        behaves_bind (hc.encSym (List.mem_singleton.1 hm) hg (Nat.not_lt.1 hv)) fun _ _ =>
          behaves_ok (open_of_mem_modesOf hm)⟩
  | decBit hd =>
    exact ⟨_, rfl, fun hm => behaves_bind (getBit_runs s hd) fun m hg =>
      behaves_bind (hc.decBit (List.mem_singleton.1 hm) hg) fun _ _ => behaves_ok (open_of_mem_modesOf hm)⟩
  | decSym hd =>
    exact ⟨_, rfl, fun hm => behaves_bind (getReadySym_runs s hd) fun m hg =>
      behaves_bind (hc.decSym (List.mem_singleton.1 hm) hg) fun _ _ => behaves_ok (open_of_mem_modesOf hm)⟩
  | wrBits n v =>
    refine ⟨_, rfl, fun hm => behaves_ite (fun _ => behaves_raise (by decide)) fun hn =>
      behaves_ite (fun _ => behaves_raise (by decide)) fun hv => writeRaw_behaves hc hm (if_neg ?_)⟩
    omega
  | rdBits n =>
    exact ⟨_, rfl, fun hm => behaves_ite (fun _ => behaves_raise (by decide)) fun hn =>
      readRaw_behaves hc hm (if_neg hn)⟩
  | wrByte | wrShort | wrInt | wrInt64 | wrFloat | wrDouble =>
    exact ⟨_, rfl, fun hm => writeRaw_behaves hc hm rfl⟩
  | rdByte | rdShort | rdInt | rdInt64 | rdFloat | rdDouble =>
    exact ⟨_, rfl, fun hm => readRaw_behaves hc hm rfl⟩
  | mdlNewBit hd =>
    exact ⟨_, rfl, fun hm => behaves_bind (needEmptySlot_runs s hd) fun _ _ =>
      behaves_ok (open_of_mem_modesOf hm)⟩
  | mdlNewSym hd nsym =>
    exact ⟨_, rfl, fun hm => behaves_bind (needEmptySlot_runs s hd) fun _ _ =>
      behaves_ite (fun _ => behaves_raise (by decide)) fun _ => behaves_ok (open_of_mem_modesOf hm)⟩
  | mdlInitBit hd =>
    exact ⟨_, rfl, fun hm => behaves_bind (getBit_runs s hd) fun _ _ => behaves_ok (open_of_mem_modesOf hm)⟩
  | mdlInitSym hd =>
    exact ⟨_, rfl, fun hm => behaves_bind (getSym_runs s hd) fun _ _ => behaves_ok (open_of_mem_modesOf hm)⟩
  | mdlFree hd =>
    exact ⟨_, rfl, fun hm => behaves_bind (getSlot_runs s hd) fun _ _ => behaves_ok (open_of_mem_modesOf hm)⟩
  | icConfig hd bits contexts bitsHigh range =>
    exact ⟨_, rfl, fun hm => behaves_bind (needEmptyIc_runs s hd) fun _ _ =>
      behaves_ite (fun _ => behaves_ok (open_of_mem_modesOf hm)) fun _ => behaves_raise (by decide)⟩
  | icInit hd | icGetK hd | icFree hd =>
    exact ⟨_, rfl, fun hm => behaves_bind (getIc_runs s hd) fun _ _ => behaves_ok (open_of_mem_modesOf hm)⟩
  | icCompress hd pred real context =>
    exact ⟨_, rfl, fun hm => behaves_bind (getReadyIc_runs s hd context) fun r hg =>
      behaves_bind (hc.compress (ic := r.1) (ms := r.2) _ (List.mem_singleton.1 hm) hg) fun _ _ =>
        behaves_ok (open_of_mem_modesOf hm)⟩
  | icDecompress hd pred context =>
    exact ⟨_, rfl, fun hm => behaves_bind (getReadyIc_runs s hd context) fun r hg =>
      behaves_bind (hc.decompress (ic := r.1) (ms := r.2) (List.mem_singleton.1 hm) hg) fun _ _ =>
        behaves_ok (open_of_mem_modesOf hm)⟩

end

/-! ## Progress -/

/-- Pseudocode that does not stop the model ends in a next state. -/
theorem finish_answers {i : Instr} {s : State} {r : Res State} (h : Runs False r) :
    ∃ t, finish i s r = .next t :=
  match r, h with
  | .ok _, _ => ⟨_, rfl⟩
  | .error (.trap _), _ => ⟨_, rfl⟩
  | .error (.stuck reason), ⟨_, _, hstop⟩ => (hstop reason rfl).elim

/-- A command whose pseudocode does not stop the model answers a next state in every mode. -/
theorem command_answers {i : Instr} {s : State} {body : Res State} (hb : s.mode ∈ modesOf i → Runs False body) :
    ∃ t, command i (modesOf i) s body = .next t := by
  by_cases hf : s.mode = .faulted
  · exact ⟨s, command_ignored hf⟩
  by_cases hm : s.mode ∈ modesOf i
  · rw [command_allowed hf hm]
    exact finish_answers (hb hm)
  · exact ⟨_, command_wrong_mode hf hm⟩

section
variable {s : State} (hs : s.sound)
include hs

/-- In a sound state every command answers a next state. -/
theorem exec_answers (i : Instr) : ∃ t, exec i s = .next t := by
  by_cases hi : i = .rdStatus
  · subst hi
    by_cases hf : s.mode = .faulted
    · exact ⟨_, if_pos hf⟩
    · exact ⟨_, if_neg hf⟩
  · obtain ⟨body, he, hbody⟩ := exec_eq_command (codingRuns_of_sound hs) hi
    rw [he]
    refine command_answers fun hm => ?_
    obtain ⟨-, hends⟩ := hbody hm
    exact ⟨fun _ _ => trivial, hends⟩

theorem issue_answers (c : Command) : ∃ t, issue c s = .next t := by
  obtain ⟨i, -, he⟩ | ⟨e, -, he⟩ := issue_cases c s
  · rw [he]
    exact exec_answers hs i
  · exact ⟨_, he⟩

theorem runHostOp_answers (op : HostOp) : ∃ t, runHostOp op s = .next t := by
  cases op with
  | issue c =>
    obtain ⟨t, ht⟩ := issue_answers hs c
    exact ⟨_, runHostOp_issue ht⟩
  | loadInput | readOutput | reset => exact ⟨_, rfl⟩

end

/-- Settles O12: a step is a host operation on the state without it, which is as sound, or changes nothing. -/
theorem soundStateAlwaysSteps : Obligations.SoundStateAlwaysSteps := by
  intro s hs
  cases hp : s.pending with
  | nil => exact ⟨s, by rw [step, hp]⟩
  | cons op rest =>
    rw [step_of_pending hp]
    exact runHostOp_answers (s := { s with pending := rest }) hs op

/-! ## The mode table -/

/-- Outside its row's modes a command faults WRONG_MODE; RD_STATUS has every open mode in its row. -/
theorem exec_wrong_mode {i : Instr} {s : State} (hf : s.mode ≠ .faulted) (hm : s.mode ∉ modesOf i) :
    exec i s = faulted s .wrongMode i.opcode := by
  have hi : i ≠ .rdStatus := by
    rintro rfl
    exact hm (mem_openModes hf)
  obtain ⟨body, he, -⟩ := exec_eq_command (codingRuns_any s) hi
  exact he.trans (command_wrong_mode hf hm)

/-- In a mode of its row a command does not fault WRONG_MODE: its pseudocode does not raise it, and completes
outside FAULTED. -/
theorem fcode_ne_wrongMode {i : Instr} {s t : State} (hm : s.mode ∈ modesOf i) (h : exec i s = .next t)
    (ht : t.mode = .faulted) : t.fcode ≠ .wrongMode := by
  have hf := open_of_mem_modesOf hm
  have hi : i ≠ .rdStatus := by
    rintro rfl
    obtain rfl := Host.Outcome.next.inj ((if_neg hf).symm.trans h)
    exact hf ht
  obtain ⟨body, he, hbody⟩ := exec_eq_command (codingRuns_any s) hi
  obtain ⟨hopen, hcode, -⟩ := hbody hm
  obtain ⟨hf', -⟩ | ⟨-, hm', -⟩ | ⟨-, -, ⟨u, hu, rfl⟩ | ⟨code, hraise, rfl⟩⟩ := command_next (he.symm.trans h)
  · exact absurd hf' hf
  · exact absurd hm hm'
  · exact absurd ht (hopen u hu)
  · rintro rfl
    exact hcode hraise

/-- Settles O16: the mode check comes before the pseudocode, which has no mode check of its own. -/
theorem wrongModeExactlyOutsideTheTable : Obligations.WrongModeExactlyOutsideTheTable := fun _ _ hf =>
  ⟨exec_wrong_mode hf, fun hm _ => fcode_ne_wrongMode hm⟩

end Sys2Proof.Machine
end
